-- ==== Sys2Proof/Word.lean ====
section
/-! DEFINITION. The word types of the unit (`00_scope.md` R7, `20_memory.md` R81, `00_scope.md` R5). -/

namespace Sys2Proof

/-- A byte of host memory, of a table or of a pixel channel. -/
abbrev Byte := BitVec 8

/-- A 32-bit word: a command word, the control register, a host address. -/
abbrev Word := BitVec 32

/-- A byte address of host memory, `ADDR_BITS = 32` (`00_scope.md` R5, decision D55). -/
abbrev Addr := BitVec 32

/-- A quadword as the 128-bit value `le_128` of its sixteen bytes (`20_memory.md` R81): byte `k`, the one at the
`k`-th lowest address, is bits `8k+7 .. 8k`. -/
abbrev QWord := BitVec 128

end Sys2Proof
end

