-- ==== Sys2Proof/Syntax.lean ====
section
/-! DEFINITION. The instructions: one constructor for each row of `spec/opcode_table.json`, ten commands, two rows of
invalid opcodes and five rows of DMA tag codes (`30_encoding.md` R100 to R114). -/

namespace Sys2Proof

/-- The fields of a DMA tag (`30_encoding.md` R112) but its `CODE`, which selects the row. The unused bits are kept,
because the walker latches the whole quadword (`42_dma_tag_walker.md` R200): `unusedLo` is bits 27:16, `unusedBit`
bit 31, `unusedHi` bits 127:64. -/
structure TagFields where
  qwc : BitVec 16
  next : Addr
  unusedLo : BitVec 12
  unusedBit : BitVec 1
  unusedHi : BitVec 64
deriving DecidableEq, Repr, Inhabited

/-- One constructor per row of the opcode table. Unused option bits are operands of their own, because
`cmd.current` keeps the word as it was written (`30_encoding.md` R111). -/
inductive Instr where
  /-- BCLR (R101): `bp` is the stream-bit position to start from. -/
  | bclr (bp : BitVec 7) (unused : BitVec 21)
  /-- IDEC (R102): `unusedLo` is bits 15:6, `unusedHi` bits 23:21. -/
  | idec (fb : BitVec 6) (qsc : BitVec 5) (dtd sgn dte ofm : Bool) (unusedLo : BitVec 10) (unusedHi : BitVec 3)
  /-- BDEC (R103): `unusedLo` is bits 15:6, `unusedHi` bits 24:21. -/
  | bdec (fb : BitVec 6) (qsc : BitVec 5) (dt dcr mbi : Bool) (unusedLo : BitVec 10) (unusedHi : BitVec 4)
  /-- VDEC (R104). -/
  | vdec (fb : BitVec 6) (tbl : BitVec 2) (unused : BitVec 20)
  /-- FDEC (R105). -/
  | fdec (fb : BitVec 6) (unused : BitVec 22)
  /-- SETIQ (R106). -/
  | setiq (fb : BitVec 6) (iqm : Bool) (unused : BitVec 21)
  /-- SETVQ (R107). -/
  | setvq (unused : BitVec 28)
  /-- CSC (R108). -/
  | csc (mbc : BitVec 11) (dte ofm : Bool) (unused : BitVec 15)
  /-- PACK (R109). -/
  | pack (mbc : BitVec 11) (dte ofm : Bool) (unused : BitVec 15)
  /-- SETTH (R110): `unusedLo` is bits 15:9, `unusedHi` bits 27:25. -/
  | setth (th0 th1 : BitVec 9) (unusedLo : BitVec 7) (unusedHi : BitVec 3)
  /-- A command word of opcode 10 or 11 (R118). -/
  | invalid101 (opcode : BitVec 4) (option : BitVec 28)
  /-- A command word of opcode 12 to 15 (R118). -/
  | invalid11 (opcode : BitVec 4) (option : BitVec 28)
  /-- A tag of code FOLLOW, 0 (R112, R114). -/
  | tagFollow (t : TagFields)
  /-- A tag of code QWC, 1. -/
  | tagQwc (t : TagFields)
  /-- A tag of code ADDR, 2. -/
  | tagAddr (t : TagFields)
  /-- A tag of code NONE, 3: the last of its chain. -/
  | tagNone (t : TagFields)
  /-- A malformed tag: `code` is 4 to 7 (R114). -/
  | tagMalformed (code : BitVec 3) (t : TagFields)
deriving DecidableEq, Repr

end Sys2Proof
end

