-- ==== Sys2Proof/WellFormed.lean ====
section
/-! DEFINITION. Which instructions the encoding can express. The widths of the operands are in their types; the checks
left are the opcode of an invalid command row and the code of a malformed tag (`30_encoding.md` R118, R114). -/

namespace Sys2Proof

/-- The instruction stands for words of its row of the opcode table. -/
def Instr.wf : Instr → Bool
  | .invalid101 opcode _ => opcode == 10#4 || opcode == 11#4
  | .invalid11 opcode _ => decide (12 ≤ opcode.toNat)
  | .tagMalformed code _ => decide (4 ≤ code.toNat)
  | .bclr _ _ | .idec _ _ _ _ _ _ _ _ | .bdec _ _ _ _ _ _ _ | .vdec _ _ _ | .fdec _ _ | .setiq _ _ _ | .setvq _
  | .csc _ _ _ _ | .pack _ _ _ _ | .setth _ _ _ _ | .tagFollow _ | .tagQwc _ | .tagAddr _ | .tagNone _ => true

end Sys2Proof
end

