-- ==== Sys2Proof/Decode.lean ====
section
/-! DEFINITION. Decoding of command words and tags, and the encoder (`30_encoding.md` R100 to R114, R118, R119). -/

namespace Sys2Proof

/-- Where an instruction comes from: the command register (`30_encoding.md` R100) or a tag in host memory (R112). The
two code spaces overlap; the port tells them apart. -/
inductive Port where
  | command
  | tag
deriving DecidableEq, Repr

/-- Why `decode` rejects its bytes. -/
inductive DecodeReject where
  /-- Fewer than the four bytes of a command word. -/
  | shortCommand
  /-- Fewer than the sixteen bytes of a tag. -/
  | shortTag
deriving DecidableEq, Repr

/-- The little-endian value of a list of bytes, lowest address first (`20_memory.md` R81). -/
def leValue : List Byte → Nat
  | [] => 0
  | b :: bs => b.toNat + 256 * leValue bs

/-- The `n` low bytes of a value, lowest address first. -/
def leBytes : Nat → Nat → List Byte
  | 0, _ => []
  | n + 1, v => BitVec.ofNat 8 v :: leBytes n (v / 256)

/-- The instruction of a command word: the opcode is bits 31:28 (R100), each option field a bit range of the word used
as it stands (R101 to R111). Every word has one. -/
def decodeCommand (w : Word) : Instr :=
  let fb := w.extractLsb' 0 6
  let qsc := w.extractLsb' 16 5
  match (w.extractLsb' 28 4).toNat with
  | 0 => .bclr (w.extractLsb' 0 7) (w.extractLsb' 7 21)
  | 1 => .idec fb qsc (w.getLsbD 24) (w.getLsbD 25) (w.getLsbD 26) (w.getLsbD 27) (w.extractLsb' 6 10) (w.extractLsb' 21 3)
  | 2 => .bdec fb qsc (w.getLsbD 25) (w.getLsbD 26) (w.getLsbD 27) (w.extractLsb' 6 10) (w.extractLsb' 21 4)
  | 3 => .vdec fb (w.extractLsb' 26 2) (w.extractLsb' 6 20)
  | 4 => .fdec fb (w.extractLsb' 6 22)
  | 5 => .setiq fb (w.getLsbD 27) (w.extractLsb' 6 21)
  | 6 => .setvq (w.extractLsb' 0 28)
  | 7 => .csc (w.extractLsb' 0 11) (w.getLsbD 26) (w.getLsbD 27) (w.extractLsb' 11 15)
  | 8 => .pack (w.extractLsb' 0 11) (w.getLsbD 26) (w.getLsbD 27) (w.extractLsb' 11 15)
  | 9 => .setth (w.extractLsb' 0 9) (w.extractLsb' 16 9) (w.extractLsb' 9 7) (w.extractLsb' 25 3)
  | 10 | 11 => .invalid101 (w.extractLsb' 28 4) (w.extractLsb' 0 28)
  | _ => .invalid11 (w.extractLsb' 28 4) (w.extractLsb' 0 28)

/-- The fields of a tag quadword (R112). -/
def tagFieldsOf (t : QWord) : TagFields where
  qwc := t.extractLsb' 0 16
  next := t.extractLsb' 32 32
  unusedLo := t.extractLsb' 16 12
  unusedBit := t.extractLsb' 31 1
  unusedHi := t.extractLsb' 64 64

/-- The instruction of a tag quadword: `CODE` is bits 30:28 (R112, R114). Every quadword has one. -/
def decodeTag (t : QWord) : Instr :=
  match (t.extractLsb' 28 3).toNat with
  | 0 => .tagFollow (tagFieldsOf t)
  | 1 => .tagQwc (tagFieldsOf t)
  | 2 => .tagAddr (tagFieldsOf t)
  | 3 => .tagNone (tagFieldsOf t)
  | _ => .tagMalformed (t.extractLsb' 28 3) (tagFieldsOf t)

/-- Decode the bytes at a port, lowest address first, and give the bytes left over. -/
def decode (p : Port) (bs : List Byte) : Except DecodeReject (Instr × List Byte) :=
  match p with
  | .command =>
    if bs.length < 4 then .error .shortCommand
    else .ok (decodeCommand (BitVec.ofNat 32 (leValue (bs.take 4))), bs.drop 4)
  | .tag =>
    if bs.length < 16 then .error .shortTag
    else .ok (decodeTag (BitVec.ofNat 128 (leValue (bs.take 16))), bs.drop 16)

/-! ### The encoder -/

/-- A one-bit field. -/
def flagBit (b : Bool) : BitVec 1 := BitVec.ofBool b

/-- The tag quadword of a code and the other fields (R112). -/
def tagWordOf (code : BitVec 3) (t : TagFields) : QWord :=
  t.unusedHi ++ (t.next ++ (t.unusedBit ++ (code ++ (t.unusedLo ++ t.qwc))))

/-- The word of an instruction: its low 32 bits for a command (R101 to R110, R118), the whole quadword for a tag. -/
def Instr.bits : Instr → QWord
  | .bclr bp unused => (0#4 ++ (unused ++ bp) : Word).setWidth 128
  | .idec fb qsc dtd sgn dte ofm lo hi =>
    (1#4 ++ (flagBit ofm ++ (flagBit dte ++ (flagBit sgn ++ (flagBit dtd ++ (hi ++ (qsc ++ (lo ++ fb))))))) :
      Word).setWidth 128
  | .bdec fb qsc dt dcr mbi lo hi =>
    (2#4 ++ (flagBit mbi ++ (flagBit dcr ++ (flagBit dt ++ (hi ++ (qsc ++ (lo ++ fb)))))) : Word).setWidth 128
  | .vdec fb tbl unused => (3#4 ++ (tbl ++ (unused ++ fb)) : Word).setWidth 128
  | .fdec fb unused => (4#4 ++ (unused ++ fb) : Word).setWidth 128
  | .setiq fb iqm unused => (5#4 ++ (flagBit iqm ++ (unused ++ fb)) : Word).setWidth 128
  | .setvq unused => (6#4 ++ unused : Word).setWidth 128
  | .csc mbc dte ofm unused => (7#4 ++ (flagBit ofm ++ (flagBit dte ++ (unused ++ mbc))) : Word).setWidth 128
  | .pack mbc dte ofm unused => (8#4 ++ (flagBit ofm ++ (flagBit dte ++ (unused ++ mbc))) : Word).setWidth 128
  | .setth th0 th1 lo hi => (9#4 ++ (hi ++ (th1 ++ (lo ++ th0))) : Word).setWidth 128
  | .invalid101 opcode option => (opcode ++ option : Word).setWidth 128
  | .invalid11 opcode option => (opcode ++ option : Word).setWidth 128
  | .tagFollow t => tagWordOf 0#3 t
  | .tagQwc t => tagWordOf 1#3 t
  | .tagAddr t => tagWordOf 2#3 t
  | .tagNone t => tagWordOf 3#3 t
  | .tagMalformed code t => tagWordOf code t

/-- The port an instruction comes through. -/
def Instr.port : Instr → Port
  | .bclr _ _ | .idec _ _ _ _ _ _ _ _ | .bdec _ _ _ _ _ _ _ | .vdec _ _ _ | .fdec _ _ | .setiq _ _ _ | .setvq _
  | .csc _ _ _ _ | .pack _ _ _ _ | .setth _ _ _ _ | .invalid101 _ _ | .invalid11 _ _ => .command
  | .tagFollow _ | .tagQwc _ | .tagAddr _ | .tagNone _ | .tagMalformed _ _ => .tag

/-- How many bytes the instruction has at its port: a command word is 32 bits, a tag 128 (`30_encoding.md` part 6). -/
def Port.bytes : Port → Nat
  | .command => 4
  | .tag => 16

/-- The command word of a command (meaningful for instructions of the command port). -/
def Instr.word (i : Instr) : Word := i.bits.setWidth 32

/-- The bytes of an instruction, lowest address first. -/
def encode (i : Instr) : List Byte := leBytes i.port.bytes i.bits.toNat

/-- The instruction the decoder reads from the table's bits `w`. A row of at most 32 bits is a command word, a longer
one a tag: the table's two formats overlap bit for bit in their low 32 bits, and only the width tells them apart
(Log 8). -/
def decodeTableWord (nbits w : Nat) : Option Instr :=
  let p : Port := if nbits ≤ 32 then .command else .tag
  match decode p (leBytes p.bytes w) with
  | .ok (i, _) => some i
  | .error _ => none

end Sys2Proof
end

