-- ==== Sys2Proof/Config.lean ====
section
/-! DEFINITION. The configuration record of an instance (`00_scope.md` R5), the interface of the external decode library
(`43_command_dispatcher.md` R250 to R254), and the parameters the spec leaves OPEN as opaque constants. -/

namespace Sys2Proof

/-- The three interrupt sources (`60_exceptions.md` R360). -/
inductive IrqSrc where
  | toUnit
  | fromUnit
  | cmd
deriving DecidableEq, Repr, Inhabited

/-- When a completion is signalled (`60_exceptions.md` R361). -/
inductive IrqPolicy where
  | inline
  | deferred
deriving DecidableEq, Repr, Inhabited

/-- The three DMA-stall flags (`10_state.md` R52). -/
inductive StallFlag where
  | gifstall
  | vifstall
  | sifstall
deriving DecidableEq, Repr, Inhabited

/-- `IRQ_DELAY[src]`, in cycles (`00_scope.md` R5). -/
structure IrqDelays where
  toUnit : Nat
  fromUnit : Nat
  cmd : Nat
deriving DecidableEq, Repr, Inhabited

/-! ### The per-pixel functions of the converter -/

/-- One RGB32 pixel (`10_state.md` R57). -/
structure Machine.Pixel where
  r : Byte
  g : Byte
  b : Byte
  a : Byte
deriving DecidableEq, Repr

/-- The arguments of `yuv2rgb` (`44_color_space_converter.md` R292). -/
structure YuvQuery where
  y : Byte
  cb : Byte
  cr : Byte
deriving DecidableEq, Repr

/-- The arguments of `applyThreshold` (R295). -/
structure ThresholdQuery where
  r : Byte
  g : Byte
  b : Byte
  th0 : BitVec 9
  th1 : BitVec 9
deriving DecidableEq, Repr

/-- The arguments of `narrow16` (R296): the pixel, its column `x` and its row `y`, and `DTE`. -/
structure NarrowQuery where
  p : Machine.Pixel
  x : Nat
  y : Nat
  dte : Bool
deriving DecidableEq, Repr

/-- The arguments of `index4` (R300), the colour table `vqclut` among them. -/
structure IndexQuery where
  clut : Vector (BitVec 16) 16
  p : Machine.Pixel
  x : Nat
  y : Nat
  dte : Bool
deriving DecidableEq, Repr

/-- The parameter `PixelMath` with `DITHER`: the per-pixel functions of the converter (`00_scope.md` R4, R5). The four
tables hold what the functions of this instance answer, argument by argument; where a table lists no answer, the function
is the spec's default (`44_color_space_converter.md` R292, R295, R296, R300) over the nine entries of R291. The entries
are integers, because the pixel arithmetic is on unbounded integers (`46_operation_classes_and_laws.md` R271); `dither`
is indexed `[y mod 4][x mod 4]`. DESIGN CHOICE, safe (Log 15): functions held as tables, so that State is plain data. -/
structure PixelMath where
  yBias : Int
  yCoeff : Int
  rcrCoeff : Int
  gcrCoeff : Int
  gcbCoeff : Int
  bcbCoeff : Int
  alphaOpaque : Byte
  alphaHalf : Byte
  dither : Vector (Vector Int 4) 4
  yuvTable : List (YuvQuery × (Byte × Byte × Byte))
  thresholdTable : List (ThresholdQuery × Machine.Pixel)
  narrowTable : List (NarrowQuery × BitVec 16)
  indexTable : List (IndexQuery × BitVec 4)
deriving DecidableEq, Repr

/-! ### The decode library -/

/-- The part of a session's parameters that depends on the command (`43_command_dispatcher.md` R251). -/
inductive LibCommand where
  | idec (qsc : BitVec 5) (dtd sgn : Bool)
  | bdec (qsc : BitVec 5) (dt dcr mbi : Bool)
  | vdec (tbl : BitVec 2)
deriving DecidableEq, Repr

/-- The parameter record given to the library when a session opens (R251). -/
structure LibParams where
  command : LibCommand
  pct : BitVec 3
  idp : BitVec 2
  asFlag : Bool
  ivf : Bool
  qst : Bool
  mp1 : Bool
  iqIntra : Vector Byte 64
  iqNonIntra : Vector Byte 64
  vqclut : Vector (BitVec 16) 16
  th0 : BitVec 9
  th1 : BitVec 9
deriving DecidableEq, Repr

/-- The result of a session (R252). -/
structure LibResult where
  cbp : Option (BitVec 6)
  scd : Bool
  ecd : Bool
  data : Word
deriving DecidableEq, Repr, Inhabited

/-- A request of the library (R252). Counts are natural numbers, so that a request outside its range can be written. -/
inductive LibRequest where
  | align
  | skip (n : Nat)
  | read (n : Nat)
  | peek (n : Nat)
  | refill (hint bytes : Nat)
  | emitMB (raw : Vector Byte 384)
  | emitCoef (c : Vector (BitVec 16) 384)
  | done (res : LibResult)
deriving DecidableEq, Repr, Inhabited

/-- The core's answer to a request (R252). -/
inductive LibReply where
  | unit
  | bits (v : Word)
  | bytes (n : Nat)
deriving DecidableEq, Repr

/-- All that the library's next request can depend on: it is a deterministic function of its arguments and sees the
bitstream through replies only (R254), so its state after `init` and some `next` steps is a function of the parameters
and of the replies it has had, here newest first (Log 4). -/
structure LibQuery where
  replies : List LibReply
  params : LibParams
deriving DecidableEq, Repr

/-- Answers of the decode library written out as data, for the queries it lists (Log 4). -/
abbrev LibTable := List (LibQuery × LibRequest)

/-- The configuration of an instance, fixed at its construction (`00_scope.md` R5). The capacities are 1 to 15, held in
the four bits a FIFO counter has (decision D3). `regBase` is `REG_BASE`, the host address of the register image. -/
structure UnitConfig where
  fifoInCap : BitVec 4
  fifoOutCap : BitVec 4
  regBase : Addr
  irqPolicy : IrqPolicy
  irqDelay : IrqDelays
  stallFlagIn : StallFlag
  stallFlagOut : StallFlag
  pixel : PixelMath
  libTable : LibTable
deriving DecidableEq, Repr

/-! ### OPEN parameters (`92_eei_decisions.md` part 8): no body, so no proof can see a value (Log 3, Log 4) -/

/-- `IRQ_POLICY`, OPEN. -/
opaque Config.irqPolicy : IrqPolicy

/-- `IRQ_DELAY`, OPEN. -/
opaque Config.irqDelay : IrqDelays

/-- `STALL_FLAG_IN`, OPEN. -/
opaque Config.stallFlagIn : StallFlag

/-- `STALL_FLAG_OUT`, OPEN. -/
opaque Config.stallFlagOut : StallFlag

/-- `REG_BASE`, OPEN. -/
opaque Config.regBase : Addr

/-- `DecodeLib`, OPEN: the next request of the library for a query the instance's table does not list (R250). -/
opaque Config.decodeLib : LibQuery → LibRequest

/-! ### Fixed sizes (`00_scope.md` R5) -/

/-- `BUF_QW`: quadword slots of the cursor (D4). -/
def Config.bufQw : Nat := 2

/-- `BUF_CAP`: the cursor's capacity in bytes (D4). -/
def Config.bufCap : Nat := 32

/-- How many library requests one machine step serves before the call goes on in the next machine step (Log 5). -/
def Config.serveChunk : Nat := 1024

end Sys2Proof
end

