-- ==== Sys2Proof/Machine/Defaults.lean ====
section
/-! DEFINITION. The constants and the default configuration of `00_scope.md` R5, `44_color_space_converter.md` R291 and
R297. -/

namespace Sys2Proof.Machine

/-- `CTRL_WMASK`, the host-writable bits of `ctrl` (`10_state.md` R21, `45_host_register_interface.md` R326). -/
def ctrlWmask : Word := 0x47F30000#32

/-- `CURRENT_NONE`, the sentinel of `cmd.current` (`10_state.md` R34). -/
def currentNone : Word := 0xFFFFFFFF#32

/-- The default dither matrix (`44_color_space_converter.md` R297). -/
def ditherDefault : Vector (Vector Int 4) 4 :=
  #v[#v[-4, 0, -3, 1], #v[2, -2, 3, -1], #v[-3, 1, -4, 0], #v[3, -1, 2, -2]]

/-- The default `PixelMath` (`44_color_space_converter.md` R291): no answer but those of the default functions. -/
def pixelDefault : PixelMath where
  yBias := 16
  yCoeff := 0x95
  rcrCoeff := 0xCC
  gcrCoeff := -0x68
  gcbCoeff := -0x32
  bcbCoeff := 0x102
  alphaOpaque := 0x80#8
  alphaHalf := 0x40#8
  dither := ditherDefault
  yuvTable := []
  thresholdTable := []
  narrowTable := []
  indexTable := []

/-- The configuration of an instance nothing more is said of: the spec's defaults where it gives them, the opaque
constants where it leaves the parameter OPEN (`00_scope.md` R5, Log 3). -/
def configDefault : UnitConfig where
  fifoInCap := 8#4
  fifoOutCap := 8#4
  regBase := Config.regBase
  irqPolicy := Config.irqPolicy
  irqDelay := Config.irqDelay
  stallFlagIn := Config.stallFlagIn
  stallFlagOut := Config.stallFlagOut
  pixel := pixelDefault
  libTable := []

end Sys2Proof.Machine
end

