-- ==== Sys2Proof/Machine/Flags.lean ====
section
/-! DEFINITION. The fields of the control register `ctrl` (`10_state.md` R21 to R33) and of the register images
(`30_encoding.md` R115 to R117). -/

namespace Sys2Proof.Machine

/-- The `w` bits of a word from bit `lo` up. -/
def getField (lo w : Nat) (c : Word) : BitVec w := c.extractLsb' lo w

/-- The word with the `w` bits from `lo` up replaced by `v`, every other bit kept. -/
def putField (lo : Nat) {w : Nat} (v : BitVec w) (c : Word) : Word :=
  (c &&& ~~~((BitVec.allOnes w).setWidth 32 <<< lo)) ||| (v.setWidth 32 <<< lo)

/-- `ctrl.IFC` (`10_state.md` R22). -/
def ctrlIFC (c : Word) : BitVec 4 := getField 0 4 c
/-- `ctrl.OFC` (R23). -/
def ctrlOFC (c : Word) : BitVec 4 := getField 4 4 c
/-- `ctrl.CBP` (R24). -/
def ctrlCBP (c : Word) : BitVec 6 := getField 8 6 c
/-- `ctrl.ECD` (R25). -/
def ctrlECD (c : Word) : Bool := c.getLsbD 14
/-- `ctrl.SCD` (R26). -/
def ctrlSCD (c : Word) : Bool := c.getLsbD 15
/-- `ctrl.IDP` (R27). -/
def ctrlIDP (c : Word) : BitVec 2 := getField 16 2 c
/-- `ctrl.AS` (R29). -/
def ctrlAS (c : Word) : Bool := c.getLsbD 20
/-- `ctrl.IVF` (R29). -/
def ctrlIVF (c : Word) : Bool := c.getLsbD 21
/-- `ctrl.QST` (R29). -/
def ctrlQST (c : Word) : Bool := c.getLsbD 22
/-- `ctrl.MP1` (R29). -/
def ctrlMP1 (c : Word) : Bool := c.getLsbD 23
/-- `ctrl.PCT` (R30). -/
def ctrlPCT (c : Word) : BitVec 3 := getField 24 3 c
/-- `ctrl.RST` (R32). -/
def ctrlRST (c : Word) : Bool := c.getLsbD 30
/-- `ctrl.BUSY` (R33). -/
def ctrlBUSY (c : Word) : Bool := c.getLsbD 31

/-- Write `ctrl.IFC`. -/
def putIFC (v : BitVec 4) (c : Word) : Word := putField 0 v c
/-- Write `ctrl.OFC`. -/
def putOFC (v : BitVec 4) (c : Word) : Word := putField 4 v c
/-- Write `ctrl.CBP`. -/
def putCBP (v : BitVec 6) (c : Word) : Word := putField 8 v c
/-- Write `ctrl.ECD`. -/
def putECD (b : Bool) (c : Word) : Word := putField 14 (BitVec.ofBool b) c
/-- Write `ctrl.SCD`. -/
def putSCD (b : Bool) (c : Word) : Word := putField 15 (BitVec.ofBool b) c
/-- Write `ctrl.BUSY`. -/
def putBUSY (b : Bool) (c : Word) : Word := putField 31 (BitVec.ofBool b) c

/-- The masked update of a control-register write (`45_host_register_interface.md` R326). -/
def maskedCtrl (c v : Word) : Word := (c &&& ~~~ctrlWmask) ||| (v &&& ctrlWmask)

/-- The 64-bit image of `CMD` and of `TOP`: a data word and a flag in bit 63 (`30_encoding.md` R117). -/
def image64 (flag : Bool) (data : Word) : BitVec 64 := (BitVec.ofBool flag).setWidth 64 <<< 63 ||| data.setWidth 64

end Sys2Proof.Machine
end

