-- ==== Sys2Proof/Machine/State.lean ====
section
/-! DEFINITION. The state of the machine (`10_state.md`), its faults and refusals, and the state after reset. -/

namespace Sys2Proof.Machine

/-- `CommandState` (`10_state.md` R34 to R37). `opcode` and `option` are views of `current` (R35). -/
structure Command where
  current : Word
  busy : Bool
  pos0 : Word
  pos1 : Word
  index : Word
deriving DecidableEq, Repr

/-- `BitstreamPointer`, the cursor (`10_state.md` R41 to R44). Of the two slots the first `fp` hold valid data. -/
structure Cursor where
  slot : Vector QWord 2
  fp : Fin 3
  byteOfs : BitVec 4
  bitOfs : BitVec 3
  ifcSnap : BitVec 4
  hasNew : Bool
deriving DecidableEq, Repr

/-- Transfer modes (`30_encoding.md` R113). -/
inductive DmaMode where
  | normal
  | chain
deriving DecidableEq, Repr

/-- Follow stages of the walker (`30_encoding.md` R114, `42_dma_tag_walker.md` R198). -/
inductive Stage where
  | follow
  | qwc
  | addr
  | none
deriving DecidableEq, Repr

/-- The two DMA directions (`00_scope.md` R12). -/
inductive Dir where
  | toUnit
  | fromUnit
deriving DecidableEq, Repr

/-- `DmaTransferStatus` with its working registers (`10_state.md` R46, R47). -/
structure Transfer where
  inProgress : Bool
  mode : DmaMode
  dmaFinished : Bool
  irqTriggered : Bool
  tagFollow : Stage
  nextMem : Addr
  stalled : Bool
  memAddr : Addr
  remaining : BitVec 28
  tagWord : QWord
deriving DecidableEq, Repr

/-- The DMA-stall flags (`10_state.md` R52). -/
structure StallFlags where
  gif : Bool
  vif : Bool
  sif : Bool
deriving DecidableEq, Repr

/-- `MacroblockBuffer` (`10_state.md` R56, R57). `raw` is in the flat order of `43_command_dispatcher.md` R247: entry
`16y+x` is `Y[y][x]`, `256+8y+x` is `Cb[y][x]`, `320+8y+x` is `Cr[y][x]`; `rgb32` entry `16y+x` is `px[y][x]`. -/
structure MacroblockBuffer where
  raw : Vector Byte 384
  rgb32 : Vector Pixel 256
deriving DecidableEq, Repr

/-- Pending deferred interrupts (`10_state.md` R59). -/
structure Pend where
  toUnit : Option Nat
  fromUnit : Option Nat
  cmd : Option Nat
deriving DecidableEq, Repr

/-- An open session of the decode library (`43_command_dispatcher.md` R250): its parameters as sampled (R251), the
replies it has had, newest first, and its one outstanding request. -/
structure LibSession where
  params : LibParams
  replies : List LibReply
  req : LibRequest
deriving DecidableEq, Repr

/-- The unit (`10_state.md` R20). -/
structure UnitState where
  ctrl : Word
  cmd : Command
  cmdData : Word
  cur : Cursor
  dmaTo : Transfer
  dmaFrom : Transfer
  fifoIn : List QWord
  fifoOut : List QWord
  stall : StallFlags
  iqIntra : Vector Byte 64
  iqNonIntra : Vector Byte 64
  vqclut : Vector (BitVec 16) 16
  th0 : BitVec 9
  th1 : BitVec 9
  mb : MacroblockBuffer
  pend : Pend
  lib : Option LibSession
deriving DecidableEq, Repr

/-- Why a command write was rejected (`43_command_dispatcher.md` R231, R233). -/
inductive RejectReason where
  | invalidOpcode
  | busy
deriving DecidableEq, Repr

/-- The result of the last call (`30_encoding.md` R120, R121); `none` for a call that has none. -/
inductive CallResult where
  | none
  | word32 (v : Word)
  | word64 (v : BitVec 64)
  | accepted
  | rejected (r : RejectReason)
  | status (n : Nat)
  | bool (b : Bool)
  | image (u : UnitState)
deriving DecidableEq, Repr

/-- The entry points (`30_encoding.md` R120) and a host store to memory between calls (`20_memory.md` R92). -/
inductive Call where
  | hardReset
  | softReset
  | regRead32 (off : Nat)
  | regRead64 (off : Nat)
  | regWrite32 (off : Nat) (v : Word)
  | regWrite64 (off : Nat) (v : BitVec 64)
  | cmdWrite (w : Word)
  | dispatchStep
  | dmaKickTo (mode : DmaMode) (addr : Addr) (byteCount : Word)
  | dmaKickFrom (addr : Addr) (byteCount : Word)
  | dmaAbort (dir : Dir)
  | tick (n : Nat)
  | canPersist
  | save
  /-- `restore` of an image saved under configuration `cfg`. -/
  | restore (cfg : UnitConfig) (image : UnitState)
  /-- The environment stores bytes to host memory, lowest address first. -/
  | hostStore (addr : Addr) (bytes : List Byte)
  /-- The rest of the call under way: never made by the environment (Log 5). -/
  | continueStep
deriving DecidableEq, Repr

/-- One `MemWrite` of the unit: a quadword and the address of its first byte (`00_scope.md` R9, `20_memory.md` R87). -/
structure MemWrite where
  addr : Addr
  data : QWord
deriving DecidableEq, Repr

/-- The state: one instance of the unit, its configuration, the interrupt trace (`10_state.md` R60), host memory and the
history of the unit's `MemWrite`s, oldest first (`20_memory.md` R92), and the model's own fields: the calls still to be made
and the result of the last one (Log 1). -/
structure State where
  unit : UnitState
  cfg : UnitConfig
  irqTrace : List IrqSrc
  mem : List Host.Cell
  memWrites : List MemWrite
  result : CallResult
  calls : List Call
deriving DecidableEq, Repr

/-- The faults of the model. -/
inductive Fault where
  /-- `Fatal(RefillOverCapacity)` (`60_exceptions.md` R356): the library asked `refill` for more than `BUF_CAP` bytes.
  Raised by `serveCursor`. Safe: the spec ends the run there. -/
  | refillOverCapacity
deriving DecidableEq, Repr

/-- The refusals of the model. Every one but the first is a contract violation the spec itself refuses (`60_exceptions.md` R357). -/
inductive Refusal where
  /-- An instruction without a meaning. Raised by `exec`. Safe. -/
  | notModelled (mnemonic : String)
  /-- A bit width outside 1..32 or a skip above 63 (`40_bitstream_cursor.md` R151; `93_implementation_defined.md` U3).
  Raised by `serveCursor`. Safe. -/
  | badWidth
  /-- An emit request under the wrong command (`43_command_dispatcher.md` R252; U4). Raised by the session loops. Safe. -/
  | libraryContract
  /-- A NORMAL byte count that is not a multiple of 16 (`42_dma_tag_walker.md` R191, R210; U5). Raised by the kicks. Safe. -/
  | byteCountNotQuadwords
  /-- `save` while `canPersist` is false (`45_host_register_interface.md` R341; U6). Raised by `callSave`. Safe. -/
  | saveNotPersistable
  /-- `restore` of an image saved under another configuration (R342; U12). Raised by `callRestore`. Safe. -/
  | restoreOtherConfiguration
deriving DecidableEq, Repr

/-! ### Reset (`10_state.md` R62, `70_reset_and_hazards.md` R390) -/

/-- `CommandState` cleared (`10_state.md` R38). -/
def Command.idle : Command where
  current := currentNone
  busy := false
  pos0 := 0
  pos1 := 0
  index := 0

/-- The cursor at reset (`10_state.md` R41 to R44). -/
def Cursor.reset : Cursor where
  slot := Vector.replicate 2 0
  fp := 0
  byteOfs := 0
  bitOfs := 0
  ifcSnap := 0
  hasNew := false

/-- A transfer record at reset (`10_state.md` R46, R47). -/
def Transfer.reset : Transfer where
  inProgress := false
  mode := .normal
  dmaFinished := false
  irqTriggered := false
  tagFollow := .none
  nextMem := 0
  stalled := false
  memAddr := 0
  remaining := 0
  tagWord := 0

/-- The unit after hard reset. -/
def UnitState.reset : UnitState where
  ctrl := 0
  cmd := Command.idle
  cmdData := 0
  cur := Cursor.reset
  dmaTo := Transfer.reset
  dmaFrom := Transfer.reset
  fifoIn := []
  fifoOut := []
  stall := ⟨false, false, false⟩
  iqIntra := Vector.replicate 64 0
  iqNonIntra := Vector.replicate 64 0
  vqclut := Vector.replicate 16 0
  th0 := 0
  th1 := 0
  mb := ⟨Vector.replicate 384 0, Vector.replicate 256 ⟨0, 0, 0, 0⟩⟩
  pend := ⟨none, none, none⟩
  lib := none

/-- A newly constructed instance (constructing one is a hard reset, R390): no interrupt has been emitted,
nothing written to host memory, host memory lists nothing, no call is waiting (Log 1, Log 2, Log 13). -/
def State.reset : State where
  unit := UnitState.reset
  cfg := configDefault
  irqTrace := []
  mem := []
  memWrites := []
  result := .none
  calls := []

end Sys2Proof.Machine
end

