-- ==== Sys2Proof/Machine/Ops.lean ====
section
/-! DEFINITION. The named operations on the state: field updates, host memory, interrupts, the shared protocol error,
and the FifoGate. The unit has no exception entry and no return (`60_exceptions.md` R355); what stands in their place is
`protocolError` (R353) and `raise` (R361). -/

namespace Sys2Proof.Machine

/-! ### Functions that an instance supplies -/

/-- What a function supplied by the instance answers to `q` (`00_scope.md` R5): the first answer its table lists, else
`default` (Log 4, Log 15). -/
def tableAnswer {α β : Type} [DecidableEq α] (table : List (α × β)) (q : α) (default : β) : β :=
  match table.find? (fun e => decide (e.1 = q)) with
  | some e => e.2
  | none => default

/-! ### Field updates -/

/-- Write `ctrl`. -/
def State.setCtrl (s : State) (v : Word) : State := { s with unit.ctrl := v }
/-- Write `cmd`. -/
def State.setCmd (s : State) (v : Command) : State := { s with unit.cmd := v }
/-- Write `cmdData`. -/
def State.setCmdData (s : State) (v : Word) : State := { s with unit.cmdData := v }
/-- Write `cur`. -/
def State.setCur (s : State) (v : Cursor) : State := { s with unit.cur := v }
/-- Write `dmaTo`. -/
def State.setDmaTo (s : State) (v : Transfer) : State := { s with unit.dmaTo := v }
/-- Write `dmaFrom`. -/
def State.setDmaFrom (s : State) (v : Transfer) : State := { s with unit.dmaFrom := v }
/-- Write the queue of the input FIFO. -/
def State.setFifoIn (s : State) (v : List QWord) : State := { s with unit.fifoIn := v }
/-- Write the queue of the output FIFO. -/
def State.setFifoOut (s : State) (v : List QWord) : State := { s with unit.fifoOut := v }
/-- Write the stall flags. -/
def State.setStall (s : State) (v : StallFlags) : State := { s with unit.stall := v }
/-- Write `iqIntra`. -/
def State.setIqIntra (s : State) (v : Vector Byte 64) : State := { s with unit.iqIntra := v }
/-- Write `iqNonIntra`. -/
def State.setIqNonIntra (s : State) (v : Vector Byte 64) : State := { s with unit.iqNonIntra := v }
/-- Write `vqclut`. -/
def State.setVqclut (s : State) (v : Vector (BitVec 16) 16) : State := { s with unit.vqclut := v }
/-- Write `th0` and `th1`. -/
def State.setTh (s : State) (v0 v1 : BitVec 9) : State := { s with unit.th0 := v0, unit.th1 := v1 }
/-- Write `mb`. -/
def State.setMb (s : State) (v : MacroblockBuffer) : State := { s with unit.mb := v }
/-- Write `pend`. -/
def State.setPend (s : State) (v : Pend) : State := { s with unit.pend := v }
/-- Write `lib`. -/
def State.setLib (s : State) (v : Option LibSession) : State := { s with unit.lib := v }
/-- Write the interrupt trace. -/
def State.setTrace (s : State) (v : List IrqSrc) : State := { s with irqTrace := v }
/-- Write host memory. -/
def State.setMem (s : State) (v : List Host.Cell) : State := { s with mem := v }
/-- Write the history of memory writes. -/
def State.setMemWrites (s : State) (v : List MemWrite) : State := { s with memWrites := v }
/-- Write the result of the call. -/
def State.setResult (s : State) (v : CallResult) : State := { s with result := v }
/-- Write the queue of calls. -/
def State.setCalls (s : State) (v : List Call) : State := { s with calls := v }

/-- `ctrl.IFC` of the state. -/
def State.ifc (s : State) : BitVec 4 := ctrlIFC s.unit.ctrl
/-- `ctrl.OFC` of the state. -/
def State.ofc (s : State) : BitVec 4 := ctrlOFC s.unit.ctrl

/-! ### Host memory (`20_memory.md` R72, R81, R87, R92; `00_scope.md` R9) -/

/-- What an address that memory does not list reads as (DESIGN CHOICE, unsafe for a run from reset, Log 2). -/
def memUnlisted : Byte := 0

/-- The canonical form of memory: addresses strictly rising and inside the address space, no entry equal to what an
unlisted address reads as. -/
abbrev Memory.wf (m : List Host.Cell) : Prop :=
  m.Pairwise (fun x y => x.1 < y.1) ∧ ∀ c ∈ m, c.1 < 2 ^ 32 ∧ c.2 ≠ memUnlisted

/-- The byte at an address. -/
def Memory.read : List Host.Cell → Nat → Byte
  | [], _ => memUnlisted
  | (k, v) :: m, a => if k = a then v else Memory.read m a

/-- Memory with a cell before it, left out where the byte is what an unlisted address reads as. -/
def Memory.cons (a : Nat) (b : Byte) (m : List Host.Cell) : List Host.Cell :=
  if b = memUnlisted then m else (a, b) :: m

/-- Memory with the byte at `a` replaced. -/
def Memory.write (a : Nat) (b : Byte) : List Host.Cell → List Host.Cell
  | [] => Memory.cons a b []
  | (k, v) :: m =>
    if a < k then Memory.cons a b ((k, v) :: m)
    else if a = k then Memory.cons a b m
    else (k, v) :: Memory.write a b m

/-- Byte `k` of a quadword (`20_memory.md` R81). -/
def qwByte (q : QWord) (k : Nat) : Byte := q.extractLsb' (8 * k) 8

/-- The quadword of sixteen bytes, byte 0 at the lowest address (R81). -/
def qwOfBytes (f : Nat → Byte) : QWord := BitVec.ofNat 128 (leValue ((List.range 16).map f))

/-- `MemRead(addr, 16)` as a quadword; addresses wrap (`00_scope.md` R9). -/
def Memory.readQW (m : List Host.Cell) (addr : Addr) : QWord :=
  qwOfBytes fun k => Memory.read m (addr + BitVec.ofNat 32 k).toNat

/-- Store bytes at rising addresses, which wrap. -/
def Memory.writeBytes : Addr → List Byte → List Host.Cell → List Host.Cell
  | _, [], m => m
  | addr, b :: bs, m => Memory.writeBytes (addr + 1) bs (Memory.write addr.toNat b m)

/-- Memory with the sixteen bytes of `q` stored from `addr` on. -/
def Memory.writeQW (addr : Addr) (q : QWord) (m : List Host.Cell) : List Host.Cell :=
  Memory.writeBytes addr ((List.range 16).map (qwByte q)) m

/-- `MemWrite(addr, 16, q)` of the unit: the bytes are stored and the write is recorded in the history (R92). -/
def memWrite (addr : Addr) (q : QWord) (s : State) : State :=
  (s.setMem (Memory.writeQW addr q s.mem)).setMemWrites (s.memWrites ++ [⟨addr, q⟩])

/-- `align16` (`20_memory.md` R85): the low four bits cleared. -/
def align16 (a : Addr) : Addr := a &&& ~~~15#32

/-! ### Interrupts (`60_exceptions.md` R360 to R363) -/

/-- `pend[src]`. -/
def pendOf (p : Pend) : IrqSrc → Option Nat
  | .toUnit => p.toUnit
  | .fromUnit => p.fromUnit
  | .cmd => p.cmd

/-- `pend[src] <- v`. -/
def putPend (p : Pend) (src : IrqSrc) (v : Option Nat) : Pend :=
  match src with
  | .toUnit => { p with toUnit := v }
  | .fromUnit => { p with fromUnit := v }
  | .cmd => { p with cmd := v }

/-- `IRQ_DELAY[src]`. -/
def delayOf (d : IrqDelays) : IrqSrc → Nat
  | .toUnit => d.toUnit
  | .fromUnit => d.fromUnit
  | .cmd => d.cmd

/-- `emit irq(src)` (R362). -/
def emit (src : IrqSrc) (s : State) : State := s.setTrace (s.irqTrace ++ [src])

/-- `raise(src)` (R361): emit at once, or arm the source's slot unless it is armed. -/
def raise (src : IrqSrc) (s : State) : State :=
  match s.cfg.irqPolicy with
  | .inline => emit src s
  | .deferred =>
    match pendOf s.unit.pend src with
    | none => s.setPend (putPend s.unit.pend src (some (delayOf s.cfg.irqDelay src)))
    | some _ => s

/-- Insert an expiring slot before the first one that expires later. -/
def insertDue (x : IrqSrc × Nat) : List (IrqSrc × Nat) → List (IrqSrc × Nat)
  | [] => [x]
  | y :: ys => if x.2 ≤ y.2 then x :: y :: ys else y :: insertDue x ys

/-- The slots that expire within `n` cycles, by expiry time, ties in the order TO, FROM, CMD (R363). -/
def dueList (p : Pend) (n : Nat) : List (IrqSrc × Nat) :=
  ([IrqSrc.toUnit, .fromUnit, .cmd].filterMap fun src =>
    match pendOf p src with
    | some c => if c ≤ n then some (src, c) else none
    | none => none).foldr insertDue []

/-- A slot after `n` cycles. -/
def pendAfter (n : Nat) : Option Nat → Option Nat
  | some c => if c ≤ n then none else some (c - n)
  | none => none

/-- `tick(n)` (R363). -/
def tickBy (n : Nat) (s : State) : State :=
  let p := s.unit.pend
  (s.setTrace (s.irqTrace ++ (dueList p n).map Prod.fst)).setPend
    ⟨pendAfter n p.toUnit, pendAfter n p.fromUnit, pendAfter n p.cmd⟩

/-! ### Protocol errors (`60_exceptions.md` R353) -/

/-- The effect every protocol error has in common: `ctrl.ECD <- 1` and nothing else. -/
def protocolError (s : State) : State := s.setCtrl (putECD true s.unit.ctrl)

/-! ### FifoGate (`41_fifo_gate.md`) -/

/-- `stall[flag] <- b`. -/
def putStall (flag : StallFlag) (b : Bool) (f : StallFlags) : StallFlags :=
  match flag with
  | .gifstall => { f with gif := b }
  | .vifstall => { f with vif := b }
  | .sifstall => { f with sif := b }

/-- `inPush(q)` (R171, R172): the state after, and whether the quadword was taken. -/
def inPush (q : QWord) (s : State) : State × Bool :=
  if s.ifc < s.cfg.fifoInCap then
    (((s.setFifoIn (s.unit.fifoIn ++ [q])).setCtrl (putIFC (s.ifc + 1) s.unit.ctrl)).setStall
      (putStall s.cfg.stallFlagIn false s.unit.stall), true)
  else (s.setStall (putStall s.cfg.stallFlagIn true s.unit.stall), false)

/-- `inTake()` (R173): defined only when `ctrl.IFC > 0`. -/
def inTake (s : State) : Option (QWord × State) :=
  if s.ifc = 0 then none
  else
    match s.unit.fifoIn with
    | [] => none
    | q :: qs => some (q, (s.setFifoIn qs).setCtrl (putIFC (s.ifc - 1) s.unit.ctrl))

/-- `outPut(q)` (R174): `none` is `Full`. -/
def outPut (q : QWord) (s : State) : Option State :=
  if s.ofc < s.cfg.fifoOutCap then
    some ((s.setFifoOut (s.unit.fifoOut ++ [q])).setCtrl (putOFC (s.ofc + 1) s.unit.ctrl))
  else none

/-- `outPop()` (R175, R176): the state after, and the quadword where there was one. -/
def outPop (s : State) : State × Option QWord :=
  let stalled := s.setStall (putStall s.cfg.stallFlagOut true s.unit.stall)
  if s.ofc = 0 then (stalled, none)
  else
    match s.unit.fifoOut with
    | [] => (stalled, none)
    | q :: qs =>
      (((s.setFifoOut qs).setCtrl (putOFC (s.ofc - 1) s.unit.ctrl)).setStall
        (putStall s.cfg.stallFlagOut false s.unit.stall), some q)

/-- `fifoClear()` (R177). -/
def fifoClear (s : State) : State :=
  (((s.setFifoIn []).setFifoOut []).setCtrl (putIFC 0 (putOFC 0 s.unit.ctrl))).setStall ⟨false, false, false⟩

end Sys2Proof.Machine
end

