-- ==== Sys2Proof/Machine/Operands.lean ====
section
/-! DEFINITION. Where a command's operands come from: the BitstreamCursor (`40_bitstream_cursor.md`). Its state is
`unit.cur`, its backing store the input FIFO. -/

namespace Sys2Proof.Machine

/-- The outcome of a cursor operation: a value, a short read (R150), or a call outside the contract (R151). -/
inductive Take (α : Type) where
  | ok (a : α) (s : State)
  | short (s : State)
  | bad
deriving DecidableEq, Repr

/-! ### Streams of bits -/

/-- Stream bit `k` of a quadword (`00_scope.md` R8, `20_memory.md` R82): bytes in address order, bit 7 of each first. -/
def qwBit (q : QWord) (k : Nat) : Bool := q.getLsbD (8 * (k / 8) + (7 - k % 8))

/-- Stream bit `k` of a list of quadwords in transfer order. -/
def streamBit (qs : List QWord) (k : Nat) : Bool := qwBit (qs.getD (k / 128) 0) (k % 128)

/-- The `w` stream bits from `p` on, the first one most significant (`00_scope.md` R8). -/
def streamValue (qs : List QWord) (p : Nat) : Nat → Nat
  | 0 => 0
  | w + 1 => 2 * streamValue qs p w + (streamBit qs (p + w)).toNat

/-! ### Derived quantities (`40_bitstream_cursor.md` R141) -/

/-- `cur.pos`. -/
def Cursor.pos (c : Cursor) : Nat := 8 * c.byteOfs.toNat + c.bitOfs.toNat

/-- `availBits`. -/
def Cursor.avail (c : Cursor) : Nat := if c.fp.val = 0 then 0 else 128 * c.fp.val - c.pos

/-- `extract(w)`. -/
def Cursor.extract (c : Cursor) (w : Nat) : Nat := streamValue c.slot.toList c.pos w

/-- `totalAvailBits`. -/
def totalAvail (s : State) : Nat :=
  if s.unit.cur.fp.val = 0 then 128 * s.ifc.toNat - s.unit.cur.pos
  else s.unit.cur.avail + 128 * s.ifc.toNat

/-- The bit string the cursor would deliver next, as the quadwords it starts in: the valid slots, then the input FIFO
(`45_host_register_interface.md` R325); its first bit is bit `cur.pos`. -/
def pendingQWords (s : State) : List QWord := s.unit.cur.slot.toList.take s.unit.cur.fp.val ++ s.unit.fifoIn

/-! ### Helpers (R142, R143) -/

/-- `cur.ifcSnap <- ctrl.IFC` (R154). -/
def snapIfc (s : State) : State := s.setCur { s.unit.cur with ifcSnap := s.ifc }

/-- Put a quadword in the first free slot. -/
def Cursor.addQWord (c : Cursor) (q : QWord) : Cursor :=
  { c with slot := c.slot.setIfInBounds c.fp.val q, fp := Fin.ofNat 3 (c.fp.val + 1) }

/-- The loop of `pull` for at most `n` quadwords. -/
def pullLoop (want : Nat) : Nat → State → State
  | 0, s => s
  | n + 1, s =>
    if s.unit.cur.avail < want ∧ s.unit.cur.fp.val < Config.bufQw then
      match inTake s with
      | some (q, s') => pullLoop want n (s'.setCur (s'.unit.cur.addQWord q))
      | none => s
    else s

/-- `pull(want)` (R142): the buffer has `BUF_QW` slots, so the loop runs at most that often. -/
def pull (want : Nat) (s : State) : State := snapIfc (pullLoop want Config.bufQw s)

/-- Free slot 0. -/
def Cursor.dropSlot (c : Cursor) : Cursor :=
  { c with slot := #v[c.slot.getD 1 0, 0], fp := Fin.ofNat 3 (c.fp.val - 1) }

/-- Free `n` slots. -/
def Cursor.dropSlots : Nat → Cursor → Cursor
  | 0, c => c
  | n + 1, c => Cursor.dropSlots n c.dropSlot

/-- `advance(n)` (R143), defined for `n <= availBits`. -/
def Cursor.advance (n : Nat) (c : Cursor) : Cursor :=
  let p := c.pos + n
  { Cursor.dropSlots (p / 128) c with
    byteOfs := BitVec.ofNat 4 (p % 128 / 8), bitOfs := BitVec.ofNat 3 (p % 8) }

/-- `advance(n)` and the snapshot that ends the operation. -/
def advanceSnap (n : Nat) (s : State) : State := snapIfc (s.setCur (s.unit.cur.advance n))

/-! ### Operations (R144 to R149) -/

/-- `refill(source, advanceHint, requestedBytes)` (R144): `none` is `Fatal(RefillOverCapacity)`. The hint binds
nothing; one above 63 is served like any other (Log 10). -/
def refill (hint requestedBytes : Nat) (s : State) : Option (Nat × State) :=
  if Config.bufCap < requestedBytes then none
  else
    let s' := pull (8 * requestedBytes + hint) s
    some (s'.unit.cur.avail / 8, s')

/-- `readBits(width)` (R145). -/
def readBits (w : Nat) (s : State) : Take Word :=
  if 1 ≤ w ∧ w ≤ 32 then
    let s' := pull w s
    if s'.unit.cur.avail < w then .short s'
    else .ok (BitVec.ofNat 32 (s'.unit.cur.extract w)) (advanceSnap w s')
  else .bad

/-- `peekBits(width)` (R146). -/
def peekBits (w : Nat) (s : State) : Take Word :=
  if 1 ≤ w ∧ w ≤ 32 then
    let s' := pull w s
    if s'.unit.cur.avail < w then .short s'
    else .ok (BitVec.ofNat 32 (s'.unit.cur.extract w)) s'
  else .bad

/-- `skipBits(n)` (R147). -/
def skipBits (n : Nat) (s : State) : Take Unit :=
  if n ≤ 63 then
    let s' := pull n s
    if s'.unit.cur.avail < n then .short s'
    else .ok () (advanceSnap n s')
  else .bad

/-- `alignByte()` (R148). -/
def alignByte (s : State) : Take Unit :=
  if s.unit.cur.bitOfs = 0 then .ok () (snapIfc s)
  else
    let s' := pull 1 s
    if s'.unit.cur.fp.val = 0 then .short s'
    else .ok () (advanceSnap (8 - s'.unit.cur.bitOfs.toNat) s')

/-- `cursorReset(bp)` (R149). -/
def cursorReset (bp : BitVec 7) (s : State) : State :=
  s.setCur
    { slot := Vector.replicate 2 0, fp := 0, byteOfs := bp.extractLsb' 3 4, bitOfs := bp.extractLsb' 0 3
      ifcSnap := s.ifc, hasNew := false }

end Sys2Proof.Machine
end

