-- ==== Sys2Proof/Machine/Library.lean ====
section
/-! DEFINITION. The dispatcher's side of the decode library (`43_command_dispatcher.md` R250 to R253). -/

namespace Sys2Proof.Machine

/-- The library's next request: the answer the instance's table lists, else the OPEN library's (Log 4). -/
def libNext (cfg : UnitConfig) (q : LibQuery) : LibRequest := tableAnswer cfg.libTable q (Config.decodeLib q)

/-- The parameters a session opened now is given (R251). -/
def libParams (c : LibCommand) (u : UnitState) : LibParams where
  command := c
  pct := ctrlPCT u.ctrl
  idp := ctrlIDP u.ctrl
  asFlag := ctrlAS u.ctrl
  ivf := ctrlIVF u.ctrl
  qst := ctrlQST u.ctrl
  mp1 := ctrlMP1 u.ctrl
  iqIntra := u.iqIntra
  iqNonIntra := u.iqNonIntra
  vqclut := u.vqclut
  th0 := u.th0
  th1 := u.th1

/-- The session the library starts with (R250). -/
def libOpen (c : LibCommand) (s : State) : LibSession :=
  let p := libParams c s.unit
  { params := p, replies := [], req := libNext s.cfg ⟨[], p⟩ }

/-- The session after a reply to its outstanding request (R252). -/
def libAnswer (cfg : UnitConfig) (ses : LibSession) (r : LibReply) : LibSession :=
  { ses with replies := r :: ses.replies, req := libNext cfg ⟨r :: ses.replies, ses.params⟩ }

/-- Give the open session a reply. -/
def answer (r : LibReply) (s : State) : State :=
  match s.unit.lib with
  | some ses => s.setLib (some (libAnswer s.cfg ses r))
  | none => s

/-- The session in use: the open one, or a new one (R241 to R243, phase 1). -/
def sessionOf (c : LibCommand) (s : State) : LibSession :=
  match s.unit.lib with
  | some ses => ses
  | none => libOpen c s

/-- The outcome of serving a request that only concerns the cursor. -/
inductive Served where
  | reply (r : LibReply) (s : State)
  | wait (s : State)
  | fault (f : Fault)
  | refused (r : Refusal)
deriving DecidableEq, Repr

/-- A `Take` as a served request. -/
def Take.served {α : Type} (f : α → LibReply) : Take α → Served
  | .ok a s => .reply (f a) s
  | .short s => .wait s
  | .bad => .refused .badWidth

/-- Serve a request of the cursor (R252). The other three requests are the commands' own business. -/
def serveCursor (req : LibRequest) (s : State) : Served :=
  match req with
  | .skip n => (skipBits n s).served fun _ => .unit
  | .read n => (readBits n s).served .bits
  | .peek n => (peekBits n s).served .bits
  | .align => (alignByte s).served fun _ => .unit
  | .refill hint bytes =>
    match refill hint bytes s with
    | some (n, s') => .reply (.bytes n) s'
    | none => .fault .refillOverCapacity
  | .emitMB _ | .emitCoef _ | .done _ => .refused .libraryContract

/-- `Done(res)` (R253) but for the word of VDEC: pattern and flags are reported, the session ends. -/
def applyDone (res : LibResult) (s : State) : State :=
  let c := match res.cbp with
    | some p => putCBP p s.unit.ctrl
    | none => s.unit.ctrl
  let c := if res.scd then putSCD true c else c
  let c := if res.ecd then putECD true c else c
  (s.setCtrl c).setLib none

end Sys2Proof.Machine
end

