-- ==== Sys2Proof/Machine/Pixel.lean ====
section
/-! DEFINITION. The ColorSpaceConverter (`44_color_space_converter.md`): pure functions of the macroblock, the
thresholds, the colour table and the parameter `PixelMath`. Each per-pixel function is what the instance's table answers,
else the default the spec states (`00_scope.md` R4, R5, Log 15). -/

namespace Sys2Proof.Machine

/-- `clamp8` (R291). -/
def clamp8 (v : Int) : Byte := BitVec.ofInt 8 (min 255 (max 0 v))

/-- The default `yuv2rgb` (R292). -/
def yuv2rgbDefault (m : PixelMath) (y cb cr : Byte) : Byte × Byte × Byte :=
  let lum : Int := (m.yCoeff * max 0 ((y.toNat : Int) - m.yBias)) >>> (6 : Nat)
  let rcr : Int := (m.rcrCoeff * ((cr.toNat : Int) - 128)) >>> (6 : Nat)
  let gcr : Int := (m.gcrCoeff * ((cr.toNat : Int) - 128)) >>> (6 : Nat)
  let gcb : Int := (m.gcbCoeff * ((cb.toNat : Int) - 128)) >>> (6 : Nat)
  let bcb : Int := (m.bcbCoeff * ((cb.toNat : Int) - 128)) >>> (6 : Nat)
  let half (v : Int) : Byte := clamp8 ((v + 1) >>> (1 : Nat))
  (half (lum + rcr), half (lum + gcr + gcb), half (lum + bcb))

/-- `yuv2rgb` of the instance (R4, R5, R292). -/
def yuv2rgb (m : PixelMath) (y cb cr : Byte) : Byte × Byte × Byte :=
  tableAnswer m.yuvTable ⟨y, cb, cr⟩ (yuv2rgbDefault m y cb cr)

/-- The default `applyThreshold` (R295). -/
def applyThresholdDefault (m : PixelMath) (r g b : Byte) (th0 th1 : BitVec 9) : Pixel :=
  if r.toNat < th0.toNat ∧ g.toNat < th0.toNat ∧ b.toNat < th0.toNat then ⟨0, 0, 0, 0⟩
  else if r.toNat < th1.toNat ∧ g.toNat < th1.toNat ∧ b.toNat < th1.toNat then ⟨r, g, b, m.alphaHalf⟩
  else ⟨r, g, b, m.alphaOpaque⟩

/-- `applyThreshold` of the instance (R5, R295). -/
def applyThreshold (m : PixelMath) (r g b : Byte) (th0 th1 : BitVec 9) : Pixel :=
  tableAnswer m.thresholdTable ⟨r, g, b, th0, th1⟩ (applyThresholdDefault m r g b th0 th1)

/-- `Y[y][x]` of the raw planes (`43_command_dispatcher.md` R247). -/
def rawY (raw : Vector Byte 384) (y x : Nat) : Byte := raw.getD (16 * y + x) 0
/-- `Cb[y][x]`. -/
def rawCb (raw : Vector Byte 384) (y x : Nat) : Byte := raw.getD (256 + 8 * y + x) 0
/-- `Cr[y][x]`. -/
def rawCr (raw : Vector Byte 384) (y x : Nat) : Byte := raw.getD (320 + 8 * y + x) 0

/-- The converted pixel of column `x`, row `y` (R293). -/
def convertPixel (m : PixelMath) (raw : Vector Byte 384) (th0 th1 : BitVec 9) (y x : Nat) : Pixel :=
  let c := yuv2rgb m (rawY raw y x) (rawCb raw (y / 2) (x / 2)) (rawCr raw (y / 2) (x / 2))
  applyThreshold m c.1 c.2.1 c.2.2 th0 th1

/-- `convertMacroblock` (R293). -/
def convertMacroblock (m : PixelMath) (raw : Vector Byte 384) (th0 th1 : BitVec 9) : Vector Pixel 256 :=
  Vector.ofFn fun i => convertPixel m raw th0 th1 (i.val / 16) (i.val % 16)

/-- `DITHER[y mod 4][x mod 4]` (R297). -/
def ditherAt (m : PixelMath) (x y : Nat) : Int :=
  (m.dither.getD (y % 4) (Vector.replicate 4 0)).getD (x % 4) 0

/-- The default `narrow16` (R296). -/
def narrow16Default (m : PixelMath) (p : Pixel) (x y : Nat) (dte : Bool) : BitVec 16 :=
  let d : Int := if dte then ditherAt m x y else 0
  let ch (c : Byte) : Byte := if dte then clamp8 ((c.toNat : Int) + d) else c
  ((ch p.b).extractLsb' 3 5) ++ (((ch p.g).extractLsb' 2 6) ++ ((ch p.r).extractLsb' 3 5))

/-- `narrow16` of the instance (R5, R296). -/
def narrow16 (m : PixelMath) (p : Pixel) (x y : Nat) (dte : Bool) : BitVec 16 :=
  tableAnswer m.narrowTable ⟨p, x, y, dte⟩ (narrow16Default m p x y dte)

/-- The squared distance of two RGB16 colours (R300). -/
def colourDist (c e : BitVec 16) : Nat :=
  let sq (lo w : Nat) : Nat := (((c.extractLsb' lo w).toNat : Int) - ((e.extractLsb' lo w).toNat : Int)).natAbs ^ 2
  sq 0 5 + sq 5 6 + sq 11 5

/-- The smallest index among the `n` entries from `e` on, and `best`, with the least distance to `c`. -/
def nearest (c : BitVec 16) : List (BitVec 16) → Nat → Nat → Nat → Nat
  | [], _, best, _ => best
  | v :: vs, e, best, bestDist =>
    if colourDist c v < bestDist then nearest c vs (e + 1) e (colourDist c v) else nearest c vs (e + 1) best bestDist

/-- The default `index4` (R300), over the `narrow16` of the instance. -/
def index4Default (m : PixelMath) (clut : Vector (BitVec 16) 16) (p : Pixel) (x y : Nat) (dte : Bool) : BitVec 4 :=
  let c := narrow16 m p x y dte
  BitVec.ofNat 4 (nearest c clut.toList 0 0 (colourDist c (clut.getD 0 0) + 1))

/-- `index4` of the instance (R5, R300). -/
def index4 (m : PixelMath) (clut : Vector (BitVec 16) 16) (p : Pixel) (x y : Nat) (dte : Bool) : BitVec 4 :=
  tableAnswer m.indexTable ⟨clut, p, x, y, dte⟩ (index4Default m clut p x y dte)

/-- The output formats (R290). -/
inductive Format where
  | rgb32
  | rgb16
  | indx4
deriving DecidableEq, Repr

/-- `outCount` (R298, R299, R301). -/
def Format.outCount : Format → Nat
  | .rgb32 => 64
  | .rgb16 => 32
  | .indx4 => 8

/-- `flat[i]` of an RGB32 macroblock (R298). -/
def flatPixel (px : Vector Pixel 256) (i : Nat) : Pixel := px.getD i ⟨0, 0, 0, 0⟩

/-- Channel 0 `r`, 1 `g`, 2 `b`, 3 `a` of a pixel (R302). -/
def Pixel.channel (p : Pixel) : Nat → Byte
  | 0 => p.r
  | 1 => p.g
  | 2 => p.b
  | _ => p.a

/-- A pixel with one channel replaced. -/
def Pixel.putChannel (p : Pixel) (v : Byte) : Nat → Pixel
  | 0 => { p with r := v }
  | 1 => { p with g := v }
  | 2 => { p with b := v }
  | _ => { p with a := v }

/-- `outQW(fmt, dte, rgb32, k)` (R298, R299, R301); `clut` is used by INDX4 only. -/
def outQW (m : PixelMath) (clut : Vector (BitVec 16) 16) (fmt : Format) (dte : Bool) (px : Vector Pixel 256) (k : Nat) :
    QWord :=
  match fmt with
  | .rgb32 => qwOfBytes fun j => (flatPixel px (4 * k + j / 4)).channel (j % 4)
  | .rgb16 => qwOfBytes fun j =>
      let i := 8 * k + j / 2
      (narrow16 m (flatPixel px i) (i % 16) (i / 16) dte).extractLsb' (8 * (j % 2)) 8
  | .indx4 => qwOfBytes fun j =>
      let index (i : Nat) : BitVec 4 := index4 m clut (flatPixel px i) (i % 16) (i / 16) dte
      index (32 * k + 2 * j + 1) ++ index (32 * k + 2 * j)

/-- `coefQW(c, k)` of BDEC (`43_command_dispatcher.md` R242): eight 16-bit values, low byte first. -/
def coefQW (c : Vector (BitVec 16) 384) (k : Nat) : QWord :=
  qwOfBytes fun j => (c.getD (8 * k + j / 2) 0).extractLsb' (8 * (j % 2)) 8

end Sys2Proof.Machine
end

