-- ==== Sys2Proof/Machine/Dispatcher.lean ====
section
/-! DEFINITION. What the commands share (`43_command_dispatcher.md` parts 1 to 3): submission, completion, suspension,
the drain, byte input and the loop over a library session. -/

namespace Sys2Proof.Machine

/-- How a part of a dispatch step ended. -/
inductive Flow where
  /-- The part is done and the step goes on with the next one. -/
  | go (s : State)
  /-- The step is over: the command suspended (R238) or completed (R237). -/
  | stop (s : State)
  /-- As many library requests were served as one machine step serves; the call goes on in the next one (Log 5). -/
  | more (s : State)
  | fault (f : Fault)
  | refused (r : Refusal)
deriving DecidableEq, Repr

/-- Go on with the next part of the step. -/
def Flow.bind (f : Flow) (g : State → Flow) : Flow :=
  match f with
  | .go s => g s
  | .stop s => .stop s
  | .more s => .more s
  | .fault x => .fault x
  | .refused r => .refused r

/-- A step's end as the outcome of the machine step. -/
def Flow.outcome : Flow → Host.Outcome State Fault Refusal
  | .go s => .next s
  | .stop s => .next s
  | .more s => .next (s.setCalls (.continueStep :: s.calls))
  | .fault x => .fault x
  | .refused r => .refused r

/-! ### Markers -/

/-- `cmd.pos0 <- p0; cmd.pos1 <- p1`. -/
def setPhase (p0 p1 : Word) (s : State) : State := s.setCmd { s.unit.cmd with pos0 := p0, pos1 := p1 }

/-- `cmd.pos1 <- p1`. -/
def setPos1 (p1 : Word) (s : State) : State := s.setCmd { s.unit.cmd with pos1 := p1 }

/-- `cmd.index <- cmd.index + 1`, modulo `2^32` (`46_operation_classes_and_laws.md` R270). -/
def bumpIndex (s : State) : State := s.setCmd { s.unit.cmd with index := s.unit.cmd.index + 1 }

/-! ### Submission and completion -/

/-- `CommandState` cleared (`10_state.md` R38), with `ctrl.BUSY` and the session. -/
def clearCommand (s : State) : State :=
  ((s.setCmd Command.idle).setCtrl (putBUSY false s.unit.ctrl)).setLib none

/-- `complete()` (R237). -/
def complete (s : State) : State := raise .cmd (clearCommand s)

/-- The state part of R231 and R233: ECD, and the rejection as the result. -/
def rejectCommand (r : RejectReason) (s : State) : State := (protocolError s).setResult (.rejected r)

/-- The state part of acceptance (R234), before the first step. -/
def acceptCommand (w : Word) (s : State) : State :=
  (((s.setCmd ⟨w, true, 0, 0, 0⟩).setCtrl (putBUSY true (putECD false (putSCD false s.unit.ctrl)))).setLib none).setResult
    .accepted

/-- `cmdWrite` of a valid command other than BCLR (R230, R233, R234): rejected while busy, else accepted, the first
step running inside the call. -/
def submit (w : Word) (step : State → Flow) (s : State) : Host.Outcome State Fault Refusal :=
  if s.unit.cmd.busy then .next (rejectCommand .busy s) else (step (acceptCommand w s)).outcome

/-! ### Phases -/

/-- The `FB` phase (R256), phase 0 of IDEC, BDEC, VDEC and FDEC. -/
def fbPhase (fb : BitVec 6) (s : State) : Flow :=
  if s.unit.cmd.pos0 = 0 then
    match skipBits fb.toNat s with
    | .ok _ s' => .go (setPhase 1 0 s')
    | .short s' => .stop s'
    | .bad => .refused .badWidth
  else .go s

/-- Put the quadwords `k`, `k+1`, … , `n` of them, on the output side (R255). -/
def drainLoop (qw : Nat → QWord) : Nat → Nat → State → Flow
  | 0, _, s => .go s
  | n + 1, k, s =>
    match outPut (qw k) s with
    | none => .stop s
    | some s' => drainLoop qw n (k + 1) (setPos1 (BitVec.ofNat 32 (k + 1)) s')

/-- `drain(total, qw)` (R255), resuming at `cmd.pos1`. -/
def drain (total : Nat) (qw : Nat → QWord) (s : State) : Flow :=
  drainLoop qw (total - s.unit.cmd.pos1.toNat) s.unit.cmd.pos1.toNat s

/-- Read bytes `k`, `k+1`, … , `n` of them, from the stream and store each. -/
def byteLoop (store : Nat → Byte → State → State) : Nat → Nat → State → Flow
  | 0, _, s => .go s
  | n + 1, k, s =>
    match readBits 8 s with
    | .ok v s' => byteLoop store n (k + 1) (store k (v.setWidth 8) s')
    | .short s' => .stop s'
    | .bad => .refused .badWidth

/-- `readBytes(total, store)` (R257), resuming at `cmd.pos1`. -/
def readBytes (total : Nat) (store : Nat → Byte → State → State) (s : State) : Flow :=
  byteLoop (fun k v s => setPos1 (BitVec.ofNat 32 (k + 1)) (store k v s)) (total - s.unit.cmd.pos1.toNat)
    s.unit.cmd.pos1.toNat s

/-- The output phase of a macroblock (R241, R247, R248): drain `mb.rgb32` in a format. -/
def drainMb (fmt : Format) (dte : Bool) (s : State) : Flow :=
  drain fmt.outCount (outQW s.cfg.pixel s.unit.vqclut fmt dte s.unit.mb.rgb32) s

/-- `mb.rgb32 <- convertMacroblock(mb.raw, th0, th1)` (R241, R247). -/
def convertMb (s : State) : State :=
  s.setMb { s.unit.mb with rgb32 := convertMacroblock s.cfg.pixel s.unit.mb.raw s.unit.th0 s.unit.th1 }

/-! ### Library sessions (R241 to R243, R252) -/

/-- What a command does with the requests that are its own. -/
structure SessionRules where
  /-- Which library command the session is opened for. -/
  command : LibCommand
  /-- Phase 2: put the emitted data out and answer the request. -/
  drainEmitted : State → Flow
  /-- An emit request taken up in phase 1. -/
  takeEmit : LibRequest → State → Flow
  /-- The command's own part of `Done(res)`. -/
  takeResult : LibResult → State → State

/-- Phases 1 and 2 of a command with a session, at most `n` requests. -/
def sessionLoop (r : SessionRules) : Nat → State → Flow
  | 0, s => .more s
  | n + 1, s =>
    if s.unit.cmd.pos0 = 2 then (r.drainEmitted s).bind (sessionLoop r n)
    else
      let ses := sessionOf r.command s
      let s := s.setLib (some ses)
      match ses.req with
      | .done res => .stop (complete (applyDone res (r.takeResult res s)))
      | .emitMB raw => (r.takeEmit (.emitMB raw) s).bind (sessionLoop r n)
      | .emitCoef c => (r.takeEmit (.emitCoef c) s).bind (sessionLoop r n)
      | req =>
        match serveCursor req s with
        | .reply a s' => sessionLoop r n (answer a s')
        | .wait s' => .stop s'
        | .fault f => .fault f
        | .refused x => .refused x

/-- A command with a session: the FB phase, then the session. -/
def sessionStep (fb : BitVec 6) (r : SessionRules) (s : State) : Flow :=
  (fbPhase fb s).bind (sessionLoop r Config.serveChunk)

end Sys2Proof.Machine
end

