-- ==== Sys2Proof/Machine/Clear.lean ====
section
/-! DEFINITION. BCLR (`43_command_dispatcher.md` R240) and the command words of invalid opcodes (R231). -/

namespace Sys2Proof.Machine

/-- BCLR (R240): always accepted; aborts the command, clears FIFOs and cursor, completes at once. -/
def execBclr (bp : BitVec 7) (_unused : BitVec 21) (s : State) : Host.Outcome State Fault Refusal :=
  .next ((raise .cmd (cursorReset bp (fifoClear (clearCommand s)))).setResult .accepted)

/-- A command word of opcode 10 or 11 (R231): rejected, busy or not. -/
def execInvalid101 (_opcode : BitVec 4) (_option : BitVec 28) (s : State) : Host.Outcome State Fault Refusal :=
  .next (rejectCommand .invalidOpcode s)

/-- A command word of opcode 12 to 15 (R231): rejected, busy or not. -/
def execInvalid11 (_opcode : BitVec 4) (_option : BitVec 28) (s : State) : Host.Outcome State Fault Refusal :=
  .next (rejectCommand .invalidOpcode s)

end Sys2Proof.Machine
end

