-- ==== Sys2Proof/Machine/DecodeCommands.lean ====
section
/-! DEFINITION. IDEC, BDEC, VDEC and FDEC (`43_command_dispatcher.md` R241 to R244). -/

namespace Sys2Proof.Machine

/-- The output format of CSC and IDEC (`30_encoding.md` R102, R108). -/
def colourFormat (ofm : Bool) : Format := if ofm then .rgb16 else .rgb32

/-- IDEC's own requests (R241): an emitted macroblock is stored, converted and drained; each one counts in `cmd.index`. -/
def idecRules (qsc : BitVec 5) (dtd sgn dte ofm : Bool) : SessionRules where
  command := .idec qsc dtd sgn
  drainEmitted s :=
    (drainMb (colourFormat ofm) dte s).bind fun s => .go (answer .unit (setPhase 1 0 (bumpIndex s)))
  takeEmit req s :=
    match req with
    | .emitMB raw => .go (setPhase 2 0 (convertMb (s.setMb { s.unit.mb with raw := raw })))
    | _ => .refused .libraryContract
  takeResult _ s := s

/-- One dispatch step of IDEC (R241). -/
def idecStep (fb : BitVec 6) (qsc : BitVec 5) (dtd sgn dte ofm : Bool) (s : State) : Flow :=
  sessionStep fb (idecRules qsc dtd sgn dte ofm) s

/-- IDEC (R230, R241). -/
def execIdec (fb : BitVec 6) (qsc : BitVec 5) (dtd sgn dte ofm : Bool) (lo : BitVec 10) (hi : BitVec 3) (s : State) :
    Host.Outcome State Fault Refusal :=
  submit (Instr.idec fb qsc dtd sgn dte ofm lo hi).word (idecStep fb qsc dtd sgn dte ofm) s

/-- BDEC's own requests (R242): the coefficients stay in the outstanding request while they are drained. -/
def bdecRules (qsc : BitVec 5) (dt dcr mbi : Bool) : SessionRules where
  command := .bdec qsc dt dcr mbi
  drainEmitted s :=
    match s.unit.lib with
    | some ⟨_, _, .emitCoef c⟩ => (drain 48 (coefQW c) s).bind fun s => .go (answer .unit (setPhase 1 0 s))
    | _ => .stop s
  takeEmit req s :=
    match req with
    | .emitCoef _ => .go (setPhase 2 0 s)
    | _ => .refused .libraryContract
  takeResult _ s := s

/-- One dispatch step of BDEC (R242). -/
def bdecStep (fb : BitVec 6) (qsc : BitVec 5) (dt dcr mbi : Bool) (s : State) : Flow :=
  sessionStep fb (bdecRules qsc dt dcr mbi) s

/-- BDEC (R230, R242). -/
def execBdec (fb : BitVec 6) (qsc : BitVec 5) (dt dcr mbi : Bool) (lo : BitVec 10) (hi : BitVec 4) (s : State) :
    Host.Outcome State Fault Refusal :=
  submit (Instr.bdec fb qsc dt dcr mbi lo hi).word (bdecStep fb qsc dt dcr mbi) s

/-- VDEC's own requests (R243): no emits; the result word goes to `cmdData`. -/
def vdecRules (tbl : BitVec 2) : SessionRules where
  command := .vdec tbl
  drainEmitted s := .stop s
  takeEmit _ _ := .refused .libraryContract
  takeResult res s := s.setCmdData res.data

/-- One dispatch step of VDEC (R243). -/
def vdecStep (fb : BitVec 6) (tbl : BitVec 2) (s : State) : Flow := sessionStep fb (vdecRules tbl) s

/-- VDEC (R230, R243). -/
def execVdec (fb : BitVec 6) (tbl : BitVec 2) (unused : BitVec 20) (s : State) : Host.Outcome State Fault Refusal :=
  submit (Instr.vdec fb tbl unused).word (vdecStep fb tbl) s

/-- One dispatch step of FDEC (R244): skip, then look at 32 bits without consuming them. -/
def fdecStep (fb : BitVec 6) (s : State) : Flow :=
  (fbPhase fb s).bind fun s =>
    match peekBits 32 s with
    | .ok v s' => .stop (complete (s'.setCmdData v))
    | .short s' => .stop s'
    | .bad => .refused .badWidth

/-- FDEC (R230, R244). -/
def execFdec (fb : BitVec 6) (unused : BitVec 22) (s : State) : Host.Outcome State Fault Refusal :=
  submit (Instr.fdec fb unused).word (fdecStep fb) s

end Sys2Proof.Machine
end

