-- ==== Sys2Proof/Machine/Convert.lean ====
section
/-! DEFINITION. CSC and PACK (`43_command_dispatcher.md` R247, R248). -/

namespace Sys2Proof.Machine

/-- Macroblock after macroblock, at most `n` rounds: complete when `cmd.index = MBC`, else the input phase (while
`cmd.pos0 = 0`), then the output phase. `MBC + 1` rounds are enough for every command in flight. -/
def macroblockLoop (mbc : BitVec 11) (input : State → Flow) (fmt : Format) (dte : Bool) : Nat → State → Flow
  | 0, s => .more s
  | n + 1, s =>
    if s.unit.cmd.index = mbc.setWidth 32 then .stop (complete s)
    else
      ((if s.unit.cmd.pos0 = 0 then input s else .go s).bind fun s =>
        (drainMb fmt dte s).bind fun s => .go (setPhase 0 0 (bumpIndex s))).bind
      (macroblockLoop mbc input fmt dte n)

/-- `mb.raw.flat[k] <- v` (R247). -/
def storeRaw (k : Nat) (v : Byte) (s : State) : State :=
  s.setMb { s.unit.mb with raw := s.unit.mb.raw.setIfInBounds k v }

/-- Phase 0 of CSC (R247): read one macroblock and convert it. -/
def cscInput (s : State) : Flow := (readBytes 384 storeRaw s).bind fun s => .go (setPhase 1 0 (convertMb s))

/-- One dispatch step of CSC (R247). -/
def cscStep (mbc : BitVec 11) (dte ofm : Bool) (s : State) : Flow :=
  macroblockLoop mbc cscInput (colourFormat ofm) dte (mbc.toNat + 1) s

/-- CSC (R230, R247). -/
def execCsc (mbc : BitVec 11) (dte ofm : Bool) (unused : BitVec 15) (s : State) : Host.Outcome State Fault Refusal :=
  submit (Instr.csc mbc dte ofm unused).word (cscStep mbc dte ofm) s

/-- Channel `k mod 4` of `mb.rgb32.px.flat[k div 4] <- v` (R248). -/
def storePixel (k : Nat) (v : Byte) (s : State) : State :=
  s.setMb { s.unit.mb with
    rgb32 := s.unit.mb.rgb32.setIfInBounds (k / 4) ((flatPixel s.unit.mb.rgb32 (k / 4)).putChannel v (k % 4)) }

/-- Phase 0 of PACK (R248): read one RGB32 macroblock. -/
def packInput (s : State) : Flow := (readBytes 1024 storePixel s).bind fun s => .go (setPhase 1 0 s)

/-- The output format of PACK (`30_encoding.md` R109). -/
def packFormat (ofm : Bool) : Format := if ofm then .rgb16 else .indx4

/-- One dispatch step of PACK (R248). -/
def packStep (mbc : BitVec 11) (dte ofm : Bool) (s : State) : Flow :=
  macroblockLoop mbc packInput (packFormat ofm) dte (mbc.toNat + 1) s

/-- PACK (R230, R248). -/
def execPack (mbc : BitVec 11) (dte ofm : Bool) (unused : BitVec 15) (s : State) : Host.Outcome State Fault Refusal :=
  submit (Instr.pack mbc dte ofm unused).word (packStep mbc dte ofm) s

end Sys2Proof.Machine
end

