-- ==== Sys2Proof/Machine/Tables.lean ====
section
/-! DEFINITION. SETIQ, SETVQ and SETTH (`43_command_dispatcher.md` R245, R246, R249). -/

namespace Sys2Proof.Machine

/-- Entry `k` of the table SETIQ loads (R245). -/
def storeIq (iqm : Bool) (k : Nat) (v : Byte) (s : State) : State :=
  if iqm then s.setIqNonIntra (s.unit.iqNonIntra.setIfInBounds k v) else s.setIqIntra (s.unit.iqIntra.setIfInBounds k v)

/-- One dispatch step of SETIQ (R245): all or nothing. -/
def setiqStep (fb : BitVec 6) (iqm : Bool) (s : State) : Flow :=
  let s := pull (fb.toNat + 512) s
  if totalAvail s < fb.toNat + 512 then .stop s
  else
    match skipBits fb.toNat s with
    | .ok _ s => (byteLoop (storeIq iqm) 64 0 s).bind fun s => .stop (complete s)
    | .short s => .stop s
    | .bad => .refused .badWidth

/-- SETIQ (R230, R245). -/
def execSetiq (fb : BitVec 6) (iqm : Bool) (unused : BitVec 21) (s : State) : Host.Outcome State Fault Refusal :=
  submit (Instr.setiq fb iqm unused).word (setiqStep fb iqm) s

/-- Byte `k` of the table SETVQ loads (R246): entry `k div 2`, the low byte first. -/
def storeVq (k : Nat) (v : Byte) (s : State) : State :=
  let e := s.unit.vqclut.getD (k / 2) 0
  let e' : BitVec 16 := if k % 2 = 0 then e.extractLsb' 8 8 ++ v else v ++ e.extractLsb' 0 8
  s.setVqclut (s.unit.vqclut.setIfInBounds (k / 2) e')

/-- One dispatch step of SETVQ (R246): all or nothing. -/
def setvqStep (s : State) : Flow :=
  let s := pull 256 s
  if totalAvail s < 256 then .stop s
  else (byteLoop storeVq 32 0 s).bind fun s => .stop (complete s)

/-- SETVQ (R230, R246). -/
def execSetvq (unused : BitVec 28) (s : State) : Host.Outcome State Fault Refusal :=
  submit (Instr.setvq unused).word setvqStep s

/-- One dispatch step of SETTH (R249). -/
def setthStep (th0 th1 : BitVec 9) (s : State) : Flow := .stop (complete (s.setTh th0 th1))

/-- SETTH (R230, R249). -/
def execSetth (th0 th1 : BitVec 9) (lo : BitVec 7) (hi : BitVec 3) (s : State) : Host.Outcome State Fault Refusal :=
  submit (Instr.setth th0 th1 lo hi).word (setthStep th0 th1) s

end Sys2Proof.Machine
end

