-- ==== Sys2Proof/Machine/Tags.lean ====
section
/-! DEFINITION. The DmaTagWalker (`42_dma_tag_walker.md`) and the meanings of the five tag rows: what the kick that
fetches the tag does with it, to the end of that call (Log 6). -/

namespace Sys2Proof.Machine

/-- `finish(dir)` (R199) of the into-unit transfer. -/
def finishTo (s : State) : State :=
  let d := s.unit.dmaTo
  let s' := s.setDmaTo { d with dmaFinished := true, inProgress := false, stalled := false, irqTriggered := true }
  if d.irqTriggered then s' else raise .toUnit s'

/-- `finish(dir)` (R199) of the out-of-unit transfer. -/
def finishFrom (s : State) : State :=
  let d := s.unit.dmaFrom
  let s' := s.setDmaFrom { d with dmaFinished := true, inProgress := false, stalled := false, irqTriggered := true }
  if d.irqTriggered then s' else raise .fromUnit s'

/-- The quadwords moved so far by the kick under way (the variable `moved` of R192, returned as the status, R121). -/
def State.moved (s : State) : Nat :=
  match s.result with
  | .status n => n
  | _ => 0

/-- `moved <- moved + 1`. -/
def bumpMoved (s : State) : State := s.setResult (.status (s.moved + 1))

/-- A micro-step of the into-unit walker (R193). -/
inductive Micro where
  /-- No micro-step is enabled. -/
  | none
  /-- The enabled micro-step is the fetch of a tag. -/
  | fetch
  /-- A micro-step was performed. -/
  | step (s : State)
  /-- The micro-step reported a stall. -/
  | stall (s : State)
deriving DecidableEq, Repr

/-- Push one payload quadword, or stall (R195, R196, R201, R202). -/
def pushPayload (s : State) : Micro :=
  let d := s.unit.dmaTo
  match inPush (Memory.readQW s.mem d.memAddr) s with
  | (s', true) =>
    .step (bumpMoved (s'.setDmaTo { d with memAddr := d.memAddr + 16, remaining := d.remaining - 1, stalled := false }))
  | (s', false) => .stall (s'.setDmaTo { d with stalled := true })

/-- Stage NONE (R206): the chain ends after a tag of code NONE, else the next descriptor begins. -/
def endDescriptor (s : State) : State :=
  let d := s.unit.dmaTo
  if d.tagWord.extractLsb' 28 3 = 3#3 then finishTo s else s.setDmaTo { d with tagFollow := .follow }

/-- The enabled micro-step (R193) with its effect, but for the fetch of a tag. -/
def microStep (s : State) : Micro :=
  let d := s.unit.dmaTo
  if d.inProgress then
    match d.mode with
    | .normal => if d.remaining = 0 then .step (finishTo s) else pushPayload s
    | .chain =>
      match d.tagFollow with
      | .follow => if d.stalled then .none else .fetch
      | .qwc => if d.remaining = 0 then .step (s.setDmaTo { d with tagFollow := .addr }) else pushPayload s
      | .addr => .step (s.setDmaTo { d with nextMem := align16 (d.tagWord.extractLsb' 32 32), tagFollow := .none })
      | .none => .step (endDescriptor s)
  else .none

/-- Micro-steps until none is enabled, one stalls, or a tag is to be fetched (R192), at most `n` of them. -/
def runMicro : Nat → State → State
  | 0, s => s
  | n + 1, s =>
    match microStep s with
    | .none => s
    | .fetch => s
    | .step s' => runMicro n s'
    | .stall s' => s'

/-- More micro-steps than a call can make between two fetches: a counter of four bits takes at most fifteen pushes, and
there are at most four moves and one stall beside them (R192). -/
def runBound : Nat := 32

/-- The walker stands before the fetch of a tag (R200, R205: the guard). -/
def fetchEnabled (s : State) : Bool :=
  let d := s.unit.dmaTo
  d.inProgress && decide (d.mode = .chain) && decide (d.tagFollow = .follow) && !d.stalled

/-- The tag at `NextMem` (R200). -/
def fetchTag (s : State) : QWord := Memory.readQW s.mem s.unit.dmaTo.nextMem

/-- Latch a good tag (R200). -/
def latchTag (t : QWord) (s : State) : State :=
  let d := s.unit.dmaTo
  s.setDmaTo { d with
    tagWord := t, memAddr := d.nextMem + 16, remaining := (t.extractLsb' 0 16).setWidth 28, tagFollow := .qwc }

/-- A good tag: it is latched (R200), and the call goes on to its end; it fetches no second tag (R192). Where the
walker does not stand before a fetch, there is nothing to do (Log 6). -/
def walkTag (t : QWord) (s : State) : State :=
  if fetchEnabled s then runMicro runBound (latchTag t (s.setResult (.status s.moved))) else s

/-- A tag of code FOLLOW (R200, R206): another descriptor follows. -/
def execTagFollow (t : TagFields) (s : State) : Host.Outcome State Fault Refusal :=
  .next (walkTag (tagWordOf 0#3 t) s)

/-- A tag of code QWC (R200, R206): not told apart from FOLLOW. -/
def execTagQwc (t : TagFields) (s : State) : Host.Outcome State Fault Refusal :=
  .next (walkTag (tagWordOf 1#3 t) s)

/-- A tag of code ADDR (R200, R206): not told apart from FOLLOW. -/
def execTagAddr (t : TagFields) (s : State) : Host.Outcome State Fault Refusal :=
  .next (walkTag (tagWordOf 2#3 t) s)

/-- A tag of code NONE (R200, R206): the transfer finishes after this descriptor's payload. -/
def execTagNone (t : TagFields) (s : State) : Host.Outcome State Fault Refusal :=
  .next (walkTag (tagWordOf 3#3 t) s)

/-- A malformed tag (R205): the transfer is marked stalled, ECD is set, nothing is latched. -/
def execTagMalformed (_code : BitVec 3) (_t : TagFields) (s : State) : Host.Outcome State Fault Refusal :=
  if fetchEnabled s then
    .next ((protocolError (s.setDmaTo { s.unit.dmaTo with stalled := true })).setResult (.status s.moved))
  else .next s

end Sys2Proof.Machine
end

