-- ==== Sys2Proof/Machine/Dispatch.lean ====
section
/-! DEFINITION. The instructions' meanings, one arm per constructor. -/

namespace Sys2Proof.Machine

/-- The meaning of an instruction: of a command word written through `cmdWrite`, of a tag fetched by a kick. -/
def exec (i : Instr) (s : State) : Host.Outcome State Fault Refusal :=
  match i with
  | .bclr bp unused => Sys2Proof.Machine.execBclr bp unused s
  | .idec fb qsc dtd sgn dte ofm lo hi => Sys2Proof.Machine.execIdec fb qsc dtd sgn dte ofm lo hi s
  | .bdec fb qsc dt dcr mbi lo hi => Sys2Proof.Machine.execBdec fb qsc dt dcr mbi lo hi s
  | .vdec fb tbl unused => Sys2Proof.Machine.execVdec fb tbl unused s
  | .fdec fb unused => Sys2Proof.Machine.execFdec fb unused s
  | .setiq fb iqm unused => Sys2Proof.Machine.execSetiq fb iqm unused s
  | .setvq unused => Sys2Proof.Machine.execSetvq unused s
  | .csc mbc dte ofm unused => Sys2Proof.Machine.execCsc mbc dte ofm unused s
  | .pack mbc dte ofm unused => Sys2Proof.Machine.execPack mbc dte ofm unused s
  | .setth th0 th1 lo hi => Sys2Proof.Machine.execSetth th0 th1 lo hi s
  | .invalid101 opcode option => Sys2Proof.Machine.execInvalid101 opcode option s
  | .invalid11 opcode option => Sys2Proof.Machine.execInvalid11 opcode option s
  | .tagFollow t => Sys2Proof.Machine.execTagFollow t s
  | .tagQwc t => Sys2Proof.Machine.execTagQwc t s
  | .tagAddr t => Sys2Proof.Machine.execTagAddr t s
  | .tagNone t => Sys2Proof.Machine.execTagNone t s
  | .tagMalformed code t => Sys2Proof.Machine.execTagMalformed code t s

end Sys2Proof.Machine
end

