-- ==== Sys2Proof/Machine/Calls.lean ====
section
/-! DEFINITION. The entry points (`30_encoding.md` R120): dispatch step, the two kicks, abort, register accesses, resets,
time and persistence. -/

namespace Sys2Proof.Machine

/-! ### Dispatch step (`43_command_dispatcher.md` R235) -/

/-- One step of the command in flight, by the opcode of `cmd.current`. BCLR, an invalid opcode and a tag are never in
flight (R235, `10_state.md` R35). -/
def commandStep (s : State) : Flow :=
  match decodeCommand s.unit.cmd.current with
  | .idec fb qsc dtd sgn dte ofm _ _ => idecStep fb qsc dtd sgn dte ofm s
  | .bdec fb qsc dt dcr mbi _ _ => bdecStep fb qsc dt dcr mbi s
  | .vdec fb tbl _ => vdecStep fb tbl s
  | .fdec fb _ => fdecStep fb s
  | .setiq fb iqm _ => setiqStep fb iqm s
  | .setvq _ => setvqStep s
  | .csc mbc dte ofm _ => cscStep mbc dte ofm s
  | .pack mbc dte ofm _ => packStep mbc dte ofm s
  | .setth th0 th1 _ _ => setthStep th0 th1 s
  | .bclr _ _ | .invalid101 _ _ | .invalid11 _ _ => .stop s
  | .tagFollow _ | .tagQwc _ | .tagAddr _ | .tagNone _ | .tagMalformed _ _ => .stop s

/-- `dispatchStep()` (R235): no effect where nothing is in flight. -/
def dispatchStep (s : State) : Flow := if s.unit.cmd.busy then commandStep s else .stop s

/-! ### The kicks and the abort (`42_dma_tag_walker.md`) -/

/-- The start of an into-unit transfer (R191): `none` is the refusal of a byte count that is not whole quadwords. -/
def startTo (mode : DmaMode) (addr : Addr) (byteCount : Word) (s : State) : Option State :=
  match mode with
  | .normal =>
    if byteCount.extractLsb' 0 4 ≠ 0 then none
    else
      some (s.setDmaTo
        { inProgress := true, mode := .normal, dmaFinished := false, irqTriggered := false, tagFollow := .none
          nextMem := 0, stalled := false, memAddr := align16 addr, remaining := byteCount.extractLsb' 4 28, tagWord := 0 })
  | .chain =>
    some (s.setDmaTo
      { inProgress := true, mode := .chain, dmaFinished := false, irqTriggered := false, tagFollow := .follow
        nextMem := align16 addr, stalled := false, memAddr := 0, remaining := 0, tagWord := 0 })

/-- The transfer a kick works on (R191, R192): the one in progress, whatever the arguments, or a new one. -/
def openTo (mode : DmaMode) (addr : Addr) (byteCount : Word) (s : State) : Option State :=
  if s.unit.dmaTo.inProgress then some s else startTo mode addr byteCount s

/-- `dmaKickTo` (R191, R192): micro-steps up to the fetch of a tag, then the instruction the tag decodes to, which ends
the call. -/
def kickTo (mode : DmaMode) (addr : Addr) (byteCount : Word) (s : State) : Host.Outcome State Fault Refusal :=
  match openTo mode addr byteCount s with
  | none => .refused .byteCountNotQuadwords
  | some s =>
    let s := runMicro runBound (s.setResult (.status 0))
    if fetchEnabled s then exec (decodeTag (fetchTag s)) s else .next s

/-- The transfer a kick of the out-of-unit direction works on (R210). -/
def openFrom (addr : Addr) (byteCount : Word) (s : State) : Option State :=
  if s.unit.dmaFrom.inProgress then some s
  else if byteCount.extractLsb' 0 4 ≠ 0 then none
  else
    some (s.setDmaFrom
      { s.unit.dmaFrom with
        inProgress := true, mode := .normal, tagFollow := .none, dmaFinished := false, irqTriggered := false
        stalled := false, memAddr := align16 addr, remaining := byteCount.extractLsb' 4 28 })

/-- Pops until the transfer finishes or the output FIFO is empty (R210 to R212), at most `n` rounds. -/
def popLoop : Nat → State → State
  | 0, s => s
  | n + 1, s =>
    let d := s.unit.dmaFrom
    if d.remaining = 0 then finishFrom s
    else
      match outPop s with
      | (s', none) => s'.setDmaFrom { d with stalled := true }
      | (s', some q) =>
        popLoop n (bumpMoved ((memWrite d.memAddr q s').setDmaFrom
          { d with memAddr := d.memAddr + 16, remaining := d.remaining - 1, stalled := false }))

/-- `dmaKickFrom` (R210). A counter of four bits allows fifteen pops; one more round finishes or stalls. -/
def kickFrom (addr : Addr) (byteCount : Word) (s : State) : Host.Outcome State Fault Refusal :=
  match openFrom addr byteCount s with
  | none => .refused .byteCountNotQuadwords
  | some s => .next (popLoop 16 (s.setResult (.status 0)))

/-- `dmaAbort(dir)` (R213). -/
def dmaAbort (dir : Dir) (s : State) : State :=
  match dir with
  | .toUnit => s.setDmaTo Transfer.reset
  | .fromUnit => s.setDmaFrom Transfer.reset

/-! ### Resets (`70_reset_and_hazards.md`) -/

/-- `hardReset()` (R390): trace, memory and configuration are kept. -/
def hardReset (s : State) : State := { s with unit := UnitState.reset }

/-- `softReset()` (R392). -/
def softReset (s : State) : State :=
  ((cursorReset 0 (fifoClear (clearCommand s))).setDmaTo Transfer.reset).setDmaFrom Transfer.reset

/-! ### Register image (`45_host_register_interface.md`) -/

/-- The host address of the register at an offset (`20_memory.md` R76): the calls name offsets, and the platform's glue,
which is out of scope, decodes addresses to them (Log 14). -/
def regAddress (off : Nat) (s : State) : Addr := s.cfg.regBase + BitVec.ofNat 32 off

/-- `image64(CMD)` (R322). -/
def imageCMD (s : State) : BitVec 64 := image64 s.unit.cmd.busy s.unit.cmdData

/-- `image32(BP)` (R324, `30_encoding.md` R116). -/
def imageBP (s : State) : Word :=
  let c := s.unit.cur
  0#14 ++ (BitVec.ofNat 2 c.fp.val ++ (0#4 ++ (c.ifcSnap ++ (0#1 ++ (c.byteOfs ++ c.bitOfs)))))

/-- `image64(TOP)` (R325). -/
def imageTOP (s : State) : BitVec 64 :=
  if s.unit.cmd.busy = false ∧ 32 ≤ totalAvail s then
    image64 false (BitVec.ofNat 32 (streamValue (pendingQWords s) s.unit.cur.pos 32))
  else image64 true 0

/-- `regRead64(off)` (R330, R332). -/
def regRead64 (off : Nat) (s : State) : BitVec 64 :=
  if off = 0x00 then imageCMD s
  else if off = 0x10 then s.unit.ctrl.setWidth 64
  else if off = 0x20 then (imageBP s).setWidth 64
  else if off = 0x30 then imageTOP s
  else 0

/-- `regRead32(off)` (R321, R332). -/
def regRead32 (off : Nat) (s : State) : Word :=
  if off = 0x00 then (imageCMD s).setWidth 32
  else if off = 0x10 then s.unit.ctrl
  else if off = 0x20 then imageBP s
  else if off = 0x30 then (imageTOP s).setWidth 32
  else 0

/-- A write of `CTRL` (R326, R327): the masked update, then a soft reset where bit 30 of the value is 1. -/
def writeCtrl (v : Word) (s : State) : State :=
  let s := s.setCtrl (maskedCtrl s.unit.ctrl v)
  if v.getLsbD 30 then softReset s else s

/-- An outcome with the result of the call dropped (R328). -/
def dropResult : Host.Outcome State Fault Refusal → Host.Outcome State Fault Refusal
  | .next s => .next (s.setResult .none)
  | .fault f => .fault f
  | .refused r => .refused r

/-- `regWrite32(off, v)` (R326, R328, R329, R332). -/
def regWrite32 (off : Nat) (v : Word) (s : State) : Host.Outcome State Fault Refusal :=
  if off = 0x00 then dropResult (exec (decodeCommand v) s)
  else if off = 0x10 then .next ((writeCtrl v s).setResult .none)
  else .next (s.setResult .none)

/-! ### Persistence (R340 to R342) -/

/-- `canPersist()` (R340). -/
def canPersist (s : State) : Bool :=
  !s.unit.cmd.busy && !s.unit.dmaTo.inProgress && !s.unit.dmaFrom.inProgress

/-- `save()` (R341): the image is the whole unit without the trace. -/
def callSave (s : State) : Host.Outcome State Fault Refusal :=
  if canPersist s then .next (s.setResult (.image s.unit)) else .refused .saveNotPersistable

/-- `restore(image)` (R342). -/
def callRestore (cfg : UnitConfig) (image : UnitState) (s : State) : Host.Outcome State Fault Refusal :=
  if cfg = s.cfg then .next ({ s with unit := image }.setResult .none) else .refused .restoreOtherConfiguration

/-! ### Calls -/

/-- One call (`30_encoding.md` R120), at a state from whose queue it has been taken. -/
def runCall (c : Call) (s : State) : Host.Outcome State Fault Refusal :=
  match c with
  | .hardReset => .next ((hardReset s).setResult .none)
  | .softReset => .next ((softReset s).setResult .none)
  | .regRead32 off => .next (s.setResult (.word32 (regRead32 off s)))
  | .regRead64 off => .next (s.setResult (.word64 (regRead64 off s)))
  | .regWrite32 off v => regWrite32 off v s
  | .regWrite64 off v => regWrite32 off (v.setWidth 32) s
  | .cmdWrite w => exec (decodeCommand w) s
  | .dispatchStep => (dispatchStep (s.setResult .none)).outcome
  | .dmaKickTo mode addr byteCount => kickTo mode addr byteCount s
  | .dmaKickFrom addr byteCount => kickFrom addr byteCount s
  | .dmaAbort dir => .next ((dmaAbort dir s).setResult .none)
  | .tick n => .next ((tickBy n s).setResult .none)
  | .canPersist => .next (s.setResult (.bool (canPersist s)))
  | .save => callSave s
  | .restore cfg image => callRestore cfg image s
  | .hostStore addr bytes => .next ((s.setMem (Memory.writeBytes addr bytes s.mem)).setResult .none)
  | .continueStep => (dispatchStep s).outcome

/-! ### Placing one instruction (Log 1) -/

/-- The state whose next call writes a command word. -/
def placeCommand (w : Word) (s : State) : State := s.setCalls (.cmdWrite w :: s.calls)

/-- The state whose next call is a kick that fetches this tag: a chain transfer stands before the fetch, the tag lies at
its `NextMem`. -/
def placeTag (t : QWord) (s : State) : State :=
  let d := s.unit.dmaTo
  ((s.setMem (Memory.writeQW d.nextMem t s.mem)).setDmaTo
    { d with inProgress := true, mode := .chain, tagFollow := .follow, stalled := false
             dmaFinished := false, irqTriggered := false }).setCalls
    (.dmaKickTo .chain d.nextMem 0 :: s.calls)

end Sys2Proof.Machine
end

