-- ==== Sys2Proof/Machine/Step.lean ====
section
/-! DEFINITION. One step of the machine: the next call of the environment (`00_scope.md` R10, R11; Log 1). -/

namespace Sys2Proof.Machine

/-- One step: the oldest waiting call is made. Where none waits, nothing happens: the unit has no agent that steps on
its own (`00_scope.md` R11). -/
def step (s : State) : Host.Outcome State Fault Refusal :=
  match s.calls with
  | [] => .next s
  | c :: rest => runCall c (s.setCalls rest)

/-- The state whose next step runs the instruction of the table's bits `w` (Log 1, Log 8): a command word is written by
the next call; a tag lies where the next call, a kick, fetches it. -/
def State.withFetchWord (s : State) (nbits w : Nat) : State :=
  if nbits ≤ 32 then placeCommand (BitVec.ofNat 32 w) s else placeTag (BitVec.ofNat 128 w) s

end Sys2Proof.Machine
end

