-- ==== Sys2Proof/Safety.lean ====
section
/-! DEFINITION. The terms claims are stated in: what is left unchanged, what an interrupt source signalled, how the
stream moved, and the invariants of the unit (`10_state.md` R22, R23, R28, R31, R33 to R37, R44, R48, R49, R59, R61). -/

namespace Sys2Proof.Machine

/-! ### Frames -/

/-- Every byte of host memory reads as before. -/
def SameMemory (s t : State) : Prop := ∀ a, Memory.read t.mem a = Memory.read s.mem a

/-- Configuration, waiting calls, every byte of memory and the history of writes to it are unchanged. -/
def SameSetup (s t : State) : Prop :=
  t.cfg = s.cfg ∧ t.calls = s.calls ∧ SameMemory s t ∧ t.memWrites = s.memWrites

/-- The quantisation tables are unchanged. -/
def SameIq (s t : State) : Prop := t.unit.iqIntra = s.unit.iqIntra ∧ t.unit.iqNonIntra = s.unit.iqNonIntra

/-- The input side is unchanged: the cursor and the input FIFO. -/
def SameInput (s t : State) : Prop := t.unit.cur = s.unit.cur ∧ t.unit.fifoIn = s.unit.fifoIn

/-- The bits of `ctrl` named by `p` are unchanged. -/
def CtrlKept (p : Nat → Prop) (s t : State) : Prop := ∀ i, p i → t.unit.ctrl.getLsbD i = s.unit.ctrl.getLsbD i

/-- The bits of `ctrl` a host write or nothing at all may change: RST, PCT, MP1, QST, IVF, AS, IDP and the reserved
bits (`10_state.md` R21). -/
def hostCtrlBit (i : Nat) : Prop := 16 ≤ i ∧ i ≠ 31

/-! ### Functions that an instance supplies -/

/-- The table answers `a` to `q`, and nothing else. -/
def Answers {α β : Type} (table : List (α × β)) (q : α) (a : β) : Prop := (q, a) ∈ table ∧ ∀ b, (q, b) ∈ table → b = a

/-- The table lists no answer to `q`. -/
def Unlisted {α β : Type} (table : List (α × β)) (q : α) : Prop := ∀ b, (q, b) ∉ table

/-! ### Interrupts -/

/-- The effect of exactly one `raise(src)` (`60_exceptions.md` R361) between two states. -/
def Raised (src : IrqSrc) (s t : State) : Prop :=
  match s.cfg.irqPolicy with
  | .inline => t.irqTrace = s.irqTrace ++ [src] ∧ t.unit.pend = s.unit.pend
  | .deferred =>
    t.irqTrace = s.irqTrace ∧
      t.unit.pend = putPend s.unit.pend src (some ((pendOf s.unit.pend src).getD (delayOf s.cfg.irqDelay src)))

/-- No source was signalled. -/
def Quiet (s t : State) : Prop := t.irqTrace = s.irqTrace ∧ t.unit.pend = s.unit.pend

/-! ### The stream -/

/-- Bit `k` of the bits the cursor would deliver next. -/
def aheadBit (s : State) (k : Nat) : Bool := streamBit (pendingQWords s) (s.unit.cur.pos + k)

/-- The value of the `w` bits from bit `k` on of the bits the cursor would deliver next. -/
def aheadValue (s : State) (k w : Nat) : Nat := streamValue (pendingQWords s) (s.unit.cur.pos + k) w

/-- The input counter is the length of the input FIFO (`10_state.md` R22). -/
def InputCounted (s : State) : Prop := s.ifc.toNat = s.unit.fifoIn.length

/-- Exactly the next `n` bits of the stream were consumed: the bits ahead in `t` are those of `s` from bit `n` on, and the
position in the quadword moved by `n` (`40_bitstream_cursor.md` R153). -/
def Consumed (n : Nat) (s t : State) : Prop :=
  totalAvail t + n = totalAvail s ∧ t.unit.cur.pos = (s.unit.cur.pos + n) % 128 ∧
    ∀ k, k < totalAvail t → aheadBit t k = aheadBit s (n + k)

/-- The output counter is the length of the output FIFO (`10_state.md` R23). -/
def OutputCounted (s : State) : Prop := s.ofc.toNat = s.unit.fifoOut.length

/-- How many quadwords the input FIFO still takes. -/
def inRoom (s : State) : Nat := s.cfg.fifoInCap.toNat - s.unit.fifoIn.length

/-- How many quadwords the output FIFO still takes. -/
def outRoom (s : State) : Nat := s.cfg.fifoOutCap.toNat - s.unit.fifoOut.length

/-- Cursor operations were the last to touch the cursor: the snapshot is the live input counter, the dead marker is kept
(`40_bitstream_cursor.md` R154, `10_state.md` R44). -/
def Snapped (s t : State) : Prop := t.unit.cur.ifcSnap = t.ifc ∧ t.unit.cur.hasNew = s.unit.cur.hasNew

/-- How many bits the cursor's buffer holds once `k` quadwords have been pulled (`40_bitstream_cursor.md` R141). -/
def availAfter (k : Nat) (s : State) : Nat :=
  if s.unit.cur.fp.val + k = 0 then 0 else 128 * (s.unit.cur.fp.val + k) - s.unit.cur.pos

/-- From `s` to `t` the input FIFO gave up what `pull(want)` takes (`40_bitstream_cursor.md` R142): quadwords from its
head, one while fewer than `want` bits are in the buffer, until they are, the buffer is full or the FIFO empty. -/
def Pulled (want : Nat) (s t : State) : Prop :=
  ∃ k, k ≤ s.unit.fifoIn.length ∧ t.unit.fifoIn = s.unit.fifoIn.drop k ∧ s.unit.cur.fp.val + k ≤ 2 ∧
    (∀ j, j < k → availAfter j s < want) ∧
    (want ≤ availAfter k s ∨ s.unit.cur.fp.val + k = 2 ∨ k = s.unit.fifoIn.length)

/-- From `s` to `t` one cursor operation pulled for `want` bits and consumed exactly `n`; nothing but cursor, input FIFO and
input counter changed. -/
def InputMoved (want n : Nat) (s t : State) : Prop :=
  Consumed n s t ∧ InputCounted t ∧ Pulled want s t ∧ Snapped s t ∧ CtrlKept (fun i => 4 ≤ i) s t ∧
    t = { s with unit := { s.unit with cur := t.unit.cur, fifoIn := t.unit.fifoIn, ctrl := t.unit.ctrl } }

/-- Byte `j` of the bits the cursor would deliver next (`43_command_dispatcher.md` R257). -/
def aheadByte (s : State) (j : Nat) : Byte := BitVec.ofNat 8 (aheadValue s (8 * j) 8)

/-- The `n` quadwords of memory from an address on, in the order of their addresses. -/
def payload (m : List Host.Cell) (addr : Addr) (n : Nat) : List QWord :=
  (List.range n).map fun k => Memory.readQW m (addr + BitVec.ofNat 32 (16 * k))

/-- The memory writes of the quadwords `qs` to rising addresses from `addr` on (`20_memory.md` R92). -/
def storedWrites (addr : Addr) (qs : List QWord) : List MemWrite :=
  (List.range qs.length).map fun k => ⟨addr + BitVec.ofNat 32 (16 * k), qs.getD k 0⟩

/-! ### Commands -/

/-- The command has completed (`43_command_dispatcher.md` R237): the command state is cleared, one CMD interrupt raised. -/
def Completed (s t : State) : Prop :=
  t.unit.cmd = Command.idle ∧ t.unit.lib = none ∧ ctrlBUSY t.unit.ctrl = false ∧ Raised .cmd s t

/-- The command `w` is in flight with these markers, and no interrupt was raised (R236, R238). -/
def Waiting (w p0 p1 ix : Word) (s t : State) : Prop :=
  t.unit.cmd = ⟨w, true, p0, p1, ix⟩ ∧ ctrlBUSY t.unit.ctrl = true ∧ Quiet s t

/-- The error flags read zero (R234). -/
def FlagsCleared (t : State) : Prop := ctrlECD t.unit.ctrl = false ∧ ctrlSCD t.unit.ctrl = false

/-- A rejected command write (R231, R233): ECD is set, and nothing else changes. -/
def RejectedOnly (r : RejectReason) (s t : State) : Prop :=
  t.result = .rejected r ∧ ctrlECD t.unit.ctrl = true ∧ CtrlKept (fun i => i ≠ 14) s t ∧
    t.unit = { s.unit with ctrl := t.unit.ctrl } ∧ t.irqTrace = s.irqTrace ∧ SameSetup s t

/-- The FB field and the library command of an instruction that opens a session (R241 to R243). -/
def librarySession : Instr → Option (BitVec 6 × LibCommand)
  | .idec fb qsc dtd sgn _ _ _ _ => some (fb, .idec qsc dtd sgn)
  | .bdec fb qsc dt dcr mbi _ _ => some (fb, .bdec qsc dt dcr mbi)
  | .vdec fb tbl _ => some (fb, .vdec tbl)
  | .bclr _ _ | .fdec _ _ | .setiq _ _ _ | .setvq _ | .csc _ _ _ _ | .pack _ _ _ _ | .setth _ _ _ _ | .invalid101 _ _
  | .invalid11 _ _ | .tagFollow _ | .tagQwc _ | .tagAddr _ | .tagNone _ | .tagMalformed _ _ => none

/-- The command in flight converts `mbc` macroblocks to a format (R247, R248). -/
def Converting (s : State) (mbc : BitVec 11) (dte : Bool) (fmt : Format) : Prop :=
  s.unit.cmd.busy = true ∧
    ((∃ ofm unused, decodeCommand s.unit.cmd.current = .csc mbc dte ofm unused ∧ fmt = colourFormat ofm) ∨
      ∃ ofm unused, decodeCommand s.unit.cmd.current = .pack mbc dte ofm unused ∧ fmt = packFormat ofm)

/-- The next `n` bytes of the stream went to `mb.raw` from byte `k` on, and nowhere else in the buffer (R247, R257). -/
def RawFilled (k n : Nat) (s t : State) : Prop :=
  t.unit.mb.rgb32 = s.unit.mb.rgb32 ∧ ∀ j, j < 384 →
    t.unit.mb.raw.getD j 0 = if k ≤ j ∧ j < k + n then aheadByte s (j - k) else s.unit.mb.raw.getD j 0

/-- The next `n` bytes of the stream went to the channels of `mb.rgb32` from channel `k` on, and nowhere else in the buffer
(R248, R257). -/
def PixelsFilled (k n : Nat) (s t : State) : Prop :=
  t.unit.mb.raw = s.unit.mb.raw ∧ ∀ j, j < 1024 →
    (flatPixel t.unit.mb.rgb32 (j / 4)).channel (j % 4) =
      if k ≤ j ∧ j < k + n then aheadByte s (j - k) else (flatPixel s.unit.mb.rgb32 (j / 4)).channel (j % 4)

/-- The same command but for unused option bits (`30_encoding.md` R111). -/
def sameFields : Instr → Instr → Prop
  | .bclr bp _, .bclr bp' _ => bp = bp'
  | .idec fb qsc dtd sgn dte ofm _ _, .idec fb' qsc' dtd' sgn' dte' ofm' _ _ =>
    fb = fb' ∧ qsc = qsc' ∧ dtd = dtd' ∧ sgn = sgn' ∧ dte = dte' ∧ ofm = ofm'
  | .bdec fb qsc dt dcr mbi _ _, .bdec fb' qsc' dt' dcr' mbi' _ _ =>
    fb = fb' ∧ qsc = qsc' ∧ dt = dt' ∧ dcr = dcr' ∧ mbi = mbi'
  | .vdec fb tbl _, .vdec fb' tbl' _ => fb = fb' ∧ tbl = tbl'
  | .fdec fb _, .fdec fb' _ => fb = fb'
  | .setiq fb iqm _, .setiq fb' iqm' _ => fb = fb' ∧ iqm = iqm'
  | .setvq _, .setvq _ => True
  | .csc mbc dte ofm _, .csc mbc' dte' ofm' _ => mbc = mbc' ∧ dte = dte' ∧ ofm = ofm'
  | .pack mbc dte ofm _, .pack mbc' dte' ofm' _ => mbc = mbc' ∧ dte = dte' ∧ ofm = ofm'
  | .setth th0 th1 _ _, .setth th0' th1' _ _ => th0 = th0' ∧ th1 = th1'
  | _, _ => False

/-! ### The decode library's contract (`43_command_dispatcher.md` R252, R254; Log 9) -/

/-- The request is in the ranges of R252 for a session of this command. -/
def requestAllowed (c : LibCommand) : LibRequest → Prop
  | .skip n => n ≤ 63
  | .read n => 1 ≤ n ∧ n ≤ 32
  | .peek n => 1 ≤ n ∧ n ≤ 32
  | .align => True
  | .refill _ bytes => bytes ≤ Config.bufCap
  | .emitMB _ => ∃ qsc dtd sgn, c = .idec qsc dtd sgn
  | .emitCoef _ => ∃ qsc dt dcr mbi, c = .bdec qsc dt dcr mbi
  | .done _ => True

/-- From session `ses` at `s`, `n` requests of the cursor were answered one after the other, which left session `ses'` at
`t` (R252). -/
def SessionRun : Nat → LibSession → State → LibSession → State → Prop
  | 0, ses, s, ses', t => ses' = ses ∧ t = s
  | n + 1, ses, s, ses', t => ∃ a u, serveCursor ses.req s = .reply a u ∧ SessionRun n (libAnswer s.cfg ses a) u ses' t

/-- A dispatch step of a command with a session begins its session part at `u` with session `ses`: after the `FB` bits with
a session opened now (R250, R251, R256), or in phase 1 with the one that is open. -/
def SessionBegins (fb : BitVec 6) (c : LibCommand) (s : State) (ses : LibSession) (u : State) : Prop :=
  (s.unit.cmd.pos0 = 0 ∧ s.unit.lib = none ∧ skipBits fb.toNat s = .ok () u ∧ ses = libOpen c s) ∨
    (s.unit.cmd.pos0 = 1 ∧ s.unit.lib = some ses ∧ u = s)

/-- What an emit request of the command in flight puts out (R241, R242): the macroblock buffer as the request leaves it, and
`total` quadwords, those of the converted macroblock under IDEC, of the coefficients under BDEC. -/
def Emits (s : State) (c : LibCommand) (req : LibRequest) (mb : MacroblockBuffer) (total : Nat) (qw : Nat → QWord) : Prop :=
  (∃ fb qsc dtd sgn dte ofm lo hi raw, decodeCommand s.unit.cmd.current = .idec fb qsc dtd sgn dte ofm lo hi ∧
      c = .idec qsc dtd sgn ∧ req = .emitMB raw ∧
      mb = ⟨raw, convertMacroblock s.cfg.pixel raw s.unit.th0 s.unit.th1⟩ ∧ total = (colourFormat ofm).outCount ∧
      qw = outQW s.cfg.pixel s.unit.vqclut (colourFormat ofm) dte mb.rgb32) ∨
    ∃ fb qsc dt dcr mbi lo hi coef, decodeCommand s.unit.cmd.current = .bdec fb qsc dt dcr mbi lo hi ∧
      c = .bdec qsc dt dcr mbi ∧ req = .emitCoef coef ∧ mb = s.unit.mb ∧ total = 48 ∧ qw = coefQW coef

/-- What the session `ses` of the command in flight is putting out in phase 2 (R241, R242): `total` quadwords, those of the
macroblock buffer under IDEC, of the outstanding request under BDEC; and `cmd.index` once they are out, which counts the
macroblocks of IDEC. -/
def Draining (s : State) (ses : LibSession) (total : Nat) (qw : Nat → QWord) (index : Word) : Prop :=
  (∃ fb qsc dtd sgn dte ofm lo hi, decodeCommand s.unit.cmd.current = .idec fb qsc dtd sgn dte ofm lo hi ∧
      total = (colourFormat ofm).outCount ∧
      qw = outQW s.cfg.pixel s.unit.vqclut (colourFormat ofm) dte s.unit.mb.rgb32 ∧ index = s.unit.cmd.index + 1) ∨
    ∃ fb qsc dt dcr mbi lo hi coef, decodeCommand s.unit.cmd.current = .bdec fb qsc dt dcr mbi lo hi ∧
      ses.req = .emitCoef coef ∧ total = 48 ∧ qw = coefQW coef ∧ index = s.unit.cmd.index

/-! ### Calls -/

/-- The outcome of the call that makes a dispatch step (`43_command_dispatcher.md` R235), from how the step ended: the
state where the command suspended or completed, with the rest of the call put first where the step was cut (Log 5). -/
def stepEnd : Flow → Host.Outcome State Fault Refusal
  | .go t | .stop t => .next t
  | .more t => .next { t with calls := .continueStep :: t.calls }
  | .fault f => .fault f
  | .refused r => .refused r

/-- The command word a call works on: the one it writes, else the one in flight. -/
def Call.commandWord (s : State) : Call → Word
  | .cmdWrite w => w
  | .regWrite32 _ v => v
  | .regWrite64 _ v => v.setWidth 32
  | .hardReset | .softReset | .regRead32 _ | .regRead64 _ | .dispatchStep | .dmaKickTo _ _ _ | .dmaKickFrom _ _
  | .dmaAbort _ | .tick _ | .canPersist | .save | .restore _ _ | .hostStore _ _ | .continueStep => s.unit.cmd.current

/-- The source a call may raise (`60_exceptions.md` R366). -/
def Call.source : Call → Option IrqSrc
  | .cmdWrite _ | .dispatchStep | .continueStep | .regWrite32 _ _ | .regWrite64 _ _ => some .cmd
  | .dmaKickTo _ _ _ => some .toUnit
  | .dmaKickFrom _ _ => some .fromUnit
  | .hardReset | .softReset | .regRead32 _ | .regRead64 _ | .dmaAbort _ | .tick _ | .canPersist | .save | .restore _ _
  | .hostStore _ _ => none

/-- The order of simultaneous expiries (R363). -/
def irqRank : IrqSrc → Nat
  | .toUnit => 0
  | .fromUnit => 1
  | .cmd => 2

/-! ### Invariants -/

/-- Counters and queues of the FifoGate agree (`10_state.md` R22, R23, R50, R51; `41_fifo_gate.md` R178). -/
def FifoInv (cfg : UnitConfig) (u : UnitState) : Prop :=
  (ctrlIFC u.ctrl).toNat = u.fifoIn.length ∧ u.fifoIn.length ≤ cfg.fifoInCap.toNat ∧
    (ctrlOFC u.ctrl).toNat = u.fifoOut.length ∧ u.fifoOut.length ≤ cfg.fifoOutCap.toNat

/-- The opcode of the command in flight (`10_state.md` R35). -/
def Command.opcode (c : Command) : Nat := (c.current.extractLsb' 28 4).toNat

/-- The command state is consistent (`10_state.md` R33, R35 to R37, R61). -/
def CommandInv (u : UnitState) : Prop :=
  (u.cmd.busy = true ↔ u.cmd.current ≠ currentNone) ∧ ctrlBUSY u.ctrl = u.cmd.busy ∧
    (u.cmd.busy = true → 1 ≤ u.cmd.opcode ∧ u.cmd.opcode ≤ 9) ∧
    (u.cmd.busy = false → u.cmd.pos0 = 0 ∧ u.cmd.pos1 = 0 ∧ u.cmd.index = 0) ∧
    (u.lib ≠ none → u.cmd.busy = true ∧ u.cmd.opcode ≤ 3)

/-- Fewer macroblocks are finished than the CSC or PACK in flight has (`46_operation_classes_and_laws.md` R270: `cmd.index`
is 0 to `MBC`, and the step that reaches `MBC` completes, `43_command_dispatcher.md` R247, R248). -/
def IndexInv (u : UnitState) : Prop :=
  u.cmd.busy = true → ∀ mbc dte ofm unused,
    decodeCommand u.cmd.current = .csc mbc dte ofm unused ∨ decodeCommand u.cmd.current = .pack mbc dte ofm unused →
    u.cmd.index.toNat < mbc.toNat

/-- The reserved bits of `ctrl` read zero (`10_state.md` R28, R31). -/
def ReservedInv (u : UnitState) : Prop := getField 18 2 u.ctrl = 0 ∧ getField 27 3 u.ctrl = 0

/-- The status flags of a transfer are consistent (`10_state.md` R49). -/
def StatusInv (d : Transfer) : Prop :=
  (d.dmaFinished = true → d.inProgress = false ∧ d.remaining = 0) ∧
    (d.irqTriggered = true → d.dmaFinished = true) ∧ (d.stalled = true → d.inProgress = true)

/-- In a chain in progress only stage QWC has payload left, and a stall is a full FIFO in stage QWC or a malformed tag in
stage FOLLOW (`42_dma_tag_walker.md` R198, R207). -/
def ChainInv (d : Transfer) : Prop :=
  d.inProgress = true → d.mode = .chain →
    (d.tagFollow ≠ .qwc → d.remaining = 0) ∧
      (d.stalled = true → d.tagFollow = .follow ∨ d.tagFollow = .qwc ∧ d.remaining ≠ 0)

/-- The addresses of a transfer are multiples of 16 (`46_operation_classes_and_laws.md` R274). -/
def AlignedInv (d : Transfer) : Prop := d.memAddr.toNat % 16 = 0 ∧ d.nextMem.toNat % 16 = 0

/-- Both transfers are consistent and aligned; the out-of-unit one uses no tags (`10_state.md` R48, R49). -/
def DmaInv (u : UnitState) : Prop :=
  StatusInv u.dmaTo ∧ ChainInv u.dmaTo ∧ AlignedInv u.dmaTo ∧ StatusInv u.dmaFrom ∧ AlignedInv u.dmaFrom ∧
    u.dmaFrom.mode = .normal ∧ u.dmaFrom.tagFollow = .none ∧ u.dmaFrom.nextMem = 0 ∧ u.dmaFrom.tagWord = 0

/-- No slot is armed under the inline policy (`10_state.md` R59); an armed one waits at most its delay (`46` R270). -/
def PendInv (cfg : UnitConfig) (u : UnitState) : Prop :=
  ∀ src c, pendOf u.pend src = some c → cfg.irqPolicy = .deferred ∧ c ≤ delayOf cfg.irqDelay src

/-- The dead marker is false (`10_state.md` R44). -/
def HasNewInv (u : UnitState) : Prop := u.cur.hasNew = false

/-- A property of the unit that holds of the state and of every image waiting to be restored under the same configuration
(`45_host_register_interface.md` R342: an image is a state the unit was in). -/
def Held (P : UnitConfig → UnitState → Prop) (s : State) : Prop :=
  P s.cfg s.unit ∧ ∀ image, Call.restore s.cfg image ∈ s.calls → P s.cfg image

/-- A property of the unit that every step keeps. -/
def StepKeeps (P : UnitConfig → UnitState → Prop) : Prop :=
  ∀ s t, Held P s → step s = .next t → Held P t

end Sys2Proof.Machine
end

