-- ==== Sys2Proof/Certificates/Slice0/Obligations.lean ====
section
/-! DEFINITION. The statements for the provers. Each docstring names the rules of `spec/` it formalises. -/

open Sys2Proof Sys2Proof.Machine

/-! ### Encoding -/

/-- Decoding an encoded well-formed instruction gives it back, whatever bytes follow (`30_encoding.md` R100 to R114,
R118). -/
def Obligations.DecodeOfEncodeIsIdentity : Prop :=
  ∀ (i : Instr) (rest : List Byte), i.wf = true → decode i.port (encode i ++ rest) = .ok (i, rest)

/-- Every command word and every tag decodes to a well-formed instruction of its port, which encodes to that word
(`30_encoding.md` R111, R112: decoding is total and keeps every bit). -/
def Obligations.EveryWordReencodes : Prop :=
  (∀ w : Word, (decodeCommand w).wf = true ∧ (decodeCommand w).port = .command ∧ (decodeCommand w).word = w) ∧
    ∀ t : QWord, (decodeTag t).wf = true ∧ (decodeTag t).port = .tag ∧ (decodeTag t).bits = t

/-- A few words written out from the layouts of `30_encoding.md` R101 to R112 decode to the instructions they stand for. -/
def Obligations.SpecWordsDecode : Prop :=
  decodeCommand 0x10050000#32 = .idec 0 5 false false false false 0 0 ∧
    decodeCommand 0x4000003F#32 = .fdec 63 0 ∧
    decodeCommand 0x70000001#32 = .csc 1 false false 0 ∧
    decodeCommand 0x90200010#32 = .setth 0x10 0x20 0 0 ∧
    decodeCommand 0xA0000000#32 = .invalid101 10 0 ∧
    decodeCommand 0xC0000000#32 = .invalid11 12 0 ∧
    decodeTag 0x0000300000000002#128 = .tagFollow ⟨2, 0x3000, 0, 0, 0⟩ ∧
    decodeTag 0x0000500050000003#128 = .tagMalformed 5 ⟨3, 0x5000, 0, 0, 0⟩

/-- Unused option bits are ignored (`30_encoding.md` R111): from an idle unit, two commands that differ in them only leave
the same state, but for `cmd.current`, which keeps the word as it was written while the command is in flight. -/
def Obligations.UnusedBitsAreIgnored : Prop :=
  ∀ (i j : Instr) (s t : State), sameFields i j → s.unit.cmd.busy = false → exec i s = .next t →
    exec j s = .next (if t.unit.cmd.busy then t.setCmd { t.unit.cmd with current := j.word } else t)

/-! ### The step -/

/-- One step makes the oldest waiting call (Log 1). Written through `cmdWrite` or the register `CMD`, a command word runs
the well-formed instruction it decodes to (`43_command_dispatcher.md` R230, `45_host_register_interface.md` R328), the
register write dropping the result; accepted on an idle unit, the command makes its first dispatch step inside the call
(R234). A kick whose walker stands before a fetch runs the instruction the sixteen bytes at `NextMem` decode to
(`42_dma_tag_walker.md` R192, R200), and so does a kick that starts a chain, at the rounded address. Every call of
`30_encoding.md` R120 that runs no instruction is the operation of its rule on the state without the call: a dispatch step
(R235) or the rest of one that was cut (Log 5), any kick (R191, R210), time (R363), persistence (R340 to R342), and a store of
the environment (`20_memory.md` R92); the others are in the statements on registers, resets and aborts. -/
def Obligations.StepRunsDecodedInstruction : Prop :=
  (∀ (i : Instr) (rest : List Call) (s : State), i.wf = true → i.port = .command → s.calls = .cmdWrite i.word :: rest →
      step s = exec i (s.setCalls rest)) ∧
    (∀ (i : Instr) (rest : List Call) (s : State), i.wf = true → i.port = .command →
      s.calls = .regWrite32 0x00 i.word :: rest → step s = dropResult (exec i (s.setCalls rest))) ∧
    (∀ (i : Instr) (mode : DmaMode) (a : Addr) (n : Word) (rest : List Call) (s : State), i.wf = true →
      s.calls = .dmaKickTo mode a n :: rest → fetchEnabled s = true →
      decode .tag ((List.range 16).map fun k => Memory.read s.mem (s.unit.dmaTo.nextMem + BitVec.ofNat 32 k).toNat) =
        .ok (i, []) →
      step s = exec i ((s.setCalls rest).setResult (.status 0))) ∧
    (∀ (i : Instr) (a : Addr) (n : Word) (rest : List Call) (s : State), i.wf = true →
      s.calls = .dmaKickTo .chain a n :: rest → s.unit.dmaTo.inProgress = false →
      decode .tag ((List.range 16).map fun k => Memory.read s.mem (align16 a + BitVec.ofNat 32 k).toNat) = .ok (i, []) →
      step s = exec i (((s.setCalls rest).setDmaTo
        { inProgress := true, mode := .chain, dmaFinished := false, irqTriggered := false, tagFollow := .follow
          nextMem := align16 a, stalled := false, memAddr := 0, remaining := 0, tagWord := 0 }).setResult (.status 0))) ∧
    (∀ (w : Word) (s : State), 1 ≤ (w.extractLsb' 28 4).toNat → (w.extractLsb' 28 4).toNat ≤ 9 → s.unit.cmd.busy = false →
      ∃ c : Word,
        (∀ i, i < 32 → c.getLsbD i = if i = 14 ∨ i = 15 then false else if i = 31 then true else s.unit.ctrl.getLsbD i) ∧
        exec (decodeCommand w) s = stepEnd (dispatchStep { s with
          result := .accepted, unit := { s.unit with ctrl := c, cmd := ⟨w, true, 0, 0, 0⟩, lib := none } })) ∧
    ∀ (c : Call) (rest : List Call) (s : State), s.calls = c :: rest →
      (c = .dispatchStep → step s = stepEnd (dispatchStep { s with calls := rest, result := .none })) ∧
      (c = .continueStep → step s = stepEnd (dispatchStep { s with calls := rest })) ∧
      (∀ mode a n, c = .dmaKickTo mode a n → step s = kickTo mode a n { s with calls := rest }) ∧
      (∀ a n, c = .dmaKickFrom a n → step s = kickFrom a n { s with calls := rest }) ∧
      (∀ n, c = .tick n → step s = .next { tickBy n { s with calls := rest } with result := .none }) ∧
      (c = .canPersist → step s = .next { s with
        calls := rest
        result := .bool (!(s.unit.cmd.busy || s.unit.dmaTo.inProgress || s.unit.dmaFrom.inProgress)) }) ∧
      (c = .save → step s = callSave { s with calls := rest }) ∧
      (∀ cfg image, c = .restore cfg image → step s = callRestore cfg image { s with calls := rest }) ∧
      ∀ a bs, c = .hostStore a bs →
        step s = .next { s with calls := rest, result := .none, mem := Memory.writeBytes a bs s.mem }

/-! ### Commands: what they do and where they complete -/

/-- BCLR (`43_command_dispatcher.md` R240), busy or not: the command is aborted, both FIFOs, their counters and the stall
flags are cleared, the cursor is emptied and stands at `BP`, one CMD interrupt is raised; nothing else changes. -/
def Obligations.BclrClearsFifosAndCursor : Prop :=
  ∀ (bp : BitVec 7) (unused : BitVec 21) (s : State), ∃ t, exec (.bclr bp unused) s = .next t ∧
    Completed s t ∧ t.result = .accepted ∧
    t.unit.fifoIn = [] ∧ t.unit.fifoOut = [] ∧ t.ifc = 0 ∧ t.ofc = 0 ∧ t.unit.stall = ⟨false, false, false⟩ ∧
    t.unit.cur.fp.val = 0 ∧ t.unit.cur.slot = Vector.replicate 2 0 ∧ t.unit.cur.pos = bp.toNat ∧
    t.unit.cur.hasNew = false ∧ t.unit.cur.ifcSnap = 0 ∧
    CtrlKept (fun i => 8 ≤ i ∧ i ≠ 31) s t ∧ SameSetup s t ∧
    t.unit = { s.unit with
      ctrl := t.unit.ctrl, cmd := t.unit.cmd, cur := t.unit.cur, fifoIn := t.unit.fifoIn, fifoOut := t.unit.fifoOut
      stall := t.unit.stall, pend := t.unit.pend, lib := t.unit.lib }

/-- SETTH (R249) on an idle unit completes at once with both thresholds loaded; nothing else changes but the error flags,
cleared by acceptance (R234). -/
def Obligations.SetthLoadsThresholds : Prop :=
  ∀ (th0 th1 : BitVec 9) (lo : BitVec 7) (hi : BitVec 3) (s : State), s.unit.cmd.busy = false →
    ∃ t, exec (.setth th0 th1 lo hi) s = .next t ∧ t.unit.th0 = th0 ∧ t.unit.th1 = th1 ∧
      Completed s t ∧ t.result = .accepted ∧ FlagsCleared t ∧
      CtrlKept (fun i => i ≠ 14 ∧ i ≠ 15 ∧ i ≠ 31) s t ∧ SameSetup s t ∧
      t.unit = { s.unit with
        ctrl := t.unit.ctrl, cmd := t.unit.cmd, th0 := t.unit.th0, th1 := t.unit.th1, pend := t.unit.pend
        lib := t.unit.lib }

/-- FDEC (R244) with the bits it needs ahead, when it is written to an idle unit and when a dispatch step resumes it (R235,
R238; in phase 1 the `FB` bits are behind it): it skips the `FB` bits, shows the next 32 in `cmdData` without consuming
them, and completes. -/
def Obligations.FdecShowsWithoutConsuming : Prop :=
  (∀ (fb : BitVec 6) (unused : BitVec 22) (s : State), s.unit.cmd.busy = false → InputCounted s →
    fb.toNat + 32 ≤ totalAvail s →
    ∃ t, exec (.fdec fb unused) s = .next t ∧ t.unit.cmdData = BitVec.ofNat 32 (aheadValue s fb.toNat 32) ∧
      Completed s t ∧ t.result = .accepted ∧ Consumed fb.toNat s t ∧ InputCounted t ∧ Snapped s t ∧ FlagsCleared t ∧
      CtrlKept (fun i => 4 ≤ i ∧ i ≠ 14 ∧ i ≠ 15 ∧ i ≠ 31) s t ∧ SameSetup s t ∧
      t.unit = { s.unit with
        ctrl := t.unit.ctrl, cmd := t.unit.cmd, cmdData := t.unit.cmdData, cur := t.unit.cur, fifoIn := t.unit.fifoIn
        pend := t.unit.pend, lib := t.unit.lib }) ∧
    ∀ (fb : BitVec 6) (unused : BitVec 22) (m : Nat) (s : State), s.unit.cmd.busy = true →
      decodeCommand s.unit.cmd.current = .fdec fb unused → InputCounted s →
      m = (if s.unit.cmd.pos0 = 0 then fb.toNat else 0) → m + 32 ≤ totalAvail s →
      ∃ t, dispatchStep s = .stop t ∧ t.unit.cmdData = BitVec.ofNat 32 (aheadValue s m 32) ∧
        Completed s t ∧ t.result = s.result ∧ Consumed m s t ∧ InputCounted t ∧ Snapped s t ∧
        CtrlKept (fun i => 4 ≤ i ∧ i ≠ 31) s t ∧ SameSetup s t ∧
        t.unit = { s.unit with
          ctrl := t.unit.ctrl, cmd := t.unit.cmd, cmdData := t.unit.cmdData, cur := t.unit.cur, fifoIn := t.unit.fifoIn
          pend := t.unit.pend, lib := t.unit.lib }

/-- FDEC with less input suspends (R238, R244, R256), when it is written and when a dispatch step resumes it: short of the
`FB` bits nothing is skipped and it waits in phase 0; with those, but short of 32 more, they are skipped and it waits in
phase 1. -/
def Obligations.FdecWaitsForInput : Prop :=
  (∀ (fb : BitVec 6) (unused : BitVec 22) (s : State), s.unit.cmd.busy = false → InputCounted s →
    totalAvail s < fb.toNat + 32 →
    ∃ t, exec (.fdec fb unused) s = .next t ∧ t.result = .accepted ∧ FlagsCleared t ∧ InputCounted t ∧ Snapped s t ∧
      (totalAvail s < fb.toNat → Consumed 0 s t ∧ Waiting (Instr.fdec fb unused).word 0 0 0 s t) ∧
      (fb.toNat ≤ totalAvail s → Consumed fb.toNat s t ∧ Waiting (Instr.fdec fb unused).word 1 0 0 s t) ∧
      CtrlKept (fun i => 4 ≤ i ∧ i ≠ 14 ∧ i ≠ 15 ∧ i ≠ 31) s t ∧ SameSetup s t ∧
      t.unit = { s.unit with
        ctrl := t.unit.ctrl, cmd := t.unit.cmd, cur := t.unit.cur, fifoIn := t.unit.fifoIn, lib := none }) ∧
    ∀ (fb : BitVec 6) (unused : BitVec 22) (m : Nat) (s : State), s.unit.cmd.busy = true →
      decodeCommand s.unit.cmd.current = .fdec fb unused → InputCounted s →
      m = (if s.unit.cmd.pos0 = 0 then fb.toNat else 0) → totalAvail s < m + 32 →
      ∃ t, dispatchStep s = .stop t ∧ t.result = s.result ∧ InputCounted t ∧ Snapped s t ∧ Quiet s t ∧
        (totalAvail s < m → Consumed 0 s t ∧ t.unit.cmd = s.unit.cmd) ∧
        (m ≤ totalAvail s → Consumed m s t ∧
          t.unit.cmd = (if s.unit.cmd.pos0 = 0 then { s.unit.cmd with pos0 := 1, pos1 := 0 } else s.unit.cmd)) ∧
        CtrlKept (fun i => 4 ≤ i) s t ∧ SameSetup s t ∧
        t.unit = { s.unit with ctrl := t.unit.ctrl, cmd := t.unit.cmd, cur := t.unit.cur, fifoIn := t.unit.fifoIn }

/-- SETIQ (R245), all or nothing, when it is written to an idle unit and when a dispatch step resumes it (R235, R238): with
`FB + 512` bits ahead it skips `FB` bits, loads the 64 bytes that follow into the table `IQM` names and completes; with
fewer it consumes nothing, loads nothing and waits. -/
def Obligations.SetiqLoadsTableOrWaits : Prop :=
  (∀ (fb : BitVec 6) (iqm : Bool) (unused : BitVec 21) (s : State), s.unit.cmd.busy = false → InputCounted s →
    ∃ t, exec (.setiq fb iqm unused) s = .next t ∧ t.result = .accepted ∧ FlagsCleared t ∧ InputCounted t ∧
      Snapped s t ∧
      (fb.toNat + 512 ≤ totalAvail s → Completed s t ∧ Consumed (fb.toNat + 512) s t ∧
        (∀ k, k < 64 → (if iqm then t.unit.iqNonIntra else t.unit.iqIntra).getD k 0 =
          BitVec.ofNat 8 (aheadValue s (fb.toNat + 8 * k) 8)) ∧
        (if iqm then t.unit.iqIntra = s.unit.iqIntra else t.unit.iqNonIntra = s.unit.iqNonIntra)) ∧
      (totalAvail s < fb.toNat + 512 →
        Waiting (Instr.setiq fb iqm unused).word 0 0 0 s t ∧ Consumed 0 s t ∧ SameIq s t ∧ t.unit.lib = none) ∧
      CtrlKept (fun i => 4 ≤ i ∧ i ≠ 14 ∧ i ≠ 15 ∧ i ≠ 31) s t ∧ SameSetup s t ∧
      t.unit = { s.unit with
        ctrl := t.unit.ctrl, cmd := t.unit.cmd, cur := t.unit.cur, fifoIn := t.unit.fifoIn, iqIntra := t.unit.iqIntra
        iqNonIntra := t.unit.iqNonIntra, pend := t.unit.pend, lib := t.unit.lib }) ∧
    ∀ (fb : BitVec 6) (iqm : Bool) (unused : BitVec 21) (s : State), s.unit.cmd.busy = true →
      decodeCommand s.unit.cmd.current = .setiq fb iqm unused → InputCounted s →
      (fb.toNat + 512 ≤ totalAvail s →
        ∃ t, dispatchStep s = .stop t ∧ Completed s t ∧ Consumed (fb.toNat + 512) s t ∧ InputCounted t ∧ Snapped s t ∧
          (∀ k, k < 64 → (if iqm then t.unit.iqNonIntra else t.unit.iqIntra).getD k 0 =
            BitVec.ofNat 8 (aheadValue s (fb.toNat + 8 * k) 8)) ∧
          (if iqm then t.unit.iqIntra = s.unit.iqIntra else t.unit.iqNonIntra = s.unit.iqNonIntra) ∧
          t.result = s.result ∧ CtrlKept (fun i => 4 ≤ i ∧ i ≠ 31) s t ∧ SameSetup s t ∧
          t.unit = { s.unit with
            ctrl := t.unit.ctrl, cmd := t.unit.cmd, cur := t.unit.cur, fifoIn := t.unit.fifoIn
            iqIntra := t.unit.iqIntra, iqNonIntra := t.unit.iqNonIntra, pend := t.unit.pend, lib := t.unit.lib }) ∧
      (totalAvail s < fb.toNat + 512 → ∃ t, dispatchStep s = .stop t ∧ InputMoved (fb.toNat + 512) 0 s t)

/-- SETVQ (R246), all or nothing, when it is written to an idle unit and when a dispatch step resumes it (R235, R238): with
256 bits ahead it loads sixteen values, low byte first, and completes; with fewer it consumes nothing, loads nothing and
waits. -/
def Obligations.SetvqLoadsColoursOrWaits : Prop :=
  (∀ (unused : BitVec 28) (s : State), s.unit.cmd.busy = false → InputCounted s →
    ∃ t, exec (.setvq unused) s = .next t ∧ t.result = .accepted ∧ FlagsCleared t ∧ InputCounted t ∧ Snapped s t ∧
      (256 ≤ totalAvail s → Completed s t ∧ Consumed 256 s t ∧
        ∀ k, k < 16 → (t.unit.vqclut.getD k 0).toNat = aheadValue s (16 * k + 8) 8 * 256 + aheadValue s (16 * k) 8) ∧
      (totalAvail s < 256 → Waiting (Instr.setvq unused).word 0 0 0 s t ∧ Consumed 0 s t ∧
        t.unit.vqclut = s.unit.vqclut ∧ t.unit.lib = none) ∧
      CtrlKept (fun i => 4 ≤ i ∧ i ≠ 14 ∧ i ≠ 15 ∧ i ≠ 31) s t ∧ SameSetup s t ∧
      t.unit = { s.unit with
        ctrl := t.unit.ctrl, cmd := t.unit.cmd, cur := t.unit.cur, fifoIn := t.unit.fifoIn, vqclut := t.unit.vqclut
        pend := t.unit.pend, lib := t.unit.lib }) ∧
    ∀ (unused : BitVec 28) (s : State), s.unit.cmd.busy = true → decodeCommand s.unit.cmd.current = .setvq unused →
      InputCounted s →
      (256 ≤ totalAvail s →
        ∃ t, dispatchStep s = .stop t ∧ Completed s t ∧ Consumed 256 s t ∧ InputCounted t ∧ Snapped s t ∧
          (∀ k, k < 16 →
            (t.unit.vqclut.getD k 0).toNat = aheadValue s (16 * k + 8) 8 * 256 + aheadValue s (16 * k) 8) ∧
          t.result = s.result ∧ CtrlKept (fun i => 4 ≤ i ∧ i ≠ 31) s t ∧ SameSetup s t ∧
          t.unit = { s.unit with
            ctrl := t.unit.ctrl, cmd := t.unit.cmd, cur := t.unit.cur, fifoIn := t.unit.fifoIn
            vqclut := t.unit.vqclut, pend := t.unit.pend, lib := t.unit.lib }) ∧
      (totalAvail s < 256 → ∃ t, dispatchStep s = .stop t ∧ InputMoved 256 0 s t)

/-- CSC and PACK on an idle unit (R247, R248): with `MBC = 0` they complete at once, having consumed and produced nothing;
else they read the whole bytes the stream holds into the macroblock buffer, which is less than a macroblock, and wait for
the rest in phase 0. A dispatch step in phase 0 short of the rest of a macroblock (R235, R238, R257) goes on the same way at
byte `cmd.pos1`. -/
def Obligations.ConvertersTakeFirstBytes : Prop :=
  (∀ (i : Instr) (mbc : BitVec 11) (dte ofm : Bool) (unused : BitVec 15) (s : State),
    i = .csc mbc dte ofm unused ∨ i = .pack mbc dte ofm unused → s.unit.cmd.busy = false → InputCounted s →
    ∃ t, exec i s = .next t ∧ t.result = .accepted ∧ FlagsCleared t ∧ InputCounted t ∧
      (mbc = 0 → Completed s t ∧ SameInput s t ∧ t.unit.mb = s.unit.mb) ∧
      (mbc ≠ 0 → Waiting i.word 0 (BitVec.ofNat 32 (totalAvail s / 8)) 0 s t ∧ Consumed (8 * (totalAvail s / 8)) s t ∧
        Snapped s t ∧ t.unit.lib = none) ∧
      (i = .csc mbc dte ofm unused → mbc ≠ 0 → RawFilled 0 (totalAvail s / 8) s t) ∧
      (i = .pack mbc dte ofm unused → mbc ≠ 0 → PixelsFilled 0 (totalAvail s / 8) s t) ∧
      CtrlKept (fun i => 4 ≤ i ∧ i ≠ 14 ∧ i ≠ 15 ∧ i ≠ 31) s t ∧ SameSetup s t ∧
      t.unit = { s.unit with
        ctrl := t.unit.ctrl, cmd := t.unit.cmd, cur := t.unit.cur, fifoIn := t.unit.fifoIn, mb := t.unit.mb
        pend := t.unit.pend, lib := t.unit.lib }) ∧
    ∀ (i : Instr) (mbc : BitVec 11) (dte ofm : Bool) (unused : BitVec 15) (k total : Nat) (s : State),
      s.unit.cmd.busy = true → decodeCommand s.unit.cmd.current = i →
      i = .csc mbc dte ofm unused ∧ total = 384 ∨ i = .pack mbc dte ofm unused ∧ total = 1024 →
      s.unit.cmd.index.toNat < mbc.toNat → s.unit.cmd.pos0 = 0 → s.unit.cmd.pos1 = BitVec.ofNat 32 k → k ≤ total →
      InputCounted s → totalAvail s < 8 * (total - k) →
      ∃ t, dispatchStep s = .stop t ∧ InputCounted t ∧ Snapped s t ∧
        t.unit.cmd = { s.unit.cmd with pos1 := BitVec.ofNat 32 (k + totalAvail s / 8) } ∧
        Consumed (8 * (totalAvail s / 8)) s t ∧
        (i = .csc mbc dte ofm unused → RawFilled k (totalAvail s / 8) s t) ∧
        (i = .pack mbc dte ofm unused → PixelsFilled k (totalAvail s / 8) s t) ∧
        CtrlKept (fun i => 4 ≤ i) s t ∧ Quiet s t ∧ SameSetup s t ∧ t.result = s.result ∧
        t.unit = { s.unit with
          ctrl := t.unit.ctrl, cmd := t.unit.cmd, cur := t.unit.cur, fifoIn := t.unit.fifoIn, mb := t.unit.mb }

/-- A dispatch step of CSC in phase 0 with the rest of a macroblock's bytes ahead (R235, R247, R257): the bytes go to
`mb.raw` from `cmd.pos1` on, the macroblock is converted with the thresholds, and the first quadwords go out, as many as
the output FIFO takes (it holds at most fifteen, a macroblock has 64 or 32); the command waits in phase 1. -/
def Obligations.CscConvertsMacroblock : Prop :=
  ∀ (mbc : BitVec 11) (dte ofm : Bool) (unused : BitVec 15) (k : Nat) (s : State), s.unit.cmd.busy = true →
    decodeCommand s.unit.cmd.current = .csc mbc dte ofm unused → s.unit.cmd.index ≠ mbc.setWidth 32 →
    s.unit.cmd.pos0 = 0 → s.unit.cmd.pos1 = BitVec.ofNat 32 k → k ≤ 384 → InputCounted s → OutputCounted s →
    s.unit.fifoOut.length ≤ s.cfg.fifoOutCap.toNat → 8 * (384 - k) ≤ totalAvail s →
    ∃ t, dispatchStep s = .stop t ∧
      (∀ j, j < 384 → t.unit.mb.raw.getD j 0 = if k ≤ j then aheadByte s (j - k) else s.unit.mb.raw.getD j 0) ∧
      t.unit.mb.rgb32 = convertMacroblock s.cfg.pixel t.unit.mb.raw s.unit.th0 s.unit.th1 ∧
      t.unit.fifoOut = s.unit.fifoOut ++ (List.range (outRoom s)).map
        (outQW s.cfg.pixel s.unit.vqclut (colourFormat ofm) dte t.unit.mb.rgb32) ∧
      t.unit.cmd = { s.unit.cmd with pos0 := 1, pos1 := BitVec.ofNat 32 (outRoom s) } ∧
      Consumed (8 * (384 - k)) s t ∧ InputCounted t ∧ (k < 384 → Snapped s t) ∧ OutputCounted t ∧
      CtrlKept (fun i => 8 ≤ i) s t ∧ Quiet s t ∧ SameSetup s t ∧ t.result = s.result ∧
      t.unit = { s.unit with
        ctrl := t.unit.ctrl, cmd := t.unit.cmd, cur := t.unit.cur, fifoIn := t.unit.fifoIn, fifoOut := t.unit.fifoOut
        mb := t.unit.mb }

/-- A dispatch step of PACK in phase 0 with the rest of a macroblock's bytes ahead (R248, `44_color_space_converter.md`
R302): the bytes go to `mb.rgb32`, channel after channel from `cmd.pos1` on, which gives the macroblock `px`. Where the
output FIFO takes less than the whole of it, it is filled and the command waits in phase 1. Where it takes all, the whole
macroblock goes out; after the last one the command completes, and after another the next one begins at once with the bytes
that are left. -/
def Obligations.PackTakesMacroblock : Prop :=
  ∀ (mbc : BitVec 11) (dte ofm : Bool) (unused : BitVec 15) (k rest : Nat) (s : State), s.unit.cmd.busy = true →
    decodeCommand s.unit.cmd.current = .pack mbc dte ofm unused → s.unit.cmd.index.toNat < mbc.toNat →
    s.unit.cmd.pos0 = 0 → s.unit.cmd.pos1 = BitVec.ofNat 32 k → k ≤ 1024 → InputCounted s → OutputCounted s →
    s.unit.fifoOut.length ≤ s.cfg.fifoOutCap.toNat → 8 * (1024 - k) ≤ totalAvail s →
    rest = totalAvail s / 8 - (1024 - k) →
    ∃ t px, dispatchStep s = .stop t ∧ t.unit.mb.raw = s.unit.mb.raw ∧
      (∀ j, j < 1024 → (flatPixel px (j / 4)).channel (j % 4) =
        if k ≤ j then aheadByte s (j - k) else (flatPixel s.unit.mb.rgb32 (j / 4)).channel (j % 4)) ∧
      t.unit.fifoOut = s.unit.fifoOut ++ (List.range (min (outRoom s) (packFormat ofm).outCount)).map
        (outQW s.cfg.pixel s.unit.vqclut (packFormat ofm) dte px) ∧
      (outRoom s < (packFormat ofm).outCount → t.unit.mb.rgb32 = px ∧
        t.unit.cmd = { s.unit.cmd with pos0 := 1, pos1 := BitVec.ofNat 32 (outRoom s) } ∧
        t.unit.lib = s.unit.lib ∧ Consumed (8 * (1024 - k)) s t ∧ CtrlKept (fun i => i = 31) s t ∧ Quiet s t) ∧
      ((packFormat ofm).outCount ≤ outRoom s → s.unit.cmd.index.toNat + 1 = mbc.toNat →
        t.unit.mb.rgb32 = px ∧ Completed s t ∧ Consumed (8 * (1024 - k)) s t) ∧
      ((packFormat ofm).outCount ≤ outRoom s → s.unit.cmd.index.toNat + 1 < mbc.toNat →
        (∀ j, j < 1024 → (flatPixel t.unit.mb.rgb32 (j / 4)).channel (j % 4) =
          if j < rest then aheadByte s (1024 - k + j) else (flatPixel px (j / 4)).channel (j % 4)) ∧
        t.unit.cmd = { s.unit.cmd with pos0 := 0, pos1 := BitVec.ofNat 32 rest, index := s.unit.cmd.index + 1 } ∧
        t.unit.lib = s.unit.lib ∧ Consumed (8 * (1024 - k + rest)) s t ∧ Snapped s t ∧ CtrlKept (fun i => i = 31) s t ∧
        Quiet s t) ∧
      (k < 1024 → Snapped s t) ∧ InputCounted t ∧ OutputCounted t ∧ CtrlKept (fun i => 8 ≤ i ∧ i ≠ 31) s t ∧
      SameSetup s t ∧ t.result = s.result ∧
      t.unit = { s.unit with
        ctrl := t.unit.ctrl, cmd := t.unit.cmd, cur := t.unit.cur, fifoIn := t.unit.fifoIn, fifoOut := t.unit.fifoOut
        mb := t.unit.mb, pend := t.unit.pend, lib := t.unit.lib }

/-- A dispatch step of CSC or PACK in phase 1 (R247, R248, R255) puts the quadwords from `cmd.pos1` on in order: as many as
the output FIFO takes where that is not all, and the command waits. Where it is all and the macroblock is the last, the
command completes; where it is all of another one, the next macroblock begins in the same step: its whole bytes in the
stream, less than all, go to the buffer (R257), and the command waits in phase 0. -/
def Obligations.ConvertersDrainAndComplete : Prop :=
  ∀ (mbc : BitVec 11) (dte : Bool) (fmt : Format) (k : Nat) (s : State), Converting s mbc dte fmt →
    s.unit.cmd.index.toNat < mbc.toNat → s.unit.cmd.pos0 = 1 → s.unit.cmd.pos1 = BitVec.ofNat 32 k →
    k ≤ fmt.outCount → OutputCounted s → s.unit.fifoOut.length ≤ s.cfg.fifoOutCap.toNat →
    (outRoom s < fmt.outCount - k →
      ∃ t, dispatchStep s = .stop t ∧
        t.unit.fifoOut = s.unit.fifoOut ++ (List.range (outRoom s)).map (fun j =>
          outQW s.cfg.pixel s.unit.vqclut fmt dte s.unit.mb.rgb32 (k + j)) ∧
        t.unit.cmd = { s.unit.cmd with pos1 := BitVec.ofNat 32 (k + outRoom s) } ∧ OutputCounted t ∧
        CtrlKept (fun i => i < 4 ∨ 8 ≤ i) s t ∧ Quiet s t ∧ SameSetup s t ∧ t.result = s.result ∧
        t.unit = { s.unit with ctrl := t.unit.ctrl, cmd := t.unit.cmd, fifoOut := t.unit.fifoOut }) ∧
    (fmt.outCount - k ≤ outRoom s → s.unit.cmd.index.toNat + 1 = mbc.toNat →
      ∃ t, dispatchStep s = .stop t ∧ Completed s t ∧
        t.unit.fifoOut = s.unit.fifoOut ++ (List.range (fmt.outCount - k)).map (fun j =>
          outQW s.cfg.pixel s.unit.vqclut fmt dte s.unit.mb.rgb32 (k + j)) ∧ OutputCounted t ∧
        CtrlKept (fun i => (i < 4 ∨ 8 ≤ i) ∧ i ≠ 31) s t ∧ SameSetup s t ∧ t.result = s.result ∧
        t.unit = { s.unit with
          ctrl := t.unit.ctrl, cmd := t.unit.cmd, fifoOut := t.unit.fifoOut, pend := t.unit.pend
          lib := t.unit.lib }) ∧
    (fmt.outCount - k ≤ outRoom s → s.unit.cmd.index.toNat + 1 < mbc.toNat → InputCounted s →
      ∃ t, dispatchStep s = .stop t ∧
        t.unit.fifoOut = s.unit.fifoOut ++ (List.range (fmt.outCount - k)).map (fun j =>
          outQW s.cfg.pixel s.unit.vqclut fmt dte s.unit.mb.rgb32 (k + j)) ∧
        t.unit.cmd = { s.unit.cmd with
          pos0 := 0, pos1 := BitVec.ofNat 32 (totalAvail s / 8), index := s.unit.cmd.index + 1 } ∧
        (∀ ofm unused, decodeCommand s.unit.cmd.current = .csc mbc dte ofm unused →
          RawFilled 0 (totalAvail s / 8) s t) ∧
        (∀ ofm unused, decodeCommand s.unit.cmd.current = .pack mbc dte ofm unused →
          PixelsFilled 0 (totalAvail s / 8) s t) ∧
        Consumed (8 * (totalAvail s / 8)) s t ∧ Snapped s t ∧ InputCounted t ∧ OutputCounted t ∧
        CtrlKept (fun i => 8 ≤ i) s t ∧ Quiet s t ∧ SameSetup s t ∧ t.result = s.result ∧
        t.unit = { s.unit with
          ctrl := t.unit.ctrl, cmd := t.unit.cmd, cur := t.unit.cur, fifoIn := t.unit.fifoIn
          fifoOut := t.unit.fifoOut, mb := t.unit.mb })

/-! ### Commands with a library session -/

/-- IDEC, BDEC and VDEC (R241 to R243, R250 to R253). Written to an idle unit with `FB` bits ahead, when the library's first
request is `Done(res)`: the bits are skipped, pattern and flags are reported in `ctrl`, the word of a VDEC in `cmdData`, and
the command completes. In flight (R235, R238), when a dispatch step begins the session after the `FB` bits or goes on with the
one that is open, and the library, after fewer than 1024 cursor requests that are all answered (a longer run is cut, Log 5),
asks `Done(res)`: the requests have their effects on the stream, the result is reported and the command completes. -/
def Obligations.SessionReportsResult : Prop :=
  (∀ (i : Instr) (fb : BitVec 6) (c : LibCommand) (res : LibResult) (s : State), librarySession i = some (fb, c) →
    s.unit.cmd.busy = false → InputCounted s → fb.toNat ≤ totalAvail s →
    libNext s.cfg ⟨[], libParams c s.unit⟩ = .done res →
    ∃ t, exec i s = .next t ∧ Completed s t ∧ t.result = .accepted ∧ Consumed fb.toNat s t ∧ InputCounted t ∧
      Snapped s t ∧ ctrlCBP t.unit.ctrl = res.cbp.getD (ctrlCBP s.unit.ctrl) ∧ ctrlSCD t.unit.ctrl = res.scd ∧
      ctrlECD t.unit.ctrl = res.ecd ∧
      t.unit.cmdData = (match c with
        | .vdec _ => res.data
        | .idec _ _ _ => s.unit.cmdData
        | .bdec _ _ _ _ => s.unit.cmdData) ∧
      CtrlKept (fun i => 4 ≤ i ∧ i < 8 ∨ 16 ≤ i ∧ i ≠ 31) s t ∧ SameSetup s t ∧
      t.unit = { s.unit with
        ctrl := t.unit.ctrl, cmd := t.unit.cmd, cmdData := t.unit.cmdData, cur := t.unit.cur, fifoIn := t.unit.fifoIn
        pend := t.unit.pend, lib := t.unit.lib }) ∧
    ∀ (fb : BitVec 6) (c : LibCommand) (res : LibResult) (n : Nat) (ses ses' : LibSession) (s u v : State),
      s.unit.cmd.busy = true → librarySession (decodeCommand s.unit.cmd.current) = some (fb, c) →
      SessionBegins fb c s ses u → SessionRun n ses u ses' v → n < 1024 → ses'.req = .done res →
      ∃ t, dispatchStep s = .stop t ∧ Completed s t ∧ t.result = s.result ∧
        ctrlCBP t.unit.ctrl = res.cbp.getD (ctrlCBP s.unit.ctrl) ∧
        ctrlSCD t.unit.ctrl = (res.scd || ctrlSCD s.unit.ctrl) ∧
        ctrlECD t.unit.ctrl = (res.ecd || ctrlECD s.unit.ctrl) ∧
        t.unit.cmdData = (match c with
          | .vdec _ => res.data
          | .idec _ _ _ => s.unit.cmdData
          | .bdec _ _ _ _ => s.unit.cmdData) ∧
        t.ifc = v.ifc ∧ CtrlKept (fun i => 4 ≤ i ∧ i < 8 ∨ 16 ≤ i ∧ i ≠ 31) s t ∧ SameSetup s t ∧
        t.unit = { s.unit with
          ctrl := t.unit.ctrl, cmd := t.unit.cmd, cmdData := t.unit.cmdData, cur := v.unit.cur, fifoIn := v.unit.fifoIn
          pend := t.unit.pend, lib := t.unit.lib }

/-- IDEC, BDEC and VDEC without `FB` bits ahead (R238, R256), written to an idle unit or in flight: nothing is skipped, no
session is opened, the command waits in phase 0. With them, when after fewer than 1024 answered cursor requests (Log 5) one
cannot be served (R252), written or in flight, the requests before it have their effects on the stream, and the command
waits in phase 1 with that request outstanding. -/
def Obligations.SessionWaitsForInput : Prop :=
  (∀ (i : Instr) (fb : BitVec 6) (c : LibCommand) (s : State), librarySession i = some (fb, c) →
    s.unit.cmd.busy = false → InputCounted s → totalAvail s < fb.toNat →
    ∃ t, exec i s = .next t ∧ Waiting i.word 0 0 0 s t ∧ t.result = .accepted ∧ FlagsCleared t ∧ Consumed 0 s t ∧
      InputCounted t ∧ Snapped s t ∧ CtrlKept (fun i => 4 ≤ i ∧ i ≠ 14 ∧ i ≠ 15 ∧ i ≠ 31) s t ∧ SameSetup s t ∧
      t.unit = { s.unit with
        ctrl := t.unit.ctrl, cmd := t.unit.cmd, cur := t.unit.cur, fifoIn := t.unit.fifoIn, lib := none }) ∧
    (∀ (i : Instr) (fb : BitVec 6) (c : LibCommand) (n : Nat) (ses' : LibSession) (s u v w : State),
      librarySession i = some (fb, c) → s.unit.cmd.busy = false → skipBits fb.toNat s = .ok () u →
      SessionRun n (libOpen c s) u ses' v → n < 1024 → serveCursor ses'.req v = .wait w →
      ∃ t, exec i s = .next t ∧ Waiting i.word 1 0 0 s t ∧ t.unit.lib = some ses' ∧ t.result = .accepted ∧
        FlagsCleared t ∧ t.ifc = w.ifc ∧ CtrlKept (fun i => 4 ≤ i ∧ i ≠ 14 ∧ i ≠ 15 ∧ i ≠ 31) s t ∧ SameSetup s t ∧
        t.unit = { s.unit with
          ctrl := t.unit.ctrl, cmd := t.unit.cmd, cur := w.unit.cur, fifoIn := w.unit.fifoIn, lib := t.unit.lib }) ∧
    ∀ (fb : BitVec 6) (c : LibCommand) (s : State), s.unit.cmd.busy = true →
      librarySession (decodeCommand s.unit.cmd.current) = some (fb, c) →
      (s.unit.cmd.pos0 = 0 → InputCounted s → totalAvail s < fb.toNat →
        ∃ t, dispatchStep s = .stop t ∧ InputMoved fb.toNat 0 s t) ∧
      ∀ (n : Nat) (ses ses' : LibSession) (u v w : State), SessionBegins fb c s ses u → SessionRun n ses u ses' v →
        n < 1024 → serveCursor ses'.req v = .wait w →
        ∃ t, dispatchStep s = .stop t ∧ t.unit.lib = some ses' ∧
          t.unit.cmd = (if s.unit.cmd.pos0 = 0 then { s.unit.cmd with pos0 := 1, pos1 := 0 } else s.unit.cmd) ∧
          t.ifc = w.ifc ∧ CtrlKept (fun i => 4 ≤ i) s t ∧ Quiet s t ∧ SameSetup s t ∧ t.result = s.result ∧
          t.unit = { s.unit with
            ctrl := t.unit.ctrl, cmd := t.unit.cmd, cur := w.unit.cur, fifoIn := w.unit.fifoIn, lib := t.unit.lib }

/-- An emitted macroblock of IDEC and emitted coefficients of BDEC (R241, R242): the macroblock is stored and converted, the
coefficients are not; as many quadwords as the output FIFO takes go out in order, fewer than there are, and the command waits in
phase 2 with the request outstanding. When the command is written to an idle unit and the emit is the library's first request;
and in a dispatch step, when it is the request after fewer than 1023 answered cursor requests (Log 5). A later step in phase 2
for which the rest does not fit (R255) goes on the same way: as many quadwords as fit go out from `cmd.pos1` on, which counts
them, and the request stays. -/
def Obligations.EmittedDataIsDrained : Prop :=
  (∀ (fb : BitVec 6) (qsc : BitVec 5) (dtd sgn dte ofm : Bool) (lo : BitVec 10) (hi : BitVec 3) (raw : Vector Byte 384)
      (s : State), s.unit.cmd.busy = false → InputCounted s → OutputCounted s →
      s.unit.fifoOut.length ≤ s.cfg.fifoOutCap.toNat → fb.toNat ≤ totalAvail s →
      libNext s.cfg ⟨[], libParams (.idec qsc dtd sgn) s.unit⟩ = .emitMB raw →
      ∃ t, exec (.idec fb qsc dtd sgn dte ofm lo hi) s = .next t ∧
        t.unit.mb = ⟨raw, convertMacroblock s.cfg.pixel raw s.unit.th0 s.unit.th1⟩ ∧
        t.unit.fifoOut = s.unit.fifoOut ++ (List.range (outRoom s)).map
          (outQW s.cfg.pixel s.unit.vqclut (colourFormat ofm) dte t.unit.mb.rgb32) ∧
        Waiting (Instr.idec fb qsc dtd sgn dte ofm lo hi).word 2 (BitVec.ofNat 32 (outRoom s)) 0 s t ∧
        t.unit.lib = some ⟨libParams (.idec qsc dtd sgn) s.unit, [], .emitMB raw⟩ ∧ Consumed fb.toNat s t ∧
        InputCounted t ∧ Snapped s t ∧ OutputCounted t ∧ t.result = .accepted ∧ FlagsCleared t ∧
        CtrlKept (fun i => 8 ≤ i ∧ i ≠ 14 ∧ i ≠ 15 ∧ i ≠ 31) s t ∧ SameSetup s t ∧
        t.unit = { s.unit with
          ctrl := t.unit.ctrl, cmd := t.unit.cmd, cur := t.unit.cur, fifoIn := t.unit.fifoIn
          fifoOut := t.unit.fifoOut, mb := t.unit.mb, lib := t.unit.lib }) ∧
    (∀ (fb : BitVec 6) (qsc : BitVec 5) (dt dcr mbi : Bool) (lo : BitVec 10) (hi : BitVec 4)
      (c : Vector (BitVec 16) 384) (s : State), s.unit.cmd.busy = false → InputCounted s → OutputCounted s →
      s.unit.fifoOut.length ≤ s.cfg.fifoOutCap.toNat → fb.toNat ≤ totalAvail s →
      libNext s.cfg ⟨[], libParams (.bdec qsc dt dcr mbi) s.unit⟩ = .emitCoef c →
      ∃ t, exec (.bdec fb qsc dt dcr mbi lo hi) s = .next t ∧
        t.unit.fifoOut = s.unit.fifoOut ++ (List.range (outRoom s)).map (coefQW c) ∧
        Waiting (Instr.bdec fb qsc dt dcr mbi lo hi).word 2 (BitVec.ofNat 32 (outRoom s)) 0 s t ∧
        t.unit.lib = some ⟨libParams (.bdec qsc dt dcr mbi) s.unit, [], .emitCoef c⟩ ∧ Consumed fb.toNat s t ∧
        InputCounted t ∧ Snapped s t ∧ OutputCounted t ∧ t.result = .accepted ∧ FlagsCleared t ∧
        CtrlKept (fun i => 8 ≤ i ∧ i ≠ 14 ∧ i ≠ 15 ∧ i ≠ 31) s t ∧ SameSetup s t ∧
        t.unit = { s.unit with
          ctrl := t.unit.ctrl, cmd := t.unit.cmd, cur := t.unit.cur, fifoIn := t.unit.fifoIn
          fifoOut := t.unit.fifoOut, lib := t.unit.lib }) ∧
    (∀ (fb : BitVec 6) (c : LibCommand) (mb : MacroblockBuffer) (total n : Nat) (qw : Nat → QWord)
      (ses ses' : LibSession) (s u v : State), s.unit.cmd.busy = true →
      librarySession (decodeCommand s.unit.cmd.current) = some (fb, c) → SessionBegins fb c s ses u →
      SessionRun n ses u ses' v → n < 1023 → Emits s c ses'.req mb total qw → OutputCounted s →
      s.unit.fifoOut.length ≤ s.cfg.fifoOutCap.toNat →
      ∃ t, dispatchStep s = .stop t ∧ t.unit.mb = mb ∧
        t.unit.fifoOut = s.unit.fifoOut ++ (List.range (outRoom s)).map qw ∧ outRoom s < total ∧
        t.unit.cmd = { s.unit.cmd with pos0 := 2, pos1 := BitVec.ofNat 32 (outRoom s) } ∧ t.unit.lib = some ses' ∧
        t.ifc = v.ifc ∧ OutputCounted t ∧ CtrlKept (fun i => 8 ≤ i) s t ∧ Quiet s t ∧ SameSetup s t ∧
        t.result = s.result ∧
        t.unit = { s.unit with
          ctrl := t.unit.ctrl, cmd := t.unit.cmd, cur := v.unit.cur, fifoIn := v.unit.fifoIn
          fifoOut := t.unit.fifoOut, mb := t.unit.mb, lib := t.unit.lib }) ∧
    ∀ (ses : LibSession) (total k : Nat) (qw : Nat → QWord) (index : Word) (s : State), s.unit.cmd.busy = true →
      s.unit.lib = some ses → Draining s ses total qw index → s.unit.cmd.pos0 = 2 →
      s.unit.cmd.pos1 = BitVec.ofNat 32 k → k ≤ total → OutputCounted s →
      s.unit.fifoOut.length ≤ s.cfg.fifoOutCap.toNat → outRoom s < total - k →
      ∃ t, dispatchStep s = .stop t ∧
        t.unit.fifoOut = s.unit.fifoOut ++ (List.range (outRoom s)).map (fun j => qw (k + j)) ∧
        t.unit.cmd = { s.unit.cmd with pos1 := BitVec.ofNat 32 (k + outRoom s) } ∧ OutputCounted t ∧
        CtrlKept (fun i => i < 4 ∨ 8 ≤ i) s t ∧ Quiet s t ∧ SameSetup s t ∧ t.result = s.result ∧
        t.unit = { s.unit with ctrl := t.unit.ctrl, cmd := t.unit.cmd, fifoOut := t.unit.fifoOut }

/-- The requests a session may make of the cursor, each row of `43_command_dispatcher.md` R252 with the operation it
names (`40_bitstream_cursor.md` R142, R144 to R148, R154): what is pulled and consumed, what is answered, when it waits,
and where a request out of range is refused (R151) or fatal (R144). A refill leaves the bits asked for in the buffer, or a
full buffer, or an empty input FIFO; its hint is any number, and that one above 63 is served like the others is the model's
choice (Log 10). In a dispatch step, after answered requests, one that is fatal or refused stops the step with that fault
(`60_exceptions.md` R356) or refusal, and so does an emit under the wrong command; and where 1024 have been answered, the
step is cut, its rest to be made by the next machine step, which is the model's choice (Log 5). -/
def Obligations.LibraryRequestsAreServed : Prop :=
  (∀ (s : State), InputCounted s →
    (∀ n, n ≤ 63 → n ≤ totalAvail s → ∃ t, serveCursor (.skip n) s = .reply .unit t ∧ InputMoved n n s t) ∧
    (∀ n, n ≤ 63 → totalAvail s < n → ∃ t, serveCursor (.skip n) s = .wait t ∧ InputMoved n 0 s t) ∧
    (∀ n, 63 < n → serveCursor (.skip n) s = .refused .badWidth) ∧
    (∀ n, 1 ≤ n → n ≤ 32 → n ≤ totalAvail s →
      ∃ t, serveCursor (.read n) s = .reply (.bits (BitVec.ofNat 32 (aheadValue s 0 n))) t ∧ InputMoved n n s t) ∧
    (∀ n, 1 ≤ n → n ≤ 32 → totalAvail s < n → ∃ t, serveCursor (.read n) s = .wait t ∧ InputMoved n 0 s t) ∧
    (∀ n, 1 ≤ n → n ≤ 32 → n ≤ totalAvail s →
      ∃ t, serveCursor (.peek n) s = .reply (.bits (BitVec.ofNat 32 (aheadValue s 0 n))) t ∧ InputMoved n 0 s t) ∧
    (∀ n, 1 ≤ n → n ≤ 32 → totalAvail s < n → ∃ t, serveCursor (.peek n) s = .wait t ∧ InputMoved n 0 s t) ∧
    (∀ n, n = 0 ∨ 32 < n → serveCursor (.read n) s = .refused .badWidth ∧ serveCursor (.peek n) s = .refused .badWidth) ∧
    (s.unit.cur.bitOfs = 0 ∨ 1 ≤ totalAvail s → ∃ t, serveCursor .align s = .reply .unit t ∧
      InputMoved (if s.unit.cur.bitOfs = 0 then 0 else 1) ((8 - s.unit.cur.bitOfs.toNat) % 8) s t ∧
      t.unit.cur.bitOfs = 0) ∧
    (s.unit.cur.bitOfs ≠ 0 → totalAvail s = 0 → ∃ t, serveCursor .align s = .wait t ∧ InputMoved 1 0 s t) ∧
    (∀ hint n, n ≤ 32 →
      ∃ t, serveCursor (.refill hint n) s = .reply (.bytes (t.unit.cur.avail / 8)) t ∧
        InputMoved (8 * n + hint) 0 s t ∧
        (8 * n + hint ≤ t.unit.cur.avail ∨ t.unit.cur.fp.val = 2 ∨ t.ifc = 0)) ∧
    ∀ hint n, 32 < n → serveCursor (.refill hint n) s = .fault .refillOverCapacity) ∧
    ∀ (fb : BitVec 6) (c : LibCommand) (n : Nat) (ses ses' : LibSession) (s u v : State), s.unit.cmd.busy = true →
      librarySession (decodeCommand s.unit.cmd.current) = some (fb, c) → SessionBegins fb c s ses u →
      SessionRun n ses u ses' v →
      (∀ f, n < 1024 → serveCursor ses'.req v = .fault f → dispatchStep s = .fault f) ∧
      (n < 1024 → serveCursor ses'.req v = .refused .badWidth → dispatchStep s = .refused .badWidth) ∧
      (n < 1024 → (∃ raw, ses'.req = .emitMB raw) → (∀ qsc dtd sgn, c ≠ .idec qsc dtd sgn) →
        dispatchStep s = .refused .libraryContract) ∧
      (n < 1024 → (∃ coef, ses'.req = .emitCoef coef) → (∀ qsc dt dcr mbi, c ≠ .bdec qsc dt dcr mbi) →
        dispatchStep s = .refused .libraryContract) ∧
      (n = 1024 → ∃ t, dispatchStep s = .more t ∧ t.unit.lib = some ses' ∧
        t.unit.cmd = (if s.unit.cmd.pos0 = 0 then { s.unit.cmd with pos0 := 1, pos1 := 0 } else s.unit.cmd) ∧
        t.ifc = v.ifc ∧ CtrlKept (fun i => 4 ≤ i) s t ∧ Quiet s t ∧ SameSetup s t ∧ t.result = s.result ∧
        t.unit = { s.unit with
          ctrl := t.unit.ctrl, cmd := t.unit.cmd, cur := v.unit.cur, fifoIn := v.unit.fifoIn, lib := t.unit.lib })

/-- A dispatch step of IDEC or BDEC in phase 2 for which the rest of the emitted data fits (R241, R242, R255): the rest goes
out, IDEC counts the macroblock in `cmd.index`, the request is answered with `Unit`, and the session goes on in phase 1. When,
after fewer than 1022 more cursor requests that are all answered (Log 5), the library is done, the command reports and
completes; when a request cannot be served, the command waits with it in phase 1; and when the library emits again, the new
data goes out as far as the output FIFO still takes it, and the command waits in phase 2. -/
def Obligations.DrainedSessionGoesOn : Prop :=
  ∀ (ses ses' : LibSession) (total k m : Nat) (qw : Nat → QWord) (index : Word) (s v : State), s.unit.cmd.busy = true →
    s.unit.lib = some ses → Draining s ses total qw index → s.unit.cmd.pos0 = 2 → s.unit.cmd.pos1 = BitVec.ofNat 32 k →
    k ≤ total → OutputCounted s → s.unit.fifoOut.length + (total - k) ≤ s.cfg.fifoOutCap.toNat →
    SessionRun m (libAnswer s.cfg ses .unit) s ses' v → m < 1022 →
    (∀ res, ses'.req = .done res →
      ∃ t, dispatchStep s = .stop t ∧ Completed s t ∧
        t.unit.fifoOut = s.unit.fifoOut ++ (List.range (total - k)).map (fun j => qw (k + j)) ∧ OutputCounted t ∧
        ctrlCBP t.unit.ctrl = res.cbp.getD (ctrlCBP s.unit.ctrl) ∧
        ctrlSCD t.unit.ctrl = (res.scd || ctrlSCD s.unit.ctrl) ∧
        ctrlECD t.unit.ctrl = (res.ecd || ctrlECD s.unit.ctrl) ∧
        t.ifc = v.ifc ∧ CtrlKept (fun i => 16 ≤ i ∧ i ≠ 31) s t ∧ SameSetup s t ∧ t.result = s.result ∧
        t.unit = { s.unit with
          ctrl := t.unit.ctrl, cmd := t.unit.cmd, cur := v.unit.cur, fifoIn := v.unit.fifoIn
          fifoOut := t.unit.fifoOut, pend := t.unit.pend, lib := t.unit.lib }) ∧
    (∀ w, serveCursor ses'.req v = .wait w →
      ∃ t, dispatchStep s = .stop t ∧ t.unit.cmd = { s.unit.cmd with pos0 := 1, pos1 := 0, index := index } ∧
        t.unit.lib = some ses' ∧
        t.unit.fifoOut = s.unit.fifoOut ++ (List.range (total - k)).map (fun j => qw (k + j)) ∧ OutputCounted t ∧
        t.ifc = w.ifc ∧ CtrlKept (fun i => 8 ≤ i) s t ∧ Quiet s t ∧ SameSetup s t ∧ t.result = s.result ∧
        t.unit = { s.unit with
          ctrl := t.unit.ctrl, cmd := t.unit.cmd, cur := w.unit.cur, fifoIn := w.unit.fifoIn
          fifoOut := t.unit.fifoOut, lib := t.unit.lib }) ∧
    ∀ (c : LibCommand) (mb : MacroblockBuffer) (total' room : Nat) (qw' : Nat → QWord),
      Emits s c ses'.req mb total' qw' → room = outRoom s - (total - k) →
      ∃ t, dispatchStep s = .stop t ∧ t.unit.mb = mb ∧
        t.unit.cmd = { s.unit.cmd with pos0 := 2, pos1 := BitVec.ofNat 32 room, index := index } ∧
        t.unit.lib = some ses' ∧
        t.unit.fifoOut = s.unit.fifoOut ++ (List.range (total - k)).map (fun j => qw (k + j)) ++
          (List.range room).map qw' ∧ room < total' ∧ OutputCounted t ∧
        t.ifc = v.ifc ∧ CtrlKept (fun i => 8 ≤ i) s t ∧ Quiet s t ∧ SameSetup s t ∧ t.result = s.result ∧
        t.unit = { s.unit with
          ctrl := t.unit.ctrl, cmd := t.unit.cmd, cur := v.unit.cur, fifoIn := v.unit.fifoIn
          fifoOut := t.unit.fifoOut, mb := t.unit.mb, lib := t.unit.lib }

/-! ### Rejected commands -/

/-- A command word of opcode 10 to 15 is rejected, busy or not (`43_command_dispatcher.md` R231): ECD is set, nothing else
changes. The two rows of the table, every opcode of each. -/
def Obligations.InvalidOpcodeOnlySetsError : Prop :=
  ∀ (opcode : BitVec 4) (option : BitVec 28) (s : State),
    (∃ t, exec (.invalid101 opcode option) s = .next t ∧ RejectedOnly .invalidOpcode s t) ∧
      ∃ t, exec (.invalid11 opcode option) s = .next t ∧ RejectedOnly .invalidOpcode s t

/-- A command word of opcode 1 to 9 written while a command is in flight is rejected (R233): ECD is set, nothing else
changes; the command in flight is not stepped. -/
def Obligations.BusyCommandOnlySetsError : Prop :=
  ∀ (w : Word) (s : State), 1 ≤ (w.extractLsb' 28 4).toNat → (w.extractLsb' 28 4).toNat ≤ 9 → s.unit.cmd.busy = true →
    ∃ t, exec (decodeCommand w) s = .next t ∧ RejectedOnly .busy s t

/-- A dispatch step without an effect. A suspended step retried without anything else happening changes nothing (R238):
`dispatchStep` with a command in flight answers `.stop` where the command suspended or completed, and this is about the
suspended ones. On an idle unit there is nothing to step (R235): the step has no effect, and the call that makes it only
leaves the queue and returns no result. -/
def Obligations.SuspendedRetryChangesNothing : Prop :=
  (∀ s t : State, InputCounted s → dispatchStep s = .stop t → t.unit.cmd.busy = true → dispatchStep t = .stop t) ∧
    ∀ (rest : List Call) (s : State), s.unit.cmd.busy = false →
      dispatchStep s = .stop s ∧
        (s.calls = .dispatchStep :: rest → step s = .next { s with calls := rest, result := .none })

/-! ### DMA tags and transfers -/

/-- A fetched tag of code FOLLOW, QWC or ADDR whose payload fits (`42_dma_tag_walker.md` R200, R201, R203, R204, R206): the
payload behind the tag goes to the input FIFO, the link is taken, and the walker stands before the next fetch; the call
ends there (R192), and no interrupt is raised. -/
def Obligations.ContinuingTagMovesPayload : Prop :=
  ∀ (f : TagFields) (i : Instr) (s : State), i = .tagFollow f ∨ i = .tagQwc f ∨ i = .tagAddr f → fetchEnabled s = true →
    InputCounted s → s.unit.fifoIn.length + f.qwc.toNat ≤ s.cfg.fifoInCap.toNat →
    ∃ t, exec i s = .next t ∧
      t.unit.fifoIn = s.unit.fifoIn ++ payload s.mem (s.unit.dmaTo.nextMem + 16) f.qwc.toNat ∧ InputCounted t ∧
      t.unit.dmaTo = { s.unit.dmaTo with
        tagFollow := .follow, nextMem := align16 f.next, stalled := false, remaining := 0, tagWord := i.bits
        memAddr := s.unit.dmaTo.nextMem + 16 + BitVec.ofNat 32 (16 * f.qwc.toNat) } ∧
      t.unit.stall =
        (if f.qwc = 0 then s.unit.stall else putStall s.cfg.stallFlagIn false s.unit.stall) ∧
      t.result = .status (s.moved + f.qwc.toNat) ∧ CtrlKept (fun i => 4 ≤ i) s t ∧ Quiet s t ∧ SameSetup s t ∧
      t.unit = { s.unit with
        ctrl := t.unit.ctrl, fifoIn := t.unit.fifoIn, stall := t.unit.stall, dmaTo := t.unit.dmaTo }

/-- A fetched tag of code NONE whose payload fits (R200 to R206, R199): the payload goes to the input FIFO, the transfer
finishes, and the TO interrupt is raised once. -/
def Obligations.LastTagFinishesTransfer : Prop :=
  ∀ (f : TagFields) (s : State), fetchEnabled s = true → s.unit.dmaTo.irqTriggered = false → InputCounted s →
    s.unit.fifoIn.length + f.qwc.toNat ≤ s.cfg.fifoInCap.toNat →
    ∃ t, exec (.tagNone f) s = .next t ∧
      t.unit.fifoIn = s.unit.fifoIn ++ payload s.mem (s.unit.dmaTo.nextMem + 16) f.qwc.toNat ∧ InputCounted t ∧
      t.unit.dmaTo = { s.unit.dmaTo with
        tagFollow := .none, nextMem := align16 f.next, stalled := false, remaining := 0, tagWord := (Instr.tagNone f).bits
        memAddr := s.unit.dmaTo.nextMem + 16 + BitVec.ofNat 32 (16 * f.qwc.toNat)
        dmaFinished := true, inProgress := false, irqTriggered := true } ∧
      t.unit.stall =
        (if f.qwc = 0 then s.unit.stall else putStall s.cfg.stallFlagIn false s.unit.stall) ∧
      t.result = .status (s.moved + f.qwc.toNat) ∧ CtrlKept (fun i => 4 ≤ i) s t ∧ Raised .toUnit s t ∧ SameSetup s t ∧
      t.unit = { s.unit with
        ctrl := t.unit.ctrl, fifoIn := t.unit.fifoIn, stall := t.unit.stall, dmaTo := t.unit.dmaTo, pend := t.unit.pend }

/-- A fetched tag of any legal code whose payload does not fit (R200, R201, R202): what fits goes to the input FIFO, then
the transfer stalls in stage QWC before the next quadword; the stall flag is set, no interrupt is raised. -/
def Obligations.TagPayloadStalls : Prop :=
  ∀ (f : TagFields) (i : Instr) (s : State), i = .tagFollow f ∨ i = .tagQwc f ∨ i = .tagAddr f ∨ i = .tagNone f →
    fetchEnabled s = true → InputCounted s → s.unit.fifoIn.length ≤ s.cfg.fifoInCap.toNat → inRoom s < f.qwc.toNat →
    ∃ t, exec i s = .next t ∧
      t.unit.fifoIn = s.unit.fifoIn ++ payload s.mem (s.unit.dmaTo.nextMem + 16) (inRoom s) ∧ InputCounted t ∧
      t.unit.dmaTo = { s.unit.dmaTo with
        tagFollow := .qwc, stalled := true, remaining := BitVec.ofNat 28 (f.qwc.toNat - inRoom s), tagWord := i.bits
        memAddr := s.unit.dmaTo.nextMem + 16 + BitVec.ofNat 32 (16 * inRoom s) } ∧
      t.unit.stall = putStall s.cfg.stallFlagIn true s.unit.stall ∧
      t.result = .status (s.moved + inRoom s) ∧ CtrlKept (fun i => 4 ≤ i) s t ∧ Quiet s t ∧ SameSetup s t ∧
      t.unit = { s.unit with
        ctrl := t.unit.ctrl, fifoIn := t.unit.fifoIn, stall := t.unit.stall, dmaTo := t.unit.dmaTo }

/-- A malformed tag, where one is fetched (R205): the transfer is marked stalled and ECD is set; nothing else changes. -/
def Obligations.MalformedTagHaltsTransfer : Prop :=
  ∀ (code : BitVec 3) (f : TagFields) (s : State), fetchEnabled s = true →
    ∃ t, exec (.tagMalformed code f) s = .next t ∧ t.unit.dmaTo = { s.unit.dmaTo with stalled := true } ∧
      ctrlECD t.unit.ctrl = true ∧ CtrlKept (fun i => i ≠ 14) s t ∧ t.result = .status s.moved ∧ Quiet s t ∧
      SameSetup s t ∧ t.unit = { s.unit with ctrl := t.unit.ctrl, dmaTo := t.unit.dmaTo }

/-- After a malformed tag (R207): every kick of the halted transfer returns 0 and changes nothing, whatever its arguments
and whatever memory holds. -/
def Obligations.HaltedTransferIgnoresKicks : Prop :=
  ∀ (mode : DmaMode) (a : Addr) (n : Word) (s : State), s.unit.dmaTo.inProgress = true → s.unit.dmaTo.mode = .chain →
    s.unit.dmaTo.tagFollow = .follow → s.unit.dmaTo.stalled = true →
    kickTo mode a n s = .next (s.setResult (.status 0))

/-- A NORMAL kick that starts a transfer of whole quadwords (R191, R195 to R197, R199; R215 is an example): with room for all
of them, exactly these go to the input FIFO, from the rounded address up, and the transfer finishes with one TO interrupt;
else those that fit go there, and the transfer stalls before the next one, which no interrupt tells. -/
def Obligations.NormalKickTransfersOrStalls : Prop :=
  ∀ (a : Addr) (n : Word) (s : State), s.unit.dmaTo.inProgress = false → n.toNat % 16 = 0 → InputCounted s →
    (s.unit.fifoIn.length + n.toNat / 16 ≤ s.cfg.fifoInCap.toNat →
      ∃ t, kickTo .normal a n s = .next t ∧
        t.unit.fifoIn = s.unit.fifoIn ++ payload s.mem (align16 a) (n.toNat / 16) ∧ InputCounted t ∧
        t.unit.dmaTo =
          { inProgress := false, mode := .normal, dmaFinished := true, irqTriggered := true, tagFollow := .none
            nextMem := 0, stalled := false, memAddr := align16 a + n, remaining := 0, tagWord := 0 } ∧
        t.unit.stall = (if n = 0 then s.unit.stall else putStall s.cfg.stallFlagIn false s.unit.stall) ∧
        t.result = .status (n.toNat / 16) ∧ CtrlKept (fun i => 4 ≤ i) s t ∧ Raised .toUnit s t ∧ SameSetup s t ∧
        t.unit = { s.unit with
          ctrl := t.unit.ctrl, fifoIn := t.unit.fifoIn, stall := t.unit.stall, dmaTo := t.unit.dmaTo
          pend := t.unit.pend }) ∧
    (s.unit.fifoIn.length ≤ s.cfg.fifoInCap.toNat → inRoom s < n.toNat / 16 →
      ∃ t, kickTo .normal a n s = .next t ∧
        t.unit.fifoIn = s.unit.fifoIn ++ payload s.mem (align16 a) (inRoom s) ∧ InputCounted t ∧
        t.unit.dmaTo =
          { inProgress := true, mode := .normal, dmaFinished := false, irqTriggered := false, tagFollow := .none
            nextMem := 0, stalled := true, memAddr := align16 a + BitVec.ofNat 32 (16 * inRoom s)
            remaining := BitVec.ofNat 28 (n.toNat / 16 - inRoom s), tagWord := 0 } ∧
        t.unit.stall = putStall s.cfg.stallFlagIn true s.unit.stall ∧ t.result = .status (inRoom s) ∧
        CtrlKept (fun i => 4 ≤ i) s t ∧ Quiet s t ∧ SameSetup s t ∧
        t.unit = { s.unit with
          ctrl := t.unit.ctrl, fifoIn := t.unit.fifoIn, stall := t.unit.stall, dmaTo := t.unit.dmaTo })

/-- A kick of a transfer in progress that has payload to move, whatever its arguments (R192): NORMAL, or CHAIN in stage QWC.
Without room for all that remains (R196, R202) it fills the input FIFO and stalls, and the quadword that did not fit is offered
again by the next kick. With room, a NORMAL transfer finishes (R195, R197); a CHAIN (R201, R203, R204, R206) takes the link of
the latched tag, and finishes where its code is NONE, else goes on to the next tag: the kick is the fetched instruction,
executed at the state `u`. -/
def Obligations.TransferResumes : Prop :=
  ∀ (mode : DmaMode) (a : Addr) (n : Word) (r : Nat) (d : Transfer) (s : State), d = s.unit.dmaTo →
    d.inProgress = true → r = d.remaining.toNat → d.irqTriggered = false → InputCounted s →
    s.unit.fifoIn.length ≤ s.cfg.fifoInCap.toNat →
    (d.mode = .normal ∨ d.tagFollow = .qwc → inRoom s < r →
      ∃ t, kickTo mode a n s = .next t ∧
        t.unit.fifoIn = s.unit.fifoIn ++ payload s.mem d.memAddr (inRoom s) ∧ InputCounted t ∧
        t.unit.dmaTo = { d with
          stalled := true, remaining := d.remaining - BitVec.ofNat 28 (inRoom s)
          memAddr := d.memAddr + BitVec.ofNat 32 (16 * inRoom s) } ∧
        t.unit.stall = putStall s.cfg.stallFlagIn true s.unit.stall ∧ t.result = .status (inRoom s) ∧
        CtrlKept (fun i => 4 ≤ i) s t ∧ Quiet s t ∧ SameSetup s t ∧
        t.unit = { s.unit with
          ctrl := t.unit.ctrl, fifoIn := t.unit.fifoIn, stall := t.unit.stall, dmaTo := t.unit.dmaTo }) ∧
    (∀ f, d.mode = .normal ∨ d.mode = .chain ∧ d.tagFollow = .qwc ∧ decodeTag d.tagWord = .tagNone f → r ≤ inRoom s →
      ∃ t, kickTo mode a n s = .next t ∧
        t.unit.fifoIn = s.unit.fifoIn ++ payload s.mem d.memAddr r ∧ InputCounted t ∧
        t.unit.dmaTo = { d with
          inProgress := false, dmaFinished := true, irqTriggered := true, stalled := false, remaining := 0
          memAddr := d.memAddr + BitVec.ofNat 32 (16 * r)
          tagFollow := if d.mode = .normal then d.tagFollow else .none
          nextMem := if d.mode = .normal then d.nextMem else align16 f.next } ∧
        t.unit.stall = (if r = 0 then s.unit.stall else putStall s.cfg.stallFlagIn false s.unit.stall) ∧
        t.result = .status r ∧ CtrlKept (fun i => 4 ≤ i) s t ∧ Raised .toUnit s t ∧ SameSetup s t ∧
        t.unit = { s.unit with
          ctrl := t.unit.ctrl, fifoIn := t.unit.fifoIn, stall := t.unit.stall, dmaTo := t.unit.dmaTo
          pend := t.unit.pend }) ∧
    ∀ f i, d.mode = .chain → d.tagFollow = .qwc → decodeTag d.tagWord = i →
      i = .tagFollow f ∨ i = .tagQwc f ∨ i = .tagAddr f → 1 ≤ r → r ≤ inRoom s →
      ∃ u, kickTo mode a n s = exec (decodeTag (Memory.readQW s.mem (align16 f.next))) u ∧
        u.unit.fifoIn = s.unit.fifoIn ++ payload s.mem d.memAddr r ∧ InputCounted u ∧
        u.unit.dmaTo = { d with
          tagFollow := .follow, nextMem := align16 f.next, stalled := false, remaining := 0
          memAddr := d.memAddr + BitVec.ofNat 32 (16 * r) } ∧
        u.unit.stall = putStall s.cfg.stallFlagIn false s.unit.stall ∧ CtrlKept (fun i => 4 ≤ i) s u ∧
        u = { s with
          result := .status r
          unit := { s.unit with
            ctrl := u.unit.ctrl, fifoIn := u.unit.fifoIn, stall := u.unit.stall, dmaTo := u.unit.dmaTo } }

/-- A kick that would start a transfer of a byte count that is not whole quadwords is refused, and only such a kick is
(R191, R210): NORMAL into the unit, and out of the unit. -/
def Obligations.PartialQuadwordCountIsRefused : Prop :=
  ∀ (mode : DmaMode) (a : Addr) (n : Word) (s : State),
    (kickTo mode a n s = .refused .byteCountNotQuadwords ↔
        s.unit.dmaTo.inProgress = false ∧ mode = .normal ∧ n.toNat % 16 ≠ 0) ∧
      (kickFrom a n s = .refused .byteCountNotQuadwords ↔ s.unit.dmaFrom.inProgress = false ∧ n.toNat % 16 ≠ 0)

/-- The out-of-unit kick (R210 to R212). One that starts a transfer sets up the record, address rounded down, byte count in
quadwords, flags cleared, and does what a kick of that transfer does. One of a transfer in progress with `n` quadwords to
move or fewer in the output FIFO: the first ones of the FIFO are stored in order at rising addresses from `MemAddr` on, and
recorded in the history of writes (`20_memory.md` R92), all other bytes of memory are kept; with enough of them the transfer
finishes and the FROM interrupt is raised once, else it stalls. -/
def Obligations.OutTransferStoresQuadwords : Prop :=
  (∀ (a : Addr) (b : Word) (s : State), s.unit.dmaFrom.inProgress = false → b.toNat % 16 = 0 →
    kickFrom a b s = kickFrom a b (s.setDmaFrom { s.unit.dmaFrom with
      inProgress := true, mode := .normal, tagFollow := .none, dmaFinished := false, irqTriggered := false
      stalled := false, memAddr := align16 a, remaining := BitVec.ofNat 28 (b.toNat / 16) })) ∧
  ∀ (a : Addr) (b : Word) (n : Nat) (s : State), s.unit.dmaFrom.inProgress = true →
    s.unit.dmaFrom.irqTriggered = false → OutputCounted s → Memory.wf s.mem →
    n = min s.unit.dmaFrom.remaining.toNat s.unit.fifoOut.length →
    ∃ t, kickFrom a b s = .next t ∧ t.unit.fifoOut = s.unit.fifoOut.drop n ∧ OutputCounted t ∧
      (∀ k j, k < n → j < 16 →
        Memory.read t.mem (s.unit.dmaFrom.memAddr + BitVec.ofNat 32 (16 * k + j)).toNat =
          qwByte (s.unit.fifoOut.getD k 0) j) ∧
      (∀ x, (∀ k, k < 16 * n → x ≠ (s.unit.dmaFrom.memAddr + BitVec.ofNat 32 k).toNat) →
        Memory.read t.mem x = Memory.read s.mem x) ∧
      t.memWrites = s.memWrites ++ storedWrites s.unit.dmaFrom.memAddr (s.unit.fifoOut.take n) ∧
      t.result = .status n ∧ CtrlKept (fun i => i < 4 ∨ 8 ≤ i) s t ∧ t.cfg = s.cfg ∧ t.calls = s.calls ∧
      (s.unit.dmaFrom.remaining.toNat ≤ s.unit.fifoOut.length →
        t.unit.dmaFrom = { s.unit.dmaFrom with
          inProgress := false, dmaFinished := true, irqTriggered := true, stalled := false, remaining := 0
          memAddr := s.unit.dmaFrom.memAddr + BitVec.ofNat 32 (16 * n) } ∧
        t.unit.stall = (if n = 0 then s.unit.stall else putStall s.cfg.stallFlagOut false s.unit.stall) ∧
        Raised .fromUnit s t) ∧
      (s.unit.fifoOut.length < s.unit.dmaFrom.remaining.toNat →
        t.unit.dmaFrom = { s.unit.dmaFrom with
          stalled := true, remaining := s.unit.dmaFrom.remaining - BitVec.ofNat 28 n
          memAddr := s.unit.dmaFrom.memAddr + BitVec.ofNat 32 (16 * n) } ∧
        t.unit.stall = putStall s.cfg.stallFlagOut true s.unit.stall ∧ Quiet s t) ∧
      t.unit = { s.unit with
        ctrl := t.unit.ctrl, fifoOut := t.unit.fifoOut, stall := t.unit.stall, dmaFrom := t.unit.dmaFrom
        pend := t.unit.pend }

/-- `dmaAbort(dir)` (R213): the direction's record takes its reset value, nothing else changes and no interrupt is raised. -/
def Obligations.AbortResetsOneTransfer : Prop :=
  ∀ (dir : Dir) (rest : List Call) (s : State), s.calls = .dmaAbort dir :: rest →
    step s = .next { s with
      calls := rest, result := .none
      unit := match dir with
        | .toUnit => { s.unit with dmaTo := Transfer.reset }
        | .fromUnit => { s.unit with dmaFrom := Transfer.reset } }

/-! ### Registers, resets, time, persistence -/

/-- A control-register write (`45_host_register_interface.md` R326, R327): the bits of `0x47F30000` are taken from the value,
all others are kept; without bit 30 nothing else changes, with it the call goes on as a soft reset. -/
def Obligations.ControlWriteIsMasked : Prop :=
  ∀ (v : Word) (rest : List Call) (s : State), s.calls = .regWrite32 0x10 v :: rest →
    ∃ c : Word,
      (∀ i, i < 32 → c.getLsbD i = if (0x47F30000#32).getLsbD i then v.getLsbD i else s.unit.ctrl.getLsbD i) ∧
      (v.getLsbD 30 = false →
        step s = .next { s with calls := rest, result := .none, unit := { s.unit with ctrl := c } }) ∧
      (v.getLsbD 30 = true → step s = step { s with calls := .softReset :: rest, unit := { s.unit with ctrl := c } })

/-- Soft reset (`70_reset_and_hazards.md` R392): command, session, FIFOs, counters, stall flags, BUSY, cursor and both
transfers are cleared, no interrupt is raised, the rest is kept. -/
def Obligations.SoftResetClearsProgress : Prop :=
  ∀ (rest : List Call) (s : State), s.calls = .softReset :: rest →
    ∃ t, step s = .next t ∧
      (∀ i, i < 32 → t.unit.ctrl.getLsbD i = if i < 8 ∨ i = 31 then false else s.unit.ctrl.getLsbD i) ∧
      t = { s with
        calls := rest, result := .none
        unit := { s.unit with
          ctrl := t.unit.ctrl, cmd := Command.idle, lib := none, fifoIn := [], fifoOut := []
          stall := ⟨false, false, false⟩, cur := Cursor.reset, dmaTo := Transfer.reset, dmaFrom := Transfer.reset } }

/-- Register reads (R320 to R325, R330, R332) give the images of `CMD`, `CTRL`, `BP` and `TOP`, 0 at any other offset, and
change no state; the 32-bit read is the low half. -/
def Obligations.RegisterReadsArePureImages : Prop :=
  ∀ (off : Nat) (rest : List Call) (s : State),
    (s.calls = .regRead32 off :: rest →
      step s = .next { s with calls := rest, result := .word32 ((regRead64 off s).setWidth 32) }) ∧
    (s.calls = .regRead64 off :: rest →
      step s = .next { s with calls := rest, result := .word64 (regRead64 off s) }) ∧
    (regRead64 0x00 s).toNat = (if s.unit.cmd.busy then 2 ^ 63 else 0) + s.unit.cmdData.toNat ∧
    regRead64 0x10 s = s.unit.ctrl.setWidth 64 ∧
    (regRead64 0x20 s).toNat = s.unit.cur.fp.val * 2 ^ 16 + s.unit.cur.ifcSnap.toNat * 2 ^ 8 + s.unit.cur.pos ∧
    (off ≠ 0x00 → off ≠ 0x10 → off ≠ 0x20 → off ≠ 0x30 → regRead64 off s = 0)

/-- `TOP` (R325): on an idle unit with 32 bits ahead it shows them with the busy flag clear, the same word FDEC with
`FB = 0` would put in `cmdData` (R244); else it reads the busy flag alone. -/
def Obligations.TopShowsWhatFdecWouldLookAt : Prop :=
  ∀ s : State, InputCounted s →
    (s.unit.cmd.busy = false → 32 ≤ totalAvail s → (regRead64 0x30 s).toNat = aheadValue s 0 32 ∧
      ∀ unused, ∃ t, exec (.fdec 0 unused) s = .next t ∧ t.unit.cmdData = (regRead64 0x30 s).setWidth 32) ∧
    (s.unit.cmd.busy = true ∨ totalAvail s < 32 → (regRead64 0x30 s).toNat = 2 ^ 63)

/-- Writes the register image ignores (R329, R331, R332), and the 64-bit write as the 32-bit write of its low half. -/
def Obligations.OtherRegisterWritesAreIgnored : Prop :=
  ∀ (off : Nat) (v : Word) (x : BitVec 64) (rest : List Call) (s : State),
    (off ≠ 0x00 → off ≠ 0x10 → s.calls = .regWrite32 off v :: rest →
      step s = .next { s with calls := rest, result := .none }) ∧
    (s.calls = .regWrite64 off x :: rest → step s = step { s with calls := .regWrite32 off (x.setWidth 32) :: rest })

/-- Hard reset (`70_reset_and_hazards.md` R390) gives every field of the unit the value of `10_state.md` R62, which is that of
a new instance, keeps the trace, the configuration, memory and the history of writes to it, and raises nothing. -/
def Obligations.HardResetLeavesResetValues : Prop :=
  ∀ (rest : List Call) (s : State), s.calls = .hardReset :: rest →
    ∃ t, step s = .next t ∧ t.irqTrace = s.irqTrace ∧ t.mem = s.mem ∧ t.memWrites = s.memWrites ∧ t.cfg = s.cfg ∧
      t.calls = rest ∧ t.result = .none ∧
      t.unit = State.reset.unit ∧ t.unit.ctrl = 0 ∧ t.unit.cmd = ⟨0xFFFFFFFF#32, false, 0, 0, 0⟩ ∧
      t.unit.lib = none ∧ t.unit.cmdData = 0 ∧
      t.unit.fifoIn = [] ∧ t.unit.fifoOut = [] ∧ t.unit.stall = ⟨false, false, false⟩ ∧
      t.unit.cur.fp.val = 0 ∧ t.unit.cur.pos = 0 ∧ t.unit.cur.ifcSnap = 0 ∧ t.unit.cur.hasNew = false ∧
      (∀ k, t.unit.cur.slot.getD k 0 = 0) ∧
      (∀ d, d = t.unit.dmaTo ∨ d = t.unit.dmaFrom → d.inProgress = false ∧ d.mode = .normal ∧ d.dmaFinished = false ∧
        d.irqTriggered = false ∧ d.tagFollow = .none ∧ d.nextMem = 0 ∧ d.stalled = false ∧ d.memAddr = 0 ∧
        d.remaining = 0 ∧ d.tagWord = 0) ∧
      (∀ k, t.unit.iqIntra.getD k 0 = 0 ∧ t.unit.iqNonIntra.getD k 0 = 0 ∧ t.unit.vqclut.getD k 0 = 0) ∧
      t.unit.th0 = 0 ∧ t.unit.th1 = 0 ∧
      (∀ k, t.unit.mb.raw.getD k 0 = 0 ∧ flatPixel t.unit.mb.rgb32 k = ⟨0, 0, 0, 0⟩) ∧
      t.unit.pend = ⟨none, none, none⟩

/-- `tick(n)` (`60_exceptions.md` R363): the slots that expire within `n` cycles are emitted by expiry time, ties in the
order TO, FROM, CMD, and emptied; the others count down by `n`; nothing else changes. -/
def Obligations.TickEmitsDueInOrder : Prop :=
  ∀ (n : Nat) (s : State), ∃ due : List (IrqSrc × Nat),
    (tickBy n s).irqTrace = s.irqTrace ++ due.map Prod.fst ∧
      (∀ src c, (src, c) ∈ due ↔ pendOf s.unit.pend src = some c ∧ c ≤ n) ∧
      due.Pairwise (fun a b => a.2 < b.2 ∨ a.2 = b.2 ∧ irqRank a.1 < irqRank b.1) ∧
      (∀ src, pendOf (tickBy n s).unit.pend src =
        match pendOf s.unit.pend src with
        | some c => if c ≤ n then none else some (c - n)
        | none => none) ∧
      tickBy n s = { s with
        irqTrace := (tickBy n s).irqTrace, unit := { s.unit with pend := (tickBy n s).unit.pend } }

/-- Persistence (`45_host_register_interface.md` R340 to R342): `save` answers an image exactly when neither a command nor a
transfer is in flight, and changes nothing; restoring it under the same configuration puts the unit back as it was and
leaves the trace alone; under another configuration it is refused. -/
def Obligations.SavedImageRestores : Prop :=
  ∀ s t : State,
    (s.unit.cmd.busy = false → s.unit.dmaTo.inProgress = false → s.unit.dmaFrom.inProgress = false →
      callSave s = .next (s.setResult (.image s.unit))) ∧
    (s.unit.cmd.busy = true ∨ s.unit.dmaTo.inProgress = true ∨ s.unit.dmaFrom.inProgress = true →
      callSave s = .refused .saveNotPersistable) ∧
    (t.cfg = s.cfg → callRestore s.cfg s.unit t = .next { t with unit := s.unit, result := .none }) ∧
    (t.cfg ≠ s.cfg → callRestore s.cfg s.unit t = .refused .restoreOtherConfiguration)

/-! ### The bit cursor -/

/-- Associativity of bit consumption (`40_bitstream_cursor.md` R152). -/
def Obligations.ReadsAssociate : Prop :=
  ∀ (a b : Nat) (s : State), 1 ≤ a → a ≤ 32 → 1 ≤ b → b ≤ 32 → InputCounted s → a + b ≤ totalAvail s →
    ∃ x y t u, readBits a s = .ok x t ∧ readBits b t = .ok y u ∧ Consumed (a + b) s u ∧
      aheadValue s 0 (a + b) = x.toNat * 2 ^ b + y.toNat ∧
      (a + b ≤ 32 → readBits (a + b) s = .ok (BitVec.ofNat 32 (x.toNat * 2 ^ b + y.toNat)) u)

/-- Short reads (R150, R145 to R148): `readBits`, `peekBits`, `skipBits` and `alignByte` are short exactly when the stream
holds fewer bits than asked, and then nothing is consumed and nothing but cursor and input FIFO changes; else they answer.
Short or not, they pull lazily, no more than they need (R142), and leave the snapshot equal to the live counter (R154). -/
def Obligations.ShortReadsConsumeNothing : Prop :=
  ∀ (w : Nat) (s : State), InputCounted s →
    (totalAvail s < w → 1 ≤ w → w ≤ 32 → ∃ t, readBits w s = .short t ∧ peekBits w s = .short t ∧ InputMoved w 0 s t) ∧
    (w ≤ totalAvail s → 1 ≤ w → w ≤ 32 → ∃ t u, readBits w s = .ok (BitVec.ofNat 32 (aheadValue s 0 w)) t ∧
      InputMoved w w s t ∧ peekBits w s = .ok (BitVec.ofNat 32 (aheadValue s 0 w)) u ∧ InputMoved w 0 s u) ∧
    (totalAvail s < w → w ≤ 63 → ∃ t, skipBits w s = .short t ∧ InputMoved w 0 s t) ∧
    (w ≤ totalAvail s → w ≤ 63 → ∃ t, skipBits w s = .ok () t ∧ InputMoved w w s t) ∧
    (s.unit.cur.bitOfs ≠ 0 → totalAvail s = 0 → ∃ t, alignByte s = .short t ∧ InputMoved 1 0 s t) ∧
    (s.unit.cur.bitOfs = 0 ∨ 1 ≤ totalAvail s →
      ∃ t, alignByte s = .ok () t ∧
        InputMoved (if s.unit.cur.bitOfs = 0 then 0 else 1) ((8 - s.unit.cur.bitOfs.toNat) % 8) s t)

/-- Looking and then reading (R146): the same value twice, and the read takes nothing more from the input FIFO. -/
def Obligations.PeekThenReadAgree : Prop :=
  ∀ (w : Nat) (v : Word) (s t : State), 1 ≤ w → w ≤ 32 → InputCounted s → peekBits w s = .ok v t →
    ∃ u, readBits w t = .ok v u ∧ u.unit.fifoIn = t.unit.fifoIn ∧ u.ifc = t.ifc ∧ Consumed w s u

/-! ### The converter -/

/-- The default index of a pixel under indexed output is the smallest one whose colour is nearest
(`44_color_space_converter.md` R300). It is the index of every instance whose `PixelMath` lists no answer of its own for
these arguments (Log 15; OutputQuadwordBytes says what one that lists an answer gives). -/
def Obligations.IndexIsNearestColour : Prop :=
  ∀ (m : PixelMath) (clut : Vector (BitVec 16) 16) (p : Pixel) (x y : Nat) (dte : Bool) (e : Nat), e < 16 →
    Unlisted m.indexTable ⟨clut, p, x, y, dte⟩ →
    let d (k : Nat) : Nat := colourDist (narrow16 m p x y dte) (clut.getD k 0)
    let best := (index4 m clut p x y dte).toNat
    d best ≤ d e ∧ (e < best → d best < d e)

/-- The bytes of the output quadwords (R298, R299, R301; `43_command_dispatcher.md` R242): RGB32 channel after channel,
RGB16 and coefficients low byte first, INDX4 the even pixel in the low half. The 16-bit pixel is the answer the instance
lists, else 5, 6 and 5 bits of the channels with the dither offset, clamped (R296); a listed index is the pixel's
(R5; held as tables, Log 15). -/
def Obligations.OutputQuadwordBytes : Prop :=
  ∀ (m : PixelMath) (clut : Vector (BitVec 16) 16) (dte : Bool) (px : Vector Pixel 256) (c : Vector (BitVec 16) 384)
    (k : Nat),
    (∀ j, j < 16 → qwByte (outQW m clut .rgb32 dte px k) j = (flatPixel px (4 * k + j / 4)).channel (j % 4)) ∧
    (∀ j, j < 8 → qwByte (outQW m clut .rgb16 dte px k) (2 * j + 1) ++ qwByte (outQW m clut .rgb16 dte px k) (2 * j) =
      narrow16 m (flatPixel px (8 * k + j)) ((8 * k + j) % 16) ((8 * k + j) / 16) dte) ∧
    (∀ j, j < 16 → qwByte (outQW m clut .indx4 dte px k) j =
      index4 m clut (flatPixel px (32 * k + 2 * j + 1)) ((32 * k + 2 * j + 1) % 16) ((32 * k + 2 * j + 1) / 16) dte ++
        index4 m clut (flatPixel px (32 * k + 2 * j)) ((32 * k + 2 * j) % 16) ((32 * k + 2 * j) / 16) dte) ∧
    (∀ j, j < 8 → qwByte (coefQW c k) (2 * j + 1) ++ qwByte (coefQW c k) (2 * j) = c.getD (8 * k + j) 0) ∧
    (∀ p x y v, Answers m.narrowTable ⟨p, x, y, dte⟩ v → narrow16 m p x y dte = v) ∧
    (∀ p x y, Unlisted m.narrowTable ⟨p, x, y, dte⟩ →
      let d : Int := if dte then (m.dither.getD (y % 4) (Vector.replicate 4 0)).getD (x % 4) 0 else 0
      let ch (v : Byte) : Nat := (min 255 (max 0 ((v.toNat : Int) + d))).toNat
      (narrow16 m p x y dte).toNat = ch p.r / 8 + 32 * (ch p.g / 4) + 2048 * (ch p.b / 8)) ∧
    (∀ p x y e, Answers m.indexTable ⟨clut, p, x, y, dte⟩ e → index4 m clut p x y dte = e)

/-- The converted macroblock (R293): each pixel from its luma and the chroma of its 2 by 2 block. Its colour is the answer
the instance lists, else the fixed-point arithmetic of R292; so its alpha, else the one the thresholds give by R295 (R4,
R5; held as tables, Log 15). -/
def Obligations.EachPixelIsConverted : Prop :=
  ∀ (m : PixelMath) (raw : Vector Byte 384) (th0 th1 : BitVec 9) (x y : Nat) (r g b : Byte), x < 16 → y < 16 →
    yuv2rgb m (raw.getD (16 * y + x) 0) (raw.getD (256 + 8 * (y / 2) + x / 2) 0)
      (raw.getD (320 + 8 * (y / 2) + x / 2) 0) = (r, g, b) →
    let p := flatPixel (convertMacroblock m raw th0 th1) (16 * y + x)
    let q : YuvQuery := ⟨raw.getD (16 * y + x) 0, raw.getD (256 + 8 * (y / 2) + x / 2) 0,
      raw.getD (320 + 8 * (y / 2) + x / 2) 0⟩
    (∀ c, Answers m.yuvTable q c → (r, g, b) = c) ∧
    (Unlisted m.yuvTable q →
      let lum := m.yCoeff * max 0 ((q.y.toNat : Int) - m.yBias) / 64
      let part (coeff : Int) (c : Byte) : Int := coeff * ((c.toNat : Int) - 128) / 64
      let clamped (v : Int) : Int := min 255 (max 0 ((v + 1) / 2))
      (r.toNat : Int) = clamped (lum + part m.rcrCoeff q.cr) ∧
        (g.toNat : Int) = clamped (lum + part m.gcrCoeff q.cr + part m.gcbCoeff q.cb) ∧
        (b.toNat : Int) = clamped (lum + part m.bcbCoeff q.cb)) ∧
    (∀ v, Answers m.thresholdTable ⟨r, g, b, th0, th1⟩ v → p = v) ∧
    (Unlisted m.thresholdTable ⟨r, g, b, th0, th1⟩ →
      (r.toNat < th0.toNat ∧ g.toNat < th0.toNat ∧ b.toNat < th0.toNat → p = ⟨0, 0, 0, 0⟩) ∧
      (¬ (r.toNat < th0.toNat ∧ g.toNat < th0.toNat ∧ b.toNat < th0.toNat) →
        p = ⟨r, g, b, if r.toNat < th1.toNat ∧ g.toNat < th1.toNat ∧ b.toNat < th1.toNat then m.alphaHalf
          else m.alphaOpaque⟩))

/-- A stored quadword (`20_memory.md` R81, R85, R89): it is read back, the bytes outside it are kept, and the rounded address
is the next lower multiple of 16. -/
def Obligations.StoredQuadwordIsReadBack : Prop :=
  ∀ (a : Addr) (q : QWord) (m : List Host.Cell), Memory.wf m →
    Memory.readQW (Memory.writeQW a q m) a = q ∧
      (∀ x, (∀ k, k < 16 → x ≠ (a + BitVec.ofNat 32 k).toNat) →
        Memory.read (Memory.writeQW a q m) x = Memory.read m x) ∧
      (align16 a).toNat = a.toNat - a.toNat % 16

/-! ### The whole machine -/

/-- The only fault (`60_exceptions.md` R356): a step faults only with `RefillOverCapacity`, and only where the decode library
asks for a refill of more than 32 bytes: as the outstanding request of the open session, or, for some replies, as the
request with which that session, or the one opened for the call's command word with the parameters as they stand (R251),
goes on. -/
def Obligations.OnlyOversizedRefillFaults : Prop :=
  ∀ (s : State) (f : Fault), step s = .fault f →
    f = .refillOverCapacity ∧ ∃ call rest hint n, s.calls = call :: rest ∧ 32 < n ∧
      ((∃ ses, s.unit.lib = some ses ∧
          (ses.req = .refill hint n ∨ ∃ replies, libNext s.cfg ⟨replies, ses.params⟩ = .refill hint n)) ∨
        ∃ fb c replies, librarySession (decodeCommand (call.commandWord s)) = some (fb, c) ∧
          libNext s.cfg ⟨replies, libParams c s.unit⟩ = .refill hint n)

/-- An instruction stops without a next state only where the decode library breaks its contract (`43_command_dispatcher.md`
R252, R254): the instruction opens a session, and for some replies the library's request is outside the ranges of R252. No
other command and no tag faults or is refused, from any state. That a refill hint above 63 is no breach is the model's
choice (Log 10). -/
def Obligations.OnlyBrokenContractStops : Prop :=
  ∀ (i : Instr) (s : State), (∀ t, exec i s ≠ .next t) →
    ∃ fb c replies, librarySession i = some (fb, c) ∧
      ¬ requestAllowed c (libNext s.cfg ⟨replies, libParams c s.unit⟩)

/-- One call raises at most one source (R366), at most once: a command write and a dispatch step CMD, a kick the source of
its direction, no other call any. `tick` is apart (R363); `hardReset` and `restore` replace the slots, and emit nothing. No
call takes an event of the trace back (`10_state.md` R60). -/
def Obligations.OneSourcePerCall : Prop :=
  ∀ (c : Call) (rest : List Call) (s t : State), s.calls = c :: rest → step s = .next t →
    s.irqTrace <+: t.irqTrace ∧
      ((∀ n, c ≠ .tick n) → c ≠ .hardReset → (∀ cfg image, c ≠ .restore cfg image) →
        Quiet s t ∨ ∃ src, c.source = some src ∧ Raised src s t) ∧
      (c = .hardReset ∨ (∃ cfg image, c = .restore cfg image) → t.irqTrace = s.irqTrace)

/-- Only the out-of-unit transfer and the environment's own stores write host memory (`46_operation_classes_and_laws.md`
R274): every other call leaves every byte, and only an out-of-unit kick adds to the history of the unit's writes, from which
no call takes one away (`20_memory.md` R92). No call changes the configuration (`00_scope.md` R5). -/
def Obligations.OnlyOutTransferWritesMemory : Prop :=
  (∀ (i : Instr) (s t : State), exec i s = .next t → SameMemory s t ∧ t.memWrites = s.memWrites ∧ t.cfg = s.cfg) ∧
    ∀ (c : Call) (rest : List Call) (s t : State), s.calls = c :: rest → step s = .next t →
      t.cfg = s.cfg ∧ s.memWrites <+: t.memWrites ∧
        ((∀ a b, c ≠ .dmaKickFrom a b) → t.memWrites = s.memWrites) ∧
        ((∀ a b, c ≠ .dmaKickFrom a b) → (∀ a bs, c ≠ .hostStore a bs) → SameMemory s t)

/-- No instruction changes a bit of `ctrl` that only a host write changes (`10_state.md` R21, R27, R29, R30, R32). -/
def Obligations.InstructionsKeepHostBits : Prop :=
  ∀ (i : Instr) (s t : State), exec i s = .next t → CtrlKept hostCtrlBit s t

/-! ### Invariants -/

/-- The FIFO counters equal the lengths of the queues and never pass the capacities (`41_fifo_gate.md` R178). -/
def Obligations.CountersFollowQueues : Prop := StepKeeps FifoInv

/-- The command state stays consistent: BUSY and the sentinel mirror `busy`, an opcode in flight is 1 to 9, idle markers are
0, a session is open only under IDEC, BDEC and VDEC (`10_state.md` R33, R35 to R37, R61), and a CSC or PACK in flight has
finished fewer macroblocks than it converts (`46_operation_classes_and_laws.md` R270, `43_command_dispatcher.md` R247,
R248). -/
def Obligations.CommandStateStaysConsistent : Prop := StepKeeps fun _ u => CommandInv u ∧ IndexInv u

/-- Both transfer records stay consistent, their addresses multiples of 16 (`10_state.md` R48, R49; `42_dma_tag_walker.md`
R198, R207; `46_operation_classes_and_laws.md` R274). -/
def Obligations.TransfersStayConsistent : Prop := StepKeeps fun _ u => DmaInv u

/-- The reserved bits of `ctrl` stay zero and the dead marker false (`10_state.md` R28, R31, R44). -/
def Obligations.ReservedStateStaysZero : Prop := StepKeeps fun _ u => ReservedInv u ∧ HasNewInv u

/-- Under the inline policy no slot is ever armed; an armed slot never waits longer than its delay (`10_state.md` R59,
`46_operation_classes_and_laws.md` R270). -/
def Obligations.SlotsStayLegal : Prop := StepKeeps PendInv

/-- Memory keeps its canonical form (Log 2). -/
def Obligations.MemoryStaysCanonical : Prop := ∀ s t : State, Memory.wf s.mem → step s = .next t → Memory.wf t.mem

/-- The state after reset meets every invariant; that its memory is in canonical form rests on the model's choice of a form
and of an empty memory (Log 2). -/
def Obligations.ResetMeetsInvariants : Prop :=
  Held FifoInv State.reset ∧ Held (fun _ u => CommandInv u ∧ IndexInv u) State.reset ∧
    Held (fun _ u => DmaInv u) State.reset ∧ Held (fun _ u => ReservedInv u ∧ HasNewInv u) State.reset ∧
    Held PendInv State.reset ∧ Memory.wf State.reset.mem
end

