-- ==== Sys2Proof/Laws/Encoding.lean ====
section
/-! SUPPORT. Decoding and encoding, field by field (`30_encoding.md`). -/

namespace Sys2Proof

/-- The opcode of a command's words (`30_encoding.md` R100), or the code of a tag's (R114). -/
def Instr.code : Instr → Nat
  | .bclr _ _ => 0
  | .idec _ _ _ _ _ _ _ _ => 1
  | .bdec _ _ _ _ _ _ _ => 2
  | .vdec _ _ _ => 3
  | .fdec _ _ => 4
  | .setiq _ _ _ => 5
  | .setvq _ => 6
  | .csc _ _ _ _ => 7
  | .pack _ _ _ _ => 8
  | .setth _ _ _ _ => 9
  | .invalid101 opcode _ => opcode.toNat
  | .invalid11 opcode _ => opcode.toNat
  | .tagFollow _ => 0
  | .tagQwc _ => 1
  | .tagAddr _ => 2
  | .tagNone _ => 3
  | .tagMalformed code _ => code.toNat

/-- The instruction of a command word has the word's opcode. -/
theorem decodeCommand_code (w : Word) : (decodeCommand w).code = (w.extractLsb' 28 4).toNat := by
  unfold decodeCommand
  dsimp only
  split <;> first | rfl | (rename_i h; rw [h]; rfl)

/-- The instruction of a command word comes through the command port. -/
theorem decodeCommand_port (w : Word) : (decodeCommand w).port = .command := by
  unfold decodeCommand
  dsimp only
  split <;> rfl

/-- The instruction of a tag has the tag's code. -/
theorem decodeTag_code (t : QWord) : (decodeTag t).code = (t.extractLsb' 28 3).toNat := by
  unfold decodeTag
  split <;> first | rfl | (rename_i h; rw [h]; rfl)

/-- The instruction of a tag comes through the tag port. -/
theorem decodeTag_port (t : QWord) : (decodeTag t).port = .tag := by
  unfold decodeTag
  split <;> rfl

/-! ### Bytes and values -/

theorem leBytes_length (n v : Nat) : (leBytes n v).length = n := by
  induction n generalizing v with
  | zero => rfl
  | succ n ih => simp [leBytes, ih]

theorem leValue_leBytes (n v : Nat) : leValue (leBytes n v) = v % 256 ^ n := by
  induction n generalizing v with
  | zero => simp [leBytes, leValue, Nat.mod_one]
  | succ n ih =>
    simp only [leBytes, leValue, ih, BitVec.toNat_ofNat]
    rw [show 256 ^ (n + 1) = 256 * 256 ^ n from by rw [Nat.pow_succ, Nat.mul_comm], Nat.mod_mul]

theorem leValue_lt (bs : List Byte) : leValue bs < 256 ^ bs.length := by
  induction bs with
  | nil => simp [leValue]
  | cons b bs ih =>
    have := b.isLt
    simp only [leValue, List.length_cons, pow_succ]
    omega

/-- The bytes of a value give the value back, with whatever follows left over. -/
theorem leValue_take_leBytes (n v : Nat) (rest : List Byte) (h : v < 256 ^ n) :
    leValue ((leBytes n v ++ rest).take n) = v := by
  have hl := leBytes_length n v
  rw [List.take_append_of_le_length (by omega), List.take_of_length_le (by omega), leValue_leBytes, Nat.mod_eq_of_lt h]

theorem drop_leBytes (n v : Nat) (rest : List Byte) : (leBytes n v ++ rest).drop n = rest := by
  have hl := leBytes_length n v
  rw [List.drop_append_of_le_length (by omega), List.drop_of_length_le (by omega), List.nil_append]

end Sys2Proof
end

