-- ==== Sys2Proof/Laws/Flags.lean ====
section
/-! SUPPORT. Reading back a field of `ctrl` after a write of the same or of another field. -/

namespace Sys2Proof.Machine

/-- All that a field write does: the field's bits are the value's, every other bit stays. -/
theorem getLsbD_putField (lo : Nat) {w : Nat} (v : BitVec w) (c : Word) (i : Nat) (hw : lo + w ≤ 32) :
    (putField lo v c).getLsbD i = if lo ≤ i ∧ i < lo + w then v.getLsbD (i - lo) else c.getLsbD i := by
  unfold putField
  simp only [BitVec.getLsbD_or, BitVec.getLsbD_and, BitVec.getLsbD_not, BitVec.getLsbD_shiftLeft,
    BitVec.getLsbD_setWidth, BitVec.getLsbD_allOnes]
  by_cases h : lo ≤ i ∧ i < lo + w
  · obtain ⟨h1, h2⟩ := h
    have h3 : i < 32 := by omega
    have h4 : ¬ i < lo := by omega
    have h5 : i - lo < 32 := by omega
    have h6 : i - lo < w := by omega
    simp [h1, h2, h3, h4, h5, h6]
  · rw [if_neg h]
    by_cases h3 : i < 32
    · by_cases h4 : i < lo
      · simp [h3, h4]
      · have h6 : ¬ i - lo < w := by omega
        simp [h3, h4, h6, BitVec.getLsbD_of_ge v (i - lo) (by omega)]
    · simp [h3, BitVec.getLsbD_of_ge c i (by omega)]

/-- A field written is read back. -/
theorem getField_putField_same (lo : Nat) {w : Nat} (v : BitVec w) (c : Word) (hw : lo + w ≤ 32) :
    getField lo w (putField lo v c) = v := by
  apply BitVec.eq_of_getLsbD_eq
  intro i hi
  simp only [getField, BitVec.getLsbD_extractLsb', hi, decide_true, Bool.true_and]
  rw [getLsbD_putField lo v c _ hw, if_pos (by omega)]
  congr 1
  omega

/-- A write of a field leaves a field beside it alone. -/
theorem getField_putField_other (lo lo' : Nat) {w : Nat} (w' : Nat) (v : BitVec w) (c : Word) (hw : lo + w ≤ 32)
    (h : lo' + w' ≤ lo ∨ lo + w ≤ lo') : getField lo' w' (putField lo v c) = getField lo' w' c := by
  apply BitVec.eq_of_getLsbD_eq
  intro i hi
  simp only [getField, BitVec.getLsbD_extractLsb', hi, decide_true, Bool.true_and]
  rw [getLsbD_putField lo v c _ hw, if_neg (by omega)]

/-- A write of a field leaves a bit outside it alone. -/
theorem getLsbD_putField_other (lo : Nat) {w : Nat} (v : BitVec w) (c : Word) (i : Nat) (hw : lo + w ≤ 32)
    (h : i < lo ∨ lo + w ≤ i) : (putField lo v c).getLsbD i = c.getLsbD i := by
  rw [getLsbD_putField lo v c i hw, if_neg (by omega)]

/-- A one-bit field written is read back as a bit. -/
theorem getLsbD_putField_bit (lo : Nat) (b : Bool) (c : Word) (h : lo + 1 ≤ 32) :
    (putField lo (BitVec.ofBool b) c).getLsbD lo = b := by
  rw [getLsbD_putField lo _ c lo h, if_pos (by omega)]
  cases b <;> simp

/-! ### The fields by name -/

@[simp] theorem ctrlIFC_putIFC (v : BitVec 4) (c : Word) : ctrlIFC (putIFC v c) = v :=
  getField_putField_same _ _ _ (by decide)
@[simp] theorem ctrlOFC_putIFC (v : BitVec 4) (c : Word) : ctrlOFC (putIFC v c) = ctrlOFC c :=
  getField_putField_other _ _ _ _ _ (by decide) (by decide)
@[simp] theorem ctrlCBP_putIFC (v : BitVec 4) (c : Word) : ctrlCBP (putIFC v c) = ctrlCBP c :=
  getField_putField_other _ _ _ _ _ (by decide) (by decide)
@[simp] theorem ctrlECD_putIFC (v : BitVec 4) (c : Word) : ctrlECD (putIFC v c) = ctrlECD c :=
  getLsbD_putField_other _ _ _ _ (by decide) (by decide)
@[simp] theorem ctrlSCD_putIFC (v : BitVec 4) (c : Word) : ctrlSCD (putIFC v c) = ctrlSCD c :=
  getLsbD_putField_other _ _ _ _ (by decide) (by decide)
@[simp] theorem ctrlIDP_putIFC (v : BitVec 4) (c : Word) : ctrlIDP (putIFC v c) = ctrlIDP c :=
  getField_putField_other _ _ _ _ _ (by decide) (by decide)
@[simp] theorem ctrlAS_putIFC (v : BitVec 4) (c : Word) : ctrlAS (putIFC v c) = ctrlAS c :=
  getLsbD_putField_other _ _ _ _ (by decide) (by decide)
@[simp] theorem ctrlIVF_putIFC (v : BitVec 4) (c : Word) : ctrlIVF (putIFC v c) = ctrlIVF c :=
  getLsbD_putField_other _ _ _ _ (by decide) (by decide)
@[simp] theorem ctrlQST_putIFC (v : BitVec 4) (c : Word) : ctrlQST (putIFC v c) = ctrlQST c :=
  getLsbD_putField_other _ _ _ _ (by decide) (by decide)
@[simp] theorem ctrlMP1_putIFC (v : BitVec 4) (c : Word) : ctrlMP1 (putIFC v c) = ctrlMP1 c :=
  getLsbD_putField_other _ _ _ _ (by decide) (by decide)
@[simp] theorem ctrlPCT_putIFC (v : BitVec 4) (c : Word) : ctrlPCT (putIFC v c) = ctrlPCT c :=
  getField_putField_other _ _ _ _ _ (by decide) (by decide)
@[simp] theorem ctrlRST_putIFC (v : BitVec 4) (c : Word) : ctrlRST (putIFC v c) = ctrlRST c :=
  getLsbD_putField_other _ _ _ _ (by decide) (by decide)
@[simp] theorem ctrlBUSY_putIFC (v : BitVec 4) (c : Word) : ctrlBUSY (putIFC v c) = ctrlBUSY c :=
  getLsbD_putField_other _ _ _ _ (by decide) (by decide)
@[simp] theorem lowReserved_putIFC (v : BitVec 4) (c : Word) : getField 18 2 (putIFC v c) = getField 18 2 c :=
  getField_putField_other _ _ _ _ _ (by decide) (by decide)
@[simp] theorem highReserved_putIFC (v : BitVec 4) (c : Word) : getField 27 3 (putIFC v c) = getField 27 3 c :=
  getField_putField_other _ _ _ _ _ (by decide) (by decide)

@[simp] theorem ctrlIFC_putOFC (v : BitVec 4) (c : Word) : ctrlIFC (putOFC v c) = ctrlIFC c :=
  getField_putField_other _ _ _ _ _ (by decide) (by decide)
@[simp] theorem ctrlOFC_putOFC (v : BitVec 4) (c : Word) : ctrlOFC (putOFC v c) = v :=
  getField_putField_same _ _ _ (by decide)
@[simp] theorem ctrlCBP_putOFC (v : BitVec 4) (c : Word) : ctrlCBP (putOFC v c) = ctrlCBP c :=
  getField_putField_other _ _ _ _ _ (by decide) (by decide)
@[simp] theorem ctrlECD_putOFC (v : BitVec 4) (c : Word) : ctrlECD (putOFC v c) = ctrlECD c :=
  getLsbD_putField_other _ _ _ _ (by decide) (by decide)
@[simp] theorem ctrlSCD_putOFC (v : BitVec 4) (c : Word) : ctrlSCD (putOFC v c) = ctrlSCD c :=
  getLsbD_putField_other _ _ _ _ (by decide) (by decide)
@[simp] theorem ctrlIDP_putOFC (v : BitVec 4) (c : Word) : ctrlIDP (putOFC v c) = ctrlIDP c :=
  getField_putField_other _ _ _ _ _ (by decide) (by decide)
@[simp] theorem ctrlAS_putOFC (v : BitVec 4) (c : Word) : ctrlAS (putOFC v c) = ctrlAS c :=
  getLsbD_putField_other _ _ _ _ (by decide) (by decide)
@[simp] theorem ctrlIVF_putOFC (v : BitVec 4) (c : Word) : ctrlIVF (putOFC v c) = ctrlIVF c :=
  getLsbD_putField_other _ _ _ _ (by decide) (by decide)
@[simp] theorem ctrlQST_putOFC (v : BitVec 4) (c : Word) : ctrlQST (putOFC v c) = ctrlQST c :=
  getLsbD_putField_other _ _ _ _ (by decide) (by decide)
@[simp] theorem ctrlMP1_putOFC (v : BitVec 4) (c : Word) : ctrlMP1 (putOFC v c) = ctrlMP1 c :=
  getLsbD_putField_other _ _ _ _ (by decide) (by decide)
@[simp] theorem ctrlPCT_putOFC (v : BitVec 4) (c : Word) : ctrlPCT (putOFC v c) = ctrlPCT c :=
  getField_putField_other _ _ _ _ _ (by decide) (by decide)
@[simp] theorem ctrlRST_putOFC (v : BitVec 4) (c : Word) : ctrlRST (putOFC v c) = ctrlRST c :=
  getLsbD_putField_other _ _ _ _ (by decide) (by decide)
@[simp] theorem ctrlBUSY_putOFC (v : BitVec 4) (c : Word) : ctrlBUSY (putOFC v c) = ctrlBUSY c :=
  getLsbD_putField_other _ _ _ _ (by decide) (by decide)
@[simp] theorem lowReserved_putOFC (v : BitVec 4) (c : Word) : getField 18 2 (putOFC v c) = getField 18 2 c :=
  getField_putField_other _ _ _ _ _ (by decide) (by decide)
@[simp] theorem highReserved_putOFC (v : BitVec 4) (c : Word) : getField 27 3 (putOFC v c) = getField 27 3 c :=
  getField_putField_other _ _ _ _ _ (by decide) (by decide)

@[simp] theorem ctrlIFC_putCBP (v : BitVec 6) (c : Word) : ctrlIFC (putCBP v c) = ctrlIFC c :=
  getField_putField_other _ _ _ _ _ (by decide) (by decide)
@[simp] theorem ctrlOFC_putCBP (v : BitVec 6) (c : Word) : ctrlOFC (putCBP v c) = ctrlOFC c :=
  getField_putField_other _ _ _ _ _ (by decide) (by decide)
@[simp] theorem ctrlCBP_putCBP (v : BitVec 6) (c : Word) : ctrlCBP (putCBP v c) = v :=
  getField_putField_same _ _ _ (by decide)
@[simp] theorem ctrlECD_putCBP (v : BitVec 6) (c : Word) : ctrlECD (putCBP v c) = ctrlECD c :=
  getLsbD_putField_other _ _ _ _ (by decide) (by decide)
@[simp] theorem ctrlSCD_putCBP (v : BitVec 6) (c : Word) : ctrlSCD (putCBP v c) = ctrlSCD c :=
  getLsbD_putField_other _ _ _ _ (by decide) (by decide)
@[simp] theorem ctrlIDP_putCBP (v : BitVec 6) (c : Word) : ctrlIDP (putCBP v c) = ctrlIDP c :=
  getField_putField_other _ _ _ _ _ (by decide) (by decide)
@[simp] theorem ctrlAS_putCBP (v : BitVec 6) (c : Word) : ctrlAS (putCBP v c) = ctrlAS c :=
  getLsbD_putField_other _ _ _ _ (by decide) (by decide)
@[simp] theorem ctrlIVF_putCBP (v : BitVec 6) (c : Word) : ctrlIVF (putCBP v c) = ctrlIVF c :=
  getLsbD_putField_other _ _ _ _ (by decide) (by decide)
@[simp] theorem ctrlQST_putCBP (v : BitVec 6) (c : Word) : ctrlQST (putCBP v c) = ctrlQST c :=
  getLsbD_putField_other _ _ _ _ (by decide) (by decide)
@[simp] theorem ctrlMP1_putCBP (v : BitVec 6) (c : Word) : ctrlMP1 (putCBP v c) = ctrlMP1 c :=
  getLsbD_putField_other _ _ _ _ (by decide) (by decide)
@[simp] theorem ctrlPCT_putCBP (v : BitVec 6) (c : Word) : ctrlPCT (putCBP v c) = ctrlPCT c :=
  getField_putField_other _ _ _ _ _ (by decide) (by decide)
@[simp] theorem ctrlRST_putCBP (v : BitVec 6) (c : Word) : ctrlRST (putCBP v c) = ctrlRST c :=
  getLsbD_putField_other _ _ _ _ (by decide) (by decide)
@[simp] theorem ctrlBUSY_putCBP (v : BitVec 6) (c : Word) : ctrlBUSY (putCBP v c) = ctrlBUSY c :=
  getLsbD_putField_other _ _ _ _ (by decide) (by decide)
@[simp] theorem lowReserved_putCBP (v : BitVec 6) (c : Word) : getField 18 2 (putCBP v c) = getField 18 2 c :=
  getField_putField_other _ _ _ _ _ (by decide) (by decide)
@[simp] theorem highReserved_putCBP (v : BitVec 6) (c : Word) : getField 27 3 (putCBP v c) = getField 27 3 c :=
  getField_putField_other _ _ _ _ _ (by decide) (by decide)

@[simp] theorem ctrlIFC_putECD (v : Bool) (c : Word) : ctrlIFC (putECD v c) = ctrlIFC c :=
  getField_putField_other _ _ _ _ _ (by decide) (by decide)
@[simp] theorem ctrlOFC_putECD (v : Bool) (c : Word) : ctrlOFC (putECD v c) = ctrlOFC c :=
  getField_putField_other _ _ _ _ _ (by decide) (by decide)
@[simp] theorem ctrlCBP_putECD (v : Bool) (c : Word) : ctrlCBP (putECD v c) = ctrlCBP c :=
  getField_putField_other _ _ _ _ _ (by decide) (by decide)
@[simp] theorem ctrlECD_putECD (v : Bool) (c : Word) : ctrlECD (putECD v c) = v :=
  getLsbD_putField_bit _ _ _ (by decide)
@[simp] theorem ctrlSCD_putECD (v : Bool) (c : Word) : ctrlSCD (putECD v c) = ctrlSCD c :=
  getLsbD_putField_other _ _ _ _ (by decide) (by decide)
@[simp] theorem ctrlIDP_putECD (v : Bool) (c : Word) : ctrlIDP (putECD v c) = ctrlIDP c :=
  getField_putField_other _ _ _ _ _ (by decide) (by decide)
@[simp] theorem ctrlAS_putECD (v : Bool) (c : Word) : ctrlAS (putECD v c) = ctrlAS c :=
  getLsbD_putField_other _ _ _ _ (by decide) (by decide)
@[simp] theorem ctrlIVF_putECD (v : Bool) (c : Word) : ctrlIVF (putECD v c) = ctrlIVF c :=
  getLsbD_putField_other _ _ _ _ (by decide) (by decide)
@[simp] theorem ctrlQST_putECD (v : Bool) (c : Word) : ctrlQST (putECD v c) = ctrlQST c :=
  getLsbD_putField_other _ _ _ _ (by decide) (by decide)
@[simp] theorem ctrlMP1_putECD (v : Bool) (c : Word) : ctrlMP1 (putECD v c) = ctrlMP1 c :=
  getLsbD_putField_other _ _ _ _ (by decide) (by decide)
@[simp] theorem ctrlPCT_putECD (v : Bool) (c : Word) : ctrlPCT (putECD v c) = ctrlPCT c :=
  getField_putField_other _ _ _ _ _ (by decide) (by decide)
@[simp] theorem ctrlRST_putECD (v : Bool) (c : Word) : ctrlRST (putECD v c) = ctrlRST c :=
  getLsbD_putField_other _ _ _ _ (by decide) (by decide)
@[simp] theorem ctrlBUSY_putECD (v : Bool) (c : Word) : ctrlBUSY (putECD v c) = ctrlBUSY c :=
  getLsbD_putField_other _ _ _ _ (by decide) (by decide)
@[simp] theorem lowReserved_putECD (v : Bool) (c : Word) : getField 18 2 (putECD v c) = getField 18 2 c :=
  getField_putField_other _ _ _ _ _ (by decide) (by decide)
@[simp] theorem highReserved_putECD (v : Bool) (c : Word) : getField 27 3 (putECD v c) = getField 27 3 c :=
  getField_putField_other _ _ _ _ _ (by decide) (by decide)

@[simp] theorem ctrlIFC_putSCD (v : Bool) (c : Word) : ctrlIFC (putSCD v c) = ctrlIFC c :=
  getField_putField_other _ _ _ _ _ (by decide) (by decide)
@[simp] theorem ctrlOFC_putSCD (v : Bool) (c : Word) : ctrlOFC (putSCD v c) = ctrlOFC c :=
  getField_putField_other _ _ _ _ _ (by decide) (by decide)
@[simp] theorem ctrlCBP_putSCD (v : Bool) (c : Word) : ctrlCBP (putSCD v c) = ctrlCBP c :=
  getField_putField_other _ _ _ _ _ (by decide) (by decide)
@[simp] theorem ctrlECD_putSCD (v : Bool) (c : Word) : ctrlECD (putSCD v c) = ctrlECD c :=
  getLsbD_putField_other _ _ _ _ (by decide) (by decide)
@[simp] theorem ctrlSCD_putSCD (v : Bool) (c : Word) : ctrlSCD (putSCD v c) = v :=
  getLsbD_putField_bit _ _ _ (by decide)
@[simp] theorem ctrlIDP_putSCD (v : Bool) (c : Word) : ctrlIDP (putSCD v c) = ctrlIDP c :=
  getField_putField_other _ _ _ _ _ (by decide) (by decide)
@[simp] theorem ctrlAS_putSCD (v : Bool) (c : Word) : ctrlAS (putSCD v c) = ctrlAS c :=
  getLsbD_putField_other _ _ _ _ (by decide) (by decide)
@[simp] theorem ctrlIVF_putSCD (v : Bool) (c : Word) : ctrlIVF (putSCD v c) = ctrlIVF c :=
  getLsbD_putField_other _ _ _ _ (by decide) (by decide)
@[simp] theorem ctrlQST_putSCD (v : Bool) (c : Word) : ctrlQST (putSCD v c) = ctrlQST c :=
  getLsbD_putField_other _ _ _ _ (by decide) (by decide)
@[simp] theorem ctrlMP1_putSCD (v : Bool) (c : Word) : ctrlMP1 (putSCD v c) = ctrlMP1 c :=
  getLsbD_putField_other _ _ _ _ (by decide) (by decide)
@[simp] theorem ctrlPCT_putSCD (v : Bool) (c : Word) : ctrlPCT (putSCD v c) = ctrlPCT c :=
  getField_putField_other _ _ _ _ _ (by decide) (by decide)
@[simp] theorem ctrlRST_putSCD (v : Bool) (c : Word) : ctrlRST (putSCD v c) = ctrlRST c :=
  getLsbD_putField_other _ _ _ _ (by decide) (by decide)
@[simp] theorem ctrlBUSY_putSCD (v : Bool) (c : Word) : ctrlBUSY (putSCD v c) = ctrlBUSY c :=
  getLsbD_putField_other _ _ _ _ (by decide) (by decide)
@[simp] theorem lowReserved_putSCD (v : Bool) (c : Word) : getField 18 2 (putSCD v c) = getField 18 2 c :=
  getField_putField_other _ _ _ _ _ (by decide) (by decide)
@[simp] theorem highReserved_putSCD (v : Bool) (c : Word) : getField 27 3 (putSCD v c) = getField 27 3 c :=
  getField_putField_other _ _ _ _ _ (by decide) (by decide)

@[simp] theorem ctrlIFC_putBUSY (v : Bool) (c : Word) : ctrlIFC (putBUSY v c) = ctrlIFC c :=
  getField_putField_other _ _ _ _ _ (by decide) (by decide)
@[simp] theorem ctrlOFC_putBUSY (v : Bool) (c : Word) : ctrlOFC (putBUSY v c) = ctrlOFC c :=
  getField_putField_other _ _ _ _ _ (by decide) (by decide)
@[simp] theorem ctrlCBP_putBUSY (v : Bool) (c : Word) : ctrlCBP (putBUSY v c) = ctrlCBP c :=
  getField_putField_other _ _ _ _ _ (by decide) (by decide)
@[simp] theorem ctrlECD_putBUSY (v : Bool) (c : Word) : ctrlECD (putBUSY v c) = ctrlECD c :=
  getLsbD_putField_other _ _ _ _ (by decide) (by decide)
@[simp] theorem ctrlSCD_putBUSY (v : Bool) (c : Word) : ctrlSCD (putBUSY v c) = ctrlSCD c :=
  getLsbD_putField_other _ _ _ _ (by decide) (by decide)
@[simp] theorem ctrlIDP_putBUSY (v : Bool) (c : Word) : ctrlIDP (putBUSY v c) = ctrlIDP c :=
  getField_putField_other _ _ _ _ _ (by decide) (by decide)
@[simp] theorem ctrlAS_putBUSY (v : Bool) (c : Word) : ctrlAS (putBUSY v c) = ctrlAS c :=
  getLsbD_putField_other _ _ _ _ (by decide) (by decide)
@[simp] theorem ctrlIVF_putBUSY (v : Bool) (c : Word) : ctrlIVF (putBUSY v c) = ctrlIVF c :=
  getLsbD_putField_other _ _ _ _ (by decide) (by decide)
@[simp] theorem ctrlQST_putBUSY (v : Bool) (c : Word) : ctrlQST (putBUSY v c) = ctrlQST c :=
  getLsbD_putField_other _ _ _ _ (by decide) (by decide)
@[simp] theorem ctrlMP1_putBUSY (v : Bool) (c : Word) : ctrlMP1 (putBUSY v c) = ctrlMP1 c :=
  getLsbD_putField_other _ _ _ _ (by decide) (by decide)
@[simp] theorem ctrlPCT_putBUSY (v : Bool) (c : Word) : ctrlPCT (putBUSY v c) = ctrlPCT c :=
  getField_putField_other _ _ _ _ _ (by decide) (by decide)
@[simp] theorem ctrlRST_putBUSY (v : Bool) (c : Word) : ctrlRST (putBUSY v c) = ctrlRST c :=
  getLsbD_putField_other _ _ _ _ (by decide) (by decide)
@[simp] theorem ctrlBUSY_putBUSY (v : Bool) (c : Word) : ctrlBUSY (putBUSY v c) = v :=
  getLsbD_putField_bit _ _ _ (by decide)
@[simp] theorem lowReserved_putBUSY (v : Bool) (c : Word) : getField 18 2 (putBUSY v c) = getField 18 2 c :=
  getField_putField_other _ _ _ _ _ (by decide) (by decide)
@[simp] theorem highReserved_putBUSY (v : Bool) (c : Word) : getField 27 3 (putBUSY v c) = getField 27 3 c :=
  getField_putField_other _ _ _ _ _ (by decide) (by decide)

end Sys2Proof.Machine
end

