-- ==== Sys2Proof/Laws/State.lean ====
section
/-! SUPPORT. One lemma per field per update of the state, true by definition. -/

namespace Sys2Proof.Machine

variable (s : State)

@[simp] theorem setCtrl_ctrl (v : Word) : (s.setCtrl v).unit.ctrl = v := rfl
@[simp] theorem setCtrl_cmd (v : Word) : (s.setCtrl v).unit.cmd = s.unit.cmd := rfl
@[simp] theorem setCtrl_cmdData (v : Word) : (s.setCtrl v).unit.cmdData = s.unit.cmdData := rfl
@[simp] theorem setCtrl_cur (v : Word) : (s.setCtrl v).unit.cur = s.unit.cur := rfl
@[simp] theorem setCtrl_dmaTo (v : Word) : (s.setCtrl v).unit.dmaTo = s.unit.dmaTo := rfl
@[simp] theorem setCtrl_dmaFrom (v : Word) : (s.setCtrl v).unit.dmaFrom = s.unit.dmaFrom := rfl
@[simp] theorem setCtrl_fifoIn (v : Word) : (s.setCtrl v).unit.fifoIn = s.unit.fifoIn := rfl
@[simp] theorem setCtrl_fifoOut (v : Word) : (s.setCtrl v).unit.fifoOut = s.unit.fifoOut := rfl
@[simp] theorem setCtrl_stall (v : Word) : (s.setCtrl v).unit.stall = s.unit.stall := rfl
@[simp] theorem setCtrl_iqIntra (v : Word) : (s.setCtrl v).unit.iqIntra = s.unit.iqIntra := rfl
@[simp] theorem setCtrl_iqNonIntra (v : Word) : (s.setCtrl v).unit.iqNonIntra = s.unit.iqNonIntra := rfl
@[simp] theorem setCtrl_vqclut (v : Word) : (s.setCtrl v).unit.vqclut = s.unit.vqclut := rfl
@[simp] theorem setCtrl_th0 (v : Word) : (s.setCtrl v).unit.th0 = s.unit.th0 := rfl
@[simp] theorem setCtrl_th1 (v : Word) : (s.setCtrl v).unit.th1 = s.unit.th1 := rfl
@[simp] theorem setCtrl_mb (v : Word) : (s.setCtrl v).unit.mb = s.unit.mb := rfl
@[simp] theorem setCtrl_pend (v : Word) : (s.setCtrl v).unit.pend = s.unit.pend := rfl
@[simp] theorem setCtrl_lib (v : Word) : (s.setCtrl v).unit.lib = s.unit.lib := rfl
@[simp] theorem setCtrl_cfg (v : Word) : (s.setCtrl v).cfg = s.cfg := rfl
@[simp] theorem setCtrl_irqTrace (v : Word) : (s.setCtrl v).irqTrace = s.irqTrace := rfl
@[simp] theorem setCtrl_mem (v : Word) : (s.setCtrl v).mem = s.mem := rfl
@[simp] theorem setCtrl_memWrites (v : Word) : (s.setCtrl v).memWrites = s.memWrites := rfl
@[simp] theorem setCtrl_result (v : Word) : (s.setCtrl v).result = s.result := rfl
@[simp] theorem setCtrl_calls (v : Word) : (s.setCtrl v).calls = s.calls := rfl

@[simp] theorem setCmd_ctrl (v : Command) : (s.setCmd v).unit.ctrl = s.unit.ctrl := rfl
@[simp] theorem setCmd_cmd (v : Command) : (s.setCmd v).unit.cmd = v := rfl
@[simp] theorem setCmd_cmdData (v : Command) : (s.setCmd v).unit.cmdData = s.unit.cmdData := rfl
@[simp] theorem setCmd_cur (v : Command) : (s.setCmd v).unit.cur = s.unit.cur := rfl
@[simp] theorem setCmd_dmaTo (v : Command) : (s.setCmd v).unit.dmaTo = s.unit.dmaTo := rfl
@[simp] theorem setCmd_dmaFrom (v : Command) : (s.setCmd v).unit.dmaFrom = s.unit.dmaFrom := rfl
@[simp] theorem setCmd_fifoIn (v : Command) : (s.setCmd v).unit.fifoIn = s.unit.fifoIn := rfl
@[simp] theorem setCmd_fifoOut (v : Command) : (s.setCmd v).unit.fifoOut = s.unit.fifoOut := rfl
@[simp] theorem setCmd_stall (v : Command) : (s.setCmd v).unit.stall = s.unit.stall := rfl
@[simp] theorem setCmd_iqIntra (v : Command) : (s.setCmd v).unit.iqIntra = s.unit.iqIntra := rfl
@[simp] theorem setCmd_iqNonIntra (v : Command) : (s.setCmd v).unit.iqNonIntra = s.unit.iqNonIntra := rfl
@[simp] theorem setCmd_vqclut (v : Command) : (s.setCmd v).unit.vqclut = s.unit.vqclut := rfl
@[simp] theorem setCmd_th0 (v : Command) : (s.setCmd v).unit.th0 = s.unit.th0 := rfl
@[simp] theorem setCmd_th1 (v : Command) : (s.setCmd v).unit.th1 = s.unit.th1 := rfl
@[simp] theorem setCmd_mb (v : Command) : (s.setCmd v).unit.mb = s.unit.mb := rfl
@[simp] theorem setCmd_pend (v : Command) : (s.setCmd v).unit.pend = s.unit.pend := rfl
@[simp] theorem setCmd_lib (v : Command) : (s.setCmd v).unit.lib = s.unit.lib := rfl
@[simp] theorem setCmd_cfg (v : Command) : (s.setCmd v).cfg = s.cfg := rfl
@[simp] theorem setCmd_irqTrace (v : Command) : (s.setCmd v).irqTrace = s.irqTrace := rfl
@[simp] theorem setCmd_mem (v : Command) : (s.setCmd v).mem = s.mem := rfl
@[simp] theorem setCmd_memWrites (v : Command) : (s.setCmd v).memWrites = s.memWrites := rfl
@[simp] theorem setCmd_result (v : Command) : (s.setCmd v).result = s.result := rfl
@[simp] theorem setCmd_calls (v : Command) : (s.setCmd v).calls = s.calls := rfl

@[simp] theorem setCmdData_ctrl (v : Word) : (s.setCmdData v).unit.ctrl = s.unit.ctrl := rfl
@[simp] theorem setCmdData_cmd (v : Word) : (s.setCmdData v).unit.cmd = s.unit.cmd := rfl
@[simp] theorem setCmdData_cmdData (v : Word) : (s.setCmdData v).unit.cmdData = v := rfl
@[simp] theorem setCmdData_cur (v : Word) : (s.setCmdData v).unit.cur = s.unit.cur := rfl
@[simp] theorem setCmdData_dmaTo (v : Word) : (s.setCmdData v).unit.dmaTo = s.unit.dmaTo := rfl
@[simp] theorem setCmdData_dmaFrom (v : Word) : (s.setCmdData v).unit.dmaFrom = s.unit.dmaFrom := rfl
@[simp] theorem setCmdData_fifoIn (v : Word) : (s.setCmdData v).unit.fifoIn = s.unit.fifoIn := rfl
@[simp] theorem setCmdData_fifoOut (v : Word) : (s.setCmdData v).unit.fifoOut = s.unit.fifoOut := rfl
@[simp] theorem setCmdData_stall (v : Word) : (s.setCmdData v).unit.stall = s.unit.stall := rfl
@[simp] theorem setCmdData_iqIntra (v : Word) : (s.setCmdData v).unit.iqIntra = s.unit.iqIntra := rfl
@[simp] theorem setCmdData_iqNonIntra (v : Word) : (s.setCmdData v).unit.iqNonIntra = s.unit.iqNonIntra := rfl
@[simp] theorem setCmdData_vqclut (v : Word) : (s.setCmdData v).unit.vqclut = s.unit.vqclut := rfl
@[simp] theorem setCmdData_th0 (v : Word) : (s.setCmdData v).unit.th0 = s.unit.th0 := rfl
@[simp] theorem setCmdData_th1 (v : Word) : (s.setCmdData v).unit.th1 = s.unit.th1 := rfl
@[simp] theorem setCmdData_mb (v : Word) : (s.setCmdData v).unit.mb = s.unit.mb := rfl
@[simp] theorem setCmdData_pend (v : Word) : (s.setCmdData v).unit.pend = s.unit.pend := rfl
@[simp] theorem setCmdData_lib (v : Word) : (s.setCmdData v).unit.lib = s.unit.lib := rfl
@[simp] theorem setCmdData_cfg (v : Word) : (s.setCmdData v).cfg = s.cfg := rfl
@[simp] theorem setCmdData_irqTrace (v : Word) : (s.setCmdData v).irqTrace = s.irqTrace := rfl
@[simp] theorem setCmdData_mem (v : Word) : (s.setCmdData v).mem = s.mem := rfl
@[simp] theorem setCmdData_memWrites (v : Word) : (s.setCmdData v).memWrites = s.memWrites := rfl
@[simp] theorem setCmdData_result (v : Word) : (s.setCmdData v).result = s.result := rfl
@[simp] theorem setCmdData_calls (v : Word) : (s.setCmdData v).calls = s.calls := rfl

@[simp] theorem setCur_ctrl (v : Cursor) : (s.setCur v).unit.ctrl = s.unit.ctrl := rfl
@[simp] theorem setCur_cmd (v : Cursor) : (s.setCur v).unit.cmd = s.unit.cmd := rfl
@[simp] theorem setCur_cmdData (v : Cursor) : (s.setCur v).unit.cmdData = s.unit.cmdData := rfl
@[simp] theorem setCur_cur (v : Cursor) : (s.setCur v).unit.cur = v := rfl
@[simp] theorem setCur_dmaTo (v : Cursor) : (s.setCur v).unit.dmaTo = s.unit.dmaTo := rfl
@[simp] theorem setCur_dmaFrom (v : Cursor) : (s.setCur v).unit.dmaFrom = s.unit.dmaFrom := rfl
@[simp] theorem setCur_fifoIn (v : Cursor) : (s.setCur v).unit.fifoIn = s.unit.fifoIn := rfl
@[simp] theorem setCur_fifoOut (v : Cursor) : (s.setCur v).unit.fifoOut = s.unit.fifoOut := rfl
@[simp] theorem setCur_stall (v : Cursor) : (s.setCur v).unit.stall = s.unit.stall := rfl
@[simp] theorem setCur_iqIntra (v : Cursor) : (s.setCur v).unit.iqIntra = s.unit.iqIntra := rfl
@[simp] theorem setCur_iqNonIntra (v : Cursor) : (s.setCur v).unit.iqNonIntra = s.unit.iqNonIntra := rfl
@[simp] theorem setCur_vqclut (v : Cursor) : (s.setCur v).unit.vqclut = s.unit.vqclut := rfl
@[simp] theorem setCur_th0 (v : Cursor) : (s.setCur v).unit.th0 = s.unit.th0 := rfl
@[simp] theorem setCur_th1 (v : Cursor) : (s.setCur v).unit.th1 = s.unit.th1 := rfl
@[simp] theorem setCur_mb (v : Cursor) : (s.setCur v).unit.mb = s.unit.mb := rfl
@[simp] theorem setCur_pend (v : Cursor) : (s.setCur v).unit.pend = s.unit.pend := rfl
@[simp] theorem setCur_lib (v : Cursor) : (s.setCur v).unit.lib = s.unit.lib := rfl
@[simp] theorem setCur_cfg (v : Cursor) : (s.setCur v).cfg = s.cfg := rfl
@[simp] theorem setCur_irqTrace (v : Cursor) : (s.setCur v).irqTrace = s.irqTrace := rfl
@[simp] theorem setCur_mem (v : Cursor) : (s.setCur v).mem = s.mem := rfl
@[simp] theorem setCur_memWrites (v : Cursor) : (s.setCur v).memWrites = s.memWrites := rfl
@[simp] theorem setCur_result (v : Cursor) : (s.setCur v).result = s.result := rfl
@[simp] theorem setCur_calls (v : Cursor) : (s.setCur v).calls = s.calls := rfl

@[simp] theorem setDmaTo_ctrl (v : Transfer) : (s.setDmaTo v).unit.ctrl = s.unit.ctrl := rfl
@[simp] theorem setDmaTo_cmd (v : Transfer) : (s.setDmaTo v).unit.cmd = s.unit.cmd := rfl
@[simp] theorem setDmaTo_cmdData (v : Transfer) : (s.setDmaTo v).unit.cmdData = s.unit.cmdData := rfl
@[simp] theorem setDmaTo_cur (v : Transfer) : (s.setDmaTo v).unit.cur = s.unit.cur := rfl
@[simp] theorem setDmaTo_dmaTo (v : Transfer) : (s.setDmaTo v).unit.dmaTo = v := rfl
@[simp] theorem setDmaTo_dmaFrom (v : Transfer) : (s.setDmaTo v).unit.dmaFrom = s.unit.dmaFrom := rfl
@[simp] theorem setDmaTo_fifoIn (v : Transfer) : (s.setDmaTo v).unit.fifoIn = s.unit.fifoIn := rfl
@[simp] theorem setDmaTo_fifoOut (v : Transfer) : (s.setDmaTo v).unit.fifoOut = s.unit.fifoOut := rfl
@[simp] theorem setDmaTo_stall (v : Transfer) : (s.setDmaTo v).unit.stall = s.unit.stall := rfl
@[simp] theorem setDmaTo_iqIntra (v : Transfer) : (s.setDmaTo v).unit.iqIntra = s.unit.iqIntra := rfl
@[simp] theorem setDmaTo_iqNonIntra (v : Transfer) : (s.setDmaTo v).unit.iqNonIntra = s.unit.iqNonIntra := rfl
@[simp] theorem setDmaTo_vqclut (v : Transfer) : (s.setDmaTo v).unit.vqclut = s.unit.vqclut := rfl
@[simp] theorem setDmaTo_th0 (v : Transfer) : (s.setDmaTo v).unit.th0 = s.unit.th0 := rfl
@[simp] theorem setDmaTo_th1 (v : Transfer) : (s.setDmaTo v).unit.th1 = s.unit.th1 := rfl
@[simp] theorem setDmaTo_mb (v : Transfer) : (s.setDmaTo v).unit.mb = s.unit.mb := rfl
@[simp] theorem setDmaTo_pend (v : Transfer) : (s.setDmaTo v).unit.pend = s.unit.pend := rfl
@[simp] theorem setDmaTo_lib (v : Transfer) : (s.setDmaTo v).unit.lib = s.unit.lib := rfl
@[simp] theorem setDmaTo_cfg (v : Transfer) : (s.setDmaTo v).cfg = s.cfg := rfl
@[simp] theorem setDmaTo_irqTrace (v : Transfer) : (s.setDmaTo v).irqTrace = s.irqTrace := rfl
@[simp] theorem setDmaTo_mem (v : Transfer) : (s.setDmaTo v).mem = s.mem := rfl
@[simp] theorem setDmaTo_memWrites (v : Transfer) : (s.setDmaTo v).memWrites = s.memWrites := rfl
@[simp] theorem setDmaTo_result (v : Transfer) : (s.setDmaTo v).result = s.result := rfl
@[simp] theorem setDmaTo_calls (v : Transfer) : (s.setDmaTo v).calls = s.calls := rfl

@[simp] theorem setDmaFrom_ctrl (v : Transfer) : (s.setDmaFrom v).unit.ctrl = s.unit.ctrl := rfl
@[simp] theorem setDmaFrom_cmd (v : Transfer) : (s.setDmaFrom v).unit.cmd = s.unit.cmd := rfl
@[simp] theorem setDmaFrom_cmdData (v : Transfer) : (s.setDmaFrom v).unit.cmdData = s.unit.cmdData := rfl
@[simp] theorem setDmaFrom_cur (v : Transfer) : (s.setDmaFrom v).unit.cur = s.unit.cur := rfl
@[simp] theorem setDmaFrom_dmaTo (v : Transfer) : (s.setDmaFrom v).unit.dmaTo = s.unit.dmaTo := rfl
@[simp] theorem setDmaFrom_dmaFrom (v : Transfer) : (s.setDmaFrom v).unit.dmaFrom = v := rfl
@[simp] theorem setDmaFrom_fifoIn (v : Transfer) : (s.setDmaFrom v).unit.fifoIn = s.unit.fifoIn := rfl
@[simp] theorem setDmaFrom_fifoOut (v : Transfer) : (s.setDmaFrom v).unit.fifoOut = s.unit.fifoOut := rfl
@[simp] theorem setDmaFrom_stall (v : Transfer) : (s.setDmaFrom v).unit.stall = s.unit.stall := rfl
@[simp] theorem setDmaFrom_iqIntra (v : Transfer) : (s.setDmaFrom v).unit.iqIntra = s.unit.iqIntra := rfl
@[simp] theorem setDmaFrom_iqNonIntra (v : Transfer) : (s.setDmaFrom v).unit.iqNonIntra = s.unit.iqNonIntra := rfl
@[simp] theorem setDmaFrom_vqclut (v : Transfer) : (s.setDmaFrom v).unit.vqclut = s.unit.vqclut := rfl
@[simp] theorem setDmaFrom_th0 (v : Transfer) : (s.setDmaFrom v).unit.th0 = s.unit.th0 := rfl
@[simp] theorem setDmaFrom_th1 (v : Transfer) : (s.setDmaFrom v).unit.th1 = s.unit.th1 := rfl
@[simp] theorem setDmaFrom_mb (v : Transfer) : (s.setDmaFrom v).unit.mb = s.unit.mb := rfl
@[simp] theorem setDmaFrom_pend (v : Transfer) : (s.setDmaFrom v).unit.pend = s.unit.pend := rfl
@[simp] theorem setDmaFrom_lib (v : Transfer) : (s.setDmaFrom v).unit.lib = s.unit.lib := rfl
@[simp] theorem setDmaFrom_cfg (v : Transfer) : (s.setDmaFrom v).cfg = s.cfg := rfl
@[simp] theorem setDmaFrom_irqTrace (v : Transfer) : (s.setDmaFrom v).irqTrace = s.irqTrace := rfl
@[simp] theorem setDmaFrom_mem (v : Transfer) : (s.setDmaFrom v).mem = s.mem := rfl
@[simp] theorem setDmaFrom_memWrites (v : Transfer) : (s.setDmaFrom v).memWrites = s.memWrites := rfl
@[simp] theorem setDmaFrom_result (v : Transfer) : (s.setDmaFrom v).result = s.result := rfl
@[simp] theorem setDmaFrom_calls (v : Transfer) : (s.setDmaFrom v).calls = s.calls := rfl

@[simp] theorem setFifoIn_ctrl (v : List QWord) : (s.setFifoIn v).unit.ctrl = s.unit.ctrl := rfl
@[simp] theorem setFifoIn_cmd (v : List QWord) : (s.setFifoIn v).unit.cmd = s.unit.cmd := rfl
@[simp] theorem setFifoIn_cmdData (v : List QWord) : (s.setFifoIn v).unit.cmdData = s.unit.cmdData := rfl
@[simp] theorem setFifoIn_cur (v : List QWord) : (s.setFifoIn v).unit.cur = s.unit.cur := rfl
@[simp] theorem setFifoIn_dmaTo (v : List QWord) : (s.setFifoIn v).unit.dmaTo = s.unit.dmaTo := rfl
@[simp] theorem setFifoIn_dmaFrom (v : List QWord) : (s.setFifoIn v).unit.dmaFrom = s.unit.dmaFrom := rfl
@[simp] theorem setFifoIn_fifoIn (v : List QWord) : (s.setFifoIn v).unit.fifoIn = v := rfl
@[simp] theorem setFifoIn_fifoOut (v : List QWord) : (s.setFifoIn v).unit.fifoOut = s.unit.fifoOut := rfl
@[simp] theorem setFifoIn_stall (v : List QWord) : (s.setFifoIn v).unit.stall = s.unit.stall := rfl
@[simp] theorem setFifoIn_iqIntra (v : List QWord) : (s.setFifoIn v).unit.iqIntra = s.unit.iqIntra := rfl
@[simp] theorem setFifoIn_iqNonIntra (v : List QWord) : (s.setFifoIn v).unit.iqNonIntra = s.unit.iqNonIntra := rfl
@[simp] theorem setFifoIn_vqclut (v : List QWord) : (s.setFifoIn v).unit.vqclut = s.unit.vqclut := rfl
@[simp] theorem setFifoIn_th0 (v : List QWord) : (s.setFifoIn v).unit.th0 = s.unit.th0 := rfl
@[simp] theorem setFifoIn_th1 (v : List QWord) : (s.setFifoIn v).unit.th1 = s.unit.th1 := rfl
@[simp] theorem setFifoIn_mb (v : List QWord) : (s.setFifoIn v).unit.mb = s.unit.mb := rfl
@[simp] theorem setFifoIn_pend (v : List QWord) : (s.setFifoIn v).unit.pend = s.unit.pend := rfl
@[simp] theorem setFifoIn_lib (v : List QWord) : (s.setFifoIn v).unit.lib = s.unit.lib := rfl
@[simp] theorem setFifoIn_cfg (v : List QWord) : (s.setFifoIn v).cfg = s.cfg := rfl
@[simp] theorem setFifoIn_irqTrace (v : List QWord) : (s.setFifoIn v).irqTrace = s.irqTrace := rfl
@[simp] theorem setFifoIn_mem (v : List QWord) : (s.setFifoIn v).mem = s.mem := rfl
@[simp] theorem setFifoIn_memWrites (v : List QWord) : (s.setFifoIn v).memWrites = s.memWrites := rfl
@[simp] theorem setFifoIn_result (v : List QWord) : (s.setFifoIn v).result = s.result := rfl
@[simp] theorem setFifoIn_calls (v : List QWord) : (s.setFifoIn v).calls = s.calls := rfl

@[simp] theorem setFifoOut_ctrl (v : List QWord) : (s.setFifoOut v).unit.ctrl = s.unit.ctrl := rfl
@[simp] theorem setFifoOut_cmd (v : List QWord) : (s.setFifoOut v).unit.cmd = s.unit.cmd := rfl
@[simp] theorem setFifoOut_cmdData (v : List QWord) : (s.setFifoOut v).unit.cmdData = s.unit.cmdData := rfl
@[simp] theorem setFifoOut_cur (v : List QWord) : (s.setFifoOut v).unit.cur = s.unit.cur := rfl
@[simp] theorem setFifoOut_dmaTo (v : List QWord) : (s.setFifoOut v).unit.dmaTo = s.unit.dmaTo := rfl
@[simp] theorem setFifoOut_dmaFrom (v : List QWord) : (s.setFifoOut v).unit.dmaFrom = s.unit.dmaFrom := rfl
@[simp] theorem setFifoOut_fifoIn (v : List QWord) : (s.setFifoOut v).unit.fifoIn = s.unit.fifoIn := rfl
@[simp] theorem setFifoOut_fifoOut (v : List QWord) : (s.setFifoOut v).unit.fifoOut = v := rfl
@[simp] theorem setFifoOut_stall (v : List QWord) : (s.setFifoOut v).unit.stall = s.unit.stall := rfl
@[simp] theorem setFifoOut_iqIntra (v : List QWord) : (s.setFifoOut v).unit.iqIntra = s.unit.iqIntra := rfl
@[simp] theorem setFifoOut_iqNonIntra (v : List QWord) : (s.setFifoOut v).unit.iqNonIntra = s.unit.iqNonIntra := rfl
@[simp] theorem setFifoOut_vqclut (v : List QWord) : (s.setFifoOut v).unit.vqclut = s.unit.vqclut := rfl
@[simp] theorem setFifoOut_th0 (v : List QWord) : (s.setFifoOut v).unit.th0 = s.unit.th0 := rfl
@[simp] theorem setFifoOut_th1 (v : List QWord) : (s.setFifoOut v).unit.th1 = s.unit.th1 := rfl
@[simp] theorem setFifoOut_mb (v : List QWord) : (s.setFifoOut v).unit.mb = s.unit.mb := rfl
@[simp] theorem setFifoOut_pend (v : List QWord) : (s.setFifoOut v).unit.pend = s.unit.pend := rfl
@[simp] theorem setFifoOut_lib (v : List QWord) : (s.setFifoOut v).unit.lib = s.unit.lib := rfl
@[simp] theorem setFifoOut_cfg (v : List QWord) : (s.setFifoOut v).cfg = s.cfg := rfl
@[simp] theorem setFifoOut_irqTrace (v : List QWord) : (s.setFifoOut v).irqTrace = s.irqTrace := rfl
@[simp] theorem setFifoOut_mem (v : List QWord) : (s.setFifoOut v).mem = s.mem := rfl
@[simp] theorem setFifoOut_memWrites (v : List QWord) : (s.setFifoOut v).memWrites = s.memWrites := rfl
@[simp] theorem setFifoOut_result (v : List QWord) : (s.setFifoOut v).result = s.result := rfl
@[simp] theorem setFifoOut_calls (v : List QWord) : (s.setFifoOut v).calls = s.calls := rfl

@[simp] theorem setStall_ctrl (v : StallFlags) : (s.setStall v).unit.ctrl = s.unit.ctrl := rfl
@[simp] theorem setStall_cmd (v : StallFlags) : (s.setStall v).unit.cmd = s.unit.cmd := rfl
@[simp] theorem setStall_cmdData (v : StallFlags) : (s.setStall v).unit.cmdData = s.unit.cmdData := rfl
@[simp] theorem setStall_cur (v : StallFlags) : (s.setStall v).unit.cur = s.unit.cur := rfl
@[simp] theorem setStall_dmaTo (v : StallFlags) : (s.setStall v).unit.dmaTo = s.unit.dmaTo := rfl
@[simp] theorem setStall_dmaFrom (v : StallFlags) : (s.setStall v).unit.dmaFrom = s.unit.dmaFrom := rfl
@[simp] theorem setStall_fifoIn (v : StallFlags) : (s.setStall v).unit.fifoIn = s.unit.fifoIn := rfl
@[simp] theorem setStall_fifoOut (v : StallFlags) : (s.setStall v).unit.fifoOut = s.unit.fifoOut := rfl
@[simp] theorem setStall_stall (v : StallFlags) : (s.setStall v).unit.stall = v := rfl
@[simp] theorem setStall_iqIntra (v : StallFlags) : (s.setStall v).unit.iqIntra = s.unit.iqIntra := rfl
@[simp] theorem setStall_iqNonIntra (v : StallFlags) : (s.setStall v).unit.iqNonIntra = s.unit.iqNonIntra := rfl
@[simp] theorem setStall_vqclut (v : StallFlags) : (s.setStall v).unit.vqclut = s.unit.vqclut := rfl
@[simp] theorem setStall_th0 (v : StallFlags) : (s.setStall v).unit.th0 = s.unit.th0 := rfl
@[simp] theorem setStall_th1 (v : StallFlags) : (s.setStall v).unit.th1 = s.unit.th1 := rfl
@[simp] theorem setStall_mb (v : StallFlags) : (s.setStall v).unit.mb = s.unit.mb := rfl
@[simp] theorem setStall_pend (v : StallFlags) : (s.setStall v).unit.pend = s.unit.pend := rfl
@[simp] theorem setStall_lib (v : StallFlags) : (s.setStall v).unit.lib = s.unit.lib := rfl
@[simp] theorem setStall_cfg (v : StallFlags) : (s.setStall v).cfg = s.cfg := rfl
@[simp] theorem setStall_irqTrace (v : StallFlags) : (s.setStall v).irqTrace = s.irqTrace := rfl
@[simp] theorem setStall_mem (v : StallFlags) : (s.setStall v).mem = s.mem := rfl
@[simp] theorem setStall_memWrites (v : StallFlags) : (s.setStall v).memWrites = s.memWrites := rfl
@[simp] theorem setStall_result (v : StallFlags) : (s.setStall v).result = s.result := rfl
@[simp] theorem setStall_calls (v : StallFlags) : (s.setStall v).calls = s.calls := rfl

@[simp] theorem setIqIntra_ctrl (v : Vector Byte 64) : (s.setIqIntra v).unit.ctrl = s.unit.ctrl := rfl
@[simp] theorem setIqIntra_cmd (v : Vector Byte 64) : (s.setIqIntra v).unit.cmd = s.unit.cmd := rfl
@[simp] theorem setIqIntra_cmdData (v : Vector Byte 64) : (s.setIqIntra v).unit.cmdData = s.unit.cmdData := rfl
@[simp] theorem setIqIntra_cur (v : Vector Byte 64) : (s.setIqIntra v).unit.cur = s.unit.cur := rfl
@[simp] theorem setIqIntra_dmaTo (v : Vector Byte 64) : (s.setIqIntra v).unit.dmaTo = s.unit.dmaTo := rfl
@[simp] theorem setIqIntra_dmaFrom (v : Vector Byte 64) : (s.setIqIntra v).unit.dmaFrom = s.unit.dmaFrom := rfl
@[simp] theorem setIqIntra_fifoIn (v : Vector Byte 64) : (s.setIqIntra v).unit.fifoIn = s.unit.fifoIn := rfl
@[simp] theorem setIqIntra_fifoOut (v : Vector Byte 64) : (s.setIqIntra v).unit.fifoOut = s.unit.fifoOut := rfl
@[simp] theorem setIqIntra_stall (v : Vector Byte 64) : (s.setIqIntra v).unit.stall = s.unit.stall := rfl
@[simp] theorem setIqIntra_iqIntra (v : Vector Byte 64) : (s.setIqIntra v).unit.iqIntra = v := rfl
@[simp] theorem setIqIntra_iqNonIntra (v : Vector Byte 64) : (s.setIqIntra v).unit.iqNonIntra = s.unit.iqNonIntra := rfl
@[simp] theorem setIqIntra_vqclut (v : Vector Byte 64) : (s.setIqIntra v).unit.vqclut = s.unit.vqclut := rfl
@[simp] theorem setIqIntra_th0 (v : Vector Byte 64) : (s.setIqIntra v).unit.th0 = s.unit.th0 := rfl
@[simp] theorem setIqIntra_th1 (v : Vector Byte 64) : (s.setIqIntra v).unit.th1 = s.unit.th1 := rfl
@[simp] theorem setIqIntra_mb (v : Vector Byte 64) : (s.setIqIntra v).unit.mb = s.unit.mb := rfl
@[simp] theorem setIqIntra_pend (v : Vector Byte 64) : (s.setIqIntra v).unit.pend = s.unit.pend := rfl
@[simp] theorem setIqIntra_lib (v : Vector Byte 64) : (s.setIqIntra v).unit.lib = s.unit.lib := rfl
@[simp] theorem setIqIntra_cfg (v : Vector Byte 64) : (s.setIqIntra v).cfg = s.cfg := rfl
@[simp] theorem setIqIntra_irqTrace (v : Vector Byte 64) : (s.setIqIntra v).irqTrace = s.irqTrace := rfl
@[simp] theorem setIqIntra_mem (v : Vector Byte 64) : (s.setIqIntra v).mem = s.mem := rfl
@[simp] theorem setIqIntra_memWrites (v : Vector Byte 64) : (s.setIqIntra v).memWrites = s.memWrites := rfl
@[simp] theorem setIqIntra_result (v : Vector Byte 64) : (s.setIqIntra v).result = s.result := rfl
@[simp] theorem setIqIntra_calls (v : Vector Byte 64) : (s.setIqIntra v).calls = s.calls := rfl

@[simp] theorem setIqNonIntra_ctrl (v : Vector Byte 64) : (s.setIqNonIntra v).unit.ctrl = s.unit.ctrl := rfl
@[simp] theorem setIqNonIntra_cmd (v : Vector Byte 64) : (s.setIqNonIntra v).unit.cmd = s.unit.cmd := rfl
@[simp] theorem setIqNonIntra_cmdData (v : Vector Byte 64) : (s.setIqNonIntra v).unit.cmdData = s.unit.cmdData := rfl
@[simp] theorem setIqNonIntra_cur (v : Vector Byte 64) : (s.setIqNonIntra v).unit.cur = s.unit.cur := rfl
@[simp] theorem setIqNonIntra_dmaTo (v : Vector Byte 64) : (s.setIqNonIntra v).unit.dmaTo = s.unit.dmaTo := rfl
@[simp] theorem setIqNonIntra_dmaFrom (v : Vector Byte 64) : (s.setIqNonIntra v).unit.dmaFrom = s.unit.dmaFrom := rfl
@[simp] theorem setIqNonIntra_fifoIn (v : Vector Byte 64) : (s.setIqNonIntra v).unit.fifoIn = s.unit.fifoIn := rfl
@[simp] theorem setIqNonIntra_fifoOut (v : Vector Byte 64) : (s.setIqNonIntra v).unit.fifoOut = s.unit.fifoOut := rfl
@[simp] theorem setIqNonIntra_stall (v : Vector Byte 64) : (s.setIqNonIntra v).unit.stall = s.unit.stall := rfl
@[simp] theorem setIqNonIntra_iqIntra (v : Vector Byte 64) : (s.setIqNonIntra v).unit.iqIntra = s.unit.iqIntra := rfl
@[simp] theorem setIqNonIntra_iqNonIntra (v : Vector Byte 64) : (s.setIqNonIntra v).unit.iqNonIntra = v := rfl
@[simp] theorem setIqNonIntra_vqclut (v : Vector Byte 64) : (s.setIqNonIntra v).unit.vqclut = s.unit.vqclut := rfl
@[simp] theorem setIqNonIntra_th0 (v : Vector Byte 64) : (s.setIqNonIntra v).unit.th0 = s.unit.th0 := rfl
@[simp] theorem setIqNonIntra_th1 (v : Vector Byte 64) : (s.setIqNonIntra v).unit.th1 = s.unit.th1 := rfl
@[simp] theorem setIqNonIntra_mb (v : Vector Byte 64) : (s.setIqNonIntra v).unit.mb = s.unit.mb := rfl
@[simp] theorem setIqNonIntra_pend (v : Vector Byte 64) : (s.setIqNonIntra v).unit.pend = s.unit.pend := rfl
@[simp] theorem setIqNonIntra_lib (v : Vector Byte 64) : (s.setIqNonIntra v).unit.lib = s.unit.lib := rfl
@[simp] theorem setIqNonIntra_cfg (v : Vector Byte 64) : (s.setIqNonIntra v).cfg = s.cfg := rfl
@[simp] theorem setIqNonIntra_irqTrace (v : Vector Byte 64) : (s.setIqNonIntra v).irqTrace = s.irqTrace := rfl
@[simp] theorem setIqNonIntra_mem (v : Vector Byte 64) : (s.setIqNonIntra v).mem = s.mem := rfl
@[simp] theorem setIqNonIntra_memWrites (v : Vector Byte 64) : (s.setIqNonIntra v).memWrites = s.memWrites := rfl
@[simp] theorem setIqNonIntra_result (v : Vector Byte 64) : (s.setIqNonIntra v).result = s.result := rfl
@[simp] theorem setIqNonIntra_calls (v : Vector Byte 64) : (s.setIqNonIntra v).calls = s.calls := rfl

@[simp] theorem setVqclut_ctrl (v : Vector (BitVec 16) 16) : (s.setVqclut v).unit.ctrl = s.unit.ctrl := rfl
@[simp] theorem setVqclut_cmd (v : Vector (BitVec 16) 16) : (s.setVqclut v).unit.cmd = s.unit.cmd := rfl
@[simp] theorem setVqclut_cmdData (v : Vector (BitVec 16) 16) : (s.setVqclut v).unit.cmdData = s.unit.cmdData := rfl
@[simp] theorem setVqclut_cur (v : Vector (BitVec 16) 16) : (s.setVqclut v).unit.cur = s.unit.cur := rfl
@[simp] theorem setVqclut_dmaTo (v : Vector (BitVec 16) 16) : (s.setVqclut v).unit.dmaTo = s.unit.dmaTo := rfl
@[simp] theorem setVqclut_dmaFrom (v : Vector (BitVec 16) 16) : (s.setVqclut v).unit.dmaFrom = s.unit.dmaFrom := rfl
@[simp] theorem setVqclut_fifoIn (v : Vector (BitVec 16) 16) : (s.setVqclut v).unit.fifoIn = s.unit.fifoIn := rfl
@[simp] theorem setVqclut_fifoOut (v : Vector (BitVec 16) 16) : (s.setVqclut v).unit.fifoOut = s.unit.fifoOut := rfl
@[simp] theorem setVqclut_stall (v : Vector (BitVec 16) 16) : (s.setVqclut v).unit.stall = s.unit.stall := rfl
@[simp] theorem setVqclut_iqIntra (v : Vector (BitVec 16) 16) : (s.setVqclut v).unit.iqIntra = s.unit.iqIntra := rfl
@[simp] theorem setVqclut_iqNonIntra (v : Vector (BitVec 16) 16) : (s.setVqclut v).unit.iqNonIntra = s.unit.iqNonIntra := rfl
@[simp] theorem setVqclut_vqclut (v : Vector (BitVec 16) 16) : (s.setVqclut v).unit.vqclut = v := rfl
@[simp] theorem setVqclut_th0 (v : Vector (BitVec 16) 16) : (s.setVqclut v).unit.th0 = s.unit.th0 := rfl
@[simp] theorem setVqclut_th1 (v : Vector (BitVec 16) 16) : (s.setVqclut v).unit.th1 = s.unit.th1 := rfl
@[simp] theorem setVqclut_mb (v : Vector (BitVec 16) 16) : (s.setVqclut v).unit.mb = s.unit.mb := rfl
@[simp] theorem setVqclut_pend (v : Vector (BitVec 16) 16) : (s.setVqclut v).unit.pend = s.unit.pend := rfl
@[simp] theorem setVqclut_lib (v : Vector (BitVec 16) 16) : (s.setVqclut v).unit.lib = s.unit.lib := rfl
@[simp] theorem setVqclut_cfg (v : Vector (BitVec 16) 16) : (s.setVqclut v).cfg = s.cfg := rfl
@[simp] theorem setVqclut_irqTrace (v : Vector (BitVec 16) 16) : (s.setVqclut v).irqTrace = s.irqTrace := rfl
@[simp] theorem setVqclut_mem (v : Vector (BitVec 16) 16) : (s.setVqclut v).mem = s.mem := rfl
@[simp] theorem setVqclut_memWrites (v : Vector (BitVec 16) 16) : (s.setVqclut v).memWrites = s.memWrites := rfl
@[simp] theorem setVqclut_result (v : Vector (BitVec 16) 16) : (s.setVqclut v).result = s.result := rfl
@[simp] theorem setVqclut_calls (v : Vector (BitVec 16) 16) : (s.setVqclut v).calls = s.calls := rfl

@[simp] theorem setTh_ctrl (v w : BitVec 9) : (s.setTh v w).unit.ctrl = s.unit.ctrl := rfl
@[simp] theorem setTh_cmd (v w : BitVec 9) : (s.setTh v w).unit.cmd = s.unit.cmd := rfl
@[simp] theorem setTh_cmdData (v w : BitVec 9) : (s.setTh v w).unit.cmdData = s.unit.cmdData := rfl
@[simp] theorem setTh_cur (v w : BitVec 9) : (s.setTh v w).unit.cur = s.unit.cur := rfl
@[simp] theorem setTh_dmaTo (v w : BitVec 9) : (s.setTh v w).unit.dmaTo = s.unit.dmaTo := rfl
@[simp] theorem setTh_dmaFrom (v w : BitVec 9) : (s.setTh v w).unit.dmaFrom = s.unit.dmaFrom := rfl
@[simp] theorem setTh_fifoIn (v w : BitVec 9) : (s.setTh v w).unit.fifoIn = s.unit.fifoIn := rfl
@[simp] theorem setTh_fifoOut (v w : BitVec 9) : (s.setTh v w).unit.fifoOut = s.unit.fifoOut := rfl
@[simp] theorem setTh_stall (v w : BitVec 9) : (s.setTh v w).unit.stall = s.unit.stall := rfl
@[simp] theorem setTh_iqIntra (v w : BitVec 9) : (s.setTh v w).unit.iqIntra = s.unit.iqIntra := rfl
@[simp] theorem setTh_iqNonIntra (v w : BitVec 9) : (s.setTh v w).unit.iqNonIntra = s.unit.iqNonIntra := rfl
@[simp] theorem setTh_vqclut (v w : BitVec 9) : (s.setTh v w).unit.vqclut = s.unit.vqclut := rfl
@[simp] theorem setTh_th0 (v w : BitVec 9) : (s.setTh v w).unit.th0 = v := rfl
@[simp] theorem setTh_th1 (v w : BitVec 9) : (s.setTh v w).unit.th1 = w := rfl
@[simp] theorem setTh_mb (v w : BitVec 9) : (s.setTh v w).unit.mb = s.unit.mb := rfl
@[simp] theorem setTh_pend (v w : BitVec 9) : (s.setTh v w).unit.pend = s.unit.pend := rfl
@[simp] theorem setTh_lib (v w : BitVec 9) : (s.setTh v w).unit.lib = s.unit.lib := rfl
@[simp] theorem setTh_cfg (v w : BitVec 9) : (s.setTh v w).cfg = s.cfg := rfl
@[simp] theorem setTh_irqTrace (v w : BitVec 9) : (s.setTh v w).irqTrace = s.irqTrace := rfl
@[simp] theorem setTh_mem (v w : BitVec 9) : (s.setTh v w).mem = s.mem := rfl
@[simp] theorem setTh_memWrites (v w : BitVec 9) : (s.setTh v w).memWrites = s.memWrites := rfl
@[simp] theorem setTh_result (v w : BitVec 9) : (s.setTh v w).result = s.result := rfl
@[simp] theorem setTh_calls (v w : BitVec 9) : (s.setTh v w).calls = s.calls := rfl

@[simp] theorem setMb_ctrl (v : MacroblockBuffer) : (s.setMb v).unit.ctrl = s.unit.ctrl := rfl
@[simp] theorem setMb_cmd (v : MacroblockBuffer) : (s.setMb v).unit.cmd = s.unit.cmd := rfl
@[simp] theorem setMb_cmdData (v : MacroblockBuffer) : (s.setMb v).unit.cmdData = s.unit.cmdData := rfl
@[simp] theorem setMb_cur (v : MacroblockBuffer) : (s.setMb v).unit.cur = s.unit.cur := rfl
@[simp] theorem setMb_dmaTo (v : MacroblockBuffer) : (s.setMb v).unit.dmaTo = s.unit.dmaTo := rfl
@[simp] theorem setMb_dmaFrom (v : MacroblockBuffer) : (s.setMb v).unit.dmaFrom = s.unit.dmaFrom := rfl
@[simp] theorem setMb_fifoIn (v : MacroblockBuffer) : (s.setMb v).unit.fifoIn = s.unit.fifoIn := rfl
@[simp] theorem setMb_fifoOut (v : MacroblockBuffer) : (s.setMb v).unit.fifoOut = s.unit.fifoOut := rfl
@[simp] theorem setMb_stall (v : MacroblockBuffer) : (s.setMb v).unit.stall = s.unit.stall := rfl
@[simp] theorem setMb_iqIntra (v : MacroblockBuffer) : (s.setMb v).unit.iqIntra = s.unit.iqIntra := rfl
@[simp] theorem setMb_iqNonIntra (v : MacroblockBuffer) : (s.setMb v).unit.iqNonIntra = s.unit.iqNonIntra := rfl
@[simp] theorem setMb_vqclut (v : MacroblockBuffer) : (s.setMb v).unit.vqclut = s.unit.vqclut := rfl
@[simp] theorem setMb_th0 (v : MacroblockBuffer) : (s.setMb v).unit.th0 = s.unit.th0 := rfl
@[simp] theorem setMb_th1 (v : MacroblockBuffer) : (s.setMb v).unit.th1 = s.unit.th1 := rfl
@[simp] theorem setMb_mb (v : MacroblockBuffer) : (s.setMb v).unit.mb = v := rfl
@[simp] theorem setMb_pend (v : MacroblockBuffer) : (s.setMb v).unit.pend = s.unit.pend := rfl
@[simp] theorem setMb_lib (v : MacroblockBuffer) : (s.setMb v).unit.lib = s.unit.lib := rfl
@[simp] theorem setMb_cfg (v : MacroblockBuffer) : (s.setMb v).cfg = s.cfg := rfl
@[simp] theorem setMb_irqTrace (v : MacroblockBuffer) : (s.setMb v).irqTrace = s.irqTrace := rfl
@[simp] theorem setMb_mem (v : MacroblockBuffer) : (s.setMb v).mem = s.mem := rfl
@[simp] theorem setMb_memWrites (v : MacroblockBuffer) : (s.setMb v).memWrites = s.memWrites := rfl
@[simp] theorem setMb_result (v : MacroblockBuffer) : (s.setMb v).result = s.result := rfl
@[simp] theorem setMb_calls (v : MacroblockBuffer) : (s.setMb v).calls = s.calls := rfl

@[simp] theorem setPend_ctrl (v : Pend) : (s.setPend v).unit.ctrl = s.unit.ctrl := rfl
@[simp] theorem setPend_cmd (v : Pend) : (s.setPend v).unit.cmd = s.unit.cmd := rfl
@[simp] theorem setPend_cmdData (v : Pend) : (s.setPend v).unit.cmdData = s.unit.cmdData := rfl
@[simp] theorem setPend_cur (v : Pend) : (s.setPend v).unit.cur = s.unit.cur := rfl
@[simp] theorem setPend_dmaTo (v : Pend) : (s.setPend v).unit.dmaTo = s.unit.dmaTo := rfl
@[simp] theorem setPend_dmaFrom (v : Pend) : (s.setPend v).unit.dmaFrom = s.unit.dmaFrom := rfl
@[simp] theorem setPend_fifoIn (v : Pend) : (s.setPend v).unit.fifoIn = s.unit.fifoIn := rfl
@[simp] theorem setPend_fifoOut (v : Pend) : (s.setPend v).unit.fifoOut = s.unit.fifoOut := rfl
@[simp] theorem setPend_stall (v : Pend) : (s.setPend v).unit.stall = s.unit.stall := rfl
@[simp] theorem setPend_iqIntra (v : Pend) : (s.setPend v).unit.iqIntra = s.unit.iqIntra := rfl
@[simp] theorem setPend_iqNonIntra (v : Pend) : (s.setPend v).unit.iqNonIntra = s.unit.iqNonIntra := rfl
@[simp] theorem setPend_vqclut (v : Pend) : (s.setPend v).unit.vqclut = s.unit.vqclut := rfl
@[simp] theorem setPend_th0 (v : Pend) : (s.setPend v).unit.th0 = s.unit.th0 := rfl
@[simp] theorem setPend_th1 (v : Pend) : (s.setPend v).unit.th1 = s.unit.th1 := rfl
@[simp] theorem setPend_mb (v : Pend) : (s.setPend v).unit.mb = s.unit.mb := rfl
@[simp] theorem setPend_pend (v : Pend) : (s.setPend v).unit.pend = v := rfl
@[simp] theorem setPend_lib (v : Pend) : (s.setPend v).unit.lib = s.unit.lib := rfl
@[simp] theorem setPend_cfg (v : Pend) : (s.setPend v).cfg = s.cfg := rfl
@[simp] theorem setPend_irqTrace (v : Pend) : (s.setPend v).irqTrace = s.irqTrace := rfl
@[simp] theorem setPend_mem (v : Pend) : (s.setPend v).mem = s.mem := rfl
@[simp] theorem setPend_memWrites (v : Pend) : (s.setPend v).memWrites = s.memWrites := rfl
@[simp] theorem setPend_result (v : Pend) : (s.setPend v).result = s.result := rfl
@[simp] theorem setPend_calls (v : Pend) : (s.setPend v).calls = s.calls := rfl

@[simp] theorem setLib_ctrl (v : Option LibSession) : (s.setLib v).unit.ctrl = s.unit.ctrl := rfl
@[simp] theorem setLib_cmd (v : Option LibSession) : (s.setLib v).unit.cmd = s.unit.cmd := rfl
@[simp] theorem setLib_cmdData (v : Option LibSession) : (s.setLib v).unit.cmdData = s.unit.cmdData := rfl
@[simp] theorem setLib_cur (v : Option LibSession) : (s.setLib v).unit.cur = s.unit.cur := rfl
@[simp] theorem setLib_dmaTo (v : Option LibSession) : (s.setLib v).unit.dmaTo = s.unit.dmaTo := rfl
@[simp] theorem setLib_dmaFrom (v : Option LibSession) : (s.setLib v).unit.dmaFrom = s.unit.dmaFrom := rfl
@[simp] theorem setLib_fifoIn (v : Option LibSession) : (s.setLib v).unit.fifoIn = s.unit.fifoIn := rfl
@[simp] theorem setLib_fifoOut (v : Option LibSession) : (s.setLib v).unit.fifoOut = s.unit.fifoOut := rfl
@[simp] theorem setLib_stall (v : Option LibSession) : (s.setLib v).unit.stall = s.unit.stall := rfl
@[simp] theorem setLib_iqIntra (v : Option LibSession) : (s.setLib v).unit.iqIntra = s.unit.iqIntra := rfl
@[simp] theorem setLib_iqNonIntra (v : Option LibSession) : (s.setLib v).unit.iqNonIntra = s.unit.iqNonIntra := rfl
@[simp] theorem setLib_vqclut (v : Option LibSession) : (s.setLib v).unit.vqclut = s.unit.vqclut := rfl
@[simp] theorem setLib_th0 (v : Option LibSession) : (s.setLib v).unit.th0 = s.unit.th0 := rfl
@[simp] theorem setLib_th1 (v : Option LibSession) : (s.setLib v).unit.th1 = s.unit.th1 := rfl
@[simp] theorem setLib_mb (v : Option LibSession) : (s.setLib v).unit.mb = s.unit.mb := rfl
@[simp] theorem setLib_pend (v : Option LibSession) : (s.setLib v).unit.pend = s.unit.pend := rfl
@[simp] theorem setLib_lib (v : Option LibSession) : (s.setLib v).unit.lib = v := rfl
@[simp] theorem setLib_cfg (v : Option LibSession) : (s.setLib v).cfg = s.cfg := rfl
@[simp] theorem setLib_irqTrace (v : Option LibSession) : (s.setLib v).irqTrace = s.irqTrace := rfl
@[simp] theorem setLib_mem (v : Option LibSession) : (s.setLib v).mem = s.mem := rfl
@[simp] theorem setLib_memWrites (v : Option LibSession) : (s.setLib v).memWrites = s.memWrites := rfl
@[simp] theorem setLib_result (v : Option LibSession) : (s.setLib v).result = s.result := rfl
@[simp] theorem setLib_calls (v : Option LibSession) : (s.setLib v).calls = s.calls := rfl

@[simp] theorem setTrace_unit (v : List IrqSrc) : (s.setTrace v).unit = s.unit := rfl
@[simp] theorem setTrace_cfg (v : List IrqSrc) : (s.setTrace v).cfg = s.cfg := rfl
@[simp] theorem setTrace_irqTrace (v : List IrqSrc) : (s.setTrace v).irqTrace = v := rfl
@[simp] theorem setTrace_mem (v : List IrqSrc) : (s.setTrace v).mem = s.mem := rfl
@[simp] theorem setTrace_memWrites (v : List IrqSrc) : (s.setTrace v).memWrites = s.memWrites := rfl
@[simp] theorem setTrace_result (v : List IrqSrc) : (s.setTrace v).result = s.result := rfl
@[simp] theorem setTrace_calls (v : List IrqSrc) : (s.setTrace v).calls = s.calls := rfl

@[simp] theorem setMem_unit (v : List Host.Cell) : (s.setMem v).unit = s.unit := rfl
@[simp] theorem setMem_cfg (v : List Host.Cell) : (s.setMem v).cfg = s.cfg := rfl
@[simp] theorem setMem_irqTrace (v : List Host.Cell) : (s.setMem v).irqTrace = s.irqTrace := rfl
@[simp] theorem setMem_mem (v : List Host.Cell) : (s.setMem v).mem = v := rfl
@[simp] theorem setMem_memWrites (v : List Host.Cell) : (s.setMem v).memWrites = s.memWrites := rfl
@[simp] theorem setMem_result (v : List Host.Cell) : (s.setMem v).result = s.result := rfl
@[simp] theorem setMem_calls (v : List Host.Cell) : (s.setMem v).calls = s.calls := rfl

@[simp] theorem setMemWrites_unit (v : List MemWrite) : (s.setMemWrites v).unit = s.unit := rfl
@[simp] theorem setMemWrites_cfg (v : List MemWrite) : (s.setMemWrites v).cfg = s.cfg := rfl
@[simp] theorem setMemWrites_irqTrace (v : List MemWrite) : (s.setMemWrites v).irqTrace = s.irqTrace := rfl
@[simp] theorem setMemWrites_mem (v : List MemWrite) : (s.setMemWrites v).mem = s.mem := rfl
@[simp] theorem setMemWrites_memWrites (v : List MemWrite) : (s.setMemWrites v).memWrites = v := rfl
@[simp] theorem setMemWrites_result (v : List MemWrite) : (s.setMemWrites v).result = s.result := rfl
@[simp] theorem setMemWrites_calls (v : List MemWrite) : (s.setMemWrites v).calls = s.calls := rfl

@[simp] theorem setResult_unit (v : CallResult) : (s.setResult v).unit = s.unit := rfl
@[simp] theorem setResult_cfg (v : CallResult) : (s.setResult v).cfg = s.cfg := rfl
@[simp] theorem setResult_irqTrace (v : CallResult) : (s.setResult v).irqTrace = s.irqTrace := rfl
@[simp] theorem setResult_mem (v : CallResult) : (s.setResult v).mem = s.mem := rfl
@[simp] theorem setResult_memWrites (v : CallResult) : (s.setResult v).memWrites = s.memWrites := rfl
@[simp] theorem setResult_result (v : CallResult) : (s.setResult v).result = v := rfl
@[simp] theorem setResult_calls (v : CallResult) : (s.setResult v).calls = s.calls := rfl

@[simp] theorem setCalls_unit (v : List Call) : (s.setCalls v).unit = s.unit := rfl
@[simp] theorem setCalls_cfg (v : List Call) : (s.setCalls v).cfg = s.cfg := rfl
@[simp] theorem setCalls_irqTrace (v : List Call) : (s.setCalls v).irqTrace = s.irqTrace := rfl
@[simp] theorem setCalls_mem (v : List Call) : (s.setCalls v).mem = s.mem := rfl
@[simp] theorem setCalls_memWrites (v : List Call) : (s.setCalls v).memWrites = s.memWrites := rfl
@[simp] theorem setCalls_result (v : List Call) : (s.setCalls v).result = s.result := rfl
@[simp] theorem setCalls_calls (v : List Call) : (s.setCalls v).calls = v := rfl

/-! ### The cursor -/

/-- Freeing slots leaves the dead marker alone. -/
@[simp] theorem dropSlots_hasNew (n : Nat) (c : Cursor) : (Cursor.dropSlots n c).hasNew = c.hasNew := by
  induction n generalizing c with
  | zero => rfl
  | succ n ih => exact ih c.dropSlot

end Sys2Proof.Machine
end

