-- ==== Sys2Proof/Laws/Gate.lean ====
section
/-! SUPPORT. The FifoGate and the InterruptScheduler: what each operation can do, said once (`41_fifo_gate.md`,
`60_exceptions.md`). -/

namespace Sys2Proof.Machine

/-! ### Counters -/

theorem toNat_succ_of_lt {a c : BitVec 4} (h : a < c) : (a + 1).toNat = a.toNat + 1 := by
  have h1 : a.toNat < c.toNat := h
  have h2 := c.isLt
  rw [BitVec.toNat_add]
  simp
  omega

theorem toNat_pred_of_ne {a : BitVec 4} (h : a ≠ 0) : (a - 1).toNat + 1 = a.toNat := by
  have h1 : a.toNat ≠ 0 := fun hz => h (BitVec.eq_of_toNat_eq hz)
  have h2 := a.isLt
  rw [BitVec.toNat_sub]
  simp
  omega

/-! ### The input side -/

/-- All that `inPush` does (R171, R172). -/
theorem inPush_spec (q : QWord) (s : State) :
    (s.ifc < s.cfg.fifoInCap ∧ ∃ t, inPush q s = (t, true) ∧ t.unit.fifoIn = s.unit.fifoIn ++ [q] ∧
        t.ifc.toNat = s.ifc.toNat + 1 ∧ t.ofc = s.ofc ∧ t.unit.stall = putStall s.cfg.stallFlagIn false s.unit.stall ∧
        (∀ i, 4 ≤ i → t.unit.ctrl.getLsbD i = s.unit.ctrl.getLsbD i) ∧
        t = { s with unit := { s.unit with fifoIn := t.unit.fifoIn, ctrl := t.unit.ctrl, stall := t.unit.stall } }) ∨
      (¬ s.ifc < s.cfg.fifoInCap ∧
        inPush q s = (s.setStall (putStall s.cfg.stallFlagIn true s.unit.stall), false)) := by
  unfold inPush
  by_cases h : s.ifc < s.cfg.fifoInCap
  · refine .inl ⟨h, _, if_pos h, rfl, ?_, ?_, rfl, fun i hi => ?_, rfl⟩
    · simp only [State.ifc, setStall_ctrl, setCtrl_ctrl, ctrlIFC_putIFC]
      exact toNat_succ_of_lt h
    · simp [State.ofc]
    · exact getLsbD_putField_other 0 _ _ i (by decide) (by omega)
  · exact .inr ⟨h, if_neg h⟩

/-! ### The output side -/

/-- All that `outPut` does (R174). -/
theorem outPut_spec (q : QWord) (s : State) :
    (s.ofc < s.cfg.fifoOutCap ∧ ∃ t, outPut q s = some t ∧ t.unit.fifoOut = s.unit.fifoOut ++ [q] ∧
        t.ofc.toNat = s.ofc.toNat + 1 ∧ t.ifc = s.ifc ∧
        (∀ i, i < 4 ∨ 8 ≤ i → t.unit.ctrl.getLsbD i = s.unit.ctrl.getLsbD i) ∧
        t = { s with unit := { s.unit with fifoOut := t.unit.fifoOut, ctrl := t.unit.ctrl } }) ∨
      (¬ s.ofc < s.cfg.fifoOutCap ∧ outPut q s = none) := by
  unfold outPut
  by_cases h : s.ofc < s.cfg.fifoOutCap
  · refine .inl ⟨h, _, if_pos h, rfl, ?_, ?_, fun i hi => ?_, rfl⟩
    · simp only [State.ofc, setCtrl_ctrl, ctrlOFC_putOFC]
      exact toNat_succ_of_lt h
    · simp [State.ifc]
    · exact getLsbD_putField_other 4 _ _ i (by decide) (by omega)
  · exact .inr ⟨h, if_neg h⟩

/-- All that `outPop` does under a counted output side (R175, R176). -/
theorem outPop_spec (s : State) (hc : OutputCounted s) :
    (s.unit.fifoOut = [] ∧ outPop s = (s.setStall (putStall s.cfg.stallFlagOut true s.unit.stall), none)) ∨
      ∃ q qs t, s.unit.fifoOut = q :: qs ∧ outPop s = (t, some q) ∧ t.unit.fifoOut = qs ∧
        t.ofc.toNat + 1 = s.ofc.toNat ∧ t.ifc = s.ifc ∧
        t.unit.stall = putStall s.cfg.stallFlagOut false s.unit.stall ∧
        (∀ i, i < 4 ∨ 8 ≤ i → t.unit.ctrl.getLsbD i = s.unit.ctrl.getLsbD i) ∧
        t = { s with unit := { s.unit with fifoOut := t.unit.fifoOut, ctrl := t.unit.ctrl, stall := t.unit.stall } } := by
  unfold OutputCounted at hc
  unfold outPop
  cases hq : s.unit.fifoOut with
  | nil =>
    rw [hq] at hc
    exact .inl ⟨rfl, if_pos (BitVec.eq_of_toNat_eq (by simpa using hc))⟩
  | cons q qs =>
    have h0 : s.ofc ≠ 0 := by
      intro h
      rw [hq, h] at hc
      simp at hc
    refine .inr ⟨q, qs, _, rfl, by rw [if_neg h0], rfl, ?_, ?_, rfl, fun i hi => ?_, rfl⟩
    · simp only [State.ofc, setStall_ctrl, setCtrl_ctrl, ctrlOFC_putOFC]
      exact toNat_pred_of_ne h0
    · simp [State.ifc]
    · exact getLsbD_putField_other 4 _ _ i (by decide) (by omega)

/-- All that `fifoClear` does to `ctrl` (R177). -/
theorem fifoClear_ctrl (s : State) :
    (fifoClear s).ifc = 0 ∧ (fifoClear s).ofc = 0 ∧
      ∀ i, 8 ≤ i → (fifoClear s).unit.ctrl.getLsbD i = s.unit.ctrl.getLsbD i := by
  refine ⟨?_, ?_, fun i hi => ?_⟩
  · simp [fifoClear, State.ifc]
  · simp [fifoClear, State.ofc]
  · simp only [fifoClear, setStall_ctrl, setCtrl_ctrl, putIFC, putOFC]
    rw [getLsbD_putField_other 0 _ _ i (by decide) (by omega), getLsbD_putField_other 4 _ _ i (by decide) (by omega)]

/-- `fifoClear` changes nothing but both FIFOs, their counters and the stall flags. -/
theorem fifoClear_eq (s : State) :
    fifoClear s = { s with unit := { s.unit with
      fifoIn := [], fifoOut := [], ctrl := (fifoClear s).unit.ctrl, stall := ⟨false, false, false⟩ } } := rfl

/-! ### Interrupts -/

@[simp] theorem pendOf_putPend_same (p : Pend) (src : IrqSrc) (v : Option Nat) : pendOf (putPend p src v) src = v := by
  cases src <;> rfl

theorem pendOf_putPend_other (p : Pend) {src other : IrqSrc} (v : Option Nat) (h : other ≠ src) :
    pendOf (putPend p src v) other = pendOf p other := by
  cases src <;> cases other <;> first | rfl | exact absurd rfl h

theorem putPend_pendOf (p : Pend) (src : IrqSrc) : putPend p src (pendOf p src) = p := by cases src <;> rfl

/-- `raise` changes nothing but the trace and the slots. -/
theorem raise_eq (src : IrqSrc) (s : State) :
    raise src s = { s with irqTrace := (raise src s).irqTrace, unit := { s.unit with pend := (raise src s).unit.pend } } := by
  unfold raise
  cases s.cfg.irqPolicy with
  | inline => rfl
  | deferred => cases pendOf s.unit.pend src <;> rfl

/-- All that `raise` does (R361). -/
theorem raise_raised (src : IrqSrc) (s : State) : Raised src s (raise src s) := by
  unfold Raised raise
  cases hp : s.cfg.irqPolicy with
  | inline => exact ⟨rfl, rfl⟩
  | deferred =>
    cases h : pendOf s.unit.pend src with
    | none => exact ⟨rfl, rfl⟩
    | some c =>
      refine ⟨rfl, ?_⟩
      show s.unit.pend = _
      rw [Option.getD_some, ← h, putPend_pendOf]

/-- `Raised` looks at configuration, trace and slots only. -/
theorem Raised.congr {src : IrqSrc} {s s' t t' : State} (h : Raised src s t) (h1 : s'.cfg = s.cfg)
    (h2 : s'.irqTrace = s.irqTrace) (h3 : s'.unit.pend = s.unit.pend) (h4 : t'.irqTrace = t.irqTrace)
    (h5 : t'.unit.pend = t.unit.pend) : Raised src s' t' := by
  unfold Raised at *
  rw [h1, h2, h3, h4, h5]
  exact h

@[simp] theorem raise_cfg (src : IrqSrc) (s : State) : (raise src s).cfg = s.cfg := by rw [raise_eq]
@[simp] theorem raise_mem (src : IrqSrc) (s : State) : (raise src s).mem = s.mem := by rw [raise_eq]
@[simp] theorem raise_result (src : IrqSrc) (s : State) : (raise src s).result = s.result := by rw [raise_eq]
@[simp] theorem raise_calls (src : IrqSrc) (s : State) : (raise src s).calls = s.calls := by rw [raise_eq]

end Sys2Proof.Machine
end

