-- ==== Sys2Proof/Laws/Stream.lean ====
section
/-! SUPPORT. The bitstream cursor: what each of its operations can do, said once (`40_bitstream_cursor.md`). -/

namespace Sys2Proof.Machine

/-! ### Values of streams -/

theorem streamValue_congr {qs qs' : List QWord} {p p' : Nat} {w : Nat}
    (h : ∀ i, i < w → streamBit qs (p + i) = streamBit qs' (p' + i)) : streamValue qs p w = streamValue qs' p' w := by
  induction w with
  | zero => rfl
  | succ w ih => simp only [streamValue]; rw [ih fun i hi => h i (by omega), h w (by omega)]

/-- The value of `a + b` bits is that of the first `a` followed by that of the next `b` (R152). -/
theorem streamValue_add (qs : List QWord) (p a b : Nat) :
    streamValue qs p (a + b) = streamValue qs p a * 2 ^ b + streamValue qs (p + a) b := by
  induction b with
  | zero => simp [streamValue]
  | succ b ih =>
    rw [show a + (b + 1) = (a + b) + 1 by omega]
    simp only [streamValue, ih, pow_succ, ← Nat.add_assoc]
    ring

theorem streamValue_lt (qs : List QWord) (p w : Nat) : streamValue qs p w < 2 ^ w := by
  induction w with
  | zero => simp [streamValue]
  | succ w ih =>
    simp only [streamValue, pow_succ]
    have : (streamBit qs (p + w)).toNat ≤ 1 := Bool.toNat_le _
    omega

theorem streamBit_append_left (qs rs : List QWord) (k : Nat) (h : k / 128 < qs.length) :
    streamBit (qs ++ rs) k = streamBit qs k := by
  unfold streamBit
  rw [List.getD_append _ _ _ _ h]

theorem streamBit_take (qs : List QWord) (n k : Nat) (h : k / 128 < n) : streamBit (qs.take n) k = streamBit qs k := by
  unfold streamBit
  simp [List.getD_eq_getElem?_getD, h]

theorem streamBit_drop (qs : List QWord) (d k : Nat) : streamBit (qs.drop d) k = streamBit qs (128 * d + k) := by
  unfold streamBit
  have h1 : (128 * d + k) / 128 = d + k / 128 := by omega
  have h2 : (128 * d + k) % 128 = k % 128 := by omega
  simp [List.getD_eq_getElem?_getD, List.getElem?_drop, h1, h2]

/-! ### Frames -/

/-- `t` is `s` but for the cursor, the input FIFO and its counter. -/
def InputOnly (s t : State) : Prop :=
  t = { s with unit := { s.unit with cur := t.unit.cur, fifoIn := t.unit.fifoIn, ctrl := t.unit.ctrl } } ∧
    ∀ i, 4 ≤ i → t.unit.ctrl.getLsbD i = s.unit.ctrl.getLsbD i

theorem InputOnly.refl (s : State) : InputOnly s s := ⟨rfl, fun _ _ => rfl⟩

theorem InputOnly.trans {s t u : State} (h : InputOnly s t) (g : InputOnly t u) : InputOnly s u := by
  obtain ⟨h1, h2⟩ := h
  obtain ⟨g1, g2⟩ := g
  refine ⟨?_, fun i hi => (g2 i hi).trans (h2 i hi)⟩
  rw [g1, h1]

theorem InputOnly.setCur (s : State) (c : Cursor) : InputOnly s (s.setCur c) := ⟨rfl, fun _ _ => rfl⟩

theorem inputOnly_inTake {s t : State} {q : QWord} (h : inTake s = some (q, t)) :
    InputOnly s t ∧ t.unit.cur = s.unit.cur ∧ s.unit.fifoIn = q :: t.unit.fifoIn ∧ s.ifc ≠ 0 ∧ t.ifc = s.ifc - 1 := by
  unfold inTake at h
  split at h
  · simp at h
  · rename_i h0
    split at h
    · simp at h
    · rename_i q' qs hq
      simp only [Option.some.injEq, Prod.mk.injEq] at h
      obtain ⟨rfl, rfl⟩ := h
      refine ⟨⟨rfl, fun i hi => ?_⟩, rfl, hq, h0, ?_⟩
      · exact getLsbD_putField_other 0 _ _ i (by decide) (by omega)
      · simp [State.ifc]

/-- Under a counted input side, `inTake` answers nothing exactly when the counter is zero. -/
theorem inTake_none {s : State} (hc : InputCounted s) (h : inTake s = none) : s.ifc = 0 := by
  unfold inTake at h
  split at h
  · assumption
  · split at h
    · rename_i h0 hq
      unfold InputCounted at hc
      rw [hq] at hc
      exact BitVec.eq_of_toNat_eq (by simpa using hc)
    · simp at h

/-! ### Position and amount -/

theorem Cursor.pos_lt (c : Cursor) : c.pos < 128 := by
  unfold Cursor.pos
  have := c.byteOfs.isLt
  have := c.bitOfs.isLt
  omega

theorem totalAvail_setCur_snap (s : State) : totalAvail (snapIfc s) = totalAvail s := rfl

/-- `t` stands where `s` stands: the same position, the same bits ahead. -/
def SameStream (s t : State) : Prop :=
  t.unit.cur.pos = s.unit.cur.pos ∧ totalAvail t = totalAvail s ∧ pendingQWords t = pendingQWords s

theorem SameStream.refl (s : State) : SameStream s s := ⟨rfl, rfl, rfl⟩

theorem SameStream.trans {s t u : State} (h : SameStream s t) (g : SameStream t u) : SameStream s u :=
  ⟨g.1.trans h.1, g.2.1.trans h.2.1, g.2.2.trans h.2.2⟩

theorem snapIfc_sameStream (s : State) : SameStream s (snapIfc s) := ⟨rfl, rfl, rfl⟩

/-- One quadword moved from the input FIFO into a free slot. -/
theorem take_one {s t : State} {q : QWord} (hc : InputCounted s) (hf : s.unit.cur.fp.val < 2)
    (h : inTake s = some (q, t)) :
    let u := t.setCur (t.unit.cur.addQWord q)
    InputOnly s u ∧ InputCounted u ∧ SameStream s u ∧ u.unit.cur.fp.val = s.unit.cur.fp.val + 1 := by
  obtain ⟨h1, h2, h3, h4, h5⟩ := inputOnly_inTake h
  have hifc : t.ifc.toNat + 1 = s.ifc.toNat := by
    rw [h5]
    have : s.ifc.toNat ≠ 0 := fun hz => h4 (BitVec.eq_of_toNat_eq hz)
    rw [BitVec.toNat_sub]
    have := s.ifc.isLt
    simp
    omega
  have hfp : (t.unit.cur.addQWord q).fp.val = s.unit.cur.fp.val + 1 := by
    unfold Cursor.addQWord
    rw [h2]
    simp [Fin.ofNat]
    omega
  refine ⟨h1.trans (InputOnly.setCur _ _), ?_, ⟨?_, ?_, ?_⟩, hfp⟩
  · unfold InputCounted at *
    simp only [State.ifc, setCur_ctrl, setCur_fifoIn] at *
    rw [h3] at hc
    simp at hc
    omega
  · simp [Cursor.addQWord, Cursor.pos, h2]
  · have hpos : (t.unit.cur.addQWord q).pos = s.unit.cur.pos := by simp [Cursor.addQWord, Cursor.pos, h2]
    have := s.unit.cur.pos_lt
    have hav (c : Cursor) : c.avail = if c.fp.val = 0 then 0 else 128 * c.fp.val - c.pos := rfl
    show (if (t.unit.cur.addQWord q).fp.val = 0 then 128 * t.ifc.toNat - (t.unit.cur.addQWord q).pos
      else (t.unit.cur.addQWord q).avail + 128 * t.ifc.toNat) = _
    simp only [totalAvail, hav, hpos, hfp]
    split <;> split <;> omega
  · unfold pendingQWords
    simp only [setCur_cur, setCur_fifoIn]
    rw [hfp, h3]
    have hl : s.unit.cur.slot.toList.length = 2 := by simp
    unfold Cursor.addQWord
    rw [h2]
    simp only [Vector.toList_setIfInBounds]
    rw [List.take_add_one]
    simp [hl, hf, List.take_set_of_le]

/-- All that `pullLoop` does. -/
theorem pullLoop_spec (want n : Nat) (s : State) (hc : InputCounted s) (hn : 2 ≤ n + s.unit.cur.fp.val) :
    InputOnly s (pullLoop want n s) ∧ InputCounted (pullLoop want n s) ∧ SameStream s (pullLoop want n s) ∧
      (want ≤ (pullLoop want n s).unit.cur.avail ∨ (pullLoop want n s).unit.cur.fp.val = 2 ∨
        (pullLoop want n s).ifc = 0) := by
  induction n generalizing s with
  | zero =>
    refine ⟨InputOnly.refl s, hc, SameStream.refl s, .inr (.inl ?_)⟩
    have := s.unit.cur.fp.isLt
    simp only [pullLoop]
    omega
  | succ n ih =>
    unfold pullLoop
    split
    · rename_i hw
      cases ht : inTake s with
      | none => exact ⟨InputOnly.refl s, hc, SameStream.refl s, .inr (.inr (inTake_none hc ht))⟩
      | some x =>
        obtain ⟨q, t⟩ := x
        obtain ⟨h1, h2, h3, h4⟩ := take_one hc hw.2 ht
        obtain ⟨g1, g2, g3, g4⟩ := ih _ h2 (by rw [h4]; omega)
        exact ⟨h1.trans g1, g2, h3.trans g3, g4⟩
    · rename_i hw
      refine ⟨InputOnly.refl s, hc, SameStream.refl s, ?_⟩
      have := s.unit.cur.fp.isLt
      simp only [Config.bufQw] at hw
      omega

/-- All that `pull` does (R142): the stream ahead is the same, and the bits wanted are in the buffer unless it is full or
the input FIFO is empty. -/
theorem pull_spec (want : Nat) (s : State) (hc : InputCounted s) :
    InputOnly s (pull want s) ∧ InputCounted (pull want s) ∧ SameStream s (pull want s) ∧
      (pull want s).unit.cur.ifcSnap = (pull want s).ifc ∧
      (want ≤ (pull want s).unit.cur.avail ∨ (pull want s).unit.cur.fp.val = 2 ∨ (pull want s).ifc = 0) := by
  obtain ⟨h1, h2, h3, h4⟩ := pullLoop_spec want Config.bufQw s hc (by simp [Config.bufQw])
  exact ⟨h1.trans (InputOnly.setCur _ _), h2, h3.trans (snapIfc_sameStream _), rfl, h4⟩

/-- A request of at most 129 bits is in the buffer after `pull` exactly when the unit holds that many (R150). -/
theorem pull_avail (want : Nat) (s : State) (hc : InputCounted s) (hw : want ≤ 129) :
    want ≤ (pull want s).unit.cur.avail ↔ want ≤ totalAvail s := by
  obtain ⟨-, -, ⟨-, h3, -⟩, -, h4⟩ := pull_spec want s hc
  rw [← h3]
  have hp := (pull want s).unit.cur.pos_lt
  unfold totalAvail
  have ha : (pull want s).unit.cur.avail = if (pull want s).unit.cur.fp.val = 0 then 0
    else 128 * (pull want s).unit.cur.fp.val - (pull want s).unit.cur.pos := rfl
  rcases h4 with h4 | h4 | h4
  · constructor
    · intro _
      split
      · rename_i h0
        rw [if_pos h0] at ha
        omega
      · omega
    · exact fun _ => h4
  · rw [if_neg (by omega)]
    rw [if_neg (by omega), h4] at ha
    omega
  · rw [h4]
    split
    · rename_i h0
      rw [if_pos h0] at ha
      simp
      omega
    · simp

/-! ### Moving the cursor -/

theorem dropSlot_spec (c : Cursor) :
    c.dropSlot.fp.val = c.fp.val - 1 ∧ c.dropSlot.slot.toList.take c.dropSlot.fp.val = (c.slot.toList.take c.fp.val).drop 1 := by
  have hl := c.fp.isLt
  have hfp : c.dropSlot.fp.val = c.fp.val - 1 := by
    simp [Cursor.dropSlot, Fin.ofNat]
    omega
  refine ⟨hfp, ?_⟩
  rw [hfp]
  obtain ⟨a, b, hab⟩ : ∃ a b, c.slot.toList = [a, b] := by
    have : c.slot.toList.length = 2 := by simp
    match h : c.slot.toList, this with
    | [a, b], _ => exact ⟨a, b, rfl⟩
  have hb : c.slot.getD 1 0 = b := by
    have h1 : c.slot.toList[1]? = some b := by rw [hab]; rfl
    simpa [Vector.getD, Vector.getElem_toList] using h1
  have hs : c.dropSlot.slot.toList = [b, 0] := by
    simp only [Cursor.dropSlot, hb]
    rfl
  rw [hs, hab]
  have : c.fp.val = 0 ∨ c.fp.val = 1 ∨ c.fp.val = 2 := by omega
  rcases this with h | h | h <;> rw [h] <;> rfl

theorem dropSlots_spec (n : Nat) (c : Cursor) :
    (Cursor.dropSlots n c).fp.val = c.fp.val - n ∧
      (Cursor.dropSlots n c).slot.toList.take (Cursor.dropSlots n c).fp.val = (c.slot.toList.take c.fp.val).drop n := by
  induction n generalizing c with
  | zero => simp [Cursor.dropSlots]
  | succ n ih =>
    obtain ⟨h1, h2⟩ := dropSlot_spec c
    obtain ⟨g1, g2⟩ := ih c.dropSlot
    simp only [Cursor.dropSlots]
    refine ⟨by omega, ?_⟩
    rw [g2, h2, List.drop_drop, Nat.add_comm]

/-- All that `advance` does (R143), where it is defined. -/
theorem advance_spec (n : Nat) (s : State) (hn : n ≤ s.unit.cur.avail) :
    InputOnly s (advanceSnap n s) ∧ (InputCounted s → InputCounted (advanceSnap n s)) ∧ Consumed n s (advanceSnap n s) ∧
      (advanceSnap n s).unit.cur.ifcSnap = (advanceSnap n s).ifc := by
  have hp := s.unit.cur.pos_lt
  have hfp := s.unit.cur.fp.isLt
  have hav : s.unit.cur.avail = if s.unit.cur.fp.val = 0 then 0 else 128 * s.unit.cur.fp.val - s.unit.cur.pos := rfl
  obtain ⟨d1, d2⟩ := dropSlots_spec ((s.unit.cur.pos + n) / 128) s.unit.cur
  have hd : (s.unit.cur.pos + n) / 128 ≤ s.unit.cur.fp.val := by
    split at hav <;> omega
  have hpos : (s.unit.cur.advance n).pos = (s.unit.cur.pos + n) % 128 := by
    simp only [Cursor.advance, Cursor.pos, BitVec.toNat_ofNat]
    simp only [Cursor.pos] at hp
    omega
  have hpend : pendingQWords (advanceSnap n s) = (pendingQWords s).drop ((s.unit.cur.pos + n) / 128) := by
    show (Cursor.dropSlots _ s.unit.cur).slot.toList.take (Cursor.dropSlots _ s.unit.cur).fp.val ++ s.unit.fifoIn = _
    rw [d2]
    unfold pendingQWords
    rw [List.drop_append_of_le_length]
    simp
    omega
  have hav' : (advanceSnap n s).unit.cur.fp.val = s.unit.cur.fp.val - (s.unit.cur.pos + n) / 128 := d1
  have hpos' : (advanceSnap n s).unit.cur.pos = (s.unit.cur.pos + n) % 128 := hpos
  have hifc : (advanceSnap n s).ifc = s.ifc := rfl
  refine ⟨(InputOnly.setCur _ _).trans (InputOnly.setCur _ _), fun h => h, ⟨?_, hpos', ?_⟩, rfl⟩
  · unfold totalAvail
    rw [hifc]
    have ha' : (advanceSnap n s).unit.cur.avail = if (advanceSnap n s).unit.cur.fp.val = 0 then 0
      else 128 * (advanceSnap n s).unit.cur.fp.val - (advanceSnap n s).unit.cur.pos := rfl
    rw [ha', hpos', hav']
    rw [hav] at hn ⊢
    by_cases h0 : s.unit.cur.fp.val = 0
    · simp only [h0, if_true] at hn ⊢
      simp
      omega
    · simp only [h0, if_false] at hn ⊢
      split <;> omega
  · intro k _
    unfold aheadBit
    rw [hpend, streamBit_drop, hpos']
    congr 1
    omega

theorem Consumed.zero (s t : State) (h : SameStream s t) : Consumed 0 s t := by
  obtain ⟨h1, h2, h3⟩ := h
  have := s.unit.cur.pos_lt
  refine ⟨by omega, by omega, fun k _ => ?_⟩
  unfold aheadBit
  rw [h3, h1, Nat.zero_add]

theorem Consumed.trans {a b : Nat} {s t u : State} (h : Consumed a s t) (g : Consumed b t u) : Consumed (a + b) s u := by
  obtain ⟨h1, h2, h3⟩ := h
  obtain ⟨g1, g2, g3⟩ := g
  refine ⟨by omega, by omega, fun k hk => ?_⟩
  rw [g3 k hk, h3 (b + k) (by omega), Nat.add_assoc]

theorem Consumed.sameStream_left {n : Nat} {s t u : State} (h : SameStream s t) (g : Consumed n t u) : Consumed n s u := by
  simpa using (Consumed.zero s t h).trans g

/-- The bits in the buffer are the bits ahead. -/
theorem extract_eq_ahead (s : State) (w : Nat) (hw : w ≤ s.unit.cur.avail) :
    s.unit.cur.extract w = aheadValue s 0 w := by
  unfold Cursor.extract aheadValue pendingQWords
  refine streamValue_congr fun i hi => ?_
  have hav : s.unit.cur.avail = if s.unit.cur.fp.val = 0 then 0 else 128 * s.unit.cur.fp.val - s.unit.cur.pos := rfl
  have hfp := s.unit.cur.fp.isLt
  have hk : (s.unit.cur.pos + i) / 128 < s.unit.cur.fp.val := by split at hav <;> omega
  rw [Nat.add_zero, streamBit_append_left _ _ _ (by simp; omega), streamBit_take _ _ _ hk]

theorem aheadValue_sameStream {s t : State} (h : SameStream s t) (k w : Nat) : aheadValue t k w = aheadValue s k w := by
  unfold aheadValue
  rw [h.1, h.2.2]

/-- The bits ahead after `n` were consumed. -/
theorem aheadValue_consumed {n : Nat} {s t : State} (h : Consumed n s t) (k w : Nat) (hk : k + w ≤ totalAvail t) :
    aheadValue t k w = aheadValue s (n + k) w := by
  refine streamValue_congr fun i hi => ?_
  have := h.2.2 (k + i) (by omega)
  unfold aheadBit at this
  rw [← Nat.add_assoc, ← Nat.add_assoc] at this
  rw [this]
  congr 1
  omega

/-! ### The operations -/

/-- What a short read leaves (R150): nothing consumed, the same bits ahead. -/
def ShortOf (s t : State) : Prop := InputOnly s t ∧ InputCounted t ∧ SameStream s t

/-- All that `readBits` does (R145, R150). -/
theorem readBits_spec (w : Nat) (s : State) (h1 : 1 ≤ w) (h32 : w ≤ 32) (hc : InputCounted s) :
    (totalAvail s < w ∧ ∃ t, readBits w s = .short t ∧ ShortOf s t) ∨
      (w ≤ totalAvail s ∧ ∃ t, readBits w s = .ok (BitVec.ofNat 32 (aheadValue s 0 w)) t ∧ InputOnly s t ∧
        InputCounted t ∧ Consumed w s t) := by
  obtain ⟨p1, p2, p3, -, -⟩ := pull_spec w s hc
  have pa := pull_avail w s hc (by omega)
  unfold readBits
  rw [if_pos ⟨h1, h32⟩]
  by_cases h : (pull w s).unit.cur.avail < w
  · refine .inl ⟨by omega, _, if_pos h, p1, p2, p3⟩
  · obtain ⟨a1, a2, a3, -⟩ := advance_spec w (pull w s) (by omega)
    refine .inr ⟨by omega, advanceSnap w (pull w s), ?_, p1.trans a1, a2 p2, a3.sameStream_left p3⟩
    simp only [h, if_false]
    rw [extract_eq_ahead _ _ (by omega), aheadValue_sameStream p3]

/-- All that `peekBits` does (R146). -/
theorem peekBits_spec (w : Nat) (s : State) (h1 : 1 ≤ w) (h32 : w ≤ 32) (hc : InputCounted s) :
    (totalAvail s < w ∧ ∃ t, peekBits w s = .short t ∧ ShortOf s t) ∨
      (w ≤ totalAvail s ∧ ∃ t, peekBits w s = .ok (BitVec.ofNat 32 (aheadValue s 0 w)) t ∧ ShortOf s t) := by
  obtain ⟨p1, p2, p3, -, -⟩ := pull_spec w s hc
  have pa := pull_avail w s hc (by omega)
  unfold peekBits
  rw [if_pos ⟨h1, h32⟩]
  by_cases h : (pull w s).unit.cur.avail < w
  · exact .inl ⟨by omega, _, if_pos h, p1, p2, p3⟩
  · refine .inr ⟨by omega, pull w s, ?_, p1, p2, p3⟩
    simp only [h, if_false]
    rw [extract_eq_ahead _ _ (by omega), aheadValue_sameStream p3]

/-- All that `skipBits` does (R147). -/
theorem skipBits_spec (n : Nat) (s : State) (h : n ≤ 63) (hc : InputCounted s) :
    (totalAvail s < n ∧ ∃ t, skipBits n s = .short t ∧ ShortOf s t) ∨
      (n ≤ totalAvail s ∧ ∃ t, skipBits n s = .ok () t ∧ InputOnly s t ∧ InputCounted t ∧ Consumed n s t) := by
  obtain ⟨p1, p2, p3, -, -⟩ := pull_spec n s hc
  have pa := pull_avail n s hc (by omega)
  unfold skipBits
  rw [if_pos h]
  by_cases hs : (pull n s).unit.cur.avail < n
  · exact .inl ⟨by omega, _, if_pos hs, p1, p2, p3⟩
  · obtain ⟨a1, a2, a3, -⟩ := advance_spec n (pull n s) (by omega)
    refine .inr ⟨by omega, advanceSnap n (pull n s), ?_, p1.trans a1, a2 p2, a3.sameStream_left p3⟩
    simp only [hs, if_false]

/-- All that `alignByte` does (R148). -/
theorem alignByte_spec (s : State) (hc : InputCounted s) :
    (s.unit.cur.bitOfs ≠ 0 ∧ totalAvail s < 1 ∧ ∃ t, alignByte s = .short t ∧ ShortOf s t) ∨
      ∃ t, alignByte s = .ok () t ∧ InputOnly s t ∧ InputCounted t ∧
        Consumed ((8 - s.unit.cur.bitOfs.toNat) % 8) s t := by
  unfold alignByte
  by_cases h0 : s.unit.cur.bitOfs = 0
  · refine .inr ⟨snapIfc s, if_pos h0, InputOnly.setCur _ _, hc, ?_⟩
    rw [h0]
    exact Consumed.zero _ _ (snapIfc_sameStream s)
  · obtain ⟨p1, p2, p3, -, -⟩ := pull_spec 1 s hc
    have pa := pull_avail 1 s hc (by omega)
    rw [if_neg h0]
    have hb : s.unit.cur.bitOfs.toNat ≠ 0 := fun h => h0 (BitVec.eq_of_toNat_eq h)
    have hlt := s.unit.cur.bitOfs.isLt
    have hbit : (pull 1 s).unit.cur.bitOfs.toNat = s.unit.cur.bitOfs.toNat := by
      have := p3.1
      unfold Cursor.pos at this
      have := (pull 1 s).unit.cur.bitOfs.isLt
      omega
    have hav : (pull 1 s).unit.cur.avail = if (pull 1 s).unit.cur.fp.val = 0 then 0
      else 128 * (pull 1 s).unit.cur.fp.val - (pull 1 s).unit.cur.pos := rfl
    have hp := (pull 1 s).unit.cur.pos_lt
    by_cases hf : (pull 1 s).unit.cur.fp.val = 0
    · rw [if_pos hf] at hav
      refine .inl ⟨h0, by omega, _, if_pos hf, p1, p2, p3⟩
    · rw [if_neg hf] at hav
      have hpos : (pull 1 s).unit.cur.pos % 8 = s.unit.cur.bitOfs.toNat := by
        rw [← hbit]
        unfold Cursor.pos
        have := (pull 1 s).unit.cur.bitOfs.isLt
        omega
      obtain ⟨a1, a2, a3, -⟩ := advance_spec (8 - (pull 1 s).unit.cur.bitOfs.toNat) (pull 1 s) (by omega)
      refine .inr ⟨_, if_neg hf, p1.trans a1, a2 p2, ?_⟩
      rw [show (8 - s.unit.cur.bitOfs.toNat) % 8 = 8 - (pull 1 s).unit.cur.bitOfs.toNat by omega]
      exact a3.sameStream_left p3

/-- All that `refill` does (R144). -/
theorem refill_spec (hint n : Nat) (s : State) (hc : InputCounted s) :
    (Config.bufCap < n ∧ refill hint n s = none) ∨
      (n ≤ Config.bufCap ∧ ∃ t, refill hint n s = some (t.unit.cur.avail / 8, t) ∧ ShortOf s t) := by
  obtain ⟨p1, p2, p3, -, -⟩ := pull_spec (8 * n + hint) s hc
  unfold refill
  by_cases h : Config.bufCap < n
  · exact .inl ⟨h, if_pos h⟩
  · exact .inr ⟨by omega, _, if_neg h, p1, p2, p3⟩

/-! ### Laziness and the snapshot (R142, R154) -/

/-- The input FIFO, the dead marker and the snapshot after `pull`: it is lazy, and it ends with the snapshot. -/
theorem pull_pulled (want : Nat) (s : State) (hc : InputCounted s) :
    Pulled want s (pull want s) ∧ Snapped s (pull want s) := by
  suffices h : ∀ (n : Nat) (s : State), InputCounted s → 2 ≤ n + s.unit.cur.fp.val →
      Pulled want s (pullLoop want n s) ∧ (pullLoop want n s).unit.cur.hasNew = s.unit.cur.hasNew by
    obtain ⟨h1, h2⟩ := h Config.bufQw s hc (by simp [Config.bufQw])
    exact ⟨h1, rfl, h2⟩
  intro n
  induction n with
  | zero =>
    intro s _ hn
    have := s.unit.cur.fp.isLt
    exact ⟨⟨0, by omega, rfl, by omega, by omega, .inr (.inl (by omega))⟩, rfl⟩
  | succ n ih =>
    intro s hc hn
    have hfp := s.unit.cur.fp.isLt
    have hav : s.unit.cur.avail = availAfter 0 s := rfl
    unfold pullLoop
    split
    · rename_i hw
      simp only [Config.bufQw] at hw
      cases ht : inTake s with
      | none =>
        have h0 : s.unit.fifoIn.length = 0 := by rw [← hc, inTake_none hc ht]; rfl
        exact ⟨⟨0, by omega, rfl, by omega, by omega, .inr (.inr h0.symm)⟩, rfl⟩
      | some x =>
        obtain ⟨q, t⟩ := x
        obtain ⟨-, ec, ef, -, -⟩ := inputOnly_inTake ht
        obtain ⟨-, h2, h3, h4⟩ := take_one hc hw.2 ht
        obtain ⟨⟨k, k1, k2, k3, k4, k5⟩, g⟩ := ih (t.setCur (t.unit.cur.addQWord q)) h2 (by rw [h4]; omega)
        have ha (j : Nat) : availAfter j (t.setCur (t.unit.cur.addQWord q)) = availAfter (j + 1) s := by
          simp only [availAfter, h4, h3.1]
          rw [show s.unit.cur.fp.val + 1 + j = s.unit.cur.fp.val + (j + 1) by omega]
        have hf : (t.setCur (t.unit.cur.addQWord q)).unit.fifoIn = t.unit.fifoIn := rfl
        rw [h4] at k3 k5
        rw [hf] at k1 k2 k5
        refine ⟨⟨k + 1, ?_, ?_, by omega, fun j hj => ?_, ?_⟩,
          g.trans (show t.unit.cur.hasNew = _ by rw [ec])⟩
        · rw [ef, List.length_cons]; omega
        · rw [ef]; exact k2
        · cases j with
          | zero => rw [← hav]; exact hw.1
          | succ j => rw [← ha]; exact k4 j (by omega)
        · rw [← ha, ef, List.length_cons]; omega
    · rename_i hw
      simp only [Config.bufQw] at hw
      exact ⟨⟨0, by omega, rfl, by omega, by omega, by omega⟩, rfl⟩

/-- Moving the cursor takes nothing from the input FIFO and ends with the snapshot. -/
theorem advanceSnap_pulled {want : Nat} {s t : State} (n : Nat) (h : Pulled want s t) (g : Snapped s t) :
    Pulled want s (advanceSnap n t) ∧ Snapped s (advanceSnap n t) :=
  ⟨h, rfl, (dropSlots_hasNew _ t.unit.cur).trans g.2⟩

/-- Whatever `readBits` answers, it has pulled lazily and written the snapshot. -/
theorem readBits_pulled {w : Nat} {s t : State} (hc : InputCounted s)
    (h : readBits w s = .short t ∨ ∃ v, readBits w s = .ok v t) : Pulled w s t ∧ Snapped s t := by
  obtain ⟨p, g⟩ := pull_pulled w s hc
  unfold readBits at h
  dsimp only at h
  split at h
  · split at h
    · obtain h | ⟨v, h⟩ := h <;> cases h
      exact ⟨p, g⟩
    · obtain h | ⟨v, h⟩ := h <;> cases h
      exact advanceSnap_pulled w p g
  · obtain h | ⟨v, h⟩ := h <;> cases h

/-- Whatever `peekBits` answers, it has pulled lazily and written the snapshot. -/
theorem peekBits_pulled {w : Nat} {s t : State} (hc : InputCounted s)
    (h : peekBits w s = .short t ∨ ∃ v, peekBits w s = .ok v t) : Pulled w s t ∧ Snapped s t := by
  obtain ⟨p, g⟩ := pull_pulled w s hc
  unfold peekBits at h
  dsimp only at h
  split at h
  · split at h <;> obtain h | ⟨v, h⟩ := h <;> cases h <;> exact ⟨p, g⟩
  · obtain h | ⟨v, h⟩ := h <;> cases h

/-- Whatever `skipBits` answers, it has pulled lazily and written the snapshot. -/
theorem skipBits_pulled {n : Nat} {s t : State} (hc : InputCounted s)
    (h : skipBits n s = .short t ∨ skipBits n s = .ok () t) : Pulled n s t ∧ Snapped s t := by
  obtain ⟨p, g⟩ := pull_pulled n s hc
  unfold skipBits at h
  dsimp only at h
  split at h
  · split at h
    · obtain h | h := h <;> cases h
      exact ⟨p, g⟩
    · obtain h | h := h <;> cases h
      exact advanceSnap_pulled n p g
  · obtain h | h := h <;> cases h

/-- Whatever `alignByte` answers, it has pulled lazily and written the snapshot. -/
theorem alignByte_pulled {s t : State} (hc : InputCounted s) (h : alignByte s = .short t ∨ alignByte s = .ok () t) :
    Pulled (if s.unit.cur.bitOfs = 0 then 0 else 1) s t ∧ Snapped s t := by
  unfold alignByte at h
  dsimp only at h
  split at h
  · rename_i h0
    obtain h | h := h <;> cases h
    have := s.unit.cur.fp.isLt
    rw [if_pos h0]
    exact ⟨⟨0, by omega, rfl, by omega, by omega, .inl (by omega)⟩, rfl, rfl⟩
  · rename_i h0
    obtain ⟨p, g⟩ := pull_pulled 1 s hc
    rw [if_neg h0]
    split at h
    · obtain h | h := h <;> cases h
      exact ⟨p, g⟩
    · obtain h | h := h <;> cases h
      exact advanceSnap_pulled _ p g

/-- What `refill` pulls (R144), and that it writes the snapshot. -/
theorem refill_pulled {hint n : Nat} {s t : State} {b : Nat} (hc : InputCounted s) (h : refill hint n s = some (b, t)) :
    Pulled (8 * n + hint) s t ∧ Snapped s t := by
  unfold refill at h
  dsimp only at h
  split at h
  · cases h
  · cases h
    exact pull_pulled _ s hc

end Sys2Proof.Machine
end

