-- ==== Sys2Proof/Laws/Loops.lean ====
section
/-! SUPPORT. The parts of a dispatch step: acceptance, completion, the drain and byte input, each said once
(`43_command_dispatcher.md`). -/

namespace Sys2Proof.Machine

/-! ### Acceptance and completion -/

/-- `complete` (R237): one CMD interrupt is raised; nothing else changes but the command state, BUSY and the session. -/
theorem complete_spec (s : State) :
    Raised .cmd s (complete s) ∧ complete s = { s with irqTrace := (complete s).irqTrace, unit := { s.unit with
      pend := (complete s).unit.pend, cmd := Command.idle, ctrl := putBUSY false s.unit.ctrl, lib := none } } :=
  ⟨(raise_raised .cmd (clearCommand s)).congr rfl rfl rfl rfl rfl, by
    show raise .cmd (clearCommand s) = { s with irqTrace := (raise .cmd (clearCommand s)).irqTrace, unit := { s.unit with
      pend := (raise .cmd (clearCommand s)).unit.pend, cmd := Command.idle, ctrl := putBUSY false s.unit.ctrl, lib := none } }
    conv_lhs => rw [raise_eq]
    rfl⟩

/-- Acceptance (R234) changes the command state, three bits of `ctrl`, the session and the result. -/
theorem acceptCommand_eq (w : Word) (s : State) : acceptCommand w s = { s with result := .accepted, unit := { s.unit with
    cmd := ⟨w, true, 0, 0, 0⟩, ctrl := putBUSY true (putECD false (putSCD false s.unit.ctrl)), lib := none } } := rfl

/-- A rejection (R231, R233) changes ECD and the result. -/
theorem rejectCommand_eq (r : RejectReason) (s : State) : rejectCommand r s =
    { s with result := .rejected r, unit := { s.unit with ctrl := putECD true s.unit.ctrl } } := rfl

theorem acceptCommand_ctrl (w : Word) (s : State) (i : Nat) (h : i ≠ 14 ∧ i ≠ 15 ∧ i ≠ 31) :
    (acceptCommand w s).unit.ctrl.getLsbD i = s.unit.ctrl.getLsbD i := by
  show (putBUSY true (putECD false (putSCD false s.unit.ctrl))).getLsbD i = _
  unfold putBUSY putECD putSCD
  rw [getLsbD_putField_other 31 _ _ i (by decide) (by omega), getLsbD_putField_other 14 _ _ i (by decide) (by omega),
    getLsbD_putField_other 15 _ _ i (by decide) (by omega)]

/-! ### The drain (R255) -/

/-- One quadword put, marker `pos1` moved. -/
def drainOne (q : QWord) (k : Nat) (s : State) : State :=
  setPos1 (BitVec.ofNat 32 (k + 1)) ((s.setFifoOut (s.unit.fifoOut ++ [q])).setCtrl (putOFC (s.ofc + 1) s.unit.ctrl))

/-- The state after the quadwords `k`, … , `k + n - 1` were put. -/
def drained (qw : Nat → QWord) : Nat → Nat → State → State
  | 0, _, s => s
  | n + 1, k, s => drained qw n (k + 1) (drainOne (qw k) k s)

theorem drainOne_ofc (q : QWord) (k : Nat) (s : State) : (drainOne q k s).ofc = s.ofc + 1 := by
  simp [drainOne, setPos1, State.ofc]

/-- All that a drain does: it puts what there is room for, and goes on where that is all. -/
theorem drainLoop_spec (qw : Nat → QWord) (n k : Nat) (s : State) :
    (s.ofc.toNat + n ≤ s.cfg.fifoOutCap.toNat ∨ n = 0 → drainLoop qw n k s = .go (drained qw n k s)) ∧
      (∀ r, r < n → s.ofc.toNat + r = s.cfg.fifoOutCap.toNat → drainLoop qw n k s = .stop (drained qw r k s)) := by
  induction n generalizing k s with
  | zero => exact ⟨fun _ => rfl, fun r hr => absurd hr (Nat.not_lt_zero r)⟩
  | succ n ih =>
    have hput : s.ofc.toNat < s.cfg.fifoOutCap.toNat →
        drainLoop qw (n + 1) k s = drainLoop qw n (k + 1) (drainOne (qw k) k s) ∧
          (drainOne (qw k) k s).ofc.toNat = s.ofc.toNat + 1 := by
      intro h
      have h' : s.ofc < s.cfg.fifoOutCap := h
      refine ⟨?_, by rw [drainOne_ofc]; exact toNat_succ_of_lt h'⟩
      conv_lhs => unfold drainLoop outPut
      rw [if_pos h']
      rfl
    obtain ⟨ih1, ih2⟩ := ih (k + 1) (drainOne (qw k) k s)
    constructor
    · intro h
      obtain ⟨e, ho⟩ := hput (by omega)
      rw [e, ih1 (.inl (by rw [ho]; show _ ≤ s.cfg.fifoOutCap.toNat; omega))]
      rfl
    · intro r hr hcap
      cases r with
      | zero =>
        have h' : ¬ s.ofc < s.cfg.fifoOutCap := by
          intro h
          have : s.ofc.toNat < s.cfg.fifoOutCap.toNat := h
          omega
        unfold drainLoop outPut
        rw [if_neg h']
        rfl
      | succ r =>
        obtain ⟨e, ho⟩ := hput (by omega)
        rw [e, ih2 r (by omega) (by rw [ho]; show _ = s.cfg.fifoOutCap.toNat; omega)]
        rfl

/-- What is left alone by a drain, and what it changes. -/
theorem drained_spec (qw : Nat → QWord) (n k : Nat) (s : State) :
    (drained qw n k s).unit.fifoOut = s.unit.fifoOut ++ (List.range n).map (fun j => qw (k + j)) ∧
      (drained qw n k s).unit.cmd =
        { s.unit.cmd with pos1 := if n = 0 then s.unit.cmd.pos1 else BitVec.ofNat 32 (k + n) } ∧
      (s.ofc.toNat + n ≤ 15 → (drained qw n k s).ofc.toNat = s.ofc.toNat + n) ∧
      (∀ i, i < 4 ∨ 8 ≤ i → (drained qw n k s).unit.ctrl.getLsbD i = s.unit.ctrl.getLsbD i) ∧
      drained qw n k s = { s with unit := { s.unit with
        fifoOut := (drained qw n k s).unit.fifoOut, ctrl := (drained qw n k s).unit.ctrl
        cmd := (drained qw n k s).unit.cmd } } := by
  induction n generalizing k s with
  | zero => exact ⟨by simp [drained], rfl, fun _ => rfl, fun _ _ => rfl, rfl⟩
  | succ n ih =>
    obtain ⟨h1, h2, h3, h4, h5⟩ := ih (k + 1) (drainOne (qw k) k s)
    have e : drained qw (n + 1) k s = drained qw n (k + 1) (drainOne (qw k) k s) := rfl
    refine ⟨?_, ?_, ?_, ?_, ?_⟩
    · have f : (drainOne (qw k) k s).unit.fifoOut = s.unit.fifoOut ++ [qw k] := rfl
      have g : ∀ j, qw (k + 1 + j) = qw (k + (j + 1)) := fun j => by rw [Nat.add_assoc, Nat.add_comm 1 j]
      rw [e, h1, f, List.append_assoc, List.range_succ_eq_map, List.map_cons, List.map_map]
      simp only [g]
      rfl
    · rw [e, h2]
      have f : (drainOne (qw k) k s).unit.cmd = { s.unit.cmd with pos1 := BitVec.ofNat 32 (k + 1) } := rfl
      rw [f]
      simp only [Nat.succ_ne_zero, if_false]
      by_cases h : n = 0
      · rw [if_pos h, h]
      · rw [if_neg h, show k + 1 + n = k + (n + 1) by omega]
    · intro h
      have f : (drainOne (qw k) k s).ofc.toNat = s.ofc.toNat + 1 := by
        rw [drainOne_ofc, BitVec.toNat_add]
        simp
        omega
      rw [e, h3 (by omega), f]
      omega
    · intro i hi
      rw [e, h4 i hi]
      exact getLsbD_putField_other 4 _ _ i (by decide) (by omega)
    · rw [e]
      exact h5.trans rfl

/-! ### Byte input (R257) -/

/-- The state with the input side (cursor, input FIFO, `ctrl`) of another. -/
def withInput (u s : State) : State :=
  { s with unit := { s.unit with cur := u.unit.cur, fifoIn := u.unit.fifoIn, ctrl := u.unit.ctrl } }

theorem InputOnly.eq_withInput {s t : State} (h : InputOnly s t) : t = withInput t s := h.1

/-- Storing a byte neither reads nor writes the input side. -/
structure StoreOk (store : Nat → Byte → State → State) : Prop where
  comm : ∀ k v u s, store k v (withInput u s) = withInput u (store k v s)
  input : ∀ k v s, withInput s (store k v s) = store k v s

/-- Store the bytes `vals 0`, … , `vals (n - 1)` at `k`, … , `k + n - 1`. -/
def storeFold (store : Nat → Byte → State → State) (vals : Nat → Byte) : Nat → Nat → State → State
  | 0, _, s => s
  | n + 1, k, s => store (k + n) (vals n) (storeFold store vals n k s)

theorem storeFold_comm {store : Nat → Byte → State → State} (h : StoreOk store) (vals : Nat → Byte) (n k : Nat)
    (u s : State) : storeFold store vals n k (withInput u s) = withInput u (storeFold store vals n k s) := by
  induction n with
  | zero => rfl
  | succ n ih => simp only [storeFold]; rw [ih, h.comm]

theorem storeFold_head {store : Nat → Byte → State → State} (vals : Nat → Byte) (n k : Nat) (s : State) :
    storeFold store vals (n + 1) k s = storeFold store (fun j => vals (j + 1)) n (k + 1) (store k (vals 0) s) := by
  induction n with
  | zero => rfl
  | succ n ih =>
    rw [storeFold, ih]
    simp only [storeFold]
    rw [show k + (n + 1) = k + 1 + n by omega]

theorem storeFold_congr {store : Nat → Byte → State → State} {vals vals' : Nat → Byte} (n k : Nat) (s : State)
    (h : ∀ j, j < n → vals j = vals' j) : storeFold store vals n k s = storeFold store vals' n k s := by
  induction n with
  | zero => rfl
  | succ n ih => simp only [storeFold]; rw [ih fun j hj => h j (by omega), h n (by omega)]

/-- All that reading bytes does: it stores as many as the stream holds, and goes on where that is all. -/
theorem byteLoop_spec {store : Nat → Byte → State → State} (h : StoreOk store) (n k : Nat) (s : State)
    (hc : InputCounted s) :
    ∃ m u, m = min n (totalAvail s / 8) ∧ InputOnly s u ∧ InputCounted u ∧ Consumed (8 * m) s u ∧
      byteLoop store n k s = (if m = n then Flow.go (withInput u (storeFold store (aheadByte s) m k s))
        else Flow.stop (withInput u (storeFold store (aheadByte s) m k s))) := by
  induction n generalizing k s with
  | zero => exact ⟨0, s, by simp, InputOnly.refl s, hc, Consumed.zero s s (SameStream.refl s), rfl⟩
  | succ n ih =>
    rcases readBits_spec 8 s (by decide) (by decide) hc with ⟨hl, t, ht, t1, t2, t3⟩ | ⟨hl, t, ht, t1, t2, t3⟩
    · refine ⟨0, t, by omega, t1, t2, Consumed.zero s t t3, ?_⟩
      unfold byteLoop
      rw [ht, if_neg (by omega)]
      show Flow.stop t = Flow.stop (withInput t s)
      rw [← t1.eq_withInput]
    · have hv : (BitVec.ofNat 32 (aheadValue s 0 8)).setWidth 8 = aheadByte s 0 := by
        unfold aheadByte
        rw [BitVec.setWidth_ofNat_of_le (by decide)]
      have hst : store k (aheadByte s 0) t = withInput t (store k (aheadByte s 0) s) := by
        rw [← h.comm, ← t1.eq_withInput]
      obtain ⟨m, u, hm, u1, u2, u3, u4⟩ := ih (k + 1) (store k (aheadByte s 0) t) (by rw [hst]; exact t2)
      rw [hst] at hm u1 u3 u4
      have hT : totalAvail (withInput t (store k (aheadByte s 0) s)) = totalAvail t := rfl
      have hta := t3.1
      rw [hT] at hm
      have hcons : Consumed (8 * m) t u := u3
      have huse : InputOnly s (withInput u s) := ⟨rfl, fun i hi => (u1.2 i hi).trans (t1.2 i hi)⟩
      refine ⟨m + 1, withInput u s, by omega, huse, u2, ?_, ?_⟩
      · rw [show 8 * (m + 1) = 8 + 8 * m by omega]
        exact (t3.trans hcons : Consumed (8 + 8 * m) s u)
      · have hfold : withInput u (storeFold store (aheadByte (withInput t (store k (aheadByte s 0) s))) m (k + 1)
            (withInput t (store k (aheadByte s 0) s))) =
            withInput (withInput u s) (storeFold store (aheadByte s) (m + 1) k s) := by
          rw [storeFold_head, storeFold_comm h]
          show withInput u (storeFold store _ m (k + 1) (store k (aheadByte s 0) s)) = withInput u _
          rw [storeFold_congr m (k + 1) _ fun j hj => ?_]
          unfold aheadByte
          have := aheadValue_consumed t3 (8 * j) 8 (by omega)
          show BitVec.ofNat 8 (aheadValue t (8 * j) 8) = _
          rw [this, show 8 * (j + 1) = 8 + 8 * j by omega]
        unfold byteLoop
        rw [ht]
        dsimp only
        rw [hv, hst, u4, hfold]
        simp only [Nat.add_right_cancel_iff]

/-! ### Tables and buffers filled byte by byte -/

/-- Entries `k`, … , `k + n - 1` of a table of bytes replaced. -/
def vecFill {len : Nat} (vals : Nat → Byte) : Nat → Nat → Vector Byte len → Vector Byte len
  | 0, _, v => v
  | n + 1, k, v => (vecFill vals n k v).setIfInBounds (k + n) (vals n)

theorem vec_getD_eq {α : Type} {len : Nat} (v : Vector α len) (i : Nat) (d : α) (hi : i < len) : v.getD i d = v[i] := by
  show v.toArray.getD i d = _
  unfold Array.getD
  rw [dif_pos (by simpa using hi)]
  rfl

theorem vec_getD_set {α : Type} {len : Nat} (v : Vector α len) (k i : Nat) (x d : α) (hi : i < len) :
    (v.setIfInBounds k x).getD i d = if k = i then x else v.getD i d := by
  rw [vec_getD_eq _ _ _ hi, vec_getD_eq _ _ _ hi, Vector.getElem_setIfInBounds hi]

theorem vecFill_getD {len : Nat} (vals : Nat → Byte) (n k : Nat) (v : Vector Byte len) (i : Nat) (hi : i < len) :
    (vecFill vals n k v).getD i 0 = if k ≤ i ∧ i < k + n then vals (i - k) else v.getD i 0 := by
  induction n with
  | zero => rw [if_neg (by omega)]; rfl
  | succ n ih =>
    have step : (vecFill vals (n + 1) k v).getD i 0 = if k + n = i then vals n else (vecFill vals n k v).getD i 0 := by
      exact vec_getD_set _ _ _ _ _ hi
    rw [step, ih]
    by_cases h : k + n = i
    · rw [if_pos h, if_pos (by omega), show i - k = n by omega]
    · rw [if_neg h]
      by_cases h' : k ≤ i ∧ i < k + n
      · rw [if_pos h', if_pos (by omega)]
      · rw [if_neg h', if_neg (by omega)]

/-- Storing neither reads nor writes the input side. -/
theorem storeIq_ok (iqm : Bool) : StoreOk (storeIq iqm) where
  comm k v u s := by cases iqm <;> rfl
  input k v s := by cases iqm <;> rfl

theorem storeVq_ok : StoreOk storeVq where
  comm _ _ _ _ := rfl
  input _ _ _ := rfl

/-- The store of `readBytes`: the byte, then the marker. -/
theorem marked_ok {store : Nat → Byte → State → State} (h : StoreOk store) :
    StoreOk (fun k v s => setPos1 (BitVec.ofNat 32 (k + 1)) (store k v s)) where
  comm k v u s := by
    show setPos1 _ (store k v (withInput u s)) = _
    rw [h.comm]
    rfl
  input k v s := by
    have := h.input k v s
    show withInput s (setPos1 _ (store k v s)) = setPos1 _ (store k v s)
    conv_rhs => rw [← this]
    rfl

theorem storeRaw_ok : StoreOk storeRaw where
  comm _ _ _ _ := rfl
  input _ _ _ := rfl

theorem storePixel_ok : StoreOk storePixel where
  comm _ _ _ _ := rfl
  input _ _ _ := rfl

/-- SETIQ's stores: the one table, entry by entry. -/
theorem storeFold_iq (iqm : Bool) (vals : Nat → Byte) (n k : Nat) (s : State) :
    storeFold (storeIq iqm) vals n k s = if iqm then s.setIqNonIntra (vecFill vals n k s.unit.iqNonIntra)
      else s.setIqIntra (vecFill vals n k s.unit.iqIntra) := by
  induction n with
  | zero => cases iqm <;> rfl
  | succ n ih => simp only [storeFold]; rw [ih]; cases iqm <;> rfl

/-- CSC's stores: `mb.raw`, entry by entry, and the marker. -/
theorem storeFold_raw (vals : Nat → Byte) (n k : Nat) (s : State) :
    storeFold (fun k v s => setPos1 (BitVec.ofNat 32 (k + 1)) (storeRaw k v s)) vals n k s =
      (s.setMb { s.unit.mb with raw := vecFill vals n k s.unit.mb.raw }).setCmd
        { s.unit.cmd with pos1 := if n = 0 then s.unit.cmd.pos1 else BitVec.ofNat 32 (k + n) } := by
  induction n with
  | zero => rfl
  | succ n ih =>
    simp only [storeFold]
    rw [ih]
    rfl

/-- Bytes `0`, … , `n - 1` of the colour table replaced (R246). -/
def vqFill (vals : Nat → Byte) : Nat → Vector (BitVec 16) 16 → Vector (BitVec 16) 16
  | 0, v => v
  | n + 1, v =>
    let w := vqFill vals n v
    let e := w.getD (n / 2) 0
    w.setIfInBounds (n / 2) (if n % 2 = 0 then e.extractLsb' 8 8 ++ vals n else vals n ++ e.extractLsb' 0 8)

/-- SETVQ's stores. -/
theorem storeFold_vq (vals : Nat → Byte) (n : Nat) (s : State) :
    storeFold storeVq vals n 0 s = s.setVqclut (vqFill vals n s.unit.vqclut) := by
  induction n with
  | zero => rfl
  | succ n ih =>
    simp only [storeFold]
    rw [ih, Nat.zero_add]
    rfl

theorem extractLow_append (a b : Byte) : (a ++ b : BitVec 16).extractLsb' 0 8 = b := by
  ext i hi
  rw [BitVec.getElem_extractLsb', Nat.zero_add]
  refine (BitVec.getLsbD_append (x := a) (y := b)).trans ?_
  rw [if_pos hi, BitVec.getLsbD_eq_getElem hi]

theorem extractHigh_append (a b : Byte) : (a ++ b : BitVec 16).extractLsb' 8 8 = a := by
  ext i hi
  rw [BitVec.getElem_extractLsb']
  refine (BitVec.getLsbD_append (x := a) (y := b)).trans ?_
  rw [if_neg (by omega), show 8 + i - 8 = i by omega, BitVec.getLsbD_eq_getElem hi]

/-- The two bytes of an entry: low byte first. -/
theorem vqFill_getD (vals : Nat → Byte) (n : Nat) (v : Vector (BitVec 16) 16) (e : Nat) (he : e < 16) :
    ((vqFill vals n v).getD e 0).extractLsb' 0 8 =
        (if 2 * e < n then vals (2 * e) else (v.getD e 0).extractLsb' 0 8) ∧
      ((vqFill vals n v).getD e 0).extractLsb' 8 8 =
        (if 2 * e + 1 < n then vals (2 * e + 1) else (v.getD e 0).extractLsb' 8 8) := by
  induction n with
  | zero => exact ⟨by rw [if_neg (by omega)]; rfl, by rw [if_neg (by omega)]; rfl⟩
  | succ n ih =>
    unfold vqFill
    dsimp only
    rw [vec_getD_set _ _ _ _ _ he]
    by_cases h : n / 2 = e
    · rw [if_pos h]
      subst h
      rcases Nat.mod_two_eq_zero_or_one n with h0 | h1
      · rw [if_pos h0, extractLow_append, extractHigh_append, ih.2, if_pos (by omega), if_neg (by omega), if_neg (by omega)]
        exact ⟨by rw [show 2 * (n / 2) = n by omega], rfl⟩
      · rw [if_neg (by omega), extractLow_append, extractHigh_append, ih.1, if_pos (by omega), if_pos (by omega),
          if_pos (by omega)]
        exact ⟨rfl, by rw [show 2 * (n / 2) + 1 = n by omega]⟩
    · rw [if_neg h, ih.1, ih.2]
      refine ⟨?_, ?_⟩
      · by_cases g : 2 * e < n
        · rw [if_pos g, if_pos (by omega)]
        · rw [if_neg g, if_neg (by omega)]
      · by_cases g : 2 * e + 1 < n
        · rw [if_pos g, if_pos (by omega)]
        · rw [if_neg g, if_neg (by omega)]

/-- Bytes `k`, … , `k + n - 1` of an RGB32 macroblock replaced (R248). -/
def pixelFill (vals : Nat → Byte) : Nat → Nat → Vector Pixel 256 → Vector Pixel 256
  | 0, _, v => v
  | n + 1, k, v =>
    let w := pixelFill vals n k v
    w.setIfInBounds ((k + n) / 4) ((flatPixel w ((k + n) / 4)).putChannel (vals n) ((k + n) % 4))

/-- PACK's stores: `mb.rgb32`, channel by channel, and the marker. -/
theorem storeFold_pixel (vals : Nat → Byte) (n k : Nat) (s : State) :
    storeFold (fun k v s => setPos1 (BitVec.ofNat 32 (k + 1)) (storePixel k v s)) vals n k s =
      (s.setMb { s.unit.mb with rgb32 := pixelFill vals n k s.unit.mb.rgb32 }).setCmd
        { s.unit.cmd with pos1 := if n = 0 then s.unit.cmd.pos1 else BitVec.ofNat 32 (k + n) } := by
  induction n with
  | zero => rfl
  | succ n ih =>
    simp only [storeFold]
    rw [ih]
    rfl

theorem channel_putChannel (p : Pixel) (v : Byte) (c d : Nat) (hc : c < 4) (hd : d < 4) :
    (p.putChannel v c).channel d = if c = d then v else p.channel d := by
  match c, d, hc, hd with
  | 0, 0, _, _ | 0, 1, _, _ | 0, 2, _, _ | 0, 3, _, _ => rfl
  | 1, 0, _, _ | 1, 1, _, _ | 1, 2, _, _ | 1, 3, _, _ => rfl
  | 2, 0, _, _ | 2, 1, _, _ | 2, 2, _, _ | 2, 3, _, _ => rfl
  | 3, 0, _, _ | 3, 1, _, _ | 3, 2, _, _ | 3, 3, _, _ => rfl

/-- The channels after PACK's stores (`44_color_space_converter.md` R302). -/
theorem pixelFill_channel (vals : Nat → Byte) (n k : Nat) (v : Vector Pixel 256) (i : Nat) (hi : i < 1024) :
    (flatPixel (pixelFill vals n k v) (i / 4)).channel (i % 4) =
      if k ≤ i ∧ i < k + n then vals (i - k) else (flatPixel v (i / 4)).channel (i % 4) := by
  induction n with
  | zero => rw [if_neg (by omega)]; rfl
  | succ n ih =>
    have step : flatPixel (pixelFill vals (n + 1) k v) (i / 4) =
        if (k + n) / 4 = i / 4 then (flatPixel (pixelFill vals n k v) ((k + n) / 4)).putChannel (vals n) ((k + n) % 4)
        else flatPixel (pixelFill vals n k v) (i / 4) := vec_getD_set _ _ _ _ _ (by omega)
    rw [step]
    by_cases h : (k + n) / 4 = i / 4
    · rw [if_pos h, h, channel_putChannel _ _ _ _ (Nat.mod_lt _ (by decide)) (Nat.mod_lt _ (by decide)), ih]
      by_cases g : (k + n) % 4 = i % 4
      · rw [if_pos g, if_pos (by omega), show i - k = n by omega]
      · rw [if_neg g]
        by_cases g' : k ≤ i ∧ i < k + n
        · rw [if_pos g', if_pos (by omega)]
        · rw [if_neg g', if_neg (by omega)]
    · rw [if_neg h, ih]
      by_cases g' : k ≤ i ∧ i < k + n
      · rw [if_pos g', if_pos (by omega)]
      · rw [if_neg g', if_neg (by omega)]

end Sys2Proof.Machine
end

