-- ==== Sys2Proof/Laws/Memory.lean ====
section
/-! SUPPORT. Host memory: reading after writing, and the canonical form every memory operation keeps. -/

namespace Sys2Proof.Machine

@[simp] theorem Memory.read_cons (a : Nat) (b : Byte) (m : List Host.Cell) (x : Nat)
    (h : Memory.read m a = memUnlisted) : Memory.read (Memory.cons a b m) x = if x = a then b else Memory.read m x := by
  unfold Memory.cons
  by_cases hb : b = memUnlisted
  · rw [if_pos hb]
    by_cases hx : x = a
    · rw [if_pos hx, hx, h, hb]
    · rw [if_neg hx]
  · rw [if_neg hb]
    by_cases hx : x = a
    · simp [Memory.read, hx]
    · simp [Memory.read, hx, Ne.symm hx]

/-- An address below every listed one reads as unlisted. -/
theorem Memory.read_of_below (m : List Host.Cell) (a : Nat) (h : ∀ c ∈ m, a < c.1) : Memory.read m a = memUnlisted := by
  induction m with
  | nil => rfl
  | cons c m ih =>
    have h1 := h c (by simp)
    have h2 : c.1 ≠ a := by omega
    simp only [Memory.read, if_neg h2]
    exact ih fun d hd => h d (by simp [hd])

/-- A read after a write, in a memory whose addresses rise. -/
theorem Memory.read_write (a : Nat) (b : Byte) (m : List Host.Cell) (h : m.Pairwise (fun x y => x.1 < y.1)) (x : Nat) :
    Memory.read (Memory.write a b m) x = if x = a then b else Memory.read m x := by
  induction m with
  | nil => exact Memory.read_cons a b [] x rfl
  | cons c m ih =>
    obtain ⟨k, v⟩ := c
    rw [List.pairwise_cons] at h
    unfold Memory.write
    by_cases h1 : a < k
    · rw [if_pos h1]
      refine Memory.read_cons a b _ x (Memory.read_of_below _ a ?_)
      intro c hc
      rcases List.mem_cons.mp hc with rfl | hc
      · exact h1
      · exact lt_trans h1 (h.1 c hc)
    · rw [if_neg h1]
      by_cases h2 : a = k
      · subst h2
        rw [if_pos rfl, Memory.read_cons a b m x (Memory.read_of_below m a h.1)]
        by_cases hx : x = a
        · simp [hx]
        · simp [hx, Memory.read, Ne.symm hx]
      · rw [if_neg h2]
        simp only [Memory.read]
        by_cases hk : k = x
        · have : x ≠ a := by omega
          simp [hk, this]
        · rw [if_neg hk, if_neg hk]
          exact ih h.2

/-- The addresses of a memory after a write are the address written and old ones. -/
theorem Memory.mem_write (a : Nat) (b : Byte) (m : List Host.Cell) (c : Host.Cell) (h : c ∈ Memory.write a b m) :
    c = (a, b) ∧ b ≠ memUnlisted ∨ c ∈ m := by
  induction m with
  | nil =>
    unfold Memory.write Memory.cons at h
    split at h
    · simp at h
    · simp at h; exact .inl ⟨h, by assumption⟩
  | cons d m ih =>
    obtain ⟨k, v⟩ := d
    unfold Memory.write Memory.cons at h
    split at h
    · split at h
      · exact .inr h
      · rcases List.mem_cons.mp h with h | h
        · exact .inl ⟨h, by assumption⟩
        · exact .inr h
    · split at h
      · split at h
        · exact .inr (by simp [h])
        · rcases List.mem_cons.mp h with h | h
          · exact .inl ⟨h, by assumption⟩
          · exact .inr (by simp [h])
      · rcases List.mem_cons.mp h with h | h
        · exact .inr (by simp [h])
        · rcases ih h with h | h
          · exact .inl h
          · exact .inr (by simp [h])

/-- A write keeps the canonical form. -/
theorem Memory.wf_write (a : Nat) (b : Byte) (m : List Host.Cell) (ha : a < 2 ^ 32) (h : Memory.wf m) :
    Memory.wf (Memory.write a b m) := by
  refine ⟨?_, fun c hc => ?_⟩
  · obtain ⟨hp, -⟩ := h
    induction m with
    | nil => unfold Memory.write Memory.cons; split <;> simp
    | cons d m ih =>
      obtain ⟨k, v⟩ := d
      rw [List.pairwise_cons] at hp
      unfold Memory.write Memory.cons
      split
      · split
        · exact List.pairwise_cons.mpr hp
        · refine List.pairwise_cons.mpr ⟨?_, List.pairwise_cons.mpr hp⟩
          intro c hc
          rcases List.mem_cons.mp hc with rfl | hc
          · assumption
          · exact lt_trans (by assumption) (hp.1 c hc)
      · split
        · split
          · exact hp.2
          · rename_i h1 h2 h3
            exact List.pairwise_cons.mpr ⟨fun c hc => h2 ▸ hp.1 c hc, hp.2⟩
        · refine List.pairwise_cons.mpr ⟨fun c hc => ?_, ih hp.2⟩
          rcases Memory.mem_write a b m c hc with ⟨rfl, -⟩ | hc
          · show k < a
            omega
          · exact hp.1 c hc
  · rcases Memory.mem_write a b m c hc with ⟨rfl, hb⟩ | hc
    · exact ⟨ha, hb⟩
    · exact h.2 c hc

/-- A store of bytes keeps the canonical form. -/
theorem Memory.wf_writeBytes (addr : Addr) (bs : List Byte) (m : List Host.Cell) (h : Memory.wf m) :
    Memory.wf (Memory.writeBytes addr bs m) := by
  induction bs generalizing addr m with
  | nil => exact h
  | cons b bs ih => exact ih _ _ (Memory.wf_write _ _ _ addr.isLt h)

/-- A store of a quadword keeps the canonical form. -/
theorem Memory.wf_writeQW (addr : Addr) (q : QWord) (m : List Host.Cell) (h : Memory.wf m) :
    Memory.wf (Memory.writeQW addr q m) := Memory.wf_writeBytes _ _ _ h

/-- A store of bytes leaves every address it does not reach alone. -/
theorem Memory.read_writeBytes_other (addr : Addr) (bs : List Byte) (m : List Host.Cell) (h : Memory.wf m) (x : Nat)
    (hx : ∀ k, k < bs.length → x ≠ (addr + BitVec.ofNat 32 k).toNat) :
    Memory.read (Memory.writeBytes addr bs m) x = Memory.read m x := by
  induction bs generalizing addr m with
  | nil => rfl
  | cons b bs ih =>
    have h0 : x ≠ addr.toNat := by simpa using hx 0 (by simp)
    simp only [Memory.writeBytes]
    rw [ih (addr + 1) _ (Memory.wf_write _ _ _ addr.isLt h) ?_, Memory.read_write _ _ _ h.1, if_neg h0]
    intro k hk
    have := hx (k + 1) (by simpa using hk)
    rwa [show addr + BitVec.ofNat 32 (k + 1) = addr + 1 + BitVec.ofNat 32 k by
      rw [Nat.add_comm k 1, BitVec.ofNat_add, BitVec.add_assoc]; rfl] at this

/-- A store of at most `2^32` bytes is read back. -/
theorem Memory.read_writeBytes_same (addr : Addr) (bs : List Byte) (m : List Host.Cell) (h : Memory.wf m)
    (hl : bs.length ≤ 2 ^ 32) (k : Nat) (hk : k < bs.length) :
    Memory.read (Memory.writeBytes addr bs m) (addr + BitVec.ofNat 32 k).toNat = bs[k] := by
  induction bs generalizing addr m k with
  | nil => simp at hk
  | cons b bs ih =>
    have hw := Memory.wf_write addr.toNat b m addr.isLt h
    simp only [Memory.writeBytes]
    cases k with
    | zero =>
      rw [Memory.read_writeBytes_other _ _ _ hw _ ?_, Memory.read_write _ _ _ h.1]
      · simp
      · intro j hj
        simp only [List.length_cons] at hl
        simp only [BitVec.toNat_add, BitVec.toNat_ofNat]
        have := addr.isLt
        have h1 : (1 : BitVec 32).toNat = 1 := rfl
        rw [h1]
        omega
    | succ k =>
      have := ih (addr + 1) _ hw (by simp at hl; omega) k (by simpa using hk)
      rw [show addr + BitVec.ofNat 32 (k + 1) = addr + 1 + BitVec.ofNat 32 k by
        rw [Nat.add_comm k 1, BitVec.ofNat_add, BitVec.add_assoc]; rfl]
      simpa using this

/-! ### Runs of quadwords -/

theorem Memory.writeBytes_append (addr : Addr) (as bs : List Byte) (m : List Host.Cell) :
    Memory.writeBytes addr (as ++ bs) m =
      Memory.writeBytes (addr + BitVec.ofNat 32 as.length) bs (Memory.writeBytes addr as m) := by
  induction as generalizing addr m with
  | nil => simp [Memory.writeBytes]
  | cons a as ih =>
    simp only [List.cons_append, Memory.writeBytes, ih, List.length_cons]
    rw [show addr + BitVec.ofNat 32 (as.length + 1) = addr + 1 + BitVec.ofNat 32 as.length by
      rw [Nat.add_comm _ 1, BitVec.ofNat_add, BitVec.add_assoc]; rfl]

/-- The bytes of quadwords in order. -/
def qwBytes (qs : List QWord) : List Byte := qs.flatMap fun q => (List.range 16).map (qwByte q)

theorem qwBytes_length (qs : List QWord) : (qwBytes qs).length = 16 * qs.length := by
  induction qs with
  | nil => rfl
  | cons q qs ih =>
    unfold qwBytes at *
    rw [List.flatMap_cons, List.length_append, ih]
    simp
    omega

theorem qwBytes_get (qs : List QWord) (k : Nat) (hk : k < (qwBytes qs).length) :
    (qwBytes qs)[k] = qwByte (qs.getD (k / 16) 0) (k % 16) := by
  induction qs generalizing k with
  | nil => simp [qwBytes] at hk
  | cons q qs ih =>
    have e : qwBytes (q :: qs) = (List.range 16).map (qwByte q) ++ qwBytes qs := by simp [qwBytes]
    simp only [e]
    by_cases h : k < 16
    · rw [List.getElem_append_left (by simpa using h)]
      have h1 : k / 16 = 0 := by omega
      have h2 : k % 16 = k := by omega
      simp [h1, h2]
    · rw [List.getElem_append_right (by simpa using h)]
      have hl : ((List.range 16).map (qwByte q)).length = 16 := by simp
      simp only [hl]
      rw [ih (k - 16) (by
        rw [qwBytes_length] at hk ⊢
        simp at hk
        omega)]
      have h1 : k / 16 = (k - 16) / 16 + 1 := by omega
      have h2 : k % 16 = (k - 16) % 16 := by omega
      rw [h1, h2]
      rfl

end Sys2Proof.Machine
end

