-- ==== Sys2Proof/Laws/Moves.lean ====
section
/-! SUPPORT. What running a command can do, said once: every step of every command is a chain of the elementary changes of
`Move`, and where it completes, `complete` after them (`43_command_dispatcher.md`). -/

namespace Sys2Proof.Machine

/-- One elementary change a command in flight makes. `lib` says whether the command is one with a library session. -/
inductive Move (lib : Bool) : State → State → Prop where
  | markers (s : State) (p0 p1 ix : Word) : Move lib s (s.setCmd { s.unit.cmd with pos0 := p0, pos1 := p1, index := ix })
  | take {s t : State} {q : QWord} : inTake s = some (q, t) → Move lib s t
  | cursor (s : State) (c : Cursor) : c.hasNew = s.unit.cur.hasNew → Move lib s (s.setCur c)
  | put {s t : State} {q : QWord} : outPut q s = some t → Move lib s t
  | buffer (s : State) (v : MacroblockBuffer) : Move lib s (s.setMb v)
  | word (s : State) (v : Word) : Move lib s (s.setCmdData v)
  | iqIntra (s : State) (v : Vector Byte 64) : Move lib s (s.setIqIntra v)
  | iqNonIntra (s : State) (v : Vector Byte 64) : Move lib s (s.setIqNonIntra v)
  | vqclut (s : State) (v : Vector (BitVec 16) 16) : Move lib s (s.setVqclut v)
  | thresholds (s : State) (v0 v1 : BitVec 9) : Move lib s (s.setTh v0 v1)
  | session (s : State) (ses : LibSession) : lib = true → Move lib s (s.setLib (some ses))
  | report (s : State) (res : LibResult) : lib = true → Move lib s (applyDone res s)

/-- A chain of elementary changes. -/
abbrev Moves (lib : Bool) : State → State → Prop := Relation.ReflTransGen (Move lib)

theorem Move.chain {lib : Bool} {s t : State} (h : Move lib s t) : Moves lib s t := .single h

/-- A relation that every elementary change respects holds along a chain. -/
theorem Moves.induct {lib : Bool} {s t : State} (P : State → Prop) (h : Moves lib s t)
    (hstep : ∀ u v, Move lib u v → P u → P v) (hs : P s) : P t := by
  induction h with
  | refl => exact hs
  | tail _ hm ih => exact hstep _ _ hm ih

/-- Every state a part of a step can end in is reached by elementary changes, or completes after them. -/
def Flow.Within (lib : Bool) (s : State) : Flow → Prop
  | .go t => Moves lib s t
  | .stop t => Moves lib s t ∨ ∃ u, Moves lib s u ∧ t = complete u
  | .more t => Moves lib s t
  | .fault _ => True
  | .refused _ => True

theorem Flow.Within.mono {lib : Bool} {s t : State} {f : Flow} (h : Moves lib s t) (g : f.Within lib t) :
    f.Within lib s := by
  cases f with
  | go _ => exact h.trans g
  | more _ => exact h.trans g
  | stop _ =>
    rcases g with g | ⟨u, g, e⟩
    · exact .inl (h.trans g)
    · exact .inr ⟨u, h.trans g, e⟩
  | fault _ => trivial
  | refused _ => trivial

theorem Flow.Within.bind {lib : Bool} {s : State} {f : Flow} {g : State → Flow} (h : f.Within lib s)
    (hg : ∀ t, (g t).Within lib t) : (f.bind g).Within lib s := by
  cases f with
  | go t => exact (hg t).mono h
  | more _ => exact h
  | stop _ => exact h
  | fault _ => trivial
  | refused _ => trivial

/-- The same for an operation of the cursor. -/
def Take.Within (lib : Bool) (s : State) {α : Type} : Take α → Prop
  | .ok _ t => Moves lib s t
  | .short t => Moves lib s t
  | .bad => True

/-- The same for a served request. -/
def Served.Within (lib : Bool) (s : State) : Served → Prop
  | .reply _ t => Moves lib s t
  | .wait t => Moves lib s t
  | .fault _ => True
  | .refused _ => True

/-! ### The cursor -/

section
variable (lib : Bool)

theorem pullLoop_moves (want n : Nat) (s : State) : Moves lib s (pullLoop want n s) := by
  induction n generalizing s with
  | zero => exact .refl
  | succ n ih =>
    unfold pullLoop
    split
    · cases h : inTake s with
      | none => exact .refl
      | some x =>
        exact ((Move.take h).chain.tail (.cursor x.2 (x.2.unit.cur.addQWord x.1) rfl)).trans (ih _)
    · exact .refl

theorem snapIfc_moves (s : State) : Moves lib s (snapIfc s) :=
  (Move.cursor s { s.unit.cur with ifcSnap := s.ifc } rfl).chain

theorem pull_moves (want : Nat) (s : State) : Moves lib s (pull want s) :=
  (pullLoop_moves lib want _ s).trans (snapIfc_moves lib _)

theorem advanceSnap_moves (n : Nat) (s : State) : Moves lib s (advanceSnap n s) :=
  (Move.cursor s (s.unit.cur.advance n) (dropSlots_hasNew _ _)).chain.trans (snapIfc_moves lib _)

theorem readBits_within (w : Nat) (s : State) : (readBits w s).Within lib s := by
  unfold readBits
  split
  · dsimp only
    split
    · exact pull_moves lib w s
    · exact (pull_moves lib w s).trans (advanceSnap_moves lib w _)
  · trivial

theorem peekBits_within (w : Nat) (s : State) : (peekBits w s).Within lib s := by
  unfold peekBits
  split
  · dsimp only
    split
    · exact pull_moves lib w s
    · exact pull_moves lib w s
  · trivial

theorem skipBits_within (n : Nat) (s : State) : (skipBits n s).Within lib s := by
  unfold skipBits
  split
  · dsimp only
    split
    · exact pull_moves lib n s
    · exact (pull_moves lib n s).trans (advanceSnap_moves lib n _)
  · trivial

theorem alignByte_within (s : State) : (alignByte s).Within lib s := by
  unfold alignByte
  split
  · exact snapIfc_moves lib s
  · dsimp only
    split
    · exact pull_moves lib 1 s
    · exact (pull_moves lib 1 s).trans (advanceSnap_moves lib _ _)

theorem Take.Within.served {α : Type} {f : α → LibReply} {s : State} {x : Take α} (h : x.Within lib s) :
    (x.served f).Within lib s := by
  cases x <;> exact h

theorem serveCursor_within (req : LibRequest) (s : State) : (serveCursor req s).Within lib s := by
  cases req with
  | skip n => exact (skipBits_within lib n s).served
  | read n => exact (readBits_within lib n s).served
  | peek n => exact (peekBits_within lib n s).served
  | align => exact (alignByte_within lib s).served
  | refill hint bytes =>
    simp only [serveCursor, refill]
    split
    · rename_i n t h
      split at h
      · simp at h
      · simp only [Option.some.injEq, Prod.mk.injEq] at h
        obtain ⟨-, rfl⟩ := h
        exact pull_moves lib _ s
    · trivial
  | emitMB _ => trivial
  | emitCoef _ => trivial
  | done _ => trivial

/-! ### The parts of a step -/

theorem setPhase_moves (p0 p1 : Word) (s : State) : Moves lib s (setPhase p0 p1 s) := (Move.markers s p0 p1 _).chain

theorem setPos1_moves (p1 : Word) (s : State) : Moves lib s (setPos1 p1 s) := (Move.markers s _ p1 _).chain

theorem bumpIndex_moves (s : State) : Moves lib s (bumpIndex s) := (Move.markers s _ _ _).chain

theorem fbPhase_within (fb : BitVec 6) (s : State) : (fbPhase fb s).Within lib s := by
  unfold fbPhase
  split
  · have h := skipBits_within lib fb.toNat s
    cases hs : skipBits fb.toNat s with
    | ok _ t => rw [hs] at h; exact Relation.ReflTransGen.trans h (setPhase_moves lib 1 0 t)
    | short t => rw [hs] at h; exact .inl h
    | bad => trivial
  · exact .refl

theorem drainLoop_within (qw : Nat → QWord) (n k : Nat) (s : State) : (drainLoop qw n k s).Within lib s := by
  induction n generalizing k s with
  | zero => exact .refl
  | succ n ih =>
    unfold drainLoop
    cases h : outPut (qw k) s with
    | none => exact .inl .refl
    | some t => exact (ih _ _).mono ((Move.put h).chain.trans (setPos1_moves lib _ t))

theorem drain_within (total : Nat) (qw : Nat → QWord) (s : State) : (drain total qw s).Within lib s :=
  drainLoop_within lib qw _ _ s

theorem byteLoop_within (store : Nat → Byte → State → State) (hst : ∀ k v s, Moves lib s (store k v s)) (n k : Nat)
    (s : State) : (byteLoop store n k s).Within lib s := by
  induction n generalizing k s with
  | zero => exact .refl
  | succ n ih =>
    unfold byteLoop
    have h := readBits_within lib 8 s
    cases hr : readBits 8 s with
    | ok v t => rw [hr] at h; exact (ih _ _).mono (Relation.ReflTransGen.trans h (hst _ _ _))
    | short t => rw [hr] at h; exact .inl h
    | bad => trivial

theorem readBytes_within (total : Nat) (store : Nat → Byte → State → State)
    (hst : ∀ k v s, Moves lib s (store k v s)) (s : State) : (readBytes total store s).Within lib s :=
  byteLoop_within lib _ (fun k v s => (hst k v s).trans (setPos1_moves lib _ _)) _ _ s

theorem drainMb_within (fmt : Format) (dte : Bool) (s : State) : (drainMb fmt dte s).Within lib s :=
  drain_within lib _ _ s

theorem convertMb_moves (s : State) : Moves lib s (convertMb s) := (Move.buffer s _).chain

end

/-! ### Library sessions -/

theorem answer_moves (r : LibReply) (s : State) : Moves true s (answer r s) := by
  unfold answer
  split
  · exact (Move.session s _ rfl).chain
  · exact .refl

/-- The requests that are a command's own make elementary changes only. -/
structure SessionRules.Tame (r : SessionRules) : Prop where
  drainEmitted : ∀ s, (r.drainEmitted s).Within true s
  takeEmit : ∀ req s, (r.takeEmit req s).Within true s
  takeResult : ∀ res s, Moves true s (r.takeResult res s)

theorem sessionLoop_within {r : SessionRules} (hr : r.Tame) (n : Nat) (s : State) :
    (sessionLoop r n s).Within true s := by
  induction n generalizing s with
  | zero => exact .refl
  | succ n ih =>
    unfold sessionLoop
    split
    · exact (hr.drainEmitted s).bind ih
    · have hl : Moves true s (s.setLib (some (sessionOf r.command s))) := (Move.session s _ rfl).chain
      have serve (req : LibRequest) : Flow.Within true (s.setLib (some (sessionOf r.command s)))
          (match serveCursor req (s.setLib (some (sessionOf r.command s))) with
            | .reply a s' => sessionLoop r n (answer a s')
            | .wait s' => .stop s'
            | .fault f => .fault f
            | .refused x => .refused x) := by
        have h := serveCursor_within true req (s.setLib (some (sessionOf r.command s)))
        cases hq : serveCursor req (s.setLib (some (sessionOf r.command s))) with
        | reply a t => rw [hq] at h; exact (ih _).mono (Relation.ReflTransGen.trans h (answer_moves a t))
        | wait t => rw [hq] at h; exact .inl h
        | fault _ => trivial
        | refused _ => trivial
      dsimp only
      refine Flow.Within.mono hl ?_
      split
      · rename_i res _
        exact .inr ⟨_, (hr.takeResult res _).tail (.report _ res rfl), rfl⟩
      · exact (hr.takeEmit _ _).bind ih
      · exact (hr.takeEmit _ _).bind ih
      · exact serve _

theorem sessionStep_within {r : SessionRules} (hr : r.Tame) (fb : BitVec 6) (s : State) :
    (sessionStep fb r s).Within true s :=
  (fbPhase_within true fb s).bind (sessionLoop_within hr _)

theorem idecRules_tame (qsc : BitVec 5) (dtd sgn dte ofm : Bool) : (idecRules qsc dtd sgn dte ofm).Tame where
  drainEmitted s := (drainMb_within true _ _ s).bind fun t =>
    ((bumpIndex_moves true t).trans (setPhase_moves true 1 0 _)).trans (answer_moves _ _)
  takeEmit req s := by
    cases req with
    | emitMB raw => exact ((Move.buffer s _).chain.trans (convertMb_moves true _)).trans (setPhase_moves true 2 0 _)
    | align | skip | read | peek | refill | emitCoef | done => trivial
  takeResult _ _ := .refl

theorem bdecRules_tame (qsc : BitVec 5) (dt dcr mbi : Bool) : (bdecRules qsc dt dcr mbi).Tame where
  drainEmitted s := by
    simp only [bdecRules]
    split
    · exact (drain_within true _ _ s).bind fun t => (setPhase_moves true 1 0 t).trans (answer_moves _ _)
    · exact .inl .refl
  takeEmit req s := by
    cases req with
    | emitCoef c => exact setPhase_moves true 2 0 s
    | align | skip | read | peek | refill | emitMB | done => trivial
  takeResult _ _ := .refl

theorem vdecRules_tame (tbl : BitVec 2) : (vdecRules tbl).Tame where
  drainEmitted _ := .inl .refl
  takeEmit _ _ := trivial
  takeResult res s := (Move.word s res.data).chain

/-! ### The commands -/

theorem idecStep_within (fb : BitVec 6) (qsc : BitVec 5) (dtd sgn dte ofm : Bool) (s : State) :
    (idecStep fb qsc dtd sgn dte ofm s).Within true s := sessionStep_within (idecRules_tame _ _ _ _ _) fb s

theorem bdecStep_within (fb : BitVec 6) (qsc : BitVec 5) (dt dcr mbi : Bool) (s : State) :
    (bdecStep fb qsc dt dcr mbi s).Within true s := sessionStep_within (bdecRules_tame _ _ _ _) fb s

theorem vdecStep_within (fb : BitVec 6) (tbl : BitVec 2) (s : State) : (vdecStep fb tbl s).Within true s :=
  sessionStep_within (vdecRules_tame _) fb s

theorem fdecStep_within (lib : Bool) (fb : BitVec 6) (s : State) : (fdecStep fb s).Within lib s := by
  refine (fbPhase_within lib fb s).bind fun t => ?_
  have h := peekBits_within lib 32 t
  cases hp : peekBits 32 t with
  | ok v u => rw [hp] at h; exact .inr ⟨_, Relation.ReflTransGen.trans h (Move.word u v).chain, rfl⟩
  | short u => rw [hp] at h; exact .inl h
  | bad => trivial

theorem storeIq_moves (lib iqm : Bool) (k : Nat) (v : Byte) (s : State) : Moves lib s (storeIq iqm k v s) := by
  unfold storeIq
  split
  · exact (Move.iqNonIntra s _).chain
  · exact (Move.iqIntra s _).chain

theorem setiqStep_within (lib : Bool) (fb : BitVec 6) (iqm : Bool) (s : State) : (setiqStep fb iqm s).Within lib s := by
  unfold setiqStep
  dsimp only
  refine Flow.Within.mono (t := pull (fb.toNat + 512) s) (pull_moves lib _ s) ?_
  split
  · exact .inl .refl
  · have h := skipBits_within lib fb.toNat (pull (fb.toNat + 512) s)
    cases hs : skipBits fb.toNat (pull (fb.toNat + 512) s) with
    | ok _ t =>
      rw [hs] at h
      exact Flow.Within.mono h ((byteLoop_within lib _ (storeIq_moves lib iqm) 64 0 t).bind fun u => .inr ⟨u, .refl, rfl⟩)
    | short t => rw [hs] at h; exact .inl h
    | bad => trivial

theorem setvqStep_within (lib : Bool) (s : State) : (setvqStep s).Within lib s := by
  unfold setvqStep
  dsimp only
  refine Flow.Within.mono (t := pull 256 s) (pull_moves lib _ s) ?_
  split
  · exact .inl .refl
  · exact (byteLoop_within lib _ (fun _ _ s => (Move.vqclut s _).chain) 32 0 _).bind fun u => .inr ⟨u, .refl, rfl⟩

theorem setthStep_within (lib : Bool) (th0 th1 : BitVec 9) (s : State) : (setthStep th0 th1 s).Within lib s :=
  .inr ⟨_, (Move.thresholds s th0 th1).chain, rfl⟩

theorem macroblockLoop_within (lib : Bool) (mbc : BitVec 11) (input : State → Flow) (fmt : Format) (dte : Bool)
    (hin : ∀ s, (input s).Within lib s) (n : Nat) (s : State) :
    (macroblockLoop mbc input fmt dte n s).Within lib s := by
  induction n generalizing s with
  | zero => exact .refl
  | succ n ih =>
    unfold macroblockLoop
    split
    · exact .inr ⟨s, .refl, rfl⟩
    · refine Flow.Within.bind (Flow.Within.bind ?_ fun t => ?_) ih
      · split
        · exact hin s
        · exact .refl
      · exact (drainMb_within lib fmt dte t).bind fun u => (bumpIndex_moves lib u).trans (setPhase_moves lib 0 0 _)

theorem cscStep_within (lib : Bool) (mbc : BitVec 11) (dte ofm : Bool) (s : State) :
    (cscStep mbc dte ofm s).Within lib s :=
  macroblockLoop_within lib mbc cscInput _ dte
    (fun s => (readBytes_within lib 384 storeRaw (fun _ _ s => (Move.buffer s _).chain) s).bind fun t =>
      (convertMb_moves lib t).trans (setPhase_moves lib 1 0 _)) _ s

theorem packStep_within (lib : Bool) (mbc : BitVec 11) (dte ofm : Bool) (s : State) :
    (packStep mbc dte ofm s).Within lib s :=
  macroblockLoop_within lib mbc packInput _ dte
    (fun s => (readBytes_within lib 1024 storePixel (fun _ _ s => (Move.buffer s _).chain) s).bind fun t =>
      setPhase_moves lib 1 0 t) _ s

/-- What one step of the command in flight can do (R235): the session changes only under an opcode of at most 3. -/
theorem commandStep_within (s : State) : (commandStep s).Within (decide (s.unit.cmd.opcode ≤ 3)) s := by
  have hc : (decodeCommand s.unit.cmd.current).code = s.unit.cmd.opcode := decodeCommand_code _
  unfold commandStep
  cases hd : decodeCommand s.unit.cmd.current <;> rw [hd] at hc <;> simp only [Instr.code] at hc <;> dsimp only
  case idec => rw [← hc]; exact idecStep_within _ _ _ _ _ _ s
  case bdec => rw [← hc]; exact bdecStep_within _ _ _ _ _ s
  case vdec => rw [← hc]; exact vdecStep_within _ _ s
  case fdec => exact fdecStep_within _ _ s
  case setiq => exact setiqStep_within _ _ _ s
  case setvq => exact setvqStep_within _ s
  case csc => exact cscStep_within _ _ _ _ s
  case pack => exact packStep_within _ _ _ _ s
  case setth => exact setthStep_within _ _ _ s
  all_goals exact .inl .refl

end Sys2Proof.Machine
end

