-- ==== Sys2Proof/Laws/PerInstr.lean ====
section
/-! SUPPORT. One law per instruction: the words of a well-formed instruction are words of its row of
`spec/opcode_table.json`, by the row's `mask` and `match` (`30_encoding.md` R100, R112, R118; the masks of the tag rows
apply to the low 32 bits of the tag). -/

namespace Sys2Proof.Laws.TableRow

/-- The `mask` of the instruction's row. -/
def mask : Instr → Word
  | .bclr _ _ | .idec _ _ _ _ _ _ _ _ | .bdec _ _ _ _ _ _ _ | .vdec _ _ _ | .fdec _ _ | .setiq _ _ _ | .setvq _
  | .csc _ _ _ _ | .pack _ _ _ _ | .setth _ _ _ _ => 0xF0000000#32
  | .invalid101 _ _ => 0xE0000000#32
  | .invalid11 _ _ => 0xC0000000#32
  | .tagFollow _ | .tagQwc _ | .tagAddr _ | .tagNone _ => 0x70000000#32
  | .tagMalformed _ _ => 0x40000000#32

/-- The `match` of the instruction's row. -/
def pattern : Instr → Word
  | .bclr _ _ => 0x00000000#32
  | .idec _ _ _ _ _ _ _ _ => 0x10000000#32
  | .bdec _ _ _ _ _ _ _ => 0x20000000#32
  | .vdec _ _ _ => 0x30000000#32
  | .fdec _ _ => 0x40000000#32
  | .setiq _ _ _ => 0x50000000#32
  | .setvq _ => 0x60000000#32
  | .csc _ _ _ _ => 0x70000000#32
  | .pack _ _ _ _ => 0x80000000#32
  | .setth _ _ _ _ => 0x90000000#32
  | .invalid101 _ _ => 0xA0000000#32
  | .invalid11 _ _ => 0xC0000000#32
  | .tagFollow _ => 0x00000000#32
  | .tagQwc _ => 0x10000000#32
  | .tagAddr _ => 0x20000000#32
  | .tagNone _ => 0x30000000#32
  | .tagMalformed _ _ => 0x40000000#32

/-- The words of the instruction are words of its row. -/
def Statement (i : Instr) : Prop := i.wf = true → i.word &&& mask i = pattern i

/-- The top nibble of a word, in place. -/
theorem mask_top (c : BitVec 4) (m : BitVec 4) (x : BitVec 28) : (c ++ x) &&& (m ++ 0#28) = (c &&& m) ++ 0#28 := by
  ext i hi
  simp only [BitVec.getElem_and, BitVec.getElem_append]
  split <;> simp

/-- A command word masked, from its opcode. -/
theorem word_mask (c m : BitVec 4) (x : BitVec 28) : ((c ++ x : Word).setWidth 128).setWidth 32 &&& (m ++ 0#28) =
    (c &&& m) ++ 0#28 := by
  rw [BitVec.setWidth_setWidth_of_le _ (by omega), BitVec.setWidth_eq, mask_top]

/-- The low word of a tag, from its code. -/
theorem tag_mask (c m : BitVec 3) (t : TagFields) : (tagWordOf c t).setWidth 32 &&& ((0#1 ++ m) ++ 0#28) =
    (0#1 ++ (c &&& m)) ++ 0#28 := by
  have h : (tagWordOf c t).setWidth 32 = (t.unusedBit ++ c : BitVec 4) ++ (t.unusedLo ++ t.qwc : BitVec 28) := by
    apply BitVec.eq_of_getLsbD_eq
    intro i hi
    simp only [tagWordOf, BitVec.getLsbD_setWidth, BitVec.getLsbD_append, hi, decide_true, Bool.true_and]
    by_cases h1 : i < 16 <;> by_cases h2 : i < 28 <;> by_cases h3 : i < 31 <;>
      simp (disch := omega) only [if_pos, if_neg, h1, h2, h3, Nat.sub_sub] <;> simp
  have hc : ∀ (u : BitVec 1) (c m : BitVec 3), (u ++ c) &&& (0#1 ++ m) = 0#1 ++ (c &&& m) := by decide
  rw [h, mask_top, hc]

/-- A command of opcode `c`, whose row's mask has the top nibble `m`. -/
theorem Statement.intro {i : Instr} (c m : BitVec 4) (x : BitVec 28) (hw : i.bits = (c ++ x : Word).setWidth 128)
    (hm : mask i = m ++ 0#28) (hp : (c &&& m) ++ 0#28 = pattern i) : Statement i := fun _ => by
  rw [Instr.word, hw, hm, word_mask, hp]

/-- A tag of code `c`, whose row's mask has `m` in bits 30:28. -/
theorem Statement.tag {i : Instr} (c m : BitVec 3) (t : TagFields) (hw : i.bits = tagWordOf c t)
    (hm : mask i = (0#1 ++ m) ++ 0#28) (hp : (0#1 ++ (c &&& m)) ++ 0#28 = pattern i) : Statement i := fun _ => by
  rw [Instr.word, hw, hm, tag_mask, hp]

theorem bclr (bp : BitVec 7) (unused : BitVec 21) : Statement (.bclr bp unused) :=
  .intro 0#4 15#4 _ rfl rfl rfl

theorem idec (fb : BitVec 6) (qsc : BitVec 5) (dtd sgn dte ofm : Bool) (lo : BitVec 10) (hi : BitVec 3) :
    Statement (.idec fb qsc dtd sgn dte ofm lo hi) :=
  .intro 1#4 15#4 _ rfl rfl rfl

theorem bdec (fb : BitVec 6) (qsc : BitVec 5) (dt dcr mbi : Bool) (lo : BitVec 10) (hi : BitVec 4) :
    Statement (.bdec fb qsc dt dcr mbi lo hi) :=
  .intro 2#4 15#4 _ rfl rfl rfl

theorem vdec (fb : BitVec 6) (tbl : BitVec 2) (unused : BitVec 20) : Statement (.vdec fb tbl unused) :=
  .intro 3#4 15#4 _ rfl rfl rfl

theorem fdec (fb : BitVec 6) (unused : BitVec 22) : Statement (.fdec fb unused) :=
  .intro 4#4 15#4 _ rfl rfl rfl

theorem setiq (fb : BitVec 6) (iqm : Bool) (unused : BitVec 21) : Statement (.setiq fb iqm unused) :=
  .intro 5#4 15#4 _ rfl rfl rfl

theorem setvq (unused : BitVec 28) : Statement (.setvq unused) :=
  .intro 6#4 15#4 _ rfl rfl rfl

theorem csc (mbc : BitVec 11) (dte ofm : Bool) (unused : BitVec 15) : Statement (.csc mbc dte ofm unused) :=
  .intro 7#4 15#4 _ rfl rfl rfl

theorem pack (mbc : BitVec 11) (dte ofm : Bool) (unused : BitVec 15) : Statement (.pack mbc dte ofm unused) :=
  .intro 8#4 15#4 _ rfl rfl rfl

theorem setth (th0 th1 : BitVec 9) (lo : BitVec 7) (hi : BitVec 3) : Statement (.setth th0 th1 lo hi) :=
  .intro 9#4 15#4 _ rfl rfl rfl

theorem invalid101 (opcode : BitVec 4) (option : BitVec 28) : Statement (.invalid101 opcode option) := fun h => by
  have hc : opcode &&& 14#4 = 10#4 := by
    simp only [Instr.wf, Bool.or_eq_true, beq_iff_eq] at h
    rcases h with rfl | rfl <;> rfl
  rw [Instr.word, Instr.bits, show mask (.invalid101 opcode option) = 14#4 ++ 0#28 from rfl, word_mask, hc]
  rfl

theorem invalid11 (opcode : BitVec 4) (option : BitVec 28) : Statement (.invalid11 opcode option) := fun h => by
  have hc : ∀ c : BitVec 4, 12 ≤ c.toNat → c &&& 12#4 = 12#4 := by decide
  rw [Instr.word, Instr.bits, show mask (.invalid11 opcode option) = 12#4 ++ 0#28 from rfl, word_mask,
    hc opcode (of_decide_eq_true h)]
  rfl

theorem tagFollow (t : TagFields) : Statement (.tagFollow t) := .tag 0#3 7#3 t rfl rfl rfl

theorem tagQwc (t : TagFields) : Statement (.tagQwc t) := .tag 1#3 7#3 t rfl rfl rfl

theorem tagAddr (t : TagFields) : Statement (.tagAddr t) := .tag 2#3 7#3 t rfl rfl rfl

theorem tagNone (t : TagFields) : Statement (.tagNone t) := .tag 3#3 7#3 t rfl rfl rfl

theorem tagMalformed (code : BitVec 3) (t : TagFields) : Statement (.tagMalformed code t) := fun h => by
  have hc : ∀ c : BitVec 3, 4 ≤ c.toNat → c &&& 4#3 = 4#3 := by decide
  rw [Instr.word, Instr.bits, show mask (.tagMalformed code t) = (0#1 ++ 4#3) ++ 0#28 from rfl, tag_mask,
    hc code (of_decide_eq_true h)]
  rfl

end Sys2Proof.Laws.TableRow
end

