-- ==== Sys2Proof/Laws/Pixel.lean ====
section
/-! SUPPORT. The functions an instance supplies as tables: what each answers, said once (`00_scope.md` R5). -/

namespace Sys2Proof.Machine

theorem tableAnswer_of_answers {α β : Type} [DecidableEq α] {table : List (α × β)} {q : α} {a : β} (d : β)
    (h : Answers table q a) : tableAnswer table q d = a := by
  unfold tableAnswer
  split
  · next e he =>
    obtain ⟨q', b⟩ := e
    obtain rfl : q' = q := by simpa using List.find?_some he
    exact h.2 b (List.mem_of_find?_eq_some he)
  · next he => exact absurd (List.find?_eq_none.1 he _ h.1) (by simp)

theorem tableAnswer_of_unlisted {α β : Type} [DecidableEq α] {table : List (α × β)} {q : α} (d : β)
    (h : Unlisted table q) : tableAnswer table q d = d := by
  unfold tableAnswer
  split
  · next e he =>
    obtain ⟨q', b⟩ := e
    obtain rfl : q' = q := by simpa using List.find?_some he
    exact absurd (List.mem_of_find?_eq_some he) (h b)
  · rfl

theorem unlisted_nil {α β : Type} (q : α) : Unlisted ([] : List (α × β)) q := nofun

/-- The parameter lists no answers of its own: the four functions are the spec's defaults (R292, R295, R296, R300). -/
theorem default_functions (m : PixelMath) (h : m.yuvTable = [] ∧ m.thresholdTable = [] ∧ m.narrowTable = [] ∧
    m.indexTable = []) :
    yuv2rgb m = yuv2rgbDefault m ∧ applyThreshold m = applyThresholdDefault m ∧ narrow16 m = narrow16Default m ∧
      index4 m = index4Default m := by
  simp only [funext_iff, yuv2rgb, applyThreshold, narrow16, index4, h, tableAnswer_of_unlisted _ (unlisted_nil _),
    implies_true, and_self]

end Sys2Proof.Machine
end

