-- ==== Sys2Proof/Laws/Sessions.lean ====
section
/-! SUPPORT. The `FB` phase, the results of a library session, the rounds of the session loop, and what executing an
instruction can do, each said once (`43_command_dispatcher.md` R230 to R256, `42_dma_tag_walker.md` R200, R205). -/

namespace Sys2Proof.Machine

/-! ### The FB phase (R256) -/

/-- All that the `FB` phase does: outside phase 0 nothing; in phase 0 it waits where the stream is short, and else skips
and starts phase 1. -/
theorem fbPhase_spec (fb : BitVec 6) (s : State) (hc : InputCounted s) :
    (s.unit.cmd.pos0 ≠ 0 ∧ fbPhase fb s = .go s) ∨
      (s.unit.cmd.pos0 = 0 ∧ totalAvail s < fb.toNat ∧ ∃ t, fbPhase fb s = .stop t ∧ ShortOf s t) ∨
      (s.unit.cmd.pos0 = 0 ∧ fb.toNat ≤ totalAvail s ∧ ∃ t, fbPhase fb s = .go (setPhase 1 0 t) ∧ InputOnly s t ∧
        InputCounted t ∧ Consumed fb.toNat s t) := by
  have hfb : fb.toNat ≤ 63 := by have := fb.isLt; omega
  unfold fbPhase
  by_cases h : s.unit.cmd.pos0 = 0
  · rw [if_pos h]
    rcases skipBits_spec fb.toNat s hfb hc with ⟨hs, t, e, ht⟩ | ⟨hs, t, e, h1, h2, h3⟩
    · exact .inr (.inl ⟨h, hs, t, by rw [e], ht⟩)
    · exact .inr (.inr ⟨h, hs, t, by rw [e], h1, h2, h3⟩)
  · exact .inl ⟨h, if_neg h⟩

/-! ### The result of a session (R253) -/

/-- `applyDone` changes `ctrl` and ends the session. -/
theorem applyDone_eq (res : LibResult) (s : State) :
    applyDone res s = { s with unit := { s.unit with ctrl := (applyDone res s).unit.ctrl, lib := none } } := rfl

/-- The control bits a result leaves alone: all but pattern and the two flags. -/
theorem applyDone_ctrl (res : LibResult) (s : State) (i : Nat) (h : i < 8 ∨ 16 ≤ i) :
    (applyDone res s).unit.ctrl.getLsbD i = s.unit.ctrl.getLsbD i := by
  have e1 : ∀ c : Word, (if res.scd then putSCD true c else c).getLsbD i = c.getLsbD i := fun c => by
    split
    · exact getLsbD_putField_other 15 _ _ i (by decide) (by omega)
    · rfl
  have e2 : ∀ c : Word, (if res.ecd then putECD true c else c).getLsbD i = c.getLsbD i := fun c => by
    split
    · exact getLsbD_putField_other 14 _ _ i (by decide) (by omega)
    · rfl
  show (if res.ecd then putECD true _ else _).getLsbD i = _
  rw [e2, e1]
  cases res.cbp with
  | none => rfl
  | some p => exact getLsbD_putField_other 8 _ _ i (by decide) (by omega)

/-! ### The rounds of the session loop (R241 to R243, R252) -/

/-- A round in phase 2: the emitted data goes out, then the next round. -/
theorem sessionLoop_phase_two (r : SessionRules) (n : Nat) (s : State) (h : s.unit.cmd.pos0 = 2) :
    sessionLoop r (n + 1) s = (r.drainEmitted s).bind (sessionLoop r n) := by
  conv_lhs => unfold sessionLoop
  rw [if_pos h]

/-- A round in phase 1 whose request is `Done`: the result is applied and the command completes. -/
theorem sessionLoop_done (r : SessionRules) (n : Nat) (s : State) (res : LibResult) (h : s.unit.cmd.pos0 ≠ 2)
    (hr : (sessionOf r.command s).req = .done res) :
    sessionLoop r (n + 1) s =
      .stop (complete (applyDone res (r.takeResult res (s.setLib (some (sessionOf r.command s)))))) := by
  conv_lhs => unfold sessionLoop
  rw [if_neg h]
  dsimp only
  rw [hr]

/-- A round in phase 1 whose request emits a macroblock. -/
theorem sessionLoop_emitMB (r : SessionRules) (n : Nat) (s : State) (raw : Vector Byte 384) (h : s.unit.cmd.pos0 ≠ 2)
    (hr : (sessionOf r.command s).req = .emitMB raw) :
    sessionLoop r (n + 1) s =
      (r.takeEmit (.emitMB raw) (s.setLib (some (sessionOf r.command s)))).bind (sessionLoop r n) := by
  conv_lhs => unfold sessionLoop
  rw [if_neg h]
  dsimp only
  rw [hr]

/-- A round in phase 1 whose request emits coefficients. -/
theorem sessionLoop_emitCoef (r : SessionRules) (n : Nat) (s : State) (c : Vector (BitVec 16) 384)
    (h : s.unit.cmd.pos0 ≠ 2) (hr : (sessionOf r.command s).req = .emitCoef c) :
    sessionLoop r (n + 1) s =
      (r.takeEmit (.emitCoef c) (s.setLib (some (sessionOf r.command s)))).bind (sessionLoop r n) := by
  conv_lhs => unfold sessionLoop
  rw [if_neg h]
  dsimp only
  rw [hr]

/-! ### Executing an instruction -/

/-- A step's end is a next state, a fault or a refusal, as the flow says. -/
theorem Flow.outcome_next {f : Flow} {t : State} (h : f.outcome = .next t) :
    f = .go t ∨ f = .stop t ∨ ∃ u, f = .more u ∧ t = u.setCalls (.continueStep :: u.calls) := by
  cases f <;> simp_all [Flow.outcome]

/-- All that a command other than BCLR, of a valid opcode, can do: it is rejected while another is in flight, else
accepted, and its first step is `step`. -/
theorem submit_cases (w : Word) (step : State → Flow) (s : State) :
    (s.unit.cmd.busy = true ∧ submit w step s = .next (rejectCommand .busy s)) ∨
      (s.unit.cmd.busy = false ∧ submit w step s = (step (acceptCommand w s)).outcome) := by
  unfold submit
  cases h : s.unit.cmd.busy <;> simp

/-- All that a command can do: BCLR completes at once; a command is rejected; or it is accepted, and its first step makes
elementary changes, those of a session only under IDEC, BDEC and VDEC. -/
theorem exec_command_cases (i : Instr) (s : State) (hp : i.port = .command) :
    (∃ bp unused, i = .bclr bp unused ∧
        exec i s = .next ((raise .cmd (cursorReset bp (fifoClear (clearCommand s)))).setResult .accepted)) ∨
      (∃ r, exec i s = .next (rejectCommand r s)) ∨
      (s.unit.cmd.busy = false ∧ ∃ f : Flow, f.Within (decide (i.code ≤ 3)) (acceptCommand i.word s) ∧
        exec i s = f.outcome) := by
  have key : ∀ (step : State → Flow), (∀ u, (step u).Within (decide (i.code ≤ 3)) u) → exec i s = submit i.word step s →
      (∃ r, exec i s = .next (rejectCommand r s)) ∨
      (s.unit.cmd.busy = false ∧ ∃ f : Flow, f.Within (decide (i.code ≤ 3)) (acceptCommand i.word s) ∧
        exec i s = f.outcome) := by
    intro step hw he
    rcases submit_cases i.word step s with ⟨-, e⟩ | ⟨hb, e⟩
    · exact .inl ⟨_, he.trans e⟩
    · exact .inr ⟨hb, _, hw _, he.trans e⟩
  cases i with
  | bclr bp unused => exact .inl ⟨bp, unused, rfl, rfl⟩
  | idec fb qsc dtd sgn dte ofm lo hi => exact .inr (key (idecStep fb qsc dtd sgn dte ofm) (idecStep_within _ _ _ _ _ _) rfl)
  | bdec fb qsc dt dcr mbi lo hi => exact .inr (key (bdecStep fb qsc dt dcr mbi) (bdecStep_within _ _ _ _ _) rfl)
  | vdec fb tbl unused => exact .inr (key (vdecStep fb tbl) (vdecStep_within _ _) rfl)
  | fdec fb unused => exact .inr (key (fdecStep fb) (fdecStep_within _ _) rfl)
  | setiq fb iqm unused => exact .inr (key (setiqStep fb iqm) (setiqStep_within _ _ _) rfl)
  | setvq unused => exact .inr (key setvqStep (setvqStep_within _) rfl)
  | csc mbc dte ofm unused => exact .inr (key (cscStep mbc dte ofm) (cscStep_within _ _ _ _) rfl)
  | pack mbc dte ofm unused => exact .inr (key (packStep mbc dte ofm) (packStep_within _ _ _ _) rfl)
  | setth th0 th1 lo hi => exact .inr (key (setthStep th0 th1) (setthStep_within _ _ _) rfl)
  | invalid101 opcode option => exact .inr (.inl ⟨.invalidOpcode, rfl⟩)
  | invalid11 opcode option => exact .inr (.inl ⟨.invalidOpcode, rfl⟩)
  | tagFollow _ => cases hp
  | tagQwc _ => cases hp
  | tagAddr _ => cases hp
  | tagNone _ => cases hp
  | tagMalformed _ _ => cases hp

/-- All that a tag can do: nothing where the walker does not stand before a fetch; else a malformed one halts the
transfer, and a good one is latched and walked to the end of the call. -/
theorem exec_tag_cases (i : Instr) (s : State) (hp : i.port = .tag) :
    (fetchEnabled s = false ∧ exec i s = .next s) ∨
      (fetchEnabled s = true ∧ (∃ code f, i = .tagMalformed code f) ∧
        exec i s =
          .next ((protocolError (s.setDmaTo { s.unit.dmaTo with stalled := true })).setResult (.status s.moved))) ∨
      (fetchEnabled s = true ∧ exec i s = .next (runMicro runBound (latchTag i.bits (s.setResult (.status s.moved))))) := by
  have key : ∀ q, exec i s = .next (walkTag q s) → q = i.bits →
      (fetchEnabled s = false ∧ exec i s = .next s) ∨ (fetchEnabled s = true ∧
        exec i s = .next (runMicro runBound (latchTag i.bits (s.setResult (.status s.moved))))) := by
    intro q he hq
    rw [he, ← hq]
    unfold walkTag
    cases fetchEnabled s <;> simp
  cases i with
  | tagFollow t => exact (key (tagWordOf 0#3 t) rfl rfl).imp id .inr
  | tagQwc t => exact (key (tagWordOf 1#3 t) rfl rfl).imp id .inr
  | tagAddr t => exact (key (tagWordOf 2#3 t) rfl rfl).imp id .inr
  | tagNone t => exact (key (tagWordOf 3#3 t) rfl rfl).imp id .inr
  | tagMalformed code t =>
    have e : exec (.tagMalformed code t) s = if fetchEnabled s then
      .next ((protocolError (s.setDmaTo { s.unit.dmaTo with stalled := true })).setResult (.status s.moved))
      else .next s := rfl
    rw [e]
    cases hf : fetchEnabled s
    · exact .inl ⟨rfl, rfl⟩
    · exact .inr (.inl ⟨rfl, ⟨code, t, rfl⟩, rfl⟩)
  | _ => cases hp

end Sys2Proof.Machine
end

