-- ==== Sys2Proof/Laws/Walker.lean ====
section
/-! SUPPORT. The walkers: what their micro-steps can do, said once (`42_dma_tag_walker.md`). -/

namespace Sys2Proof.Machine

/-- The walker is in a stage that moves payload (R193). -/
def Pushing (d : Transfer) : Prop := d.inProgress = true ∧ (d.mode = .normal ∨ d.mode = .chain ∧ d.tagFollow = .qwc)

theorem microStep_pushing {s : State} (h : Pushing s.unit.dmaTo) (hr : s.unit.dmaTo.remaining ≠ 0) :
    microStep s = pushPayload s := by
  obtain ⟨h1, h2 | ⟨h2, h3⟩⟩ := h
  · simp only [microStep, h1, h2, if_pos, if_neg hr]
  · simp only [microStep, h1, h2, h3, if_pos, if_neg hr]

/-- The state after one payload quadword was taken (R195, R201). -/
def pushOne (s : State) : State :=
  bumpMoved ((((s.setFifoIn (s.unit.fifoIn ++ [Memory.readQW s.mem s.unit.dmaTo.memAddr])).setCtrl
    (putIFC (s.ifc + 1) s.unit.ctrl)).setStall (putStall s.cfg.stallFlagIn false s.unit.stall)).setDmaTo
    { s.unit.dmaTo with
      memAddr := s.unit.dmaTo.memAddr + 16, remaining := s.unit.dmaTo.remaining - 1, stalled := false })

/-- The state after a stalled push (R196, R202). -/
def pushStall (s : State) : State :=
  (s.setStall (putStall s.cfg.stallFlagIn true s.unit.stall)).setDmaTo { s.unit.dmaTo with stalled := true }

/-- All that offering one payload quadword does (R195, R196, R201, R202). -/
theorem pushPayload_eq (s : State) :
    pushPayload s = if s.ifc < s.cfg.fifoInCap then .step (pushOne s) else .stall (pushStall s) := by
  unfold pushPayload inPush
  split <;> rfl

/-- The state after `n` payload quadwords were taken. -/
def pushed : Nat → State → State
  | 0, s => s
  | n + 1, s => pushed n (pushOne s)

/-- `n` pushes in a row: while there is payload and room, the walker moves one quadword after the other (R192). -/
theorem runMicro_pushed (n f : Nat) (s : State) (hp : Pushing s.unit.dmaTo) (hr : n ≤ s.unit.dmaTo.remaining.toNat)
    (hroom : s.ifc.toNat + n ≤ s.cfg.fifoInCap.toNat) : runMicro (n + f) s = runMicro f (pushed n s) := by
  induction n generalizing s with
  | zero => rw [Nat.zero_add]; rfl
  | succ n ih =>
    have hr0 : s.unit.dmaTo.remaining ≠ 0 := by
      intro h
      rw [h] at hr
      simp at hr
    have hlt : s.ifc < s.cfg.fifoInCap := show s.ifc.toNat < s.cfg.fifoInCap.toNat by omega
    have hifc : (pushOne s).ifc.toNat = s.ifc.toNat + 1 := by
      rw [← toNat_succ_of_lt hlt]
      simp [pushOne, bumpMoved, State.ifc]
    have hrem : (s.unit.dmaTo.remaining - 1).toNat + 1 = s.unit.dmaTo.remaining.toNat := by
      have := s.unit.dmaTo.remaining.isLt
      rw [BitVec.toNat_sub]
      simp
      omega
    rw [show n + 1 + f = (n + f) + 1 by omega, runMicro, microStep_pushing hp hr0, pushPayload_eq, if_pos hlt]
    exact ih (pushOne s) hp (by show n ≤ (s.unit.dmaTo.remaining - 1).toNat; omega)
      (by rw [hifc]; show _ ≤ s.cfg.fifoInCap.toNat; omega)

/-! ### The state after `n` pushes, field by field -/

section
variable (n : Nat) (s : State)

@[simp] theorem pushed_mem : (pushed n s).mem = s.mem := by
  induction n generalizing s with
  | zero => rfl
  | succ n ih => exact ih (pushOne s)
@[simp] theorem pushed_cfg : (pushed n s).cfg = s.cfg := by
  induction n generalizing s with
  | zero => rfl
  | succ n ih => exact ih (pushOne s)
@[simp] theorem pushed_calls : (pushed n s).calls = s.calls := by
  induction n generalizing s with
  | zero => rfl
  | succ n ih => exact ih (pushOne s)
@[simp] theorem pushed_irqTrace : (pushed n s).irqTrace = s.irqTrace := by
  induction n generalizing s with
  | zero => rfl
  | succ n ih => exact ih (pushOne s)

/-- What is left alone by `n` pushes. -/
theorem pushed_unit : (pushed n s).unit = { s.unit with
    fifoIn := (pushed n s).unit.fifoIn, ctrl := (pushed n s).unit.ctrl, stall := (pushed n s).unit.stall
    dmaTo := (pushed n s).unit.dmaTo } := by
  induction n generalizing s with
  | zero => rfl
  | succ n ih => exact (ih (pushOne s)).trans rfl

/-- The queue after `n` pushes: the payload's quadwords in the order of their addresses. -/
theorem pushed_fifoIn : (pushed n s).unit.fifoIn = s.unit.fifoIn ++
    (List.range n).map (fun k => Memory.readQW s.mem (s.unit.dmaTo.memAddr + BitVec.ofNat 32 (16 * k))) := by
  induction n generalizing s with
  | zero => simp [pushed]
  | succ n ih =>
    have h1 : (pushOne s).unit.fifoIn = s.unit.fifoIn ++ [Memory.readQW s.mem s.unit.dmaTo.memAddr] := rfl
    have h2 : (pushOne s).unit.dmaTo.memAddr = s.unit.dmaTo.memAddr + BitVec.ofNat 32 16 := rfl
    have h3 : (pushOne s).mem = s.mem := rfl
    have h4 : pushed (n + 1) s = pushed n (pushOne s) := rfl
    have h5 : ∀ k, s.unit.dmaTo.memAddr + BitVec.ofNat 32 16 + BitVec.ofNat 32 (16 * k) =
        s.unit.dmaTo.memAddr + BitVec.ofNat 32 (16 * (k + 1)) := fun k => by
      rw [show 16 * (k + 1) = 16 + 16 * k by omega, BitVec.ofNat_add, ← BitVec.add_assoc]
    have h6 : s.unit.dmaTo.memAddr = s.unit.dmaTo.memAddr + BitVec.ofNat 32 (16 * 0) := by simp
    rw [h4, ih, h1, h2, h3]
    simp only [h5]
    rw [List.append_assoc, List.range_succ_eq_map, List.map_cons, List.map_map, ← h6]
    rfl

/-- The counter after `n` pushes, where there was room for them. -/
theorem pushed_ifc (h : s.ifc.toNat + n ≤ 15) : (pushed n s).ifc.toNat = s.ifc.toNat + n := by
  induction n generalizing s with
  | zero => rfl
  | succ n ih =>
    have h1 : (pushOne s).ifc.toNat = s.ifc.toNat + 1 := by
      have : (pushOne s).ifc = s.ifc + 1 := by simp [pushOne, bumpMoved, State.ifc]
      rw [this, BitVec.toNat_add]
      simp
      omega
    refine (ih (pushOne s) (by omega)).trans ?_
    omega

/-- `n` pushes change no bit of `ctrl` but the input counter. -/
theorem pushed_ctrl (i : Nat) (hi : 4 ≤ i) : (pushed n s).unit.ctrl.getLsbD i = s.unit.ctrl.getLsbD i := by
  induction n generalizing s with
  | zero => rfl
  | succ n ih => exact (ih (pushOne s)).trans (getLsbD_putField_other 0 _ _ i (by decide) (by omega))

/-- The stall flags after `n` pushes (R171). -/
theorem pushed_stall :
    (pushed n s).unit.stall = if n = 0 then s.unit.stall else putStall s.cfg.stallFlagIn false s.unit.stall := by
  induction n generalizing s with
  | zero => rfl
  | succ n ih =>
    refine (ih (pushOne s)).trans ?_
    show (if n = 0 then putStall s.cfg.stallFlagIn false s.unit.stall
      else putStall s.cfg.stallFlagIn false (putStall s.cfg.stallFlagIn false s.unit.stall)) = _
    cases s.cfg.stallFlagIn <;> split <;> rfl

/-- The transfer after `n` pushes (R195). -/
theorem pushed_dmaTo : (pushed n s).unit.dmaTo = { s.unit.dmaTo with
    memAddr := s.unit.dmaTo.memAddr + BitVec.ofNat 32 (16 * n)
    remaining := s.unit.dmaTo.remaining - BitVec.ofNat 28 n
    stalled := if n = 0 then s.unit.dmaTo.stalled else false } := by
  induction n generalizing s with
  | zero => simp [pushed]
  | succ n ih =>
    refine (ih (pushOne s)).trans ?_
    have h1 : s.unit.dmaTo.memAddr + 16 + BitVec.ofNat 32 (16 * n) =
        s.unit.dmaTo.memAddr + BitVec.ofNat 32 (16 * (n + 1)) := by
      rw [show 16 * (n + 1) = 16 + 16 * n by omega, BitVec.ofNat_add, ← BitVec.add_assoc]
      rfl
    have h2 : s.unit.dmaTo.remaining - 1 - BitVec.ofNat 28 n = s.unit.dmaTo.remaining - BitVec.ofNat 28 (n + 1) := by
      apply BitVec.eq_of_toNat_eq
      have h1 : (1 : BitVec 28).toNat = 1 := rfl
      simp only [BitVec.toNat_sub, BitVec.toNat_ofNat, h1]
      omega
    have h3 : (if n = 0 then false else false) = false := by simp
    show ({ s.unit.dmaTo with
      memAddr := s.unit.dmaTo.memAddr + 16 + BitVec.ofNat 32 (16 * n)
      remaining := s.unit.dmaTo.remaining - 1 - BitVec.ofNat 28 n
      stalled := if n = 0 then false else false } : Transfer) = _
    rw [h1, h2, h3]
    rfl

/-- The status after `n` pushes (`30_encoding.md` R121). -/
theorem pushed_moved : (pushed n s).moved = s.moved + n := by
  induction n generalizing s with
  | zero => rfl
  | succ n ih =>
    refine (ih (pushOne s)).trans ?_
    show (s.moved + 1) + n = _
    omega

theorem pushed_result (h : s.result = .status s.moved) : (pushed n s).result = .status (s.moved + n) := by
  induction n generalizing s with
  | zero => exact h
  | succ n ih =>
    refine (ih (pushOne s) rfl).trans ?_
    show CallResult.status (s.moved + 1 + n) = _
    rw [Nat.add_assoc, Nat.add_comm 1 n]

end

/-- Every micro-step but the fetch is a push, a stall, a stage move or a finish (R193). -/
theorem microStep_cases {s : State} {m : Micro} (h : microStep s = m) :
    m = .none ∨ (m = .fetch ∧ fetchEnabled s = true) ∨
      (s.unit.dmaTo.inProgress = true ∧
        ((m = pushPayload s ∧ Pushing s.unit.dmaTo ∧ s.unit.dmaTo.remaining ≠ 0) ∨
          (m = .step (finishTo s) ∧ s.unit.dmaTo.mode = .normal ∧ s.unit.dmaTo.remaining = 0) ∨
          (s.unit.dmaTo.mode = .chain ∧
            ((m = .step (s.setDmaTo { s.unit.dmaTo with tagFollow := .addr }) ∧ s.unit.dmaTo.tagFollow = .qwc ∧
                s.unit.dmaTo.remaining = 0) ∨
              (m = .step (s.setDmaTo { s.unit.dmaTo with
                  nextMem := align16 (s.unit.dmaTo.tagWord.extractLsb' 32 32), tagFollow := .none }) ∧
                s.unit.dmaTo.tagFollow = .addr) ∨
              (m = .step (finishTo s) ∧ s.unit.dmaTo.tagFollow = .none ∧
                s.unit.dmaTo.tagWord.extractLsb' 28 3 = 3#3) ∨
              (m = .step (s.setDmaTo { s.unit.dmaTo with tagFollow := .follow }) ∧ s.unit.dmaTo.tagFollow = .none ∧
                s.unit.dmaTo.tagWord.extractLsb' 28 3 ≠ 3#3))))) := by
  subst h
  unfold microStep
  dsimp only
  split
  · rename_i hi
    split
    · rename_i hm
      split
      · rename_i hr
        exact .inr (.inr ⟨hi, .inr (.inl ⟨rfl, hm, hr⟩)⟩)
      · rename_i hr
        exact .inr (.inr ⟨hi, .inl ⟨rfl, ⟨hi, .inl hm⟩, hr⟩⟩)
    · rename_i hm
      split
      · rename_i hf
        split
        · exact .inl rfl
        · rename_i hs
          exact .inr (.inl ⟨rfl, by simp [fetchEnabled, hi, hm, hf, hs]⟩)
      · rename_i hf
        split
        · rename_i hr
          exact .inr (.inr ⟨hi, .inr (.inr ⟨hm, .inl ⟨rfl, hf, hr⟩⟩)⟩)
        · rename_i hr
          exact .inr (.inr ⟨hi, .inl ⟨rfl, ⟨hi, .inr ⟨hm, hf⟩⟩, hr⟩⟩)
      · rename_i hf
        exact .inr (.inr ⟨hi, .inr (.inr ⟨hm, .inr (.inl ⟨rfl, hf⟩)⟩)⟩)
      · rename_i hf
        refine .inr (.inr ⟨hi, .inr (.inr ⟨hm, .inr (.inr ?_)⟩)⟩)
        unfold endDescriptor
        dsimp only
        split
        · rename_i hc
          exact .inl ⟨rfl, hf, hc⟩
        · rename_i hc
          exact .inr ⟨rfl, hf, hc⟩
  · exact .inl rfl

/-- What a run of micro-steps keeps: a property every micro-step keeps. -/
theorem runMicro_induct (P : State → Prop) (hstep : ∀ s t, P s → microStep s = .step t → P t)
    (hstall : ∀ s t, P s → microStep s = .stall t → P t) (n : Nat) (s : State) (hs : P s) : P (runMicro n s) := by
  induction n generalizing s with
  | zero => exact hs
  | succ n ih =>
    unfold runMicro
    cases h : microStep s with
    | none => exact hs
    | fetch => exact hs
    | step t => exact ih t (hstep s t hs h)
    | stall t => exact hstall s t hs h

/-- `finish(TO)` (R199), where the transfer's interrupt has not been raised: the record is marked, the interrupt raised. -/
theorem finishTo_spec (s : State) (h : s.unit.dmaTo.irqTriggered = false) :
    Raised .toUnit s (finishTo s) ∧
      finishTo s = { s with irqTrace := (finishTo s).irqTrace, unit := { s.unit with
        pend := (finishTo s).unit.pend
        dmaTo := { s.unit.dmaTo with dmaFinished := true, inProgress := false, stalled := false, irqTriggered := true } } } := by
  unfold finishTo
  simp only [h, Bool.false_eq_true, if_false]
  exact ⟨(raise_raised .toUnit (s.setDmaTo { s.unit.dmaTo with
    dmaFinished := true, inProgress := false, stalled := false, irqTriggered := true })).congr rfl rfl rfl rfl rfl,
    by rw [raise_eq]; rfl⟩

/-- `finish(FROM)` (R199, R212), where the transfer's interrupt has not been raised. -/
theorem finishFrom_spec (s : State) (h : s.unit.dmaFrom.irqTriggered = false) :
    Raised .fromUnit s (finishFrom s) ∧
      finishFrom s = { s with irqTrace := (finishFrom s).irqTrace, unit := { s.unit with
        pend := (finishFrom s).unit.pend
        dmaFrom := { s.unit.dmaFrom with
          dmaFinished := true, inProgress := false, stalled := false, irqTriggered := true } } } := by
  unfold finishFrom
  simp only [h, Bool.false_eq_true, if_false]
  exact ⟨(raise_raised .fromUnit (s.setDmaFrom { s.unit.dmaFrom with
    dmaFinished := true, inProgress := false, stalled := false, irqTriggered := true })).congr rfl rfl rfl rfl rfl,
    by rw [raise_eq]; rfl⟩

/-- What the pops keep: a property that a finish, a stalled pop and a pop with its store keep. -/
theorem popLoop_induct (P : State → Prop)
    (hfin : ∀ s, P s → s.unit.dmaFrom.remaining = 0 → P (finishFrom s))
    (hstall : ∀ s t, P s → outPop s = (t, none) → P (t.setDmaFrom { s.unit.dmaFrom with stalled := true }))
    (hpop : ∀ s t q, P s → s.unit.dmaFrom.remaining ≠ 0 → outPop s = (t, some q) →
      P (bumpMoved ((memWrite s.unit.dmaFrom.memAddr q t).setDmaFrom
        { s.unit.dmaFrom with
          memAddr := s.unit.dmaFrom.memAddr + 16, remaining := s.unit.dmaFrom.remaining - 1, stalled := false })))
    (n : Nat) (s : State) (hs : P s) : P (popLoop n s) := by
  induction n generalizing s with
  | zero => exact hs
  | succ n ih =>
    unfold popLoop
    dsimp only
    split
    · rename_i h0
      exact hfin s hs h0
    · rename_i h0
      split
      · rename_i t h
        exact hstall s t hs h
      · rename_i t q h
        exact ih _ (hpop s t q hs h0 h)

/-! ### Pops (R211) -/

/-- The state after the quadword `q` was popped, `qs` left, and stored. -/
def popOne (q : QWord) (qs : List QWord) (s : State) : State :=
  bumpMoved ((memWrite s.unit.dmaFrom.memAddr q (((s.setFifoOut qs).setCtrl (putOFC (s.ofc - 1) s.unit.ctrl)).setStall
    (putStall s.cfg.stallFlagOut false s.unit.stall))).setDmaFrom
    { s.unit.dmaFrom with
      memAddr := s.unit.dmaFrom.memAddr + 16, remaining := s.unit.dmaFrom.remaining - 1, stalled := false })

/-- The state after the quadwords of `qs` were popped one after the other, `rest` left in the queue. -/
def popped (rest : List QWord) : List QWord → State → State
  | [], s => s
  | q :: qs, s => popped rest qs (popOne q (qs ++ rest) s)

/-- `n` pops in a row (R210): while there is something to move and something in the queue. -/
theorem popLoop_popped (qs rest : List QWord) (f : Nat) (s : State) (hq : s.unit.fifoOut = qs ++ rest)
    (hc : s.ofc.toNat = (qs ++ rest).length) (hr : qs.length ≤ s.unit.dmaFrom.remaining.toNat) :
    popLoop (qs.length + f) s = popLoop f (popped rest qs s) := by
  induction qs generalizing s with
  | nil => rw [List.length_nil, Nat.zero_add]; rfl
  | cons q qs ih =>
    simp only [List.length_cons, List.cons_append, List.length_append] at hr hc hq
    have hr0 : s.unit.dmaFrom.remaining ≠ 0 := by
      intro h
      rw [h] at hr
      simp at hr
    have ho : s.ofc ≠ 0 := by
      intro h
      rw [h] at hc
      simp at hc
    have hrem : (s.unit.dmaFrom.remaining - 1).toNat + 1 = s.unit.dmaFrom.remaining.toNat := by
      have := s.unit.dmaFrom.remaining.isLt
      rw [BitVec.toNat_sub]
      simp
      omega
    have hofc : (popOne q (qs ++ rest) s).ofc.toNat + 1 = s.ofc.toNat := by
      rw [← toNat_pred_of_ne ho]
      simp [popOne, memWrite, bumpMoved, State.ofc]
    have hpop : popLoop (qs.length + f + 1) s = popLoop (qs.length + f) (popOne q (qs ++ rest) s) := by
      conv_lhs => unfold popLoop outPop
      rw [hq]
      simp only [if_neg hr0, if_neg ho]
      rfl
    rw [List.length_cons, show qs.length + 1 + f = qs.length + f + 1 by omega, hpop]
    exact ih (popOne q (qs ++ rest) s) rfl (by rw [List.length_append]; omega)
      (by show qs.length ≤ (s.unit.dmaFrom.remaining - 1).toNat; omega)

/-- What `n` pops change, and what they leave alone. -/
theorem popped_spec (rest qs : List QWord) (s : State) :
    (popped rest qs s).mem = Memory.writeBytes s.unit.dmaFrom.memAddr (qwBytes qs) s.mem ∧
      (popped rest qs s).unit.fifoOut = (if qs = [] then s.unit.fifoOut else rest) ∧
      (popped rest qs s).unit.stall = (if qs = [] then s.unit.stall else putStall s.cfg.stallFlagOut false s.unit.stall) ∧
      (popped rest qs s).unit.dmaFrom = { s.unit.dmaFrom with
        memAddr := s.unit.dmaFrom.memAddr + BitVec.ofNat 32 (16 * qs.length)
        remaining := s.unit.dmaFrom.remaining - BitVec.ofNat 28 qs.length
        stalled := if qs = [] then s.unit.dmaFrom.stalled else false } ∧
      (popped rest qs s).moved = s.moved + qs.length ∧
      (∀ i, i < 4 ∨ 8 ≤ i → (popped rest qs s).unit.ctrl.getLsbD i = s.unit.ctrl.getLsbD i) ∧
      (qs.length ≤ s.ofc.toNat → (popped rest qs s).ofc.toNat + qs.length = s.ofc.toNat) ∧
      popped rest qs s = { s with
        mem := (popped rest qs s).mem, memWrites := (popped rest qs s).memWrites, result := (popped rest qs s).result
        unit := { s.unit with
        fifoOut := (popped rest qs s).unit.fifoOut, ctrl := (popped rest qs s).unit.ctrl
        stall := (popped rest qs s).unit.stall, dmaFrom := (popped rest qs s).unit.dmaFrom } } := by
  induction qs generalizing s with
  | nil => exact ⟨rfl, rfl, rfl, by simp [popped], rfl, fun _ _ => rfl, fun _ => rfl, rfl⟩
  | cons q qs ih =>
    obtain ⟨h1, h2, h3, h4, h5, h6, h7, h8⟩ := ih (popOne q (qs ++ rest) s)
    have e : popped rest (q :: qs) s = popped rest qs (popOne q (qs ++ rest) s) := rfl
    refine ⟨?_, ?_, ?_, ?_, ?_, ?_, ?_, ?_⟩
    · have m1 : (popOne q (qs ++ rest) s).mem = Memory.writeBytes s.unit.dmaFrom.memAddr ((List.range 16).map (qwByte q)) s.mem := rfl
      have m2 : (popOne q (qs ++ rest) s).unit.dmaFrom.memAddr = s.unit.dmaFrom.memAddr + BitVec.ofNat 32 16 := rfl
      have m3 : qwBytes (q :: qs) = (List.range 16).map (qwByte q) ++ qwBytes qs := by simp [qwBytes]
      rw [e, h1, m1, m2, m3, Memory.writeBytes_append]
      simp
    · rw [e, h2, if_neg (List.cons_ne_nil q qs)]
      split
      · rename_i hq
        show qs ++ rest = rest
        rw [hq, List.nil_append]
      · rfl
    · rw [e, h3, if_neg (List.cons_ne_nil q qs)]
      show (if qs = [] then putStall s.cfg.stallFlagOut false s.unit.stall
        else putStall s.cfg.stallFlagOut false (putStall s.cfg.stallFlagOut false s.unit.stall)) = _
      cases s.cfg.stallFlagOut <;> split <;> rfl
    · have n1 : s.unit.dmaFrom.memAddr + 16 + BitVec.ofNat 32 (16 * qs.length) =
          s.unit.dmaFrom.memAddr + BitVec.ofNat 32 (16 * (q :: qs).length) := by
        rw [List.length_cons, show 16 * (qs.length + 1) = 16 + 16 * qs.length by omega, BitVec.ofNat_add, ← BitVec.add_assoc]
        rfl
      have n2 : s.unit.dmaFrom.remaining - 1 - BitVec.ofNat 28 qs.length =
          s.unit.dmaFrom.remaining - BitVec.ofNat 28 (q :: qs).length := by
        apply BitVec.eq_of_toNat_eq
        have h1 : (1 : BitVec 28).toNat = 1 := rfl
        simp only [BitVec.toNat_sub, BitVec.toNat_ofNat, h1, List.length_cons]
        omega
      have n3 : (if qs = [] then false else false) = false := by simp
      rw [e, h4, if_neg (List.cons_ne_nil q qs)]
      show ({ s.unit.dmaFrom with
        memAddr := s.unit.dmaFrom.memAddr + 16 + BitVec.ofNat 32 (16 * qs.length)
        remaining := s.unit.dmaFrom.remaining - 1 - BitVec.ofNat 28 qs.length
        stalled := if qs = [] then false else false } : Transfer) = _
      rw [n1, n2, n3]
    · rw [e, h5]
      show s.moved + 1 + qs.length = _
      rw [List.length_cons]
      omega
    · intro i hi
      rw [e, h6 i hi]
      exact getLsbD_putField_other 4 _ _ i (by decide) (by omega)
    · intro hl
      rw [List.length_cons] at hl
      have ho : s.ofc ≠ 0 := by
        intro h
        rw [h] at hl
        simp at hl
      have hofc : (popOne q (qs ++ rest) s).ofc.toNat + 1 = s.ofc.toNat := by
        rw [← toNat_pred_of_ne ho]
        simp [popOne, memWrite, bumpMoved, State.ofc]
      have := h7 (by omega)
      rw [e, List.length_cons]
      omega
    · rw [e]
      exact h8.trans rfl

/-- The status after pops, where the call had set it before. -/
theorem popped_result (rest qs : List QWord) (s : State) (h : s.result = .status s.moved) :
    (popped rest qs s).result = .status (s.moved + qs.length) := by
  induction qs generalizing s with
  | nil => exact h
  | cons q qs ih =>
    refine (ih (popOne q (qs ++ rest) s) rfl).trans ?_
    show CallResult.status (s.moved + 1 + qs.length) = _
    rw [List.length_cons, Nat.add_assoc, Nat.add_comm 1]

/-- The writes `n` pops append to the history, one for each quadword at rising addresses (`20_memory.md` R92). -/
theorem popped_memWrites (rest qs : List QWord) (s : State) :
    (popped rest qs s).memWrites = s.memWrites ++ (List.range qs.length).map fun k =>
      ⟨s.unit.dmaFrom.memAddr + BitVec.ofNat 32 (16 * k), qs.getD k 0⟩ := by
  induction qs generalizing s with
  | nil => simp [popped]
  | cons q qs ih =>
    have h1 : (popOne q (qs ++ rest) s).memWrites = s.memWrites ++ [⟨s.unit.dmaFrom.memAddr, q⟩] := rfl
    have h2 (k : Nat) : (popOne q (qs ++ rest) s).unit.dmaFrom.memAddr + BitVec.ofNat 32 (16 * k) =
        s.unit.dmaFrom.memAddr + BitVec.ofNat 32 (16 * (k + 1)) := by
      show s.unit.dmaFrom.memAddr + 16 + BitVec.ofNat 32 (16 * k) = _
      rw [show 16 * (k + 1) = 16 + 16 * k by omega, BitVec.ofNat_add, ← BitVec.add_assoc]
      rfl
    rw [popped, ih, h1, List.append_assoc, List.length_cons, List.range_succ_eq_map]
    simp [h2, Function.comp_def]

end Sys2Proof.Machine
end

