-- ==== Sys2Proof/Tests/Slice0.lean ====
section
/-! SUPPORT. Tests. Expected values are those of `spec/95_test_vectors.md` (its part and section stand before each group) or
written out from the layouts of `30_encoding.md`. The last part shows, for every statement with hypotheses, a state and
operands that meet them. -/

namespace Sys2Proof.Machine.Tests

/-! ### Small states -/

/-- The configuration of `95_test_vectors.md` part 0, with some delays. -/
def cfg : UnitConfig :=
  { configDefault with irqPolicy := .inline, irqDelay := ⟨100, 50, 10⟩, stallFlagIn := .vifstall, stallFlagOut := .gifstall }

/-- `U0`. -/
def u0 : State := { State.reset with cfg := cfg }

/-- `qs` in the input FIFO. -/
def fed (qs : List QWord) (s : State) : State := (s.setFifoIn qs).setCtrl (putIFC (BitVec.ofNat 4 qs.length) s.unit.ctrl)

/-- `qs` in the output FIFO. -/
def out (qs : List QWord) (s : State) : State := (s.setFifoOut qs).setCtrl (putOFC (BitVec.ofNat 4 qs.length) s.unit.ctrl)

/-- The last `n ≤ 128` bits of a quadword in the cursor. -/
def cursor (n : Nat) (q : QWord) (s : State) : State :=
  s.setCur { s.unit.cur with slot := #v[q, 0], fp := 1, byteOfs := BitVec.ofNat 4 ((128 - n) / 8), bitOfs := BitVec.ofNat 3 (128 - n) }

/-- Command `w` in flight. -/
def flying (w p0 p1 : Word) (s : State) : State := (s.setCmd ⟨w, true, p0, p1, 0⟩).setCtrl (putBUSY true s.unit.ctrl)

/-- A library that answers one query. -/
def answering (q : LibQuery) (r : LibRequest) (s : State) : State := { s with cfg := { s.cfg with libTable := [(q, r)] } }

/-- A chain that stands before the fetch of the tag at `0x2000`. -/
def chained (s : State) : State :=
  s.setDmaTo { s.unit.dmaTo with inProgress := true, mode := .chain, tagFollow := .follow, nextMem := 0x2000 }

/-- What a next state must satisfy. -/
def after (o : Host.Outcome State Fault Refusal) (p : State → Bool) : Bool :=
  match o with
  | .next t => p t
  | .fault _ => false
  | .refused _ => false

/-- The first quadword of the vectors. -/
def q0 : QWord := 0x44332211F0DEBC9A78563412_0FF03CA5#128

/-! ### WellFormed refuses an ill-formed term for each of its checks -/

theorem test_wf_invalid101 : (Instr.invalid101 9 0).wf = false ∧ (Instr.invalid101 12 0).wf = false := by decide

theorem test_wf_invalid11 : (Instr.invalid11 11 0).wf = false := by decide

theorem test_wf_tagMalformed : (Instr.tagMalformed 3 ⟨0, 0, 0, 0, 0⟩).wf = false := by decide

/-! ### Decoding (2.4, 2.6) -/

theorem test_decode_bclr : decodeCommand 0b0000_000000000000000000000_0001001#32 = .bclr 9 0 := by decide

theorem test_decode_idec :
    decodeCommand 0b0001_1_1_1_1_000_11111_0000000000_000011#32 = .idec 3 31 true true true true 0 0 := by decide

theorem test_decode_idec_fields :
    decodeCommand 0b0001_0_1_0_1_101_10001_1000000001_100001#32 = .idec 33 17 true false true false 0b1000000001 5 := by decide

theorem test_decode_bdec :
    decodeCommand 0b0010_1_0_1_0000_00001_0000000000_000010#32 = .bdec 2 1 true false true 0 0 := by decide

theorem test_decode_vdec : decodeCommand 0b0011_11_00000000000000000000_000100#32 = .vdec 4 3 0 := by decide

theorem test_decode_fdec : decodeCommand 0b0100_0000000000000000000000_111111#32 = .fdec 63 0 := by decide

theorem test_decode_setiq : decodeCommand 0b0101_1_000000000000000000000_001000#32 = .setiq 8 true 0 := by decide

theorem test_decode_setvq : decodeCommand 0b0110_0000000000000000000000000000#32 = .setvq 0 := by decide

theorem test_decode_csc : decodeCommand 0b0111_1_1_000000000000000_11111111111#32 = .csc 2047 true true 0 := by decide

theorem test_decode_csc_dte : decodeCommand 0b0111_0_1_000000000000000_00000000001#32 = .csc 1 true false 0 := by decide

theorem test_decode_pack : decodeCommand 0b1000_1_0_000000000000000_00000000001#32 = .pack 1 false true 0 := by decide

theorem test_decode_setth : decodeCommand 0b1001_000_000100000_0000000_000010000#32 = .setth 0x10 0x20 0 0 := by decide

theorem test_decode_setth_unused : decodeCommand 0x9E20FE10#32 = .setth 0x10 0x20 127 7 := by decide

theorem test_decode_invalid101 :
    decodeCommand 0xA0000000#32 = .invalid101 10 0 ∧ decodeCommand 0xB0000001#32 = .invalid101 11 1 := by decide

theorem test_decode_invalid11 :
    decodeCommand 0xC0000000#32 = .invalid11 12 0 ∧ decodeCommand 0xF0000000#32 = .invalid11 15 0 := by decide

theorem test_decode_tagFollow : decodeTag 0x0000300000000002#128 = .tagFollow ⟨2, 0x3000, 0, 0, 0⟩ := by decide

theorem test_decode_tagQwc : decodeTag 0x00000010_9AB10003#128 = .tagQwc ⟨3, 0x10, 0xAB1, 1, 0⟩ := by decide

theorem test_decode_tagAddr : decodeTag 0x0000400520000001#128 = .tagAddr ⟨1, 0x4005, 0, 0, 0⟩ := by decide

theorem test_decode_tagNone : decodeTag 0x000000003000000A#128 = .tagNone ⟨10, 0, 0, 0, 0⟩ := by decide

theorem test_decode_tagMalformed : decodeTag 0x0000500050000003#128 = .tagMalformed 5 ⟨3, 0x5000, 0, 0, 0⟩ := by decide

theorem test_tag_bytes : encode (.tagAddr ⟨1, 0x4005, 0, 0, 0⟩) =
    [0x01, 0x00, 0x00, 0x20, 0x05, 0x40, 0x00, 0x00, 0, 0, 0, 0, 0, 0, 0, 0] := by decide

/-! ### One step each -/

/-- 2.1: `cmdWrite(0x00000009)` puts the cursor at bit 9. -/
theorem test_bclr : after (exec (.bclr 9 0) (fed [q0] u0)) (fun t => imageBP t == 9#32 && t.unit.ctrl == 0#32) = true := by
  decide

/-- 2.6, T6: IDEC with a library that is done at once. -/
theorem test_idec :
    after (exec (.idec 0 5 false false false false 0 0) (answering ⟨[], libParams (.idec 5 false false) u0.unit⟩
      (.done ⟨some 0x25, false, false, 0xA5⟩) u0)) (fun t => t.unit.ctrl == 0x00002500#32 && t.irqTrace == [IrqSrc.cmd]) = true := by
  decide

/-- BDEC has no data for `FB` bits to skip (`43_command_dispatcher.md` R256). -/
theorem test_bdec_waits :
    after (exec (.bdec 2 1 true false true 0 0) u0) (fun t => t.unit.ctrl == 0x80000000#32 && t.unit.lib == none) = true := by
  decide

/-- 2.6: VDEC with a library that is done at once. -/
theorem test_vdec :
    after (exec (.vdec 4 0 0) (answering ⟨[], libParams (.vdec 0) u0.unit⟩ (.done ⟨some 0x13, false, false, 0x53⟩)
      (fed [q0] u0)))
      (fun t => t.unit.cmdData == 0x53#32 && t.unit.ctrl == 0x00001300#32 && imageBP t == 0x00010004#32) = true := by decide

/-- 2.6 (a) and P1: FDEC skips 4 bits and looks at 32. -/
theorem test_fdec :
    after (exec (.fdec 4 0) (fed [q0] u0)) (fun t => t.unit.cmdData == 0x53CF00F1#32 && imageBP t == 0x00010004#32) = true := by
  decide

/-- 2.6 (a): with no data the skip itself is short. -/
theorem test_fdec_waits :
    after (exec (.fdec 4 0) u0) (fun t => t.unit.ctrl == 0x80000000#32 && t.unit.cmd.pos0 == 0#32) = true := by decide

/-- 2.6: SETIQ (a), suspended with 384 of 512 bits. -/
theorem test_setiq_waits :
    after (exec (.setiq 0 true 0) (fed [0, 0, 0] u0)) (fun t => t.unit.ctrl == 0x80000001#32 && imageBP t == 0x00020100#32) =
      true := by decide

/-- SETVQ (R246) waits for 256 bits and takes nothing. -/
theorem test_setvq_waits :
    after (exec (.setvq 0) (fed [0] u0)) (fun t => t.unit.ctrl == 0x80000000#32 && imageBP t == 0x00010000#32) = true := by
  decide

/-- 2.6: CSC with `MBC = 0`. -/
theorem test_csc_zero : after (exec (.csc 0 false false 0) u0) (fun t => t.irqTrace == [IrqSrc.cmd] && !t.unit.cmd.busy) =
    true := by decide

/-- P2, call 2: CSC waits for data. -/
theorem test_csc_waits : after (exec (.csc 1 false false 0) u0) (fun t => t.unit.ctrl == 0x80000000#32 && t.irqTrace == []) =
    true := by decide

theorem test_pack_zero : after (exec (.pack 0 false false 0) u0) (fun t => t.irqTrace == [IrqSrc.cmd]) = true := by decide

/-- 2.6: SETTH. -/
theorem test_setth :
    after (exec (.setth 0x10 0x20 0 0) u0) (fun t => t.unit.th0 == 16#9 && t.unit.th1 == 32#9 && t.unit.ctrl == 0#32) = true := by
  decide

/-- P4, call 2. -/
theorem test_setth_busy :
    after (exec (.setth 0x10 0x20 0 0) (flying 0x10050000 1 0 u0)) (fun t => t.unit.ctrl == 0x80004000#32 && t.unit.th0 == 0#9) =
      true := by decide

/-- 2.6: invalid opcodes. -/
theorem test_invalid101 : after (exec (.invalid101 10 0) u0) (fun t => t.unit.ctrl == 0x00004000#32) = true := by decide

/-- P4, call 3. -/
theorem test_invalid11 :
    after (exec (.invalid11 12 0) (flying 0x10050000 1 0 u0)) (fun t => t.unit.ctrl == 0x80004000#32 && t.unit.cmd.busy) =
      true := by decide

/-- 2.4, two descriptors, first kick. -/
theorem test_tagFollow :
    after (exec (.tagFollow ⟨2, 0x3000, 0, 0, 0⟩) (chained u0))
      (fun t => t.unit.ctrl == 2#32 && t.unit.dmaTo.memAddr == 0x2030#32 && t.unit.dmaTo.nextMem == 0x3000#32 && t.irqTrace == []) =
      true := by decide

theorem test_tagQwc :
    after (exec (.tagQwc ⟨1, 0x3000, 0, 0, 0⟩) (chained u0)) (fun t => t.unit.ctrl == 1#32 && t.unit.dmaTo.inProgress) = true := by
  decide

/-- 2.4, malformed chain, kick 2: the link is rounded down. -/
theorem test_tagAddr :
    after (exec (.tagAddr ⟨1, 0x4005, 0, 0, 0⟩) (chained u0)) (fun t => t.unit.dmaTo.nextMem == 0x4000#32) = true := by decide

/-- 2.4, two descriptors, second kick. -/
theorem test_tagNone :
    after (exec (.tagNone ⟨1, 0, 0, 0, 0⟩) (chained u0))
      (fun t => !t.unit.dmaTo.inProgress && t.unit.dmaTo.dmaFinished && t.irqTrace == [IrqSrc.toUnit]) = true := by decide

/-- 2.4, stall inside a payload. -/
theorem test_tagNone_stalls :
    after (exec (.tagNone ⟨10, 0, 0, 0, 0⟩) (chained u0))
      (fun t => t.unit.dmaTo.stalled && t.unit.dmaTo.remaining == 2#28 && t.unit.dmaTo.memAddr == 0x2090#32 && t.unit.stall.vif) =
      true := by decide

/-- 2.4, malformed chain, kick 3. -/
theorem test_tagMalformed :
    after (exec (.tagMalformed 5 ⟨3, 0x5000, 0, 0, 0⟩) (chained u0))
      (fun t => t.unit.ctrl == 0x00004000#32 && t.unit.dmaTo.stalled && t.unit.dmaTo.memAddr == 0#32) = true := by decide

/-- 2.8: a control write of all ones. -/
theorem test_ctrl_write :
    after (step (u0.setCalls [.regWrite32 0x10 0xFFFFFFFF])) (fun t => t.unit.ctrl == 0x47F30000#32) = true := by decide

/-- 2.8: a control write keeps every bit outside the mask. -/
theorem test_ctrl_write_mask : maskedCtrl 0x80004308 0 = 0x80004308#32 ∧ maskedCtrl 0 0x12345678 = 0x02300000#32 := by decide

/-- 2.8: `TOP` looks and changes nothing. -/
theorem test_top : regRead64 0x30 (fed [q0] u0) = 0x00000000A53CF00F#64 := by decide

/-- 2.9: simultaneous expiry. -/
theorem test_tick : (tickBy 5 (u0.setPend ⟨some 5, some 5, some 3⟩)).irqTrace = [.cmd, .toUnit, .fromUnit] := by decide

/-! ### Pixels (`44_color_space_converter.md` R292, R295, R296) -/

theorem test_yuv2rgb :
    yuv2rgb pixelDefault 16 128 128 = (0, 0, 0) ∧ yuv2rgb pixelDefault 235 128 128 = (255, 255, 255) ∧
      yuv2rgb pixelDefault 128 128 128 = (130, 130, 130) ∧ yuv2rgb pixelDefault 81 90 240 = (254, 0, 0) ∧
      yuv2rgb pixelDefault 145 54 34 = (0, 255, 1) ∧ yuv2rgb pixelDefault 41 240 110 = (0, 0, 255) ∧
      yuv2rgb pixelDefault 0 0 0 = (0, 154, 0) ∧ yuv2rgb pixelDefault 255 255 255 = (255, 125, 255) := by decide

theorem test_threshold :
    applyThreshold pixelDefault 10 10 10 16 32 = ⟨0, 0, 0, 0⟩ ∧
      applyThreshold pixelDefault 20 10 10 16 32 = ⟨20, 10, 10, 0x40⟩ ∧
      applyThreshold pixelDefault 40 0 0 16 32 = ⟨40, 0, 0, 0x80⟩ := by decide

theorem test_narrow16 :
    narrow16 pixelDefault ⟨130, 130, 130, 0⟩ 0 0 false = 0x8410#16 ∧
      narrow16 pixelDefault ⟨254, 0, 0, 0⟩ 0 0 false = 0x001F#16 ∧
      narrow16 pixelDefault ⟨0, 255, 1, 0⟩ 0 0 false = 0x07E0#16 ∧
      narrow16 pixelDefault ⟨255, 255, 255, 0⟩ 0 0 true = 0xFFDF#16 ∧
      narrow16 pixelDefault ⟨255, 255, 255, 0⟩ 1 1 true = 0xFFFF#16 := by decide

/-- An instance with functions of its own on the arguments it lists (`00_scope.md` R4, R5). -/
def grey : PixelMath :=
  { pixelDefault with
    yuvTable := [(⟨128, 128, 128⟩, (7, 8, 9))]
    thresholdTable := [(⟨7, 8, 9, 0, 0⟩, ⟨1, 2, 3, 4⟩)]
    narrowTable := [(⟨⟨1, 2, 3, 4⟩, 15, 15, true⟩, 5)]
    indexTable := [(⟨u0.unit.vqclut, ⟨1, 2, 3, 4⟩, 15, 15, true⟩, 6)] }

/-- They take the place of the defaults, on those arguments only. -/
theorem test_own_functions :
    yuv2rgb grey 128 128 128 = (7, 8, 9) ∧ yuv2rgb grey 81 90 240 = (254, 0, 0) ∧
      applyThreshold grey 7 8 9 0 0 = ⟨1, 2, 3, 4⟩ ∧ narrow16 grey ⟨1, 2, 3, 4⟩ 15 15 true = 5 ∧
      narrow16 grey ⟨254, 0, 0, 0⟩ 0 0 false = 0x001F#16 ∧
      index4 grey u0.unit.vqclut ⟨1, 2, 3, 4⟩ 15 15 true = 6 := by
  refine ⟨by decide, by decide, by decide, by decide, by decide, ?_⟩
  simp [index4, tableAnswer, grey]

/-! ### Every statement with hypotheses has a state and operands that meet them -/

/-- DecodeOfEncodeIsIdentity. -/
theorem test_witness_wf :
    (Instr.invalid101 11 0).wf = true ∧ (Instr.invalid11 15 0).wf = true ∧ (Instr.tagMalformed 4 ⟨0, 0, 0, 0, 0⟩).wf = true := by
  decide

/-- UnusedBitsAreIgnored. -/
theorem test_witness_unusedBits : sameFields (.setth 16 32 127 0) (.setth 16 32 0 7) ∧ u0.unit.cmd.busy = false ∧
    ∃ t, exec (.setth 16 32 127 0) u0 = .next t := ⟨⟨rfl, rfl⟩, rfl, _, rfl⟩

/-- StepRunsDecodedInstruction, the two writes of a command word. -/
theorem test_witness_step_command : (Instr.fdec 63 0).wf = true ∧ (Instr.fdec 63 0).port = .command ∧
    (u0.setCalls [.cmdWrite 0x4000003F, .tick 1]).calls = .cmdWrite (Instr.fdec 63 0).word :: [.tick 1] ∧
    (u0.setCalls [.regWrite32 0 0x4000003F]).calls = .regWrite32 0x00 (Instr.fdec 63 0).word :: [] :=
  ⟨by decide, by decide, congrArg (fun w => [Call.cmdWrite w, .tick 1]) (by decide),
    congrArg (fun w => [Call.regWrite32 0 w]) (by decide)⟩

/-- StepRunsDecodedInstruction, acceptance: the least and the greatest opcode, on an idle unit. -/
theorem test_witness_accepted : u0.unit.cmd.busy = false ∧ 1 ≤ ((0x10000000#32).extractLsb' 28 4).toNat ∧
    ((0x10000000#32).extractLsb' 28 4).toNat ≤ 9 ∧ 1 ≤ ((0x9FFFFFFF#32).extractLsb' 28 4).toNat ∧
    ((0x9FFFFFFF#32).extractLsb' 28 4).toNat ≤ 9 := by decide

/-- A kick in a state whose memory lists nothing: the sixteen bytes read are a tag of code FOLLOW. -/
def kicked (s : State) : State := s.setCalls [.dmaKickTo .chain 0x2000 0]

/-- StepRunsDecodedInstruction, the kick of a chain in progress and of a new one. -/
theorem test_witness_step_tag : (Instr.tagFollow ⟨0, 0, 0, 0, 0⟩).wf = true ∧ fetchEnabled (kicked (chained u0)) = true ∧
    (decode .tag ((List.range 16).map fun k =>
        Memory.read (kicked (chained u0)).mem ((kicked (chained u0)).unit.dmaTo.nextMem + BitVec.ofNat 32 k).toNat)).toOption =
      some (.tagFollow ⟨0, 0, 0, 0, 0⟩, []) ∧
    (kicked u0).unit.dmaTo.inProgress = false ∧
    (decode .tag ((List.range 16).map fun k => Memory.read (kicked u0).mem (align16 0x2000 + BitVec.ofNat 32 k).toNat)).toOption =
      some (.tagFollow ⟨0, 0, 0, 0, 0⟩, []) := by decide

/-- SetthLoadsThresholds. -/
theorem test_witness_setth : u0.unit.cmd.busy = false := rfl

/-- FdecShowsWithoutConsuming, with not a bit to spare. -/
theorem test_witness_fdec : (cursor 95 q0 u0).unit.cmd.busy = false ∧ InputCounted (cursor 95 q0 u0) ∧
    (63#6).toNat + 32 ≤ totalAvail (cursor 95 q0 u0) := ⟨rfl, rfl, by decide⟩

/-- FdecShowsWithoutConsuming, the dispatch step: in phase 0 and in phase 1, with not a bit to spare. -/
theorem test_witness_fdec_resumed :
    decodeCommand (flying 0x4000003F 0 0 (cursor 95 q0 u0)).unit.cmd.current = .fdec 63 0 ∧
    (flying 0x4000003F 0 0 (cursor 95 q0 u0)).unit.cmd.busy = true ∧
    InputCounted (flying 0x4000003F 0 0 (cursor 95 q0 u0)) ∧
    (if (flying 0x4000003F 0 0 (cursor 95 q0 u0)).unit.cmd.pos0 = 0 then (63#6).toNat else 0) + 32 ≤
      totalAvail (flying 0x4000003F 0 0 (cursor 95 q0 u0)) ∧
    (if (flying 0x4000003F 1 0 (cursor 32 q0 u0)).unit.cmd.pos0 = 0 then (63#6).toNat else 0) + 32 ≤
      totalAvail (flying 0x4000003F 1 0 (cursor 32 q0 u0)) := ⟨by decide, rfl, rfl, by decide, by decide⟩

/-- FdecWaitsForInput: one bit short of the look, and of the skip. -/
theorem test_witness_fdec_waits : InputCounted (cursor 94 q0 u0) ∧ InputCounted (cursor 62 q0 u0) ∧
    totalAvail (cursor 94 q0 u0) < (63#6).toNat + 32 ∧ (63#6).toNat ≤ totalAvail (cursor 94 q0 u0) ∧
    totalAvail (cursor 62 q0 u0) < (63#6).toNat := ⟨rfl, rfl, by decide, by decide, by decide⟩

/-- FdecWaitsForInput, the dispatch step: one bit short of the look in both phases, and of the skip. -/
theorem test_witness_fdec_resumed_waits : InputCounted (flying 0x4000003F 0 0 (cursor 94 q0 u0)) ∧
    totalAvail (flying 0x4000003F 0 0 (cursor 94 q0 u0)) < 63 + 32 ∧
    63 ≤ totalAvail (flying 0x4000003F 0 0 (cursor 94 q0 u0)) ∧
    totalAvail (flying 0x4000003F 0 0 (cursor 62 q0 u0)) < 63 ∧
    totalAvail (flying 0x4000003F 1 0 (cursor 31 q0 u0)) < 0 + 32 := ⟨rfl, by decide, by decide, by decide, by decide⟩

/-- SetiqLoadsTableOrWaits: just enough, and one bit short. -/
theorem test_witness_setiq : InputCounted (cursor 63 q0 (fed [0, 0, 0, 0] u0)) ∧
    InputCounted (cursor 62 q0 (fed [0, 0, 0, 0] u0)) ∧
    (63#6).toNat + 512 ≤ totalAvail (cursor 63 q0 (fed [0, 0, 0, 0] u0)) ∧
    totalAvail (cursor 62 q0 (fed [0, 0, 0, 0] u0)) < (63#6).toNat + 512 := ⟨rfl, rfl, by decide, by decide⟩

/-- SetiqLoadsTableOrWaits, the dispatch step. -/
theorem test_witness_setiq_resumed :
    decodeCommand (flying 0x5800003F 0 0 (cursor 63 q0 (fed [0, 0, 0, 0] u0))).unit.cmd.current = .setiq 63 true 0 ∧
    InputCounted (flying 0x5800003F 0 0 (cursor 63 q0 (fed [0, 0, 0, 0] u0))) ∧
    (63#6).toNat + 512 ≤ totalAvail (flying 0x5800003F 0 0 (cursor 63 q0 (fed [0, 0, 0, 0] u0))) ∧
    totalAvail (flying 0x5800003F 0 0 (cursor 62 q0 (fed [0, 0, 0, 0] u0))) < (63#6).toNat + 512 :=
  ⟨by decide, rfl, by decide, by decide⟩

/-- SetvqLoadsColoursOrWaits: just enough, and one bit short. -/
theorem test_witness_setvq : InputCounted (cursor 128 q0 (fed [0] u0)) ∧ InputCounted (cursor 127 q0 (fed [0] u0)) ∧
    256 ≤ totalAvail (cursor 128 q0 (fed [0] u0)) ∧ totalAvail (cursor 127 q0 (fed [0] u0)) < 256 :=
  ⟨rfl, rfl, by decide, by decide⟩

/-- SetvqLoadsColoursOrWaits, the dispatch step. -/
theorem test_witness_setvq_resumed :
    decodeCommand (flying 0x60000000 0 0 (cursor 128 q0 (fed [0] u0))).unit.cmd.current = .setvq 0 ∧
    InputCounted (flying 0x60000000 0 0 (cursor 128 q0 (fed [0] u0))) ∧
    256 ≤ totalAvail (flying 0x60000000 0 0 (cursor 128 q0 (fed [0] u0))) ∧
    totalAvail (flying 0x60000000 0 0 (cursor 127 q0 (fed [0] u0))) < 256 := ⟨by decide, rfl, by decide, by decide⟩

/-- ConvertersTakeFirstBytes: `MBC` zero and not, for both commands. -/
theorem test_witness_converters : u0.unit.cmd.busy = false ∧ InputCounted u0 ∧
    (∃ i mbc dte ofm unused, i = Instr.csc mbc dte ofm unused ∧ mbc = 0) ∧
    ∃ i mbc dte ofm unused, i = Instr.pack mbc dte ofm unused ∧ mbc ≠ 0 :=
  ⟨rfl, rfl, ⟨_, 0, false, false, 0, rfl, rfl⟩, _, 1, false, false, 0, rfl, by decide⟩

/-- ConvertersTakeFirstBytes, the dispatch step: one bit short of the rest of a macroblock, for both commands. -/
theorem test_witness_converters_resumed :
    decodeCommand (flying 0x70000001 0 368 (cursor 127 q0 u0)).unit.cmd.current = .csc 1 false false 0 ∧
    decodeCommand (flying 0x80000001 0 1008 (cursor 127 q0 u0)).unit.cmd.current = .pack 1 false false 0 ∧
    (flying 0x70000001 0 368 (cursor 127 q0 u0)).unit.cmd.index.toNat < (1#11).toNat ∧
    totalAvail (flying 0x70000001 0 368 (cursor 127 q0 u0)) < 8 * (384 - 368) ∧
    totalAvail (flying 0x80000001 0 1008 (cursor 127 q0 u0)) < 8 * (1024 - 1008) ∧
    InputCounted (flying 0x70000001 0 368 (cursor 127 q0 u0)) ∧ InputCounted (flying 0x80000001 0 1008 (cursor 127 q0 u0)) :=
  ⟨by decide, by decide, by decide, by decide, by decide, rfl, rfl⟩

/-- CscConvertsMacroblock: the last sixteen bytes of a macroblock are ahead, and none is wanted. -/
theorem test_witness_csc : (flying 0x70000001 0 368 (cursor 128 q0 u0)).unit.cmd.busy = true ∧
    decodeCommand (flying 0x70000001 0 368 (cursor 128 q0 u0)).unit.cmd.current = .csc 1 false false 0 ∧
    (flying 0x70000001 0 368 (cursor 128 q0 u0)).unit.cmd.index ≠ (1#11).setWidth 32 ∧
    (flying 0x70000001 0 368 (cursor 128 q0 u0)).unit.cmd.pos1 = BitVec.ofNat 32 368 ∧
    8 * (384 - 368) ≤ totalAvail (flying 0x70000001 0 368 (cursor 128 q0 u0)) ∧
    (flying 0x70000001 0 384 u0).unit.cmd.pos1 = BitVec.ofNat 32 384 ∧
    8 * (384 - 384) ≤ totalAvail (flying 0x70000001 0 384 u0) := by decide

/-- The counters of these states agree with their queues. -/
theorem test_witness_csc_counters : InputCounted (flying 0x70000001 0 368 (cursor 128 q0 u0)) ∧
    OutputCounted (flying 0x70000001 0 368 (cursor 128 q0 u0)) ∧ InputCounted (flying 0x88000001 0 1008 (cursor 128 q0 u0)) ∧
    OutputCounted (flying 0x88000001 0 1008 (cursor 128 q0 u0)) ∧ OutputCounted (flying 0x70000001 1 56 u0) :=
  ⟨rfl, rfl, rfl, rfl, rfl⟩

/-- PackTakesMacroblock, RGB16. -/
theorem test_witness_pack :
    decodeCommand (flying 0x88000001 0 1008 (cursor 128 q0 u0)).unit.cmd.current = .pack 1 false true 0 ∧
    (flying 0x88000001 0 1008 (cursor 128 q0 u0)).unit.cmd.index.toNat < (1#11).toNat ∧
    8 * (1024 - 1008) ≤ totalAvail (flying 0x88000001 0 1008 (cursor 128 q0 u0)) ∧
    outRoom (flying 0x88000001 0 1008 (cursor 128 q0 u0)) < (packFormat true).outCount := by decide

/-- PackTakesMacroblock, INDX4: eight quadwords into eight places, the last macroblock and another. -/
theorem test_witness_pack_whole :
    decodeCommand (flying 0x80000001 0 1008 (cursor 128 q0 u0)).unit.cmd.current = .pack 1 false false 0 ∧
    decodeCommand (flying 0x80000002 0 1008 (cursor 128 q0 u0)).unit.cmd.current = .pack 2 false false 0 ∧
    (packFormat false).outCount ≤ outRoom (flying 0x80000001 0 1008 (cursor 128 q0 u0)) ∧
    (flying 0x80000001 0 1008 (cursor 128 q0 u0)).unit.cmd.index.toNat + 1 = (1#11).toNat ∧
    (flying 0x80000002 0 1008 (cursor 128 q0 u0)).unit.cmd.index.toNat + 1 < (2#11).toNat := by decide

/-- ConvertersDrainAndComplete: nine quadwords left for eight places, and eight. -/
theorem test_witness_drain : Converting (flying 0x70000001 1 56 u0) 1 false (colourFormat false) ∧
    (flying 0x70000001 1 56 u0).unit.cmd.index.toNat + 1 = (1#11).toNat ∧
    outRoom (flying 0x70000001 1 55 u0) < (colourFormat false).outCount - 55 ∧
    (colourFormat false).outCount - 56 ≤ outRoom (flying 0x70000001 1 56 u0) ∧
    (flying 0x70000001 1 56 u0).unit.cmd.pos1 = BitVec.ofNat 32 56 :=
  ⟨⟨rfl, .inl ⟨false, 0, by decide, rfl⟩⟩, by decide, by decide, by decide, rfl⟩

/-- ConvertersDrainAndComplete, a macroblock that is not the last. -/
theorem test_witness_drain_next : Converting (flying 0x80000002 1 0 u0) 2 false (packFormat false) ∧
    (flying 0x80000002 1 0 u0).unit.cmd.index.toNat + 1 < (2#11).toNat ∧
    (packFormat false).outCount - 0 ≤ outRoom (flying 0x80000002 1 0 u0) ∧ InputCounted (flying 0x80000002 1 0 u0) ∧
    OutputCounted (flying 0x80000002 1 0 u0) :=
  ⟨⟨rfl, .inr ⟨false, 0, by decide, rfl⟩⟩, by decide, by decide, rfl, rfl⟩

/-- A library that is done at once, and exactly the `FB` bits ahead. -/
def doneAtOnce : State := answering ⟨[], libParams (.vdec 3) u0.unit⟩ (.done ⟨none, true, false, 7⟩) (cursor 63 q0 u0)

/-- SessionReportsResult. -/
theorem test_witness_session : librarySession (.vdec 63 3 0) = some (63, .vdec 3) ∧ doneAtOnce.unit.cmd.busy = false ∧
    InputCounted doneAtOnce ∧ (63#6).toNat ≤ totalAvail doneAtOnce ∧
    libNext doneAtOnce.cfg ⟨[], libParams (.vdec 3) doneAtOnce.unit⟩ = .done ⟨none, true, false, 7⟩ :=
  ⟨rfl, rfl, rfl, by decide, by decide⟩

/-- SessionWaitsForInput, short of the `FB` bits. -/
theorem test_witness_session_waits : librarySession (.idec 63 0 false false false false 0 0) = some (63, .idec 0 false false) ∧
    InputCounted (cursor 62 q0 u0) ∧ totalAvail (cursor 62 q0 u0) < (63#6).toNat := ⟨rfl, rfl, by decide⟩

/-- VDEC in flight in a phase, its library asking for four bits and done after them. -/
def asking (p0 : Word) (s : State) : State :=
  { flying 0x3C00003F p0 0 s with cfg := { s.cfg with libTable :=
    [(⟨[], libParams (.vdec 3) u0.unit⟩, .read 4), (⟨[.bits 5], libParams (.vdec 3) u0.unit⟩, .done ⟨none, true, false, 7⟩)] } }

/-- The session `asking` opens. -/
def asked : LibSession := ⟨libParams (.vdec 3) u0.unit, [], .read 4⟩

/-- SessionReportsResult and SessionWaitsForInput, the dispatch step that opens the session: `FB` bits are ahead, four more
are not. -/
theorem test_witness_session_begins : librarySession (decodeCommand (asking 0 (cursor 63 q0 u0)).unit.cmd.current) =
      some (63, .vdec 3) ∧
    (∃ u, SessionBegins 63 (.vdec 3) (asking 0 (cursor 63 q0 u0)) asked u ∧ ∃ w, serveCursor asked.req u = .wait w) ∧
    (asking 0 (cursor 62 q0 u0)).unit.cmd.pos0 = 0 ∧ InputCounted (asking 0 (cursor 62 q0 u0)) ∧
    totalAvail (asking 0 (cursor 62 q0 u0)) < (63#6).toNat :=
  ⟨by decide, ⟨_, .inl ⟨rfl, rfl, rfl, by decide⟩, _, rfl⟩, rfl, rfl, by decide⟩

/-- SessionReportsResult, the dispatch step that goes on with the session: the four bits (`0101`, the lower half of the
first byte) are read, and the library is done. -/
theorem test_witness_session_resumes :
    SessionBegins 63 (.vdec 3) ((asking 1 (cursor 124 q0 u0)).setLib (some asked)) asked
      ((asking 1 (cursor 124 q0 u0)).setLib (some asked)) ∧
    ∃ ses' v, SessionRun 1 asked ((asking 1 (cursor 124 q0 u0)).setLib (some asked)) ses' v ∧
      ses'.req = .done ⟨none, true, false, 7⟩ :=
  ⟨.inr ⟨rfl, rfl, rfl⟩, _, _, ⟨.bits 5, _, rfl, rfl, rfl⟩, by decide⟩

/-- SessionWaitsForInput, the command written: `FB` bits are ahead, the four the library asks for then are not. -/
theorem test_witness_session_written :
    librarySession (.vdec 63 3 0) = some (63, .vdec 3) ∧
    ∃ u w, skipBits 63 ((asking 0 (cursor 63 q0 u0)).setCmd Command.idle) = .ok () u ∧
      SessionRun 0 (libOpen (.vdec 3) ((asking 0 (cursor 63 q0 u0)).setCmd Command.idle)) u
        (libOpen (.vdec 3) ((asking 0 (cursor 63 q0 u0)).setCmd Command.idle)) u ∧
      (libOpen (.vdec 3) ((asking 0 (cursor 63 q0 u0)).setCmd Command.idle)).req = .read 4 ∧
      serveCursor (.read 4) u = .wait w := ⟨rfl, _, _, rfl, ⟨rfl, rfl⟩, by decide, rfl⟩

/-- 2.6: IDEC whose library asks for bits that are not there waits with the markers (1, 0, 0). -/
theorem test_idec_waits :
    after (exec (.idec 0 5 false false false false 0 0)
      (answering ⟨[], libParams (.idec 5 false false) u0.unit⟩ (.read 8) u0))
      (fun t => t.unit.cmd == ⟨0x10050000#32, true, 1, 0, 0⟩ && t.unit.ctrl == 0x80000000#32 && t.irqTrace == []) = true := by
  decide

/-- The session of these parameters, its request `req` outstanding. -/
def ses (req : LibRequest) : LibSession := ⟨libParams (.idec 0 false false) u0.unit, [], req⟩

/-- EmittedDataIsDrained, a macroblock. -/
theorem test_witness_emitMB :
    libNext (answering ⟨[], libParams (.idec 0 false false) u0.unit⟩ (.emitMB (Vector.replicate 384 1)) u0).cfg
      ⟨[], libParams (.idec 0 false false) u0.unit⟩ = .emitMB (Vector.replicate 384 1) ∧
    InputCounted u0 ∧ OutputCounted u0 ∧ u0.unit.fifoOut.length ≤ u0.cfg.fifoOutCap.toNat ∧ (0#6).toNat ≤ totalAvail u0 :=
  ⟨by simp [libNext, tableAnswer, answering], rfl, rfl, by decide, by decide⟩

/-- EmittedDataIsDrained, coefficients. -/
theorem test_witness_emitCoef :
    libNext (answering ⟨[], libParams (.bdec 0 false false true) u0.unit⟩ (.emitCoef (Vector.replicate 384 1)) u0).cfg
      ⟨[], libParams (.bdec 0 false false true) u0.unit⟩ = .emitCoef (Vector.replicate 384 1) :=
  by simp [libNext, tableAnswer, answering]

/-- EmittedDataIsDrained, the dispatch step that comes to an emit: as the outstanding request, under both commands. -/
theorem test_witness_emit_resumed :
    SessionBegins 0 (.idec 0 false false) ((flying 0x10000000 1 0 u0).setLib (some (ses (.emitMB (Vector.replicate 384 1)))))
      (ses (.emitMB (Vector.replicate 384 1)))
      ((flying 0x10000000 1 0 u0).setLib (some (ses (.emitMB (Vector.replicate 384 1))))) ∧
    (∃ mb total qw, Emits (flying 0x10000000 1 0 u0) (.idec 0 false false) (.emitMB (Vector.replicate 384 1)) mb total qw) ∧
    ∃ mb total qw, Emits (flying 0x20000000 1 0 u0) (.bdec 0 false false false) (.emitCoef (Vector.replicate 384 1)) mb total
      qw :=
  ⟨.inr ⟨rfl, rfl, rfl⟩, ⟨_, _, _, .inl ⟨0, 0, false, false, false, false, 0, 0, _, by decide, rfl, rfl, rfl, rfl, rfl⟩⟩,
    _, _, _, .inr ⟨0, 0, false, false, false, 0, 0, _, by decide, rfl, rfl, rfl, rfl, rfl⟩⟩

/-- No bit is ahead, the cursor stands inside a byte. -/
def insideByte : State := u0.setCur { u0.unit.cur with bitOfs := 1 }

/-- LibraryRequestsAreServed: each clause at the end of its range. -/
theorem test_witness_requests : InputCounted (cursor 63 q0 u0) ∧ InputCounted insideByte ∧
    63 ≤ totalAvail (cursor 63 q0 u0) ∧ totalAvail (cursor 62 q0 u0) < 63 ∧ 32 ≤ totalAvail (cursor 32 q0 u0) ∧
    totalAvail (cursor 31 q0 u0) < 32 ∧ 1 ≤ totalAvail (cursor 1 q0 u0) ∧ (cursor 128 q0 u0).unit.cur.bitOfs = 0 ∧
    insideByte.unit.cur.bitOfs ≠ 0 ∧ totalAvail insideByte = 0 :=
  ⟨rfl, rfl, by decide, by decide, by decide, by decide, by decide, by decide, by decide, by decide⟩

/-- A refill of four bytes (`40_bitstream_cursor.md` R144): 28 bits are there, one quadword is pulled. -/
theorem test_refill : ((refill 0 4 (cursor 28 q0 (fed [0, 0] u0))).map fun x =>
    (x.1, x.2.unit.cur.fp.val, x.2.unit.cur.ifcSnap, x.2.unit.fifoIn.length)) = some (19, 2, 1, 1) := by decide

/-- In phase 2, `p1` quadwords out; the library asks `next` after them. -/
def drainingTo (next : LibRequest) (w p1 : Word) (req : LibRequest) : State :=
  (answering ⟨[.unit], (ses req).params⟩ next (flying w 2 p1 u0)).setLib (some (ses req))

/-- In phase 2, the session done after the data. -/
def draining (w p1 : Word) (req : LibRequest) : State := drainingTo (.done ⟨some 5, false, true, 0⟩) w p1 req

/-- EmittedDataIsDrained, a step in phase 2: nine quadwords left for eight places, under both commands. -/
theorem test_witness_drained_part :
    (∃ qw, Draining (draining 0x10000000 55 .align) (ses .align) 64 qw 1) ∧
    (∃ qw, Draining (draining 0x20000000 39 (.emitCoef (Vector.replicate 384 3))) (ses (.emitCoef (Vector.replicate 384 3)))
      48 qw 0) ∧
    OutputCounted (draining 0x10000000 55 .align) ∧ (draining 0x10000000 55 .align).unit.cmd.pos1 = BitVec.ofNat 32 55 ∧
    outRoom (draining 0x10000000 55 .align) < 64 - 55 ∧ outRoom (draining 0x20000000 39 .align) < 48 - 39 :=
  ⟨⟨_, .inl ⟨0, 0, false, false, false, false, 0, 0, by decide, rfl, rfl, rfl⟩⟩,
    ⟨_, .inr ⟨0, 0, false, false, false, 0, 0, _, by decide, rfl, rfl, rfl, rfl⟩⟩, rfl, rfl, by decide, by decide⟩

/-- DrainedSessionGoesOn, IDEC, the library done. -/
theorem test_witness_drained_idec : OutputCounted (draining 0x10000000 56 .align) ∧
    decodeCommand (draining 0x10000000 56 .align).unit.cmd.current = .idec 0 0 false false false false 0 0 ∧
    (draining 0x10000000 56 .align).unit.cmd.pos1 = BitVec.ofNat 32 56 ∧
    (draining 0x10000000 56 .align).unit.fifoOut.length + (64 - 56) ≤
      (draining 0x10000000 56 .align).cfg.fifoOutCap.toNat ∧
    libNext (draining 0x10000000 56 .align).cfg ⟨.unit :: (ses .align).replies, (ses .align).params⟩ =
      .done ⟨some 5, false, true, 0⟩ :=
  ⟨rfl, by decide, rfl, by decide, by simp [libNext, tableAnswer, draining, drainingTo, answering, ses, State.setLib]⟩

/-- DrainedSessionGoesOn, BDEC. -/
theorem test_witness_drained_bdec :
    decodeCommand (draining 0x20000000 40 (.emitCoef (Vector.replicate 384 3))).unit.cmd.current =
      .bdec 0 0 false false false 0 0 ∧
    (draining 0x20000000 40 (.emitCoef (Vector.replicate 384 3))).unit.cmd.pos0 = 2 ∧
    (draining 0x20000000 40 (.emitCoef (Vector.replicate 384 3))).unit.fifoOut.length + (48 - 40) ≤
      (draining 0x20000000 40 (.emitCoef (Vector.replicate 384 3))).cfg.fifoOutCap.toNat := ⟨by decide, rfl, by decide⟩

/-- DrainedSessionGoesOn: the last eight quadwords fit, and the library then waits, or emits again. -/
theorem test_witness_drained_on :
    (∃ qw, Draining (drainingTo (.read 4) 0x10000000 56 .align) (ses .align) 64 qw 1) ∧
    (∃ ses' w, SessionRun 0 (libAnswer (drainingTo (.read 4) 0x10000000 56 .align).cfg (ses .align) .unit)
        (drainingTo (.read 4) 0x10000000 56 .align) ses' (drainingTo (.read 4) 0x10000000 56 .align) ∧
      serveCursor ses'.req (drainingTo (.read 4) 0x10000000 56 .align) = .wait w) ∧
    ∃ ses' mb total qw, SessionRun 0
        (libAnswer (drainingTo (.emitMB (Vector.replicate 384 1)) 0x10000000 56 .align).cfg (ses .align) .unit)
        (drainingTo (.emitMB (Vector.replicate 384 1)) 0x10000000 56 .align) ses'
        (drainingTo (.emitMB (Vector.replicate 384 1)) 0x10000000 56 .align) ∧
      Emits (drainingTo (.emitMB (Vector.replicate 384 1)) 0x10000000 56 .align) (.idec 0 false false) ses'.req mb total qw :=
  ⟨⟨_, .inl ⟨0, 0, false, false, false, false, 0, 0, by decide, rfl, rfl, rfl⟩⟩,
    ⟨_, _, ⟨rfl, rfl⟩, by simp [libNext, tableAnswer, libAnswer, drainingTo, answering, ses, State.setLib]; rfl⟩,
    _, _, _, _, ⟨rfl, rfl⟩, .inl ⟨0, 0, false, false, false, false, 0, 0, Vector.replicate 384 1, by decide, rfl,
      by simp [libNext, tableAnswer, libAnswer, drainingTo, answering, ses, State.setLib], rfl, rfl, rfl⟩⟩

/-- BusyCommandOnlySetsError, the least and the greatest opcode. -/
theorem test_witness_busy : (flying 0x10050000 1 0 u0).unit.cmd.busy = true ∧
    1 ≤ ((0x10000000#32).extractLsb' 28 4).toNat ∧ ((0x9FFFFFFF#32).extractLsb' 28 4).toNat ≤ 9 := by decide

/-- SuspendedRetryChangesNothing. -/
theorem test_witness_retry : InputCounted (flying 0x40000004 0 0 u0) ∧
    (∃ t, dispatchStep (flying 0x40000004 0 0 u0) = .stop t ∧ t.unit.cmd.busy = true) ∧
    (u0.setCalls [.dispatchStep, .tick 1]).unit.cmd.busy = false ∧
    (u0.setCalls [.dispatchStep, .tick 1]).calls = .dispatchStep :: [.tick 1] := ⟨rfl, ⟨_, rfl, rfl⟩, rfl, rfl⟩

/-- ContinuingTagMovesPayload and LastTagFinishesTransfer: a payload that just fits. -/
theorem test_witness_tag : fetchEnabled (chained u0) = true ∧ (chained u0).unit.dmaTo.irqTriggered = false ∧
    (chained u0).unit.fifoIn.length + (8#16).toNat ≤ (chained u0).cfg.fifoInCap.toNat := by decide

/-- The same states, their counter. -/
theorem test_witness_tag_counter : InputCounted (chained u0) := rfl

/-- TagPayloadStalls: one quadword too many. -/
theorem test_witness_tag_stalls : (chained u0).unit.fifoIn.length ≤ (chained u0).cfg.fifoInCap.toNat ∧
    inRoom (chained u0) < (9#16).toNat := by decide

/-- MalformedTagHaltsTransfer. -/
theorem test_witness_tagMalformed : fetchEnabled (chained u0) = true := by decide

/-- A chain halted by a malformed tag. -/
def halted : State := u0.setDmaTo { (chained u0).unit.dmaTo with stalled := true }

/-- HaltedTransferIgnoresKicks. -/
theorem test_witness_halted : halted.unit.dmaTo.inProgress = true ∧ halted.unit.dmaTo.mode = .chain ∧
    halted.unit.dmaTo.tagFollow = .follow ∧ halted.unit.dmaTo.stalled = true := ⟨rfl, rfl, rfl, rfl⟩

/-- NormalKickTransfersOrStalls: eight quadwords into the empty FIFO, and nine. -/
theorem test_witness_normal : u0.unit.dmaTo.inProgress = false ∧ (128#32).toNat % 16 = 0 ∧ (144#32).toNat % 16 = 0 ∧
    u0.unit.fifoIn.length + (128#32).toNat / 16 ≤ u0.cfg.fifoInCap.toNat ∧
    u0.unit.fifoIn.length ≤ u0.cfg.fifoInCap.toNat ∧ inRoom u0 < (144#32).toNat / 16 := by decide

/-- The worked example of `42_dma_tag_walker.md` R215: the first kick, and the second once the FIFO has been emptied. -/
theorem test_normal_stalls :
    after (kickTo .normal 0x1000 256 u0) (fun t => t.result == .status 8 && t.unit.dmaTo.remaining == 8#28 &&
      t.unit.dmaTo.memAddr == 0x1080#32 && t.unit.dmaTo.stalled && t.unit.ctrl == 8#32 && t.unit.stall.vif &&
      t.irqTrace == [] &&
      after (kickTo .chain 0 0 (fifoClear t)) (fun v => v.result == .status 8 && !v.unit.dmaTo.inProgress &&
        v.unit.dmaTo.dmaFinished && v.unit.dmaTo.irqTriggered && !v.unit.dmaTo.stalled && v.unit.ctrl == 8#32 &&
        v.irqTrace == [IrqSrc.toUnit])) = true := by decide

/-- A NORMAL transfer of `n` more quadwords. -/
def moving (n : BitVec 28) : State := u0.setDmaTo { u0.unit.dmaTo with inProgress := true, remaining := n }

/-- TransferResumes, a NORMAL transfer, both clauses where they meet. -/
theorem test_witness_resumes : InputCounted (moving 8) ∧ InputCounted (moving 9) ∧
    (moving 8).unit.dmaTo.mode = .normal ∧ (moving 8).unit.dmaTo.remaining.toNat ≤ inRoom (moving 8) ∧
    inRoom (moving 9) < (moving 9).unit.dmaTo.remaining.toNat := ⟨rfl, rfl, rfl, by decide, by decide⟩

/-- A chain stalled with eight quadwords of payload to move, its latched tag `t`. -/
def chainStalled (t : QWord) : State :=
  u0.setDmaTo { (moving 8).unit.dmaTo with mode := .chain, tagFollow := .qwc, stalled := true, tagWord := t }

/-- TransferResumes, a chain: its last tag and another, for both of which there is room, and one quadword more. -/
theorem test_witness_resumes_chain : InputCounted (chainStalled 0x300030000000#128) ∧
    decodeTag (chainStalled 0x00003000_30000000#128).unit.dmaTo.tagWord = .tagNone ⟨0, 0x3000, 0, 0, 0⟩ ∧
    decodeTag (chainStalled 0x00003000_00000000#128).unit.dmaTo.tagWord = .tagFollow ⟨0, 0x3000, 0, 0, 0⟩ ∧
    1 ≤ (chainStalled 0).unit.dmaTo.remaining.toNat ∧
    (chainStalled 0).unit.dmaTo.remaining.toNat ≤ inRoom (chainStalled 0) ∧
    inRoom (fed [0] (chainStalled 0)) < (fed [0] (chainStalled 0)).unit.dmaTo.remaining.toNat ∧
    (fed [0] (chainStalled 0)).unit.fifoIn.length ≤ (fed [0] (chainStalled 0)).cfg.fifoInCap.toNat :=
  ⟨rfl, by decide, by decide, by decide, by decide, by decide, by decide⟩

/-- An out-of-unit transfer of `n` more quadwords, two in the output FIFO. -/
def storing (n : BitVec 28) : State := out [1, 2] (u0.setDmaFrom { u0.unit.dmaFrom with inProgress := true, remaining := n })

/-- OutTransferStoresQuadwords, both clauses where they meet. -/
theorem test_witness_out : OutputCounted (storing 2) ∧ OutputCounted (storing 3) ∧ Memory.wf (storing 2).mem ∧
    (storing 2).unit.dmaFrom.irqTriggered = false ∧
    (storing 2).unit.dmaFrom.remaining.toNat ≤ (storing 2).unit.fifoOut.length ∧
    (storing 3).unit.fifoOut.length < (storing 3).unit.dmaFrom.remaining.toNat :=
  ⟨rfl, rfl, by decide, rfl, by decide, by decide⟩

/-- OutTransferStoresQuadwords, the start. -/
theorem test_witness_out_start : u0.unit.dmaFrom.inProgress = false ∧ (32#32).toNat % 16 = 0 := by decide

/-- Two quadwords go out of the unit: each is one write of the history (`20_memory.md` R92). -/
theorem test_out_writes :
    after (kickFrom 0x105 32 (out [1, 2] u0)) (fun t => t.memWrites == [⟨0x100, 1⟩, ⟨0x110, 2⟩]) = true := by decide

/-- StepRunsDecodedInstruction, its clauses on calls, AbortResetsOneTransfer, SoftResetClearsProgress,
HardResetLeavesResetValues and the register accesses: a call that waits. -/
theorem test_witness_calls (c : Call) : (u0.setCalls [c]).calls = c :: [] := rfl

/-- ControlWriteIsMasked, each clause. -/
theorem test_witness_ctrl : (0xBFFFFFFF#32).getLsbD 30 = false ∧ (0x40000000#32).getLsbD 30 = true := by decide

/-- RegisterReadsArePureImages and OtherRegisterWritesAreIgnored: offsets outside the image. -/
theorem test_witness_offsets : (0x40 ≠ 0x00 ∧ 0x40 ≠ 0x10 ∧ 0x40 ≠ 0x20 ∧ 0x40 ≠ 0x30) ∧ (0x20 ≠ 0x00 ∧ 0x20 ≠ 0x10) := by
  decide

/-- TopShowsWhatFdecWouldLookAt, both clauses where they meet. -/
theorem test_witness_top : InputCounted (cursor 32 q0 u0) ∧ (cursor 32 q0 u0).unit.cmd.busy = false ∧
    32 ≤ totalAvail (cursor 32 q0 u0) ∧ totalAvail (cursor 31 q0 u0) < 32 ∧ (flying 0x10050000 1 0 u0).unit.cmd.busy = true :=
  ⟨rfl, rfl, by decide, by decide, rfl⟩

/-- SavedImageRestores, each clause. -/
theorem test_witness_saved : u0.unit.cmd.busy = false ∧ u0.unit.dmaTo.inProgress = false ∧
    u0.unit.dmaFrom.inProgress = false ∧ (moving 1).unit.dmaTo.inProgress = true ∧ u0.cfg = (moving 1).cfg ∧
    (answering ⟨[], libParams (.vdec 3) u0.unit⟩ .align u0).cfg.libTable ≠ u0.cfg.libTable :=
  ⟨rfl, rfl, rfl, rfl, rfl, nofun⟩

/-- ReadsAssociate: two reads of 32 bits, and two of 16 that one read of 32 equals. -/
theorem test_witness_reads : InputCounted (cursor 64 q0 u0) ∧ 32 + 32 ≤ totalAvail (cursor 64 q0 u0) ∧
    16 + 16 ≤ totalAvail (cursor 32 q0 u0) := ⟨rfl, by decide, by decide⟩

/-- ShortReadsConsumeNothing, each clause where they meet. -/
theorem test_witness_short : InputCounted (cursor 31 q0 u0) ∧ insideByte.unit.cur.bitOfs ≠ 0 ∧ totalAvail insideByte = 0 ∧
    1 ≤ totalAvail (cursor 1 q0 u0) ∧ totalAvail (cursor 31 q0 u0) < 32 ∧
    32 ≤ totalAvail (cursor 32 q0 u0) ∧ totalAvail (cursor 62 q0 u0) < 63 ∧ 63 ≤ totalAvail (cursor 63 q0 u0) :=
  ⟨rfl, by decide, by decide, by decide, by decide, by decide, by decide, by decide⟩

/-- PeekThenReadAgree. -/
theorem test_witness_peek : InputCounted (cursor 32 q0 u0) ∧ ∃ v t, peekBits 32 (cursor 32 q0 u0) = .ok v t :=
  ⟨rfl, _, _, rfl⟩

/-- IndexIsNearestColour: the last entry, and an instance that lists an answer for another pixel only. -/
theorem test_witness_index : 15 < 16 ∧
    Unlisted [((⟨u0.unit.vqclut, ⟨1, 0, 0, 0⟩, 15, 15, false⟩ : IndexQuery), 9#4)]
      ⟨u0.unit.vqclut, ⟨0, 0, 0, 0⟩, 15, 15, false⟩ := by
  refine ⟨by decide, fun b h => ?_⟩
  simp [Machine.Pixel.mk.injEq] at h

/-- OutputQuadwordBytes, EachPixelIsConverted: a listed answer. -/
theorem test_witness_listed :
    Answers grey.yuvTable ⟨128, 128, 128⟩ (7, 8, 9) ∧ Answers grey.thresholdTable ⟨7, 8, 9, 0, 0⟩ ⟨1, 2, 3, 4⟩ ∧
      Answers grey.narrowTable ⟨⟨1, 2, 3, 4⟩, 15, 15, true⟩ 5 ∧
      Answers grey.indexTable ⟨u0.unit.vqclut, ⟨1, 2, 3, 4⟩, 15, 15, true⟩ 6 ∧ Unlisted grey.yuvTable ⟨129, 128, 128⟩ := by
  refine ⟨⟨?_, ?_⟩, ⟨?_, ?_⟩, ⟨?_, ?_⟩, ⟨?_, ?_⟩, ?_⟩ <;> simp [grey, Unlisted]

/-- EachPixelIsConverted: the last pixel, below the threshold and at it, and the default functions. -/
theorem test_witness_pixel :
    Unlisted pixelDefault.yuvTable ⟨128, 128, 128⟩ ∧ Unlisted pixelDefault.thresholdTable ⟨130, 130, 130, 131, 0⟩ ∧
    Unlisted pixelDefault.narrowTable ⟨⟨130, 130, 130, 0⟩, 15, 15, true⟩ ∧
    yuv2rgb pixelDefault ((Vector.replicate 384 128).getD (16 * 15 + 15) 0)
      ((Vector.replicate 384 128).getD (256 + 8 * (15 / 2) + 15 / 2) 0)
      ((Vector.replicate 384 128).getD (320 + 8 * (15 / 2) + 15 / 2) 0) = (130, 130, 130) ∧
    (130#8).toNat < (131#9).toNat ∧ ¬ (130#8).toNat < (130#9).toNat := by
  have h (i : Nat) (hi : i < 384) : (Vector.replicate 384 (128 : Byte)).getD i 0 = 128 := by simp [Vector.getD, hi]
  refine ⟨nofun, nofun, nofun, ?_⟩
  rw [h _ (by decide), h _ (by decide), h _ (by decide)]
  decide

/-- StoredQuadwordIsReadBack. -/
theorem test_witness_memory : Memory.wf [(5, 1#8), (0xFFFFFFFF, 2#8)] := by decide

/-- A session that asks for one byte too many. -/
def greedy : State := (flying 0x10000000 1 0 u0).setLib (some (ses (.refill 0 33)))

/-- LibraryRequestsAreServed, the dispatch step: a request that faults, one that is refused, and an emit under the wrong
command. -/
theorem test_witness_step_stops :
    SessionBegins 0 (.idec 0 false false) greedy (ses (.refill 0 33)) greedy ∧
    serveCursor (ses (.refill 0 33)).req greedy = .fault .refillOverCapacity ∧
    serveCursor (ses (.read 0)).req u0 = .refused .badWidth ∧
    (∃ coef, (ses (.emitCoef (Vector.replicate 384 1))).req = .emitCoef coef) ∧
    (∀ qsc dt dcr mbi, LibCommand.idec 0 false false ≠ .bdec qsc dt dcr mbi) ∧
    (∃ raw, (ses (.emitMB (Vector.replicate 384 1))).req = .emitMB raw) ∧
    ∀ qsc dtd sgn, LibCommand.vdec 3 ≠ .idec qsc dtd sgn :=
  ⟨.inr ⟨rfl, rfl, rfl⟩, rfl, rfl, ⟨_, rfl⟩, nofun, ⟨_, rfl⟩, nofun⟩

/-- A library that asks to align 1025 times. -/
def aligning : LibTable :=
  (List.range 1025).map fun k => (⟨List.replicate k .unit, libParams (.vdec 3) u0.unit⟩, .align)

/-- What that library asks for. -/
theorem libNext_aligning (c : UnitConfig) (hc : c.libTable = aligning) (k : Nat) (hk : k ≤ 1024) :
    libNext c ⟨List.replicate k .unit, libParams (.vdec 3) u0.unit⟩ = .align := by
  unfold libNext tableAnswer
  rw [hc]
  have hmem : (⟨List.replicate k .unit, libParams (.vdec 3) u0.unit⟩, .align) ∈ aligning :=
    List.mem_map.2 ⟨k, List.mem_range.2 (by omega), rfl⟩
  cases h : aligning.find? fun e => decide (e.1 = ⟨List.replicate k .unit, libParams (.vdec 3) u0.unit⟩) with
  | none => exact absurd (List.find?_eq_none.1 h _ hmem) (by simp)
  | some e =>
    obtain ⟨j, -, rfl⟩ := List.mem_map.1 (List.mem_of_find?_eq_some h)
    rfl

/-- The run of that library's session. -/
theorem sessionRun_aligning (n k : Nat) (s : State) (hs : s.cfg.libTable = aligning) (hb : s.unit.cur.bitOfs = 0)
    (hk : k + n ≤ 1024) : ∃ v, SessionRun n ⟨libParams (.vdec 3) u0.unit, List.replicate k .unit, .align⟩ s
      ⟨libParams (.vdec 3) u0.unit, List.replicate (k + n) .unit, .align⟩ v := by
  induction n generalizing k s with
  | zero => exact ⟨s, rfl, rfl⟩
  | succ n ih =>
    obtain ⟨v, hv⟩ := ih (k + 1) (snapIfc s) hs hb (by omega)
    have e : libAnswer s.cfg ⟨libParams (.vdec 3) u0.unit, List.replicate k .unit, .align⟩ .unit =
        ⟨libParams (.vdec 3) u0.unit, List.replicate (k + 1) .unit, .align⟩ := by
      have := libNext_aligning s.cfg hs (k + 1) (by omega)
      rw [List.replicate_succ] at this ⊢
      simp only [libAnswer, this]
    refine ⟨v, .unit, snapIfc s, by simp [serveCursor, alignByte, hb, Take.served], ?_⟩
    rw [e, show k + (n + 1) = k + 1 + n by omega]
    exact hv

/-- The command of that library in phase 1. -/
def aligned : State :=
  { (flying 0x3C00003F 1 0 u0).setLib (some ⟨libParams (.vdec 3) u0.unit, List.replicate 0 .unit, .align⟩) with
    cfg := { cfg with libTable := aligning } }

/-- LibraryRequestsAreServed, a dispatch step that is cut: 1024 requests are answered. -/
theorem test_witness_step_cut :
    SessionBegins 63 (.vdec 3) aligned ⟨libParams (.vdec 3) u0.unit, List.replicate 0 .unit, .align⟩ aligned ∧ ∃ ses' v,
    SessionRun 1024 ⟨libParams (.vdec 3) u0.unit, List.replicate 0 .unit, .align⟩ aligned ses' v :=
  ⟨.inr ⟨rfl, rfl, rfl⟩, _, sessionRun_aligning 1024 0 aligned (by simp only [aligned]) (by decide) (by omega)⟩

/-- OnlyOversizedRefillFaults. -/
theorem test_witness_fault : step (greedy.setCalls [.dispatchStep]) = .fault .refillOverCapacity := rfl

/-- OnlyBrokenContractStops: a read of no bits. -/
theorem test_witness_stops (t : State) :
    exec (.vdec 0 3 0) (answering ⟨[], libParams (.vdec 3) u0.unit⟩ (.read 0) u0) ≠ .next t := by
  have h : exec (.vdec 0 3 0) (answering ⟨[], libParams (.vdec 3) u0.unit⟩ (.read 0) u0) = .refused .badWidth := by rfl
  rw [h]
  nofun

/-- OneSourcePerCall, OnlyOutTransferWritesMemory and InstructionsKeepHostBits: a call and an instruction that complete. -/
theorem test_witness_next : (∃ t, step (u0.setCalls [.cmdWrite 0x90200010]) = .next t) ∧
    (∃ t, step (u0.setCalls [.hardReset]) = .next t) ∧ (∃ t, step (u0.setCalls [.tick 3]) = .next t) ∧
    ∃ t, exec (.setth 16 32 0 0) u0 = .next t := ⟨⟨_, rfl⟩, ⟨_, rfl⟩, ⟨_, rfl⟩, _, rfl⟩

/-- CountersFollowQueues, CommandStateStaysConsistent, TransfersStayConsistent, ReservedStateStaysZero, SlotsStayLegal: they
hold of a state with a call to make, none of which restores an image. -/
theorem test_witness_held (P : UnitConfig → UnitState → Prop) (h : P cfg UnitState.reset) :
    Held P (u0.setCalls [.tick 3]) ∧ ∃ t, step (u0.setCalls [.tick 3]) = .next t :=
  ⟨⟨h, fun _ hm => by simp [State.setCalls] at hm⟩, _, rfl⟩

/-- The unit after reset meets the invariants. -/
theorem test_witness_invariants : FifoInv cfg UnitState.reset ∧ ReservedInv UnitState.reset ∧ HasNewInv UnitState.reset ∧
    DmaInv UnitState.reset := by
  simp only [FifoInv, ReservedInv, HasNewInv, DmaInv, StatusInv, ChainInv, AlignedInv]
  exact ⟨by decide, by decide, rfl, by decide, by decide, by decide, by decide, by decide, rfl, rfl, rfl, rfl⟩

/-- The command state after reset meets its invariants; so does the slots' under the inline policy. -/
theorem test_witness_invariants_command :
    CommandInv UnitState.reset ∧ IndexInv UnitState.reset ∧ PendInv cfg UnitState.reset := by
  refine ⟨by simp only [CommandInv, Command.opcode]; decide, nofun, fun src c h => ?_⟩
  cases src <;> cases h

/-- The index invariant of a PACK of two macroblocks that has finished one. -/
theorem test_witness_index_inv : IndexInv ((flying 0x80000002 0 0 u0).setCmd ⟨0x80000002, true, 0, 0, 1⟩).unit := by
  intro _ mbc dte ofm unused h
  change decodeCommand 0x80000002#32 = _ ∨ decodeCommand 0x80000002#32 = _ at h
  rw [show decodeCommand 0x80000002#32 = .pack 2 false false 0 by decide] at h
  simp only [Instr.pack.injEq, reduceCtorEq, false_or] at h
  rw [← h.1]
  decide

/-- MemoryStaysCanonical. -/
theorem test_witness_canonical : Memory.wf (u0.setCalls [.hostStore 0xFFFFFFFF [1, 2]]).mem ∧
    ∃ t, step (u0.setCalls [.hostStore 0xFFFFFFFF [1, 2]]) = .next t := ⟨by decide, _, rfl⟩

end Sys2Proof.Machine.Tests
end

section
/-! SUPPORT. Who writes host memory, its history and the configuration: every elementary change of the unit leaves all
three, so every instruction and every call but two does (`46_operation_classes_and_laws.md` R274, `20_memory.md` R92,
`00_scope.md` R5). -/

namespace Sys2Proof.Machine

/-! ### Frames -/

/-- Configuration, host memory and the history of the unit's writes to it are those of `s`. -/
structure HostKept (s t : State) : Prop where
  cfg : t.cfg = s.cfg
  mem : t.mem = s.mem
  memWrites : t.memWrites = s.memWrites

/-- The configuration is that of `s`, and the history of the unit's writes to host memory goes on from that of `s`. -/
structure HistoryExtends (s t : State) : Prop where
  cfg : t.cfg = s.cfg
  memWrites : s.memWrites <+: t.memWrites

theorem HostKept.refl (s : State) : HostKept s s := ⟨rfl, rfl, rfl⟩

theorem HostKept.trans {s t u : State} (h : HostKept s t) (g : HostKept t u) : HostKept s u :=
  ⟨g.cfg.trans h.cfg, g.mem.trans h.mem, g.memWrites.trans h.memWrites⟩

theorem HostKept.sameMemory {s t : State} (h : HostKept s t) : SameMemory s t := fun a => by rw [h.mem]

theorem HostKept.historyExtends {s t : State} (h : HostKept s t) : HistoryExtends s t :=
  ⟨h.cfg, by rw [h.memWrites]⟩

theorem HistoryExtends.trans {s t u : State} (h : HistoryExtends s t) (g : HistoryExtends t u) : HistoryExtends s u :=
  ⟨g.cfg.trans h.cfg, h.memWrites.trans g.memWrites⟩

/-! ### The shared operations -/

theorem setDmaTo_hostKept (s : State) (v : Transfer) : HostKept s (s.setDmaTo v) := ⟨rfl, rfl, rfl⟩

theorem setDmaFrom_hostKept (s : State) (v : Transfer) : HostKept s (s.setDmaFrom v) := ⟨rfl, rfl, rfl⟩

theorem setResult_hostKept (s : State) (v : CallResult) : HostKept s (s.setResult v) := ⟨rfl, rfl, rfl⟩

theorem setCalls_hostKept (s : State) (v : List Call) : HostKept s (s.setCalls v) := ⟨rfl, rfl, rfl⟩

theorem acceptCommand_hostKept (w : Word) (s : State) : HostKept s (acceptCommand w s) := ⟨rfl, rfl, rfl⟩

theorem rejectCommand_hostKept (r : RejectReason) (s : State) : HostKept s (rejectCommand r s) := ⟨rfl, rfl, rfl⟩

theorem latchTag_hostKept (t : QWord) (s : State) : HostKept s (latchTag t s) := ⟨rfl, rfl, rfl⟩

/-- BCLR clears the command, both FIFOs and the cursor before it raises its interrupt (R240). -/
theorem cleared_hostKept (bp : BitVec 7) (s : State) :
    HostKept s (cursorReset bp (fifoClear (clearCommand s))) := ⟨rfl, rfl, rfl⟩

theorem InputOnly.hostKept {s t : State} (h : InputOnly s t) : HostKept s t := by
  obtain ⟨e, -⟩ := h
  rw [e]
  exact ⟨rfl, rfl, rfl⟩

theorem raise_hostKept (src : IrqSrc) (s : State) : HostKept s (raise src s) := by
  rw [raise_eq]
  exact ⟨rfl, rfl, rfl⟩

theorem complete_hostKept (s : State) : HostKept s (complete s) := by
  rw [(complete_spec s).2]
  exact ⟨rfl, rfl, rfl⟩

theorem outPut_hostKept {q : QWord} {s t : State} (h : outPut q s = some t) : HostKept s t := by
  rcases outPut_spec q s with ⟨-, u, hu, -, -, -, -, e⟩ | ⟨-, hn⟩
  · obtain rfl : u = t := Option.some.inj (hu.symm.trans h)
    rw [e]
    exact ⟨rfl, rfl, rfl⟩
  · exact nomatch hn.symm.trans h

theorem outPop_hostKept (s : State) : HostKept s (outPop s).1 := by
  unfold outPop
  dsimp only
  split
  · exact ⟨rfl, rfl, rfl⟩
  · split <;> exact ⟨rfl, rfl, rfl⟩

theorem finishTo_hostKept (s : State) : HostKept s (finishTo s) := by
  unfold finishTo
  dsimp only
  split
  · exact setDmaTo_hostKept s _
  · exact (setDmaTo_hostKept s _).trans (raise_hostKept _ _)

theorem finishFrom_hostKept (s : State) : HostKept s (finishFrom s) := by
  unfold finishFrom
  dsimp only
  split
  · exact setDmaFrom_hostKept s _
  · exact (setDmaFrom_hostKept s _).trans (raise_hostKept _ _)

/-! ### Commands -/

theorem Move.hostKept {lib : Bool} {s t : State} (h : Move lib s t) : HostKept s t := by
  cases h with
  | take h => exact (inputOnly_inTake h).1.hostKept
  | put h => exact outPut_hostKept h
  | _ => exact ⟨rfl, rfl, rfl⟩

theorem Moves.hostKept {lib : Bool} {s t : State} (h : Moves lib s t) : HostKept s t :=
  h.induct (HostKept s) (fun _ _ hm hk => hk.trans hm.hostKept) (.refl s)

theorem Flow.Within.hostKept {lib : Bool} {s t : State} {f : Flow} (h : f.Within lib s) (e : f.outcome = .next t) :
    HostKept s t := by
  rcases Flow.outcome_next e with rfl | rfl | ⟨u, rfl, rfl⟩
  · exact Moves.hostKept h
  · rcases h with h | ⟨u, h, rfl⟩
    · exact h.hostKept
    · exact h.hostKept.trans (complete_hostKept u)
  · exact (Moves.hostKept h).trans (setCalls_hostKept u _)

theorem dispatchStep_hostKept {s t : State} (h : (dispatchStep s).outcome = .next t) : HostKept s t := by
  unfold dispatchStep at h
  split at h
  · exact (commandStep_within s).hostKept h
  · cases h
    exact .refl s

theorem exec_command_hostKept {i : Instr} {s t : State} (hp : i.port = .command) (h : exec i s = .next t) :
    HostKept s t := by
  rcases exec_command_cases i s hp with ⟨bp, -, -, e⟩ | ⟨r, e⟩ | ⟨-, f, hf, e⟩ <;> rw [e] at h
  · cases h
    exact ((cleared_hostKept bp s).trans (raise_hostKept .cmd _)).trans (setResult_hostKept _ _)
  · cases h
    exact rejectCommand_hostKept r s
  · exact (acceptCommand_hostKept i.word s).trans (hf.hostKept h)

/-! ### The into-unit walker and the tags -/

theorem pushPayload_hostKept {s t : State} (h : pushPayload s = .step t ∨ pushPayload s = .stall t) : HostKept s t := by
  rw [pushPayload_eq] at h
  split at h <;> rcases h with h | h <;> cases h <;> exact ⟨rfl, rfl, rfl⟩

theorem microStep_hostKept {s t : State} (h : microStep s = .step t ∨ microStep s = .stall t) : HostKept s t := by
  rcases microStep_cases (s := s) rfl with e | ⟨e, -⟩ | ⟨-, ⟨e, -⟩ | ⟨e, -⟩ | ⟨-, ⟨e, -⟩ | ⟨e, -⟩ | ⟨e, -⟩ | ⟨e, -⟩⟩⟩ <;>
    rw [e] at h
  case inr.inr.inl => exact pushPayload_hostKept h
  all_goals rcases h with h | h <;> cases h
  · exact finishTo_hostKept s
  · exact ⟨rfl, rfl, rfl⟩
  · exact ⟨rfl, rfl, rfl⟩
  · exact finishTo_hostKept s
  · exact ⟨rfl, rfl, rfl⟩

theorem runMicro_hostKept (n : Nat) (s : State) : HostKept s (runMicro n s) :=
  runMicro_induct (HostKept s) (fun _ _ hk h => hk.trans (microStep_hostKept (.inl h)))
    (fun _ _ hk h => hk.trans (microStep_hostKept (.inr h))) n s (.refl s)

theorem exec_tag_hostKept {i : Instr} {s t : State} (hp : i.port = .tag) (h : exec i s = .next t) : HostKept s t := by
  rcases exec_tag_cases i s hp with ⟨-, e⟩ | ⟨-, -, e⟩ | ⟨-, e⟩ <;> rw [e] at h <;> cases h
  · exact .refl s
  · exact ⟨rfl, rfl, rfl⟩
  · exact ((setResult_hostKept s _).trans (latchTag_hostKept _ _)).trans (runMicro_hostKept _ _)

theorem exec_hostKept {i : Instr} {s t : State} (h : exec i s = .next t) : HostKept s t := by
  cases hp : i.port with
  | command => exact exec_command_hostKept hp h
  | tag => exact exec_tag_hostKept hp h

/-! ### Calls -/

theorem startTo_hostKept {mode : DmaMode} {a : Addr} {n : Word} {s t : State} (h : startTo mode a n s = some t) :
    HostKept s t := by
  cases mode with
  | normal =>
    simp only [startTo] at h
    split at h <;> cases h
    exact ⟨rfl, rfl, rfl⟩
  | chain =>
    cases h
    exact ⟨rfl, rfl, rfl⟩

theorem openTo_hostKept {mode : DmaMode} {a : Addr} {n : Word} {s t : State} (h : openTo mode a n s = some t) :
    HostKept s t := by
  unfold openTo at h
  split at h
  · cases h
    exact .refl s
  · exact startTo_hostKept h

theorem kickTo_hostKept {mode : DmaMode} {a : Addr} {n : Word} {s t : State} (h : kickTo mode a n s = .next t) :
    HostKept s t := by
  unfold kickTo at h
  split at h
  · cases h
  · rename_i u ho
    have hrun : HostKept s (runMicro runBound (u.setResult (.status 0))) :=
      ((openTo_hostKept ho).trans (setResult_hostKept u _)).trans (runMicro_hostKept _ _)
    dsimp only at h
    split at h
    · exact hrun.trans (exec_hostKept h)
    · cases h
      exact hrun

theorem openFrom_hostKept {a : Addr} {n : Word} {s t : State} (h : openFrom a n s = some t) : HostKept s t := by
  unfold openFrom at h
  split at h
  · cases h
    exact .refl s
  · split at h <;> cases h
    exact ⟨rfl, rfl, rfl⟩

/-- A quadword the unit stores is recorded at the end of the history (`20_memory.md` R92). -/
theorem memWrite_historyExtends (a : Addr) (q : QWord) (s : State) : HistoryExtends s (memWrite a q s) where
  cfg := by simp only [memWrite, setMemWrites_cfg, setMem_cfg]
  memWrites := by simp only [memWrite, setMemWrites_memWrites, List.prefix_append]

/-- The pops write memory, each store recorded at the end of the history (R211, `20_memory.md` R92). -/
theorem popLoop_historyExtends (n : Nat) (s : State) : HistoryExtends s (popLoop n s) := by
  have popKept {u v : State} {x : Option QWord} (h : outPop u = (v, x)) : HostKept u v := by
    have hk := outPop_hostKept u
    rwa [h] at hk
  refine popLoop_induct (HistoryExtends s) (fun u hu _ => ?finish) (fun u v hu hv => ?stall) (fun u v q hu _ hv => ?pop)
    n s (HostKept.refl s).historyExtends
  case finish => exact hu.trans (finishFrom_hostKept u).historyExtends
  case stall => exact hu.trans ((popKept hv).trans (setDmaFrom_hostKept v _)).historyExtends
  case pop =>
    exact ((hu.trans (popKept hv).historyExtends).trans (memWrite_historyExtends _ q v)).trans
      ((setDmaFrom_hostKept _ _).trans (setResult_hostKept _ _)).historyExtends

theorem kickFrom_historyExtends {a : Addr} {n : Word} {s t : State} (h : kickFrom a n s = .next t) :
    HistoryExtends s t := by
  unfold kickFrom at h
  split at h
  · cases h
  · rename_i u ho
    cases h
    exact ((openFrom_hostKept ho).trans (setResult_hostKept u _)).historyExtends.trans (popLoop_historyExtends 16 _)

theorem dropResult_next {o : Host.Outcome State Fault Refusal} {t : State} (h : dropResult o = .next t) :
    ∃ u, o = .next u ∧ t = u.setResult .none := by
  cases o with
  | next u =>
    cases h
    exact ⟨u, rfl, rfl⟩
  | fault _ => cases h
  | refused _ => cases h

theorem writeCtrl_hostKept (v : Word) (s : State) : HostKept s (writeCtrl v s) := by
  unfold writeCtrl
  dsimp only
  split <;> exact ⟨rfl, rfl, rfl⟩

theorem regWrite32_hostKept {off : Nat} {v : Word} {s t : State} (h : regWrite32 off v s = .next t) : HostKept s t := by
  unfold regWrite32 at h
  split at h
  · obtain ⟨u, hu, rfl⟩ := dropResult_next h
    exact (exec_hostKept hu).trans (setResult_hostKept _ _)
  · split at h <;> cases h
    · exact (writeCtrl_hostKept v s).trans (setResult_hostKept _ _)
    · exact ⟨rfl, rfl, rfl⟩

theorem dmaAbort_hostKept (dir : Dir) (s : State) : HostKept s (dmaAbort dir s) := by
  cases dir <;> exact ⟨rfl, rfl, rfl⟩

theorem callSave_hostKept {s t : State} (h : callSave s = .next t) : HostKept s t := by
  unfold callSave at h
  split at h <;> cases h
  exact ⟨rfl, rfl, rfl⟩

/-- The configuration an image was saved under is compared, never stored (R342). -/
theorem callRestore_hostKept {cfg : UnitConfig} {image : UnitState} {s t : State}
    (h : callRestore cfg image s = .next t) : HostKept s t := by
  unfold callRestore at h
  split at h <;> cases h
  exact ⟨rfl, rfl, rfl⟩

/-- All that a call can do to the host's side: an out-of-unit kick extends the history, a store of the environment replaces
memory alone, and every other call leaves memory, history and configuration. -/
theorem runCall_host_cases {c : Call} {s t : State} (h : runCall c s = .next t) :
    (∃ a n, c = .dmaKickFrom a n ∧ HistoryExtends s t) ∨
      (∃ a bs, c = .hostStore a bs ∧ t.cfg = s.cfg ∧ t.memWrites = s.memWrites) ∨ HostKept s t := by
  cases c with
  | dmaKickFrom a n => exact .inl ⟨a, n, rfl, kickFrom_historyExtends h⟩
  | hostStore a bs =>
    cases h
    exact .inr (.inl ⟨a, bs, rfl, rfl, rfl⟩)
  | regWrite32 off v => exact .inr (.inr (regWrite32_hostKept h))
  | regWrite64 off v => exact .inr (.inr (regWrite32_hostKept h))
  | cmdWrite w => exact .inr (.inr (exec_hostKept h))
  | dispatchStep => exact .inr (.inr ((setResult_hostKept s .none).trans (dispatchStep_hostKept h)))
  | continueStep => exact .inr (.inr (dispatchStep_hostKept h))
  | dmaKickTo mode a n => exact .inr (.inr (kickTo_hostKept h))
  | dmaAbort dir =>
    cases h
    exact .inr (.inr ((dmaAbort_hostKept dir s).trans (setResult_hostKept _ _)))
  | save => exact .inr (.inr (callSave_hostKept h))
  | restore cfg image => exact .inr (.inr (callRestore_hostKept h))
  | hardReset | softReset | regRead32 _ | regRead64 _ | tick _ | canPersist =>
    cases h
    exact .inr (.inr ⟨rfl, rfl, rfl⟩)

/-- The same of a step, which takes the call from the queue first. -/
theorem step_host_cases {c : Call} {rest : List Call} {s t : State} (hc : s.calls = c :: rest) (h : step s = .next t) :
    (∃ a n, c = .dmaKickFrom a n ∧ HistoryExtends s t) ∨
      (∃ a bs, c = .hostStore a bs ∧ t.cfg = s.cfg ∧ t.memWrites = s.memWrites) ∨ HostKept s t := by
  have hrun : runCall c (s.setCalls rest) = .next t := by
    rw [← h]
    unfold step
    rw [hc]
  rcases runCall_host_cases hrun with ⟨a, n, e, hx⟩ | ⟨a, bs, e, hx⟩ | hk
  · exact .inl ⟨a, n, e, hx.cfg, hx.memWrites⟩
  · exact .inr (.inl ⟨a, bs, e, hx⟩)
  · exact .inr (.inr ⟨hk.cfg, hk.mem, hk.memWrites⟩)

/-! ### The statement -/

/-- Settles O52: instructions by `exec_hostKept`, calls by the three cases of `step_host_cases`. -/
theorem onlyOutTransferWritesMemory : Obligations.OnlyOutTransferWritesMemory := by
  unfold Obligations.OnlyOutTransferWritesMemory
  refine ⟨fun i s t h => ?_, fun c rest s t hc h => ?_⟩
  · have hk := exec_hostKept h
    exact ⟨hk.sameMemory, hk.memWrites, hk.cfg⟩
  · rcases step_host_cases hc h with ⟨a, n, rfl, hx⟩ | ⟨a, bs, rfl, hcfg, hw⟩ | hk
    · exact ⟨hx.cfg, hx.memWrites, fun hne => absurd rfl (hne a n), fun hne => absurd rfl (hne a n)⟩
    · exact ⟨hcfg, by rw [hw], fun _ => hw, fun _ hne => absurd rfl (hne a bs)⟩
    · exact ⟨hk.cfg, hk.historyExtends.memWrites, fun _ => hk.memWrites, fun _ _ => hk.sameMemory⟩

end Sys2Proof.Machine
end

section
/-! SUPPORT. A command word is the word of the instruction it decodes to (`30_encoding.md` R100 to R111, R118). -/

namespace Sys2Proof

theorem Instr.word_of_bits {i : Instr} {w : Word} (h : i.bits = w.setWidth 128) : i.word = w := by
  rw [Instr.word, h, BitVec.setWidth_setWidth_of_le _ (by decide), BitVec.setWidth_eq]

/-- Two fields that stand beside each other in a word, put together, are one field of it. -/
theorem append_fields {w : Word} {n m : Nat} {a : BitVec n} {b : BitVec m} (p q : Nat) (ha : a = w.extractLsb' p n)
    (hb : b = w.extractLsb' q m) (h : p = q + m) : a ++ b = w.extractLsb' q (n + m) := by
  rw [ha, hb]
  exact BitVec.extractLsb'_append_extractLsb'_eq_extractLsb' h

/-- The same where the upper field is one bit. -/
theorem flagBit_append_field {w : Word} {m : Nat} {b : BitVec m} (p q : Nat) (hb : b = w.extractLsb' q m)
    (h : p = q + m) : flagBit (w.getLsbD p) ++ b = w.extractLsb' q (1 + m) := by
  refine append_fields p q (BitVec.eq_of_getLsbD_eq fun i hi => ?_) hb h
  obtain rfl : i = 0 := by omega
  simp [flagBit]

/-- A word is its opcode before its option field (R100). -/
theorem opcode_append_option {w : Word} {c : BitVec 4} {x : BitVec 28} (hc : (w.extractLsb' 28 4).toNat = c.toNat)
    (hx : x = w.extractLsb' 0 28) : c ++ x = w :=
  (append_fields 28 0 (BitVec.eq_of_toNat_eq hc).symm hx rfl).trans BitVec.extractLsb'_eq_self

/-- Encoding the instruction of a word gives the word back. -/
theorem word_decodeCommand (w : Word) : (decodeCommand w).word = w := by
  have key {i : Instr} (c : BitVec 4) {x : BitVec 28} (hi : i.bits = (c ++ x : Word).setWidth 128)
      (hc : (w.extractLsb' 28 4).toNat = c.toNat) (hx : x = w.extractLsb' 0 28) : i.word = w :=
    (Instr.word_of_bits hi).trans (opcode_append_option hc hx)
  unfold decodeCommand
  dsimp only
  split <;> rename_i h
  · exact key 0 rfl h (append_fields 7 0 rfl rfl rfl)
  · exact key 1 rfl h <| flagBit_append_field 27 0 (flagBit_append_field 26 0 (flagBit_append_field 25 0
      (flagBit_append_field 24 0 (append_fields 21 0 rfl (append_fields 16 0 rfl (append_fields 6 0 rfl rfl rfl) rfl)
        rfl) rfl) rfl) rfl) rfl
  · exact key 2 rfl h <| flagBit_append_field 27 0 (flagBit_append_field 26 0 (flagBit_append_field 25 0
      (append_fields 21 0 rfl (append_fields 16 0 rfl (append_fields 6 0 rfl rfl rfl) rfl) rfl) rfl) rfl) rfl
  · exact key 3 rfl h (append_fields 26 0 rfl (append_fields 6 0 rfl rfl rfl) rfl)
  · exact key 4 rfl h (append_fields 6 0 rfl rfl rfl)
  · exact key 5 rfl h (flagBit_append_field 27 0 (append_fields 6 0 rfl rfl rfl) rfl)
  · exact key 6 rfl h rfl
  · exact key 7 rfl h (flagBit_append_field 27 0 (flagBit_append_field 26 0 (append_fields 11 0 rfl rfl rfl) rfl) rfl)
  · exact key 8 rfl h (flagBit_append_field 27 0 (flagBit_append_field 26 0 (append_fields 11 0 rfl rfl rfl) rfl) rfl)
  · exact key 9 rfl h (append_fields 25 0 rfl (append_fields 16 0 rfl (append_fields 9 0 rfl rfl rfl) rfl) rfl)
  · exact key _ rfl rfl rfl
  · exact key _ rfl rfl rfl
  · exact key _ rfl rfl rfl

end Sys2Proof
end

section
/-! SUPPORT. What a command in flight leaves alone while it runs, and how a step of it ends
(`43_command_dispatcher.md` R235 to R238). -/

namespace Sys2Proof.Machine

/-! ### Fields of `ctrl` -/

/-- A field of `ctrl` is its bits. -/
theorem getField_congr {lo w : Nat} {c c' : Word} (h : ∀ i, lo ≤ i → i < lo + w → c'.getLsbD i = c.getLsbD i) :
    getField lo w c' = getField lo w c := by
  apply BitVec.eq_of_getLsbD_eq
  intro i hi
  simp only [getField, BitVec.getLsbD_extractLsb', hi, decide_true, Bool.true_and]
  exact h _ (by omega) (by omega)

theorem CtrlKept.refl (p : Nat → Prop) (s : State) : CtrlKept p s s := fun _ _ => rfl

theorem CtrlKept.trans {p : Nat → Prop} {s t u : State} (h : CtrlKept p s t) (g : CtrlKept p t u) : CtrlKept p s u :=
  fun i hi => (g i hi).trans (h i hi)

theorem CtrlKept.mono {p q : Nat → Prop} {s t : State} (h : CtrlKept p s t) (hq : ∀ i, q i → p i) : CtrlKept q s t :=
  fun i hi => h i (hq i hi)

/-! ### Signals -/

theorem Quiet.refl (s : State) : Quiet s s := ⟨rfl, rfl⟩

theorem Quiet.trans {s t u : State} (h : Quiet s t) (g : Quiet t u) : Quiet s u := by
  obtain ⟨htrace, hpend⟩ := h
  obtain ⟨gtrace, gpend⟩ := g
  exact ⟨gtrace.trans htrace, gpend.trans hpend⟩

/-- Nothing signalled, then one `raise`. -/
theorem Quiet.raised {src : IrqSrc} {s t u : State} (h : Quiet s t) (hcfg : t.cfg = s.cfg) (g : Raised src t u) :
    Raised src s u := by
  obtain ⟨htrace, hpend⟩ := h
  exact g.congr hcfg.symm htrace.symm hpend.symm rfl rfl

/-- One `raise`, then nothing signalled. -/
theorem Raised.quiet {src : IrqSrc} {s t u : State} (h : Raised src s t) (g : Quiet t u) : Raised src s u := by
  obtain ⟨gtrace, gpend⟩ := g
  exact h.congr rfl rfl rfl gtrace gpend

/-! ### Elementary changes -/

/-- What every elementary change of a command in flight leaves alone. -/
structure InFlightKept (s t : State) : Prop where
  quiet : Quiet s t
  current : t.unit.cmd.current = s.unit.cmd.current
  busy : t.unit.cmd.busy = s.unit.cmd.busy
  dmaTo : t.unit.dmaTo = s.unit.dmaTo
  dmaFrom : t.unit.dmaFrom = s.unit.dmaFrom
  hasNew : t.unit.cur.hasNew = s.unit.cur.hasNew
  ctrl : CtrlKept (fun i => 16 ≤ i) s t
  calls : t.calls = s.calls

theorem InFlightKept.refl (s : State) : InFlightKept s s := ⟨.refl s, rfl, rfl, rfl, rfl, rfl, .refl _ s, rfl⟩

theorem InFlightKept.trans {s t u : State} (h : InFlightKept s t) (g : InFlightKept t u) : InFlightKept s u where
  quiet := h.quiet.trans g.quiet
  current := g.current.trans h.current
  busy := g.busy.trans h.busy
  dmaTo := g.dmaTo.trans h.dmaTo
  dmaFrom := g.dmaFrom.trans h.dmaFrom
  hasNew := g.hasNew.trans h.hasNew
  ctrl := h.ctrl.trans g.ctrl
  calls := g.calls.trans h.calls

theorem InFlightKept.opcode {s t : State} (h : InFlightKept s t) : t.unit.cmd.opcode = s.unit.cmd.opcode := by
  unfold Command.opcode
  rw [h.current]

theorem inTake_inFlightKept {s t : State} {q : QWord} (h : inTake s = some (q, t)) : InFlightKept s t := by
  obtain ⟨⟨e, hctrl⟩, hcur, -⟩ := inputOnly_inTake h
  have hnew : t.unit.cur.hasNew = s.unit.cur.hasNew := by rw [hcur]
  have hkept : CtrlKept (fun i => 16 ≤ i) s t := fun i hi => hctrl i (by omega)
  rw [e] at hnew hkept ⊢
  exact ⟨⟨rfl, rfl⟩, rfl, rfl, rfl, rfl, hnew, hkept, rfl⟩

theorem outPut_inFlightKept {q : QWord} {s t : State} (h : outPut q s = some t) : InFlightKept s t := by
  rcases outPut_spec q s with ⟨-, u, hu, -, -, -, hctrl, e⟩ | ⟨-, hn⟩
  · obtain rfl : u = t := Option.some.inj (hu.symm.trans h)
    have hkept : CtrlKept (fun i => 16 ≤ i) s u := fun i hi => hctrl i (by omega)
    rw [e] at hkept ⊢
    exact ⟨⟨rfl, rfl⟩, rfl, rfl, rfl, rfl, rfl, hkept, rfl⟩
  · exact nomatch hn.symm.trans h

theorem Move.inFlightKept {lib : Bool} {s t : State} (h : Move lib s t) : InFlightKept s t := by
  cases h with
  | take h => exact inTake_inFlightKept h
  | put h => exact outPut_inFlightKept h
  | cursor c h => exact ⟨⟨rfl, rfl⟩, rfl, rfl, rfl, rfl, h, .refl _ s, rfl⟩
  | report res => exact ⟨⟨rfl, rfl⟩, rfl, rfl, rfl, rfl, rfl, fun i hi => applyDone_ctrl res s i (.inr hi), rfl⟩
  | _ => exact ⟨⟨rfl, rfl⟩, rfl, rfl, rfl, rfl, rfl, .refl _ s, rfl⟩

theorem Moves.inFlightKept {lib : Bool} {s t : State} (h : Moves lib s t) : InFlightKept s t :=
  h.induct (InFlightKept s) (fun _ _ hm hk => hk.trans hm.inFlightKept) (.refl s)

/-- A session is open after elementary changes only where one was before, or where the command is one with a session. -/
theorem Moves.lib_ne_none {lib : Bool} {s t : State} (h : Moves lib s t) (ht : t.unit.lib ≠ none) :
    s.unit.lib ≠ none ∨ lib = true := by
  refine h.induct (fun u => u.unit.lib ≠ none → s.unit.lib ≠ none ∨ lib = true) (fun u v hm ih hv => ?_) .inl ht
  cases hm with
  | session _ hl => exact .inr hl
  | report _ hl => exact .inr hl
  | take h =>
    obtain ⟨⟨e, -⟩, -⟩ := inputOnly_inTake h
    rw [e] at hv
    exact ih hv
  | put h =>
    rcases outPut_spec _ u with ⟨-, w, hw, -, -, -, -, e⟩ | ⟨-, hn⟩
    · obtain rfl : w = v := Option.some.inj (hw.symm.trans h)
      rw [e] at hv
      exact ih hv
    · exact nomatch hn.symm.trans h
  | _ => exact ih hv

/-! ### How a step of the command in flight ends -/

/-- Elementary changes, after which the command has suspended, completed, or the step was cut (R237, R238, Log 5). -/
def StepEnds (lib : Bool) (s t : State) : Prop :=
  ∃ u, Moves lib s u ∧ (t = u ∨ t = complete u ∨ t = u.setCalls (.continueStep :: u.calls))

theorem Flow.Within.ends {lib : Bool} {s t : State} {f : Flow} (h : f.Within lib s) (e : f.outcome = .next t) :
    StepEnds lib s t := by
  rcases Flow.outcome_next e with rfl | rfl | ⟨u, rfl, rfl⟩
  · exact ⟨t, h, .inl rfl⟩
  · rcases h with h | ⟨u, h, rfl⟩
    · exact ⟨t, h, .inl rfl⟩
    · exact ⟨u, h, .inr (.inl rfl)⟩
  · exact ⟨u, h, .inr (.inr rfl)⟩

theorem commandStep_ends {s t : State} (h : (commandStep s).outcome = .next t) :
    StepEnds (decide (s.unit.cmd.opcode ≤ 3)) s t := (commandStep_within s).ends h

/-- A property of the state that elementary changes and the clearing of a completed command keep, and that looks neither
at the interrupts nor at the waiting calls, is kept by a step of the command in flight. -/
theorem StepEnds.keeps {lib : Bool} {s t : State} (P : UnitConfig → UnitState → Prop) (h : StepEnds lib s t)
    (hmove : ∀ u v, Move lib u v → P u.cfg u.unit → P v.cfg v.unit)
    (hclear : ∀ u, P u.cfg u.unit → P (clearCommand u).cfg (clearCommand u).unit)
    (hraise : ∀ u, P u.cfg u.unit → P (raise .cmd u).cfg (raise .cmd u).unit) (hs : P s.cfg s.unit) :
    P t.cfg t.unit := by
  obtain ⟨u, hm, e⟩ := h
  have hu : P u.cfg u.unit := hm.induct (fun v => P v.cfg v.unit) hmove hs
  rcases e with rfl | rfl | rfl
  · exact hu
  · exact hraise _ (hclear u hu)
  · exact hu

end Sys2Proof.Machine
end

section
/-! SUPPORT. What the two transfers do, one elementary change at a time, each with the condition it happens under
(`42_dma_tag_walker.md` R193 to R212). -/

namespace Sys2Proof.Machine

/-! ### The into-unit walker -/

/-- One micro-step of the walker but for the fetch of a tag (R193). -/
inductive Walk : State → State → Prop where
  | push (s : State) : Pushing s.unit.dmaTo → s.ifc < s.cfg.fifoInCap → Walk s (pushOne s)
  | stall (s : State) : Pushing s.unit.dmaTo → s.unit.dmaTo.remaining ≠ 0 → Walk s (pushStall s)
  | payloadDone (s : State) : s.unit.dmaTo.tagFollow = .qwc → s.unit.dmaTo.remaining = 0 →
      Walk s (s.setDmaTo { s.unit.dmaTo with tagFollow := .addr })
  | nextAddress (s : State) : s.unit.dmaTo.mode = .chain → s.unit.dmaTo.tagFollow = .addr →
      Walk s (s.setDmaTo { s.unit.dmaTo with
        nextMem := align16 (s.unit.dmaTo.tagWord.extractLsb' 32 32), tagFollow := .none })
  | nextDescriptor (s : State) : s.unit.dmaTo.mode = .chain → s.unit.dmaTo.tagFollow = .none →
      Walk s (s.setDmaTo { s.unit.dmaTo with tagFollow := .follow })
  | finish (s : State) : s.unit.dmaTo.inProgress = true →
      s.unit.dmaTo.remaining = 0 ∨ s.unit.dmaTo.mode = .chain ∧ s.unit.dmaTo.tagFollow = .none → Walk s (finishTo s)

theorem microStep_walk {s t : State} (h : microStep s = .step t ∨ microStep s = .stall t) : Walk s t := by
  rcases microStep_cases (s := s) rfl with e | ⟨e, -⟩ | ⟨hi, ⟨e, hp, hr⟩ | ⟨e, -, hr⟩ | ⟨hm, ⟨e, hf, hr⟩ | ⟨e, hf⟩ |
    ⟨e, hf, -⟩ | ⟨e, hf, -⟩⟩⟩ <;> rw [e] at h
  case inr.inr.inl =>
    rw [pushPayload_eq] at h
    split at h <;> rename_i hroom <;> rcases h with h | h <;> cases h
    · exact .push s hp hroom
    · exact .stall s hp hr
  all_goals rcases h with h | h <;> cases h
  · exact .finish s hi (.inl hr)
  · exact .payloadDone s hf hr
  · exact .nextAddress s hm hf
  · exact .finish s hi (.inr ⟨hm, hf⟩)
  · exact .nextDescriptor s hm hf

/-- What every micro-step keeps, a run of them keeps. -/
theorem runMicro_keeps {P : State → Prop} (hwalk : ∀ u v, Walk u v → P u → P v) (n : Nat) {s : State} (hs : P s) :
    P (runMicro n s) :=
  runMicro_induct P (fun u v hu h => hwalk u v (microStep_walk (.inl h)) hu)
    (fun u v hu h => hwalk u v (microStep_walk (.inr h)) hu) n s hs

/-- A transfer record after `finish` (R199). -/
def Transfer.finished (d : Transfer) : Transfer :=
  { d with dmaFinished := true, inProgress := false, stalled := false, irqTriggered := true }

/-- `finish(TO)` changes the record, and the trace and the slots where the interrupt has not been raised before. -/
theorem finishTo_eq (s : State) : finishTo s = { s with irqTrace := (finishTo s).irqTrace, unit := { s.unit with
    pend := (finishTo s).unit.pend, dmaTo := s.unit.dmaTo.finished } } := by
  cases h : s.unit.dmaTo.irqTriggered with
  | false => exact (finishTo_spec s h).2
  | true =>
    unfold finishTo
    simp only [h, if_true]
    rfl

theorem finishTo_quiet {s : State} (h : s.unit.dmaTo.irqTriggered = true) : Quiet s (finishTo s) := by
  unfold finishTo
  simp only [h, if_true]
  exact ⟨rfl, rfl⟩

/-! ### The out-of-unit transfer -/

/-- One round of the pops of a transfer in progress (R210 to R212). -/
inductive Pop : State → State → Prop where
  | store {s t : State} {q : QWord} : s.unit.dmaFrom.inProgress = true → outPop s = (t, some q) →
      Pop s (bumpMoved ((memWrite s.unit.dmaFrom.memAddr q t).setDmaFrom
        { s.unit.dmaFrom with
          memAddr := s.unit.dmaFrom.memAddr + 16, remaining := s.unit.dmaFrom.remaining - 1, stalled := false }))
  | stall {s t : State} : s.unit.dmaFrom.inProgress = true → outPop s = (t, none) →
      Pop s (t.setDmaFrom { s.unit.dmaFrom with stalled := true })
  | finish (s : State) : s.unit.dmaFrom.remaining = 0 → Pop s (finishFrom s)

/-- `finish(FROM)` changes the record, and the trace and the slots where the interrupt has not been raised before. -/
theorem finishFrom_eq (s : State) : finishFrom s = { s with irqTrace := (finishFrom s).irqTrace, unit := { s.unit with
    pend := (finishFrom s).unit.pend, dmaFrom := s.unit.dmaFrom.finished } } := by
  cases h : s.unit.dmaFrom.irqTriggered with
  | false => exact (finishFrom_spec s h).2
  | true =>
    unfold finishFrom
    simp only [h, if_true]
    rfl

theorem finishFrom_quiet {s : State} (h : s.unit.dmaFrom.irqTriggered = true) : Quiet s (finishFrom s) := by
  unfold finishFrom
  simp only [h, if_true]
  exact ⟨rfl, rfl⟩

/-- `outPop` takes at most the head of the queue, with the counter one less, and writes a stall flag. -/
theorem outPop_cases (s : State) :
    (∃ f, outPop s = (s.setStall f, none)) ∨
      ∃ f q qs, s.ofc ≠ 0 ∧ s.unit.fifoOut = q :: qs ∧
        outPop s = (((s.setFifoOut qs).setCtrl (putOFC (s.ofc - 1) s.unit.ctrl)).setStall f, some q) := by
  unfold outPop
  dsimp only
  split
  · exact .inl ⟨_, rfl⟩
  · rename_i h0
    split
    · exact .inl ⟨_, rfl⟩
    · rename_i q qs hq
      exact .inr ⟨_, q, qs, h0, hq, rfl⟩

/-- A pop changes the output FIFO, its counter and the stall flags. -/
theorem outPop_eq {s t : State} {x : Option QWord} (h : outPop s = (t, x)) :
    t = { s with unit := { s.unit with
      fifoOut := t.unit.fifoOut, ctrl := t.unit.ctrl, stall := t.unit.stall } } := by
  rcases outPop_cases s with ⟨f, e⟩ | ⟨f, q, qs, -, -, e⟩ <;> cases e.symm.trans h <;> rfl

theorem outPop_quiet {s t : State} {x : Option QWord} (h : outPop s = (t, x)) : Quiet s t := by
  rw [outPop_eq h]
  exact ⟨rfl, rfl⟩

/-- Storing a popped quadword changes memory, its history and the result, and of the unit the record of the transfer. -/
@[simp] theorem popStore_unit (a : Addr) (q : QWord) (d : Transfer) (s : State) :
    (bumpMoved ((memWrite a q s).setDmaFrom d)).unit = { s.unit with dmaFrom := d } := by
  simp only [bumpMoved, memWrite, State.setResult, State.setDmaFrom, State.setMemWrites, State.setMem]

@[simp] theorem popStore_cfg (a : Addr) (q : QWord) (d : Transfer) (s : State) :
    (bumpMoved ((memWrite a q s).setDmaFrom d)).cfg = s.cfg := by simp [bumpMoved, memWrite]

@[simp] theorem popStore_irqTrace (a : Addr) (q : QWord) (d : Transfer) (s : State) :
    (bumpMoved ((memWrite a q s).setDmaFrom d)).irqTrace = s.irqTrace := by simp [bumpMoved, memWrite]

@[simp] theorem popStore_calls (a : Addr) (q : QWord) (d : Transfer) (s : State) :
    (bumpMoved ((memWrite a q s).setDmaFrom d)).calls = s.calls := by simp [bumpMoved, memWrite]

theorem popLoop_pops (n : Nat) (s : State) (h : s.unit.dmaFrom.inProgress = true) :
    Relation.ReflTransGen Pop s (popLoop n s) := by
  induction n generalizing s with
  | zero => exact .refl
  | succ n ih =>
    unfold popLoop
    dsimp only
    split
    · rename_i h0
      exact .single (.finish s h0)
    · split
      · rename_i t ht
        exact .single (.stall h ht)
      · rename_i t q ht
        exact .head (.store h ht) (ih _ (by rw [popStore_unit]; exact h))

/-! ### The kicks -/

/-- The start of an into-unit transfer writes the record and nothing else (R191). -/
theorem startTo_cases {mode : DmaMode} {a : Addr} {n : Word} {s t : State} (h : startTo mode a n s = some t) :
    t = s.setDmaTo { Transfer.reset with
        inProgress := true, memAddr := align16 a, remaining := n.extractLsb' 4 28 } ∨
      t = s.setDmaTo { Transfer.reset with
        inProgress := true, mode := .chain, tagFollow := .follow, nextMem := align16 a } := by
  cases mode with
  | normal =>
    simp only [startTo] at h
    split at h <;> cases h
    exact .inl rfl
  | chain =>
    cases h
    exact .inr rfl

/-- The out-of-unit transfer a kick works on is the one in progress, or its record is written anew (R210). -/
theorem openFrom_cases {a : Addr} {n : Word} {s t : State} (h : openFrom a n s = some t) :
    (t = s ∧ s.unit.dmaFrom.inProgress = true) ∨
      t = s.setDmaFrom { s.unit.dmaFrom with
        inProgress := true, mode := .normal, tagFollow := .none, dmaFinished := false, irqTriggered := false
        stalled := false, memAddr := align16 a, remaining := n.extractLsb' 4 28 } := by
  unfold openFrom at h
  split at h
  · rename_i hi
    cases h
    exact .inl ⟨rfl, hi⟩
  · split at h <;> cases h
    exact .inr rfl

/-- An into-unit kick runs the walker to a fetch or to its end, and then the tag fetched (R191, R192). -/
theorem kickTo_cases {mode : DmaMode} {a : Addr} {n : Word} {s t : State} (h : kickTo mode a n s = .next t) :
    ∃ u, openTo mode a n s = some u ∧ (t = runMicro runBound (u.setResult (.status 0)) ∨
      ∃ q, exec (decodeTag q) (runMicro runBound (u.setResult (.status 0))) = .next t) := by
  cases ho : openTo mode a n s with
  | none => simp only [kickTo, ho, reduceCtorEq] at h
  | some u =>
    simp only [kickTo, ho] at h
    refine ⟨u, rfl, ?_⟩
    by_cases hf : fetchEnabled (runMicro runBound (u.setResult (.status 0))) = true
    · rw [if_pos hf] at h
      exact .inr ⟨_, h⟩
    · rw [if_neg hf] at h
      cases h
      exact .inl rfl

/-- An out-of-unit kick pops until the transfer finishes or stalls (R210). -/
theorem kickFrom_cases {a : Addr} {n : Word} {s t : State} (h : kickFrom a n s = .next t) :
    ∃ u, openFrom a n s = some u ∧ t = popLoop 16 (u.setResult (.status 0)) := by
  cases ho : openFrom a n s with
  | none => simp only [kickFrom, ho, reduceCtorEq] at h
  | some u =>
    simp only [kickFrom, ho, Host.Outcome.next.injEq] at h
    exact ⟨u, rfl, h.symm⟩

/-- The transfer a kick works on is in progress (R210). -/
theorem openFrom_inProgress {a : Addr} {n : Word} {s t : State} (h : openFrom a n s = some t) :
    t.unit.dmaFrom.inProgress = true := by
  rcases openFrom_cases h with ⟨rfl, hi⟩ | rfl
  · exact hi
  · rfl

end Sys2Proof.Machine
end

section
/-! SUPPORT. One call raises at most one source (`60_exceptions.md` R366): a command completes at most once, and a transfer
raises its interrupt at most once, which its record's `irqTriggered` marks. -/

namespace Sys2Proof.Machine

/-! ### Commands -/

theorem StepEnds.signals {lib : Bool} {s t : State} (h : StepEnds lib s t) : Quiet s t ∨ Raised .cmd s t := by
  obtain ⟨u, hm, rfl | rfl | rfl⟩ := h
  · exact .inl hm.inFlightKept.quiet
  · exact .inr (hm.inFlightKept.quiet.raised hm.hostKept.cfg (complete_spec u).1)
  · exact .inl (hm.inFlightKept.quiet.trans ⟨rfl, rfl⟩)

theorem dispatchStep_signals {s t : State} (h : (dispatchStep s).outcome = .next t) : Quiet s t ∨ Raised .cmd s t := by
  unfold dispatchStep at h
  split at h
  · exact (commandStep_ends h).signals
  · cases h
    exact .inl (.refl s)

theorem exec_command_signals {i : Instr} {s t : State} (hp : i.port = .command) (h : exec i s = .next t) :
    Quiet s t ∨ Raised .cmd s t := by
  rcases exec_command_cases i s hp with ⟨bp, -, -, e⟩ | ⟨r, e⟩ | ⟨-, f, hf, e⟩ <;> rw [e] at h
  · cases h
    exact .inr ((raise_raised .cmd (cursorReset bp (fifoClear (clearCommand s)))).congr rfl rfl rfl rfl rfl)
  · cases h
    exact .inl ⟨rfl, rfl⟩
  · have hq : Quiet s (acceptCommand i.word s) := ⟨rfl, rfl⟩
    exact (hf.ends h).signals.imp hq.trans (hq.raised rfl)

theorem regWrite32_signals {off : Nat} {v : Word} {s t : State} (h : regWrite32 off v s = .next t) :
    Quiet s t ∨ Raised .cmd s t := by
  unfold regWrite32 at h
  split at h
  · obtain ⟨u, hu, rfl⟩ := dropResult_next h
    have hq : Quiet u (u.setResult .none) := ⟨rfl, rfl⟩
    exact (exec_command_signals (decodeCommand_port v) hu).imp (·.trans hq) (·.quiet hq)
  · split at h <;> cases h
    · unfold writeCtrl
      dsimp only
      split <;> exact .inl ⟨rfl, rfl⟩
    · exact .inl ⟨rfl, rfl⟩

/-! ### Transfers -/

/-- From `s` to `t` the source `src` of a transfer was raised at most once, and if it was, the transfer's record says so. -/
structure RaisedOnce (src : IrqSrc) (d : State → Transfer) (s t : State) : Prop where
  cfg : t.cfg = s.cfg
  signals : Quiet s t ∨ Raised src s t ∧ (d t).irqTriggered = true

theorem RaisedOnce.of_quiet {src : IrqSrc} {d : State → Transfer} {s t : State} (h : Quiet s t) (hcfg : t.cfg = s.cfg) :
    RaisedOnce src d s t := ⟨hcfg, .inl h⟩

theorem RaisedOnce.quiet {src : IrqSrc} {d : State → Transfer} {s t u : State} (h : RaisedOnce src d s t)
    (g : Quiet t u) (hcfg : u.cfg = t.cfg) (hd : (d u).irqTriggered = (d t).irqTriggered) : RaisedOnce src d s u where
  cfg := hcfg.trans h.cfg
  signals := h.signals.imp (·.trans g) fun ⟨hr, ht⟩ => ⟨hr.quiet g, hd.trans ht⟩

/-- A finish raises the source only where the record does not say it has been raised. -/
theorem RaisedOnce.finish {src : IrqSrc} {d : State → Transfer} {s t u : State} (h : RaisedOnce src d s t)
    (hcfg : u.cfg = t.cfg) (hd : (d u).irqTriggered = true) (hquiet : (d t).irqTriggered = true → Quiet t u)
    (hraise : (d t).irqTriggered = false → Raised src t u) : RaisedOnce src d s u := by
  refine ⟨hcfg.trans h.cfg, ?_⟩
  rcases h.signals with hq | ⟨hr, ht⟩
  · cases hb : (d t).irqTriggered with
    | false => exact .inr ⟨hq.raised h.cfg (hraise hb), hd⟩
    | true => exact .inl (hq.trans (hquiet hb))
  · exact .inr ⟨hr.quiet (hquiet ht), hd⟩

/-- The into-unit direction. -/
abbrev RaisedOnceTo : State → State → Prop := RaisedOnce .toUnit fun s => s.unit.dmaTo

/-- The out-of-unit direction. -/
abbrev RaisedOnceFrom : State → State → Prop := RaisedOnce .fromUnit fun s => s.unit.dmaFrom

theorem Walk.raisedOnce {s t u : State} (h : Walk t u) (hs : RaisedOnceTo s t) : RaisedOnceTo s u := by
  cases h with
  | finish =>
    exact hs.finish (finishTo_hostKept t).cfg (by rw [finishTo_eq]; rfl) finishTo_quiet fun hf => (finishTo_spec t hf).1
  | _ => exact hs.quiet ⟨rfl, rfl⟩ rfl rfl

theorem exec_tag_raisedOnce {i : Instr} {s t u : State} (hp : i.port = .tag) (h : exec i t = .next u)
    (hs : RaisedOnceTo s t) : RaisedOnceTo s u := by
  rcases exec_tag_cases i t hp with ⟨-, e⟩ | ⟨-, -, e⟩ | ⟨-, e⟩ <;> rw [e] at h <;> cases h
  · exact hs
  · exact hs.quiet ⟨rfl, rfl⟩ rfl rfl
  · exact runMicro_keeps (fun _ _ hw => hw.raisedOnce) _ (hs.quiet ⟨rfl, rfl⟩ rfl rfl)

theorem openTo_quiet {mode : DmaMode} {a : Addr} {n : Word} {s t : State} (h : openTo mode a n s = some t) :
    Quiet s t := by
  unfold openTo at h
  split at h
  · cases h
    exact .refl s
  · rcases startTo_cases h with rfl | rfl <;> exact ⟨rfl, rfl⟩

theorem kickTo_signals {mode : DmaMode} {a : Addr} {n : Word} {s t : State} (h : kickTo mode a n s = .next t) :
    Quiet s t ∨ Raised .toUnit s t := by
  obtain ⟨u, ho, h⟩ := kickTo_cases h
  have hopen : RaisedOnceTo s (u.setResult (.status 0)) :=
    .of_quiet ((openTo_quiet ho).trans ⟨rfl, rfl⟩) (openTo_hostKept ho).cfg
  have hrun : RaisedOnceTo s (runMicro runBound (u.setResult (.status 0))) :=
    runMicro_keeps (fun _ _ hw => hw.raisedOnce) _ hopen
  have hend : RaisedOnceTo s t := by
    rcases h with rfl | ⟨q, h⟩
    · exact hrun
    · exact exec_tag_raisedOnce (decodeTag_port q) h hrun
  exact hend.signals.imp id And.left

theorem Pop.raisedOnce {s t u : State} (h : Pop t u) (hs : RaisedOnceFrom s t) : RaisedOnceFrom s u := by
  cases h with
  | store _ h =>
    exact hs.quiet ((outPop_quiet h).trans ⟨popStore_irqTrace _ _ _ _, by rw [popStore_unit]⟩)
      ((popStore_cfg _ _ _ _).trans (by rw [outPop_eq h])) (by rw [popStore_unit])
  | stall _ h => exact hs.quiet ((outPop_quiet h).trans ⟨rfl, rfl⟩) ((setDmaFrom_cfg _ _).trans (by rw [outPop_eq h])) rfl
  | finish =>
    exact hs.finish (finishFrom_hostKept t).cfg (by rw [finishFrom_eq]; rfl) finishFrom_quiet
      fun hf => (finishFrom_spec t hf).1

theorem pops_raisedOnce {s t u : State} (h : Relation.ReflTransGen Pop t u) (hs : RaisedOnceFrom s t) :
    RaisedOnceFrom s u := by
  induction h with
  | refl => exact hs
  | tail _ hp ih => exact hp.raisedOnce ih

theorem openFrom_quiet {a : Addr} {n : Word} {s t : State} (h : openFrom a n s = some t) : Quiet s t := by
  rcases openFrom_cases h with ⟨rfl, -⟩ | rfl <;> exact ⟨rfl, rfl⟩

theorem kickFrom_signals {a : Addr} {n : Word} {s t : State} (h : kickFrom a n s = .next t) :
    Quiet s t ∨ Raised .fromUnit s t := by
  obtain ⟨u, ho, rfl⟩ := kickFrom_cases h
  have hopen : RaisedOnceFrom s (u.setResult (.status 0)) :=
    .of_quiet ((openFrom_quiet ho).trans ⟨rfl, rfl⟩) (openFrom_hostKept ho).cfg
  have hi := openFrom_inProgress ho
  exact (pops_raisedOnce (popLoop_pops 16 (u.setResult (.status 0)) hi) hopen).signals.imp id And.left

/-! ### Calls -/

/-- A call that neither advances time nor replaces the slots raises at most its source, at most once. -/
theorem runCall_signals {c : Call} {s t : State} (htick : ∀ n, c ≠ .tick n) (hreset : c ≠ .hardReset)
    (hrestore : ∀ cfg image, c ≠ .restore cfg image) (h : runCall c s = .next t) :
    Quiet s t ∨ ∃ src, c.source = some src ∧ Raised src s t := by
  have raises {src : IrqSrc} (hc : c.source = some src) (hs : Quiet s t ∨ Raised src s t) :
      Quiet s t ∨ ∃ src, c.source = some src ∧ Raised src s t := hs.imp id fun hr => ⟨src, hc, hr⟩
  cases c with
  | hardReset => exact absurd rfl hreset
  | tick n => exact absurd rfl (htick n)
  | restore cfg image => exact absurd rfl (hrestore cfg image)
  | regWrite32 off v => exact raises rfl (regWrite32_signals h)
  | regWrite64 off v => exact raises rfl (regWrite32_signals h)
  | cmdWrite w => exact raises rfl (exec_command_signals (decodeCommand_port w) h)
  | dispatchStep =>
    have hq : Quiet s (s.setResult .none) := ⟨rfl, rfl⟩
    exact raises rfl ((dispatchStep_signals h).imp hq.trans (hq.raised rfl))
  | continueStep => exact raises rfl (dispatchStep_signals h)
  | dmaKickTo mode a n => exact raises rfl (kickTo_signals h)
  | dmaKickFrom a n => exact raises rfl (kickFrom_signals h)
  | dmaAbort dir =>
    cases h
    cases dir <;> exact .inl ⟨rfl, rfl⟩
  | save =>
    simp only [runCall, callSave] at h
    split at h <;> cases h
    exact .inl ⟨rfl, rfl⟩
  | softReset | regRead32 _ | regRead64 _ | canPersist | hostStore _ _ =>
    cases h
    exact .inl ⟨rfl, rfl⟩

theorem step_runCall {c : Call} {rest : List Call} {s t : State} (hc : s.calls = c :: rest) (h : step s = .next t) :
    runCall c (s.setCalls rest) = .next t := by
  unfold step at h
  rwa [hc] at h

/-- The same of a step, which takes the call from the queue first. -/
theorem step_signals {c : Call} {rest : List Call} {s t : State} (hc : s.calls = c :: rest) (h : step s = .next t)
    (htick : ∀ n, c ≠ .tick n) (hreset : c ≠ .hardReset) (hrestore : ∀ cfg image, c ≠ .restore cfg image) :
    Quiet s t ∨ ∃ src, c.source = some src ∧ Raised src s t := by
  have hq : Quiet s (s.setCalls rest) := ⟨rfl, rfl⟩
  exact (runCall_signals htick hreset hrestore (step_runCall hc h)).imp hq.trans
    fun ⟨src, hsrc, hr⟩ => ⟨src, hsrc, hq.raised rfl hr⟩

/-- The two policies of a `raise` (R361). -/
theorem Raised.cases_policy {src : IrqSrc} {s t : State} (h : Raised src s t) :
    (s.cfg.irqPolicy = .inline ∧ t.irqTrace = s.irqTrace ++ [src] ∧ t.unit.pend = s.unit.pend) ∨
      (s.cfg.irqPolicy = .deferred ∧ t.irqTrace = s.irqTrace ∧ t.unit.pend =
        putPend s.unit.pend src (some ((pendOf s.unit.pend src).getD (delayOf s.cfg.irqDelay src)))) := by
  unfold Raised at h
  cases hp : s.cfg.irqPolicy <;> rw [hp] at h
  · exact .inl ⟨rfl, h⟩
  · exact .inr ⟨rfl, h⟩

theorem Raised.trace_prefix {src : IrqSrc} {s t : State} (h : Raised src s t) : s.irqTrace <+: t.irqTrace := by
  rcases h.cases_policy with ⟨-, htrace, -⟩ | ⟨-, htrace, -⟩ <;> rw [htrace]
  exact List.prefix_append _ _

/-- Settles O51: all calls but three by `step_signals`; time adds to the trace, a hard reset and a restore leave it. -/
theorem oneSourcePerCall : Obligations.OneSourcePerCall := by
  unfold Obligations.OneSourcePerCall
  intro c rest s t hc h
  by_cases hreset : c = .hardReset
  · subst hreset
    cases step_runCall hc h
    exact ⟨List.prefix_refl _, fun _ hn _ => absurd rfl hn, fun _ => rfl⟩
  by_cases hrestore : ∃ cfg image, c = .restore cfg image
  · obtain ⟨cfg, image, rfl⟩ := hrestore
    have hrun := step_runCall hc h
    simp only [runCall, callRestore] at hrun
    split at hrun <;> cases hrun
    exact ⟨List.prefix_refl _, fun _ _ hn => absurd rfl (hn cfg image), fun _ => rfl⟩
  have hnone : ¬ (c = .hardReset ∨ ∃ cfg image, c = .restore cfg image) := not_or.mpr ⟨hreset, hrestore⟩
  by_cases htick : ∃ n, c = .tick n
  · obtain ⟨n, rfl⟩ := htick
    cases step_runCall hc h
    exact ⟨List.prefix_append _ _, fun hn => absurd rfl (hn n), fun hor => absurd hor hnone⟩
  have hs := step_signals hc h (fun n e => htick ⟨n, e⟩) hreset fun cfg image e => hrestore ⟨cfg, image, e⟩
  refine ⟨?_, fun _ _ _ => hs, fun hor => absurd hor hnone⟩
  rcases hs with ⟨htrace, -⟩ | ⟨src, -, hr⟩
  · rw [htrace]
  · exact hr.trace_prefix

end Sys2Proof.Machine
end

section
/-! SUPPORT. No instruction changes a bit of `ctrl` that only a host write changes (`10_state.md` R21, R27 to R32). -/

namespace Sys2Proof.Machine

theorem protocolError_ctrl (s : State) : CtrlKept (fun i => i ≠ 14) s (protocolError s) :=
  fun i hi => getLsbD_putField_other 14 _ _ i (by decide) (by omega)

theorem clearCommand_ctrl (s : State) : CtrlKept (fun i => i ≠ 31) s (clearCommand s) := fun i hi => by
  show (putBUSY false s.unit.ctrl).getLsbD i = _
  by_cases h : i < 31
  · exact getLsbD_putField_other 31 _ _ i (by decide) (by omega)
  · rw [BitVec.getLsbD_of_ge _ i (by omega), BitVec.getLsbD_of_ge _ i (by omega)]

theorem raise_ctrl (p : Nat → Prop) (src : IrqSrc) (s : State) : CtrlKept p s (raise src s) := by
  rw [raise_eq]
  exact .refl p s

/-- BCLR and a soft reset clear the command, the FIFOs and the cursor, of `ctrl` the counters and BUSY (R240, R392). -/
theorem cleared_ctrl (bp : BitVec 7) (s : State) :
    CtrlKept hostCtrlBit s (cursorReset bp (fifoClear (clearCommand s))) := fun i ⟨hlo, hbusy⟩ => by
  obtain ⟨-, -, hclear⟩ := fifoClear_ctrl (clearCommand s)
  exact (hclear i (by omega)).trans (clearCommand_ctrl s i hbusy)

theorem StepEnds.hostBits {lib : Bool} {s t : State} (h : StepEnds lib s t) : CtrlKept hostCtrlBit s t := by
  obtain ⟨u, hm, e⟩ := h
  have hu : CtrlKept hostCtrlBit s u := hm.inFlightKept.ctrl.mono fun i ⟨hi, _⟩ => hi
  rcases e with rfl | rfl | rfl
  · exact hu
  · exact hu.trans (((clearCommand_ctrl u).mono fun i ⟨_, hi⟩ => hi).trans (raise_ctrl _ .cmd _))
  · exact hu

theorem acceptCommand_hostBits (w : Word) (s : State) : CtrlKept hostCtrlBit s (acceptCommand w s) :=
  fun i ⟨hlo, hbusy⟩ => acceptCommand_ctrl w s i (by omega)

theorem Walk.ctrl {s t : State} (h : Walk s t) : CtrlKept (fun i => 4 ≤ i) s t := by
  cases h with
  | push => exact fun i hi => getLsbD_putField_other 0 _ _ i (by decide) (by omega)
  | finish =>
    rw [finishTo_eq]
    exact .refl _ s
  | _ => exact .refl _ s

theorem exec_command_hostBits {i : Instr} {s t : State} (hp : i.port = .command) (h : exec i s = .next t) :
    CtrlKept hostCtrlBit s t := by
  rcases exec_command_cases i s hp with ⟨bp, -, -, e⟩ | ⟨r, e⟩ | ⟨-, f, hf, e⟩ <;> rw [e] at h
  · cases h
    exact (cleared_ctrl bp s).trans (raise_ctrl _ .cmd _)
  · cases h
    exact (protocolError_ctrl s).mono fun i ⟨hlo, _⟩ => by omega
  · exact (acceptCommand_hostBits i.word s).trans (hf.ends h).hostBits

theorem exec_tag_hostBits {i : Instr} {s t : State} (hp : i.port = .tag) (h : exec i s = .next t) :
    CtrlKept hostCtrlBit s t := by
  rcases exec_tag_cases i s hp with ⟨-, e⟩ | ⟨-, -, e⟩ | ⟨-, e⟩ <;> rw [e] at h <;> cases h
  · exact .refl _ s
  · exact (protocolError_ctrl _).mono fun i ⟨hlo, _⟩ => by omega
  · exact runMicro_keeps (P := CtrlKept hostCtrlBit s)
      (fun _ _ hw hk => hk.trans (hw.ctrl.mono fun i ⟨hlo, _⟩ => by omega)) _ (.refl _ s)

/-- Settles O53: commands and tags apart. -/
theorem instructionsKeepHostBits : Obligations.InstructionsKeepHostBits := by
  unfold Obligations.InstructionsKeepHostBits
  intro i s t h
  cases hp : i.port with
  | command => exact exec_command_hostBits hp h
  | tag => exact exec_tag_hostBits hp h

end Sys2Proof.Machine
end

section
/-! SUPPORT. What a step can do, said once: every call but `restore` is a chain of the changes of `Effect`, each with the
condition it happens under. A property of the unit that every `Effect` keeps is kept by every step. -/

namespace Sys2Proof.Machine

/-- A transfer's record is written, and nothing else: a tag is latched or found malformed, a transfer begins, or it is
aborted (R191, R200, R205, R210, R213). -/
inductive Record : State → State → Prop where
  | latch (q : QWord) (s : State) : fetchEnabled s = true → Record s (latchTag q s)
  | halt (s : State) : fetchEnabled s = true → Record s (s.setDmaTo { s.unit.dmaTo with stalled := true })
  | openedTo {mode : DmaMode} {a : Addr} {n : Word} {s t : State} : startTo mode a n s = some t → Record s t
  | openedFrom {a : Addr} {n : Word} {s t : State} : openFrom a n s = some t → Record s t
  | abort (dir : Dir) (s : State) : Record s (dmaAbort dir s)

theorem Record.eq {s t : State} (h : Record s t) :
    t = { s with unit := { s.unit with dmaTo := t.unit.dmaTo, dmaFrom := t.unit.dmaFrom } } := by
  cases h with
  | latch => rfl
  | halt => rfl
  | openedTo h => rcases startTo_cases h with rfl | rfl <;> rfl
  | openedFrom h => rcases openFrom_cases h with ⟨rfl, -⟩ | rfl <;> rfl
  | abort dir => cases dir <;> rfl

/-- One change of the state a call makes. A command's step is one change, from where it was accepted or resumed. -/
inductive Effect : State → State → Prop where
  | submit {w : Word} {s t : State} : 1 ≤ (decodeCommand w).code → (decodeCommand w).code ≤ 9 →
      (commandStep (acceptCommand w s)).outcome = .next t → Effect s t
  | dispatch {s t : State} : s.unit.cmd.busy = true → (commandStep s).outcome = .next t → Effect s t
  | clear (bp : BitVec 7) (s : State) : Effect s (cursorReset bp (fifoClear (clearCommand s)))
  | error (s : State) : Effect s (protocolError s)
  | signal (src : IrqSrc) (s : State) : Effect s (raise src s)
  | result (r : CallResult) (s : State) : Effect s (s.setResult r)
  | walk {s t : State} : Walk s t → Effect s t
  | pop {s t : State} : Pop s t → Effect s t
  | record {s t : State} : Record s t → Effect s t
  | control (v : Word) (s : State) : Effect s (s.setCtrl (maskedCtrl s.unit.ctrl v))
  | reset (s : State) : Effect s (hardReset s)
  | tick (n : Nat) (s : State) : Effect s (tickBy n s)
  | memory (m : List Host.Cell) (s : State) : Effect s (s.setMem m)

/-- A chain of changes. -/
abbrev Effects : State → State → Prop := Relation.ReflTransGen Effect

/-! ### Instructions -/

/-- The step a command makes while it is in flight (R235). -/
def inFlightStep : Instr → State → Flow
  | .idec fb qsc dtd sgn dte ofm _ _ => idecStep fb qsc dtd sgn dte ofm
  | .bdec fb qsc dt dcr mbi _ _ => bdecStep fb qsc dt dcr mbi
  | .vdec fb tbl _ => vdecStep fb tbl
  | .fdec fb _ => fdecStep fb
  | .setiq fb iqm _ => setiqStep fb iqm
  | .setvq _ => setvqStep
  | .csc mbc dte ofm _ => cscStep mbc dte ofm
  | .pack mbc dte ofm _ => packStep mbc dte ofm
  | .setth th0 th1 _ _ => setthStep th0 th1
  | .bclr _ _ | .invalid101 _ _ | .invalid11 _ _ => .stop
  | .tagFollow _ | .tagQwc _ | .tagAddr _ | .tagNone _ | .tagMalformed _ _ => .stop

theorem commandStep_eq (s : State) : commandStep s = inFlightStep (decodeCommand s.unit.cmd.current) s := by
  unfold commandStep
  cases decodeCommand s.unit.cmd.current <;> rfl

/-- All that a command can do, by its kind: BCLR clears and completes; a word of an invalid opcode is rejected; any other
is submitted. -/
theorem exec_kinds (i : Instr) (s : State) (hp : i.port = .command) :
    (∃ bp, exec i s = .next ((raise .cmd (cursorReset bp (fifoClear (clearCommand s)))).setResult .accepted)) ∨
      (∃ r, exec i s = .next (rejectCommand r s)) ∨
      (1 ≤ i.code ∧ i.code ≤ 9 ∧ exec i s = submit i.word (inFlightStep i) s) := by
  cases i with
  | bclr bp unused => exact .inl ⟨bp, rfl⟩
  | invalid101 opcode option => exact .inr (.inl ⟨.invalidOpcode, rfl⟩)
  | invalid11 opcode option => exact .inr (.inl ⟨.invalidOpcode, rfl⟩)
  | tagFollow _ | tagQwc _ | tagAddr _ | tagNone _ | tagMalformed _ _ => cases hp
  | _ => exact .inr (.inr ⟨by simp [Instr.code], by simp [Instr.code], rfl⟩)

/-- The first step of a command word that is accepted is the one of the command in flight (R234). -/
theorem exec_decodeCommand_cases (w : Word) (s : State) :
    (∃ bp, exec (decodeCommand w) s =
        .next ((raise .cmd (cursorReset bp (fifoClear (clearCommand s)))).setResult .accepted)) ∨
      (∃ r, exec (decodeCommand w) s = .next (rejectCommand r s)) ∨
      (1 ≤ (decodeCommand w).code ∧ (decodeCommand w).code ≤ 9 ∧
        exec (decodeCommand w) s = (commandStep (acceptCommand w s)).outcome) := by
  rcases exec_kinds (decodeCommand w) s (decodeCommand_port w) with h | h | ⟨hlo, hhi, e⟩
  · exact .inl h
  · exact .inr (.inl h)
  · rw [word_decodeCommand] at e
    rcases submit_cases w (inFlightStep (decodeCommand w)) s with ⟨-, e'⟩ | ⟨-, e'⟩
    · exact .inr (.inl ⟨_, e.trans e'⟩)
    · exact .inr (.inr ⟨hlo, hhi, by rw [e, e', commandStep_eq]; rfl⟩)

theorem exec_decodeCommand_effects {w : Word} {s t : State} (h : exec (decodeCommand w) s = .next t) :
    Effects s t := by
  rcases exec_decodeCommand_cases w s with ⟨bp, e⟩ | ⟨r, e⟩ | ⟨hlo, hhi, e⟩ <;> rw [e] at h
  · cases h
    exact ((Relation.ReflTransGen.single (.clear bp s)).tail (.signal .cmd _)).tail (.result _ _)
  · cases h
    exact (Relation.ReflTransGen.single (.error s)).tail (.result _ _)
  · exact .single (.submit hlo hhi h)

theorem runMicro_effects (n : Nat) (s : State) : Effects s (runMicro n s) :=
  runMicro_keeps (P := Effects s) (fun _ _ hw hs => hs.tail (.walk hw)) n .refl

theorem exec_tag_effects {i : Instr} {s t : State} (hp : i.port = .tag) (h : exec i s = .next t) : Effects s t := by
  rcases exec_tag_cases i s hp with ⟨-, e⟩ | ⟨hf, -, e⟩ | ⟨hf, e⟩ <;> rw [e] at h <;> cases h
  · exact .refl
  · exact ((Relation.ReflTransGen.single (.record (.halt s hf))).tail (.error _)).tail (.result _ _)
  · exact ((Relation.ReflTransGen.single (.result _ s)).tail (.record (.latch _ _ hf))).trans (runMicro_effects _ _)

/-! ### Calls -/

theorem dispatchStep_effects {s t : State} (h : (dispatchStep s).outcome = .next t) : Effects s t := by
  unfold dispatchStep at h
  split at h
  · rename_i hb
    exact .single (.dispatch hb h)
  · cases h
    exact .refl

theorem kickTo_effects {mode : DmaMode} {a : Addr} {n : Word} {s t : State} (h : kickTo mode a n s = .next t) :
    Effects s t := by
  obtain ⟨u, ho, h⟩ := kickTo_cases h
  have hopen : Effects s u := by
    unfold openTo at ho
    split at ho
    · cases ho
      exact .refl
    · exact .single (.record (.openedTo ho))
  have hrun := (hopen.tail (.result (.status 0) u)).trans (runMicro_effects runBound _)
  rcases h with rfl | ⟨q, h⟩
  · exact hrun
  · exact hrun.trans (exec_tag_effects (decodeTag_port q) h)

theorem kickFrom_effects {a : Addr} {n : Word} {s t : State} (h : kickFrom a n s = .next t) : Effects s t := by
  obtain ⟨u, ho, rfl⟩ := kickFrom_cases h
  have hi := openFrom_inProgress ho
  have hpops : Effects (u.setResult (.status 0)) (popLoop 16 (u.setResult (.status 0))) :=
    Relation.ReflTransGen.mono (fun _ _ => Effect.pop) _ _ (popLoop_pops 16 (u.setResult (.status 0)) hi)
  exact ((Relation.ReflTransGen.single (.record (.openedFrom ho))).tail (.result (.status 0) u)).trans hpops

theorem softReset_effects (s : State) : Effects s (softReset s) :=
  ((Relation.ReflTransGen.single (.clear 0 s)).tail (.record (.abort .toUnit _))).tail
    (.record (.abort .fromUnit _))

theorem writeCtrl_effects (v : Word) (s : State) : Effects s (writeCtrl v s) := by
  unfold writeCtrl
  dsimp only
  split
  · exact (Relation.ReflTransGen.single (.control v s)).trans (softReset_effects _)
  · exact .single (.control v s)

theorem regWrite32_effects {off : Nat} {v : Word} {s t : State} (h : regWrite32 off v s = .next t) : Effects s t := by
  unfold regWrite32 at h
  split at h
  · obtain ⟨u, hu, rfl⟩ := dropResult_next h
    exact (exec_decodeCommand_effects hu).tail (.result _ u)
  · split at h <;> cases h
    · exact (writeCtrl_effects v s).tail (.result _ _)
    · exact .single (.result _ s)

theorem runCall_effects {c : Call} {s t : State} (hrestore : ∀ cfg image, c ≠ .restore cfg image)
    (h : runCall c s = .next t) : Effects s t := by
  have andResult {u : State} (hu : Effects s u) {r : CallResult} (ht : .next (u.setResult r) = runCall c s) :
      Effects s t := by
    cases ht.trans h
    exact hu.tail (.result r u)
  cases c with
  | restore cfg image => exact absurd rfl (hrestore cfg image)
  | hardReset => exact andResult (.single (.reset s)) rfl
  | softReset => exact andResult (softReset_effects s) rfl
  | regRead32 off => exact andResult .refl rfl
  | regRead64 off => exact andResult .refl rfl
  | regWrite32 off v => exact regWrite32_effects h
  | regWrite64 off v => exact regWrite32_effects h
  | cmdWrite w => exact exec_decodeCommand_effects h
  | dispatchStep => exact (Relation.ReflTransGen.single (.result .none s)).trans (dispatchStep_effects h)
  | continueStep => exact dispatchStep_effects h
  | dmaKickTo mode a n => exact kickTo_effects h
  | dmaKickFrom a n => exact kickFrom_effects h
  | dmaAbort dir => exact andResult (.single (.record (.abort dir s))) rfl
  | tick n => exact andResult (.single (.tick n s)) rfl
  | canPersist => exact andResult .refl rfl
  | save =>
    simp only [runCall, callSave] at h
    split at h <;> cases h
    exact .single (.result _ s)
  | hostStore a bs => exact andResult (.single (.memory _ s)) rfl

/-! ### Steps -/

theorem Effect.cfg {s t : State} (h : Effect s t) : t.cfg = s.cfg := by
  cases h with
  | submit _ _ h => exact ((acceptCommand_hostKept _ s).trans ((commandStep_within _).hostKept h)).cfg
  | dispatch _ h => exact ((commandStep_within s).hostKept h).cfg
  | signal src => exact raise_cfg src s
  | walk h =>
    cases h with
    | finish => exact (finishTo_hostKept s).cfg
    | _ => rfl
  | pop h =>
    cases h with
    | store _ h => exact (popStore_cfg _ _ _ _).trans (by rw [outPop_eq h])
    | stall _ h => exact (setDmaFrom_cfg _ _).trans (by rw [outPop_eq h])
    | finish => exact (finishFrom_hostKept s).cfg
  | record h => rw [h.eq]
  | _ => rfl

/-- No change adds a waiting call but the rest of a step that was cut (Log 5). -/
theorem Effect.calls {s t : State} (h : Effect s t) {c : Call} (hc : c ∈ t.calls) : c ∈ s.calls ∨ c = .continueStep := by
  have stepCalls {lib : Bool} {u : State} (hu : StepEnds lib u t) (hs : u.calls = s.calls) :
      c ∈ s.calls ∨ c = .continueStep := by
    obtain ⟨v, hm, e⟩ := hu
    have hv : v.calls = s.calls := hm.inFlightKept.calls.trans hs
    rcases e with rfl | rfl | rfl
    · exact .inl (hv ▸ hc)
    · rw [complete, raise_calls] at hc
      exact .inl (hv ▸ hc)
    · rcases List.mem_cons.mp hc with e | hc
      · exact .inr e
      · exact .inl (hv ▸ hc)
  cases h with
  | submit _ _ h => exact stepCalls (commandStep_ends h) rfl
  | dispatch _ h => exact stepCalls (commandStep_ends h) rfl
  | signal src =>
    rw [raise_calls] at hc
    exact .inl hc
  | walk h =>
    cases h with
    | finish =>
      rw [finishTo_eq] at hc
      exact .inl hc
    | _ => exact .inl hc
  | pop h =>
    cases h with
    | store _ h =>
      rw [popStore_calls, outPop_eq h] at hc
      exact .inl hc
    | stall _ h =>
      rw [setDmaFrom_calls, outPop_eq h] at hc
      exact .inl hc
    | finish =>
      rw [finishFrom_eq] at hc
      exact .inl hc
  | record h =>
    rw [h.eq] at hc
    exact .inl hc
  | _ => exact .inl hc

theorem Effects.calls {s t : State} (h : Effects s t) {c : Call} (hc : c ∈ t.calls) :
    c ∈ s.calls ∨ c = .continueStep := by
  induction h with
  | refl => exact .inl hc
  | tail _ he ih => exact (he.calls hc).elim ih .inr

/-- No step changes the configuration (`00_scope.md` R5). -/
theorem step_cfg {c : Call} {rest : List Call} {s t : State} (hc : s.calls = c :: rest) (h : step s = .next t) :
    t.cfg = s.cfg := by
  rcases step_host_cases hc h with ⟨_, _, -, hx⟩ | ⟨_, _, -, hcfg, -⟩ | hk
  · exact hx.cfg
  · exact hcfg
  · exact hk.cfg

/-- A property of the unit is kept by every step, where every step of a call other than `restore` keeps it: a restored
image has it already. -/
theorem stepKeeps_of_calls {P : UnitConfig → UnitState → Prop}
    (hP : ∀ (c : Call) (rest : List Call) (s t : State), s.calls = c :: rest →
      (∀ cfg image, c ≠ .restore cfg image) → step s = .next t → P s.cfg s.unit → P s.cfg t.unit) : StepKeeps P := by
  rintro s t ⟨hunit, himages⟩ h
  cases hc : s.calls with
  | nil =>
    unfold step at h
    rw [hc] at h
    cases h
    exact ⟨hunit, himages⟩
  | cons c rest =>
    have hcfg := step_cfg hc h
    have hrun := step_runCall hc h
    rw [hc] at himages
    unfold Held
    rw [hcfg]
    by_cases hr : ∃ cfg image, c = .restore cfg image
    · obtain ⟨cfg, image, rfl⟩ := hr
      simp only [runCall, callRestore] at hrun
      split at hrun
      · rename_i he
        cases hrun
        exact ⟨himages image (he ▸ List.mem_cons_self), fun image' hm => himages image' (List.mem_cons_of_mem _ hm)⟩
      · cases hrun
    · have hne : ∀ cfg image, c ≠ .restore cfg image := fun cfg image e => hr ⟨cfg, image, e⟩
      refine ⟨hP c rest s t hc hne h hunit, fun image hm => ?_⟩
      exact ((runCall_effects hne hrun).calls hm).elim (fun hm => himages image (List.mem_cons_of_mem _ hm)) nofun

/-- A property of the unit that every change keeps, every step keeps. -/
theorem stepKeeps_of_effects {P : UnitConfig → UnitState → Prop}
    (hP : ∀ s t, Effect s t → P s.cfg s.unit → P s.cfg t.unit) : StepKeeps P := by
  refine stepKeeps_of_calls fun c rest s t hc hne h hs => ?_
  have chain {u v : State} (he : Effects u v) (hu : P u.cfg u.unit) : v.cfg = u.cfg ∧ P u.cfg v.unit := by
    induction he with
    | refl => exact ⟨rfl, hu⟩
    | tail _ he ih =>
      obtain ⟨hcfg, hv⟩ := ih
      exact ⟨he.cfg.trans hcfg, hcfg ▸ hP _ _ he (hcfg ▸ hv)⟩
  exact (chain (runCall_effects hne (step_runCall hc h)) hs).2

end Sys2Proof.Machine
end

section
/-! SUPPORT. The FIFO counters follow the queues (`41_fifo_gate.md` R178). -/

namespace Sys2Proof.Machine

/-- A field of `ctrl` that the mask of a control write leaves out is kept by it (`45_host_register_interface.md` R326). -/
theorem getField_maskedCtrl {lo w : Nat} (c v : Word) (h : ∀ i, lo ≤ i → i < lo + w → ctrlWmask.getLsbD i = false) :
    getField lo w (maskedCtrl c v) = getField lo w c := by
  refine getField_congr fun i hlo hhi => ?_
  by_cases hi : i < 32
  · simp [maskedCtrl, -BitVec.getLsbD_eq_getElem, h i hlo hhi, hi]
  · rw [BitVec.getLsbD_of_ge _ i (by omega), BitVec.getLsbD_of_ge _ i (by omega)]

@[simp] theorem ctrlIFC_maskedCtrl (c v : Word) : ctrlIFC (maskedCtrl c v) = ctrlIFC c :=
  getField_maskedCtrl c v (by decide)

@[simp] theorem ctrlOFC_maskedCtrl (c v : Word) : ctrlOFC (maskedCtrl c v) = ctrlOFC c :=
  getField_maskedCtrl c v (by decide)

/-- The invariant looks at the queues and the counters only. -/
theorem FifoInv.congr {cfg : UnitConfig} {u v : UnitState} (h : FifoInv cfg u) (hin : v.fifoIn = u.fifoIn)
    (hout : v.fifoOut = u.fifoOut) (hifc : ctrlIFC v.ctrl = ctrlIFC u.ctrl) (hofc : ctrlOFC v.ctrl = ctrlOFC u.ctrl) :
    FifoInv cfg v := by
  unfold FifoInv at h ⊢
  rwa [hin, hout, hifc, hofc]

theorem inTake_fifoInv {s t : State} {q : QWord} (h : inTake s = some (q, t)) (hs : FifoInv s.cfg s.unit) :
    FifoInv s.cfg t.unit := by
  obtain ⟨⟨e, hctrl⟩, -, hq, h0, hifc⟩ := inputOnly_inTake h
  have hofc : ctrlOFC t.unit.ctrl = ctrlOFC s.unit.ctrl := getField_congr fun i hi _ => hctrl i hi
  have hout : t.unit.fifoOut = s.unit.fifoOut := by rw [e]
  have hpred : t.ifc.toNat + 1 = s.ifc.toNat := hifc ▸ toNat_pred_of_ne h0
  obtain ⟨hin, hcap, hrest⟩ := hs
  rw [hq, List.length_cons] at hin hcap
  refine ⟨?_, by omega, by rwa [hofc, hout]⟩
  change t.ifc.toNat = _
  change s.ifc.toNat = _ at hin
  omega

theorem outPut_fifoInv {s t : State} {q : QWord} (h : outPut q s = some t) (hs : FifoInv s.cfg s.unit) :
    FifoInv s.cfg t.unit := by
  rcases outPut_spec q s with ⟨hroom, u, hu, hq, hofc, hifc, -, e⟩ | ⟨-, hn⟩
  · obtain rfl : u = t := Option.some.inj (hu.symm.trans h)
    have hin : u.unit.fifoIn = s.unit.fifoIn := by rw [e]
    have hlt : s.ofc.toNat < s.cfg.fifoOutCap.toNat := hroom
    obtain ⟨h1, h2, hcount, hcap⟩ := hs
    have hcount' : s.ofc.toNat = s.unit.fifoOut.length := hcount
    have hnew : u.ofc.toNat = u.unit.fifoOut.length := by
      rw [hofc, hq, List.length_append, List.length_singleton, hcount']
    refine ⟨?_, by rwa [hin], hnew, by omega⟩
    change u.ifc.toNat = _
    rw [hifc, hin]
    exact h1
  · exact nomatch hn.symm.trans h

theorem Move.fifoInv {lib : Bool} {s t : State} (h : Move lib s t) (hs : FifoInv s.cfg s.unit) :
    FifoInv s.cfg t.unit := by
  cases h with
  | take h => exact inTake_fifoInv h hs
  | put h => exact outPut_fifoInv h hs
  | report res =>
    exact hs.congr rfl rfl (getField_congr fun i _ hi => applyDone_ctrl res s i (.inl (by omega)))
      (getField_congr fun i _ hi => applyDone_ctrl res s i (.inl (by omega)))
  | _ => exact hs

theorem clearCommand_fifoInv {cfg : UnitConfig} {s : State} (hs : FifoInv cfg s.unit) :
    FifoInv cfg (clearCommand s).unit :=
  hs.congr rfl rfl (ctrlIFC_putBUSY _ _) (ctrlOFC_putBUSY _ _)

theorem raise_fifoInv {cfg : UnitConfig} {s : State} (src : IrqSrc) (hs : FifoInv cfg s.unit) :
    FifoInv cfg (raise src s).unit := by
  rw [raise_eq]
  exact hs

theorem StepEnds.fifoInv {lib : Bool} {s t : State} (h : StepEnds lib s t) (hs : FifoInv s.cfg s.unit) :
    FifoInv t.cfg t.unit :=
  h.keeps FifoInv (fun _ _ hm hu => hm.hostKept.cfg ▸ hm.fifoInv hu) (fun _ hu => clearCommand_fifoInv hu)
    (fun u hu => raise_cfg .cmd u ▸ raise_fifoInv .cmd hu) hs

theorem Walk.fifoInv {s t : State} (h : Walk s t) (hs : FifoInv s.cfg s.unit) : FifoInv s.cfg t.unit := by
  cases h with
  | push _ hroom =>
    obtain ⟨hin, hcap, hofc, hrest⟩ := hs
    have hlt : s.ifc.toNat < s.cfg.fifoInCap.toNat := hroom
    have hin' : s.ifc.toNat = s.unit.fifoIn.length := hin
    have hnew : (pushOne s).ifc.toNat = s.ifc.toNat + 1 := by
      rw [← toNat_succ_of_lt hroom]
      simp [pushOne, bumpMoved, State.ifc]
    have hlen : (pushOne s).unit.fifoIn.length = s.unit.fifoIn.length + 1 := by simp [pushOne, bumpMoved]
    exact ⟨show (pushOne s).ifc.toNat = _ by omega, by omega,
      (congrArg BitVec.toNat (ctrlOFC_putIFC _ _)).trans hofc, hrest⟩
  | finish =>
    rw [finishTo_eq]
    exact hs
  | _ => exact hs

/-- The queue loses its head and the counter one, or neither changes. -/
theorem outPop_fifoInv {s t : State} {x : Option QWord} (h : outPop s = (t, x)) (hs : FifoInv s.cfg s.unit) :
    FifoInv s.cfg t.unit := by
  rcases outPop_cases s with ⟨f, e⟩ | ⟨f, q, qs, h0, hq, e⟩ <;> cases e.symm.trans h
  · exact hs
  · obtain ⟨hin, hincap, hcount, hcap⟩ := hs
    have hpred := toNat_pred_of_ne h0
    change s.ofc.toNat = _ at hcount
    rw [hq, List.length_cons] at hcount hcap
    refine ⟨?_, hincap, ?_, ?_⟩
    · exact (congrArg BitVec.toNat (ctrlIFC_putOFC _ _)).trans hin
    · refine (congrArg BitVec.toNat (ctrlOFC_putOFC _ _)).trans ?_
      change _ = qs.length
      omega
    · change qs.length ≤ _
      omega

theorem Pop.fifoInv {s t : State} (h : Pop s t) (hs : FifoInv s.cfg s.unit) : FifoInv s.cfg t.unit := by
  cases h with
  | store _ h =>
    rw [popStore_unit]
    exact outPop_fifoInv h hs
  | stall _ h =>
    have ht := outPop_fifoInv h hs
    exact ht
  | finish =>
    rw [finishFrom_eq]
    exact hs

theorem cleared_fifoInv (cfg : UnitConfig) (bp : BitVec 7) (s : State) :
    FifoInv cfg (cursorReset bp (fifoClear (clearCommand s))).unit := by
  obtain ⟨hifc, hofc, -⟩ := fifoClear_ctrl (clearCommand s)
  exact ⟨congrArg BitVec.toNat hifc, Nat.zero_le _, congrArg BitVec.toNat hofc, Nat.zero_le _⟩

theorem reset_fifoInv (cfg : UnitConfig) : FifoInv cfg UnitState.reset := by
  refine ⟨?_, Nat.zero_le _, ?_, Nat.zero_le _⟩ <;> decide

theorem Effect.fifoInv {s t : State} (h : Effect s t) (hs : FifoInv s.cfg s.unit) : FifoInv s.cfg t.unit := by
  have hcfg := h.cfg
  cases h with
  | @submit w _ _ _ _ h =>
    have haccept : FifoInv s.cfg (acceptCommand w s).unit :=
      hs.congr rfl rfl (by simp [acceptCommand]) (by simp [acceptCommand])
    exact hcfg ▸ (commandStep_ends h).fifoInv haccept
  | dispatch _ h => exact hcfg ▸ (commandStep_ends h).fifoInv hs
  | clear bp => exact cleared_fifoInv _ bp s
  | error => exact hs.congr rfl rfl (ctrlIFC_putECD _ _) (ctrlOFC_putECD _ _)
  | signal src => exact raise_fifoInv src hs
  | walk h => exact h.fifoInv hs
  | pop h => exact h.fifoInv hs
  | record h =>
    rw [h.eq]
    exact hs
  | control v => exact hs.congr rfl rfl (ctrlIFC_maskedCtrl _ v) (ctrlOFC_maskedCtrl _ v)
  | reset => exact reset_fifoInv _
  | _ => exact hs

/-- Settles O54: every change keeps the counters equal to the queues and within the capacities. -/
theorem countersFollowQueues : Obligations.CountersFollowQueues := by
  unfold Obligations.CountersFollowQueues
  exact stepKeeps_of_effects fun _ _ h hs => h.fifoInv hs

end Sys2Proof.Machine
end

section
/-! SUPPORT. Both transfer records stay consistent and aligned (`10_state.md` R48, R49; `42_dma_tag_walker.md` R198, R207;
`46_operation_classes_and_laws.md` R274). -/

namespace Sys2Proof.Machine

/-! ### The two records -/

/-- What holds of the into-unit record. -/
structure IntoInv (d : Transfer) : Prop where
  status : StatusInv d
  chain : ChainInv d
  aligned : AlignedInv d

/-- What holds of the out-of-unit record. -/
structure OutOfInv (d : Transfer) : Prop where
  status : StatusInv d
  aligned : AlignedInv d
  mode : d.mode = .normal
  tagFollow : d.tagFollow = .none
  nextMem : d.nextMem = 0
  tagWord : d.tagWord = 0

theorem dmaInv_iff (u : UnitState) : DmaInv u ↔ IntoInv u.dmaTo ∧ OutOfInv u.dmaFrom := by
  constructor
  · rintro ⟨status, chain, aligned, status', aligned', mode, follow, next, tag⟩
    exact ⟨⟨status, chain, aligned⟩, status', aligned', mode, follow, next, tag⟩
  · rintro ⟨⟨status, chain, aligned⟩, status', aligned', mode, follow, next, tag⟩
    exact ⟨status, chain, aligned, status', aligned', mode, follow, next, tag⟩

theorem intoInv_reset : IntoInv Transfer.reset := ⟨⟨nofun, nofun, nofun⟩, nofun, rfl, rfl⟩

theorem outOfInv_reset : OutOfInv Transfer.reset := ⟨⟨nofun, nofun, nofun⟩, ⟨rfl, rfl⟩, rfl, rfl, rfl, rfl⟩

/-! ### Parts -/

theorem align16_aligned (a : Addr) : (align16 a).toNat % 16 = 0 := by
  have h : (~~~15#32).toNat % 2 ^ 4 = 0 := by decide
  change (a &&& ~~~15#32).toNat % 2 ^ 4 = 0
  rw [BitVec.toNat_and, Nat.and_mod_two_pow, h, Nat.and_zero]

theorem add16_aligned {a : Addr} (h : a.toNat % 16 = 0) : (a + 16).toNat % 16 = 0 := by
  rw [BitVec.toNat_add]
  change (a.toNat + 16) % 2 ^ 32 % 16 = 0
  omega

/-- A transfer in progress has not finished, nor raised its interrupt. -/
theorem StatusInv.inProgress {d : Transfer} (h : StatusInv d) (hi : d.inProgress = true) :
    d.dmaFinished = false ∧ d.irqTriggered = false := by
  obtain ⟨hfin, hirq, -⟩ := h
  have hf : d.dmaFinished = false := by
    cases hd : d.dmaFinished with
    | false => rfl
    | true =>
      obtain ⟨hi', -⟩ := hfin hd
      exact nomatch hi.symm.trans hi'
  refine ⟨hf, ?_⟩
  cases hd : d.irqTriggered with
  | false => rfl
  | true => exact nomatch hf.symm.trans (hirq hd)

/-- A record in progress that has not finished, nor raised its interrupt, has consistent flags. -/
theorem StatusInv.intro_inProgress {d : Transfer} (hi : d.inProgress = true) (hf : d.dmaFinished = false)
    (ht : d.irqTriggered = false) : StatusInv d :=
  ⟨fun h => (nomatch hf.symm.trans h), fun h => (nomatch ht.symm.trans h), fun _ => hi⟩

theorem finished_status {d : Transfer} (h : d.remaining = 0) : StatusInv d.finished :=
  ⟨fun _ => ⟨rfl, h⟩, fun _ => rfl, nofun⟩

/-- The record after one quadword moved. -/
theorem moved_status {d : Transfer} {a : Addr} {n : BitVec 28} (h : StatusInv d) (hi : d.inProgress = true) :
    StatusInv { d with memAddr := a, remaining := n, stalled := false } := by
  obtain ⟨hf, ht⟩ := h.inProgress hi
  exact .intro_inProgress hi hf ht

/-- The record after a stall. -/
theorem stalled_status {d : Transfer} (h : StatusInv d) (hi : d.inProgress = true) :
    StatusInv { d with stalled := true } := by
  obtain ⟨hf, ht⟩ := h.inProgress hi
  exact .intro_inProgress hi hf ht

/-- A chain in progress stalls in stage FOLLOW, or in stage QWC with payload left; in no other stage is it stalled. -/
theorem ChainInv.not_stalled {d : Transfer} (h : ChainInv d) (hi : d.inProgress = true) (hm : d.mode = .chain)
    (hfollow : d.tagFollow ≠ .follow) (hqwc : d.tagFollow = .qwc → d.remaining = 0) : d.stalled ≠ true := fun hs => by
  obtain ⟨-, hstall⟩ := h hi hm
  rcases hstall hs with hf | ⟨hq, hr⟩
  · exact hfollow hf
  · exact hr (hqwc hq)

/-! ### Changes -/

theorem Walk.intoInv {s t : State} (h : Walk s t) (hs : IntoInv s.unit.dmaTo) : IntoInv t.unit.dmaTo := by
  obtain ⟨hstatus, hchain, hmem, hnext⟩ := hs
  cases h with
  | push hp =>
    obtain ⟨hi, hp⟩ := hp
    refine ⟨moved_status hstatus hi, fun _ hm => ⟨fun hf => absurd ?_ hf, nofun⟩, add16_aligned hmem, hnext⟩
    rcases hp with hn | ⟨-, hq⟩
    · exact nomatch hn.symm.trans hm
    · exact hq
  | stall hp hr =>
    obtain ⟨hi, hp⟩ := hp
    refine ⟨stalled_status hstatus hi, fun _ hm => ?_, hmem, hnext⟩
    rcases hp with hn | ⟨-, hq⟩
    · exact nomatch hn.symm.trans hm
    · exact ⟨fun hf => absurd hq hf, fun _ => .inr ⟨hq, hr⟩⟩
  | payloadDone hq hr =>
    exact ⟨hstatus, fun hi hm => ⟨fun _ => hr, fun hst =>
      absurd hst (hchain.not_stalled hi hm (by rw [hq]; nofun) fun _ => hr)⟩, hmem, hnext⟩
  | nextAddress hm ha =>
    refine ⟨hstatus, fun hi _ => ⟨fun _ => ?_, fun hst => ?_⟩, hmem, align16_aligned _⟩
    · obtain ⟨hrem, -⟩ := hchain hi hm
      exact hrem (by rw [ha]; nofun)
    · exact absurd hst (hchain.not_stalled hi hm (by rw [ha]; nofun) (by rw [ha]; nofun))
  | nextDescriptor hm hn =>
    refine ⟨hstatus, fun hi _ => ⟨fun _ => ?_, fun _ => .inl rfl⟩, hmem, hnext⟩
    obtain ⟨hrem, -⟩ := hchain hi hm
    exact hrem (by rw [hn]; nofun)
  | finish hi hend =>
    have hr : s.unit.dmaTo.remaining = 0 := by
      rcases hend with hr | ⟨hm, hn⟩
      · exact hr
      · obtain ⟨hrem, -⟩ := hchain hi hm
        exact hrem (by rw [hn]; nofun)
    rw [finishTo_eq]
    exact ⟨finished_status hr, nofun, hmem, hnext⟩

theorem Walk.dmaFrom {s t : State} (h : Walk s t) : t.unit.dmaFrom = s.unit.dmaFrom := by
  cases h with
  | finish => rw [finishTo_eq]
  | _ => rfl

/-- Before the fetch of a tag the walker is in stage FOLLOW of a chain, not stalled (R200). -/
theorem fetchEnabled_iff (s : State) : fetchEnabled s = true ↔ s.unit.dmaTo.inProgress = true ∧
    s.unit.dmaTo.mode = .chain ∧ s.unit.dmaTo.tagFollow = .follow ∧ s.unit.dmaTo.stalled = false := by
  simp [fetchEnabled, and_assoc]

theorem latchTag_intoInv {s : State} (q : QWord) (h : fetchEnabled s = true) (hs : IntoInv s.unit.dmaTo) :
    IntoInv (latchTag q s).unit.dmaTo := by
  obtain ⟨hi, -, -, hst⟩ := (fetchEnabled_iff s).mp h
  obtain ⟨hstatus, -, -, hnext⟩ := hs
  obtain ⟨hf, ht⟩ := hstatus.inProgress hi
  exact ⟨.intro_inProgress hi hf ht, fun _ _ => ⟨fun hq => absurd rfl hq, fun hs => nomatch hst.symm.trans hs⟩,
    add16_aligned hnext, hnext⟩

theorem halt_intoInv {s : State} (h : fetchEnabled s = true) (hs : IntoInv s.unit.dmaTo) :
    IntoInv { s.unit.dmaTo with stalled := true } := by
  obtain ⟨hi, hm, hf, -⟩ := (fetchEnabled_iff s).mp h
  obtain ⟨hstatus, hchain, haligned⟩ := hs
  obtain ⟨hrem, -⟩ := hchain hi hm
  exact ⟨stalled_status hstatus hi, fun _ _ => ⟨hrem, fun _ => .inl hf⟩, haligned⟩

theorem startTo_intoInv {mode : DmaMode} {a : Addr} {n : Word} {s t : State} (h : startTo mode a n s = some t) :
    IntoInv t.unit.dmaTo := by
  rcases startTo_cases h with rfl | rfl
  · exact ⟨⟨nofun, nofun, nofun⟩, nofun, align16_aligned a, rfl⟩
  · exact ⟨⟨nofun, nofun, nofun⟩, fun _ _ => ⟨fun _ => rfl, nofun⟩, rfl, align16_aligned a⟩

/-- The out-of-unit record keeps its unused tag fields when a transfer begins (R210). -/
theorem openFrom_outOfInv {a : Addr} {n : Word} {s t : State} (h : openFrom a n s = some t)
    (hs : OutOfInv s.unit.dmaFrom) : OutOfInv t.unit.dmaFrom := by
  rcases openFrom_cases h with ⟨rfl, -⟩ | rfl
  · exact hs
  · obtain ⟨-, ⟨-, hnext⟩, -, -, hnext0, htag⟩ := hs
    exact ⟨⟨nofun, nofun, nofun⟩, ⟨align16_aligned a, hnext⟩, rfl, rfl, hnext0, htag⟩

theorem Record.intoInv {s t : State} (h : Record s t) (hs : IntoInv s.unit.dmaTo) : IntoInv t.unit.dmaTo := by
  cases h with
  | latch q _ h => exact latchTag_intoInv q h hs
  | halt _ h => exact halt_intoInv h hs
  | openedTo h => exact startTo_intoInv h
  | openedFrom h => rcases openFrom_cases h with ⟨rfl, -⟩ | rfl <;> exact hs
  | abort dir =>
    cases dir with
    | toUnit => exact intoInv_reset
    | fromUnit => exact hs

theorem Record.outOfInv {s t : State} (h : Record s t) (hs : OutOfInv s.unit.dmaFrom) :
    OutOfInv t.unit.dmaFrom := by
  cases h with
  | openedTo h => rcases startTo_cases h with rfl | rfl <;> exact hs
  | openedFrom h => exact openFrom_outOfInv h hs
  | abort dir =>
    cases dir with
    | toUnit => exact hs
    | fromUnit => exact outOfInv_reset
  | _ => exact hs

theorem Pop.outOfInv {s t : State} (h : Pop s t) (hs : OutOfInv s.unit.dmaFrom) : OutOfInv t.unit.dmaFrom := by
  obtain ⟨hstatus, ⟨hmem, hnext⟩, hmode, hfollow, hnext0, htag⟩ := hs
  cases h with
  | store hi =>
    rw [popStore_unit]
    exact ⟨moved_status hstatus hi, ⟨add16_aligned hmem, hnext⟩, hmode, hfollow, hnext0, htag⟩
  | stall hi => exact ⟨stalled_status hstatus hi, ⟨hmem, hnext⟩, hmode, hfollow, hnext0, htag⟩
  | finish hr =>
    rw [finishFrom_eq]
    exact ⟨finished_status hr, ⟨hmem, hnext⟩, hmode, hfollow, hnext0, htag⟩

theorem Pop.dmaTo {s t : State} (h : Pop s t) : t.unit.dmaTo = s.unit.dmaTo := by
  cases h with
  | store _ h => rw [popStore_unit, outPop_eq h]
  | stall _ h => rw [setDmaFrom_dmaTo, outPop_eq h]
  | finish => rw [finishFrom_eq]

/-- A step of the command in flight leaves both records. -/
theorem StepEnds.transfers {lib : Bool} {s t : State} (h : StepEnds lib s t) :
    t.unit.dmaTo = s.unit.dmaTo ∧ t.unit.dmaFrom = s.unit.dmaFrom := by
  obtain ⟨u, hm, e⟩ := h
  have hk := hm.inFlightKept
  rcases e with rfl | rfl | rfl
  · exact ⟨hk.dmaTo, hk.dmaFrom⟩
  · rw [(complete_spec u).2]
    exact ⟨hk.dmaTo, hk.dmaFrom⟩
  · exact ⟨hk.dmaTo, hk.dmaFrom⟩

theorem Effect.dmaInv {s t : State} (h : Effect s t) (hs : DmaInv s.unit) : DmaInv t.unit := by
  rw [dmaInv_iff] at hs ⊢
  obtain ⟨hto, hfrom⟩ := hs
  cases h with
  | submit _ _ h =>
    obtain ⟨hdto, hdfrom⟩ := (commandStep_ends h).transfers
    exact ⟨hdto ▸ hto, hdfrom ▸ hfrom⟩
  | dispatch _ h =>
    obtain ⟨hdto, hdfrom⟩ := (commandStep_ends h).transfers
    exact ⟨hdto ▸ hto, hdfrom ▸ hfrom⟩
  | signal src =>
    rw [raise_eq]
    exact ⟨hto, hfrom⟩
  | walk h => exact ⟨h.intoInv hto, h.dmaFrom ▸ hfrom⟩
  | pop h => exact ⟨h.dmaTo ▸ hto, h.outOfInv hfrom⟩
  | record h => exact ⟨h.intoInv hto, h.outOfInv hfrom⟩
  | reset => exact ⟨intoInv_reset, outOfInv_reset⟩
  | _ => exact ⟨hto, hfrom⟩

/-- Settles O56: the walker's changes keep the into-unit record, the pops the out-of-unit one. -/
theorem transfersStayConsistent : Obligations.TransfersStayConsistent := by
  unfold Obligations.TransfersStayConsistent
  exact stepKeeps_of_effects fun _ _ h hs => h.dmaInv hs

end Sys2Proof.Machine
end

section
/-! SUPPORT. The reserved bits of `ctrl` and the dead marker stay as reset leaves them (`10_state.md` R28, R31, R44). -/

namespace Sys2Proof.Machine

/-- The reserved bits are among those only a host write could change. -/
theorem CtrlKept.reserved {s t : State} (h : CtrlKept hostCtrlBit s t) (hs : ReservedInv s.unit) :
    ReservedInv t.unit := by
  obtain ⟨hlow, hhigh⟩ := hs
  exact ⟨(getField_congr fun i _ _ => h i ⟨by omega, by omega⟩).trans hlow,
    (getField_congr fun i _ _ => h i ⟨by omega, by omega⟩).trans hhigh⟩

/-- A host write leaves them too (`45_host_register_interface.md` R326). -/
theorem maskedCtrl_reserved {u v : UnitState} (x : Word) (hs : ReservedInv u) (hv : v.ctrl = maskedCtrl u.ctrl x) :
    ReservedInv v := by
  obtain ⟨hlow, hhigh⟩ := hs
  unfold ReservedInv
  rw [hv]
  exact ⟨(getField_maskedCtrl _ x (by decide)).trans hlow, (getField_maskedCtrl _ x (by decide)).trans hhigh⟩

theorem outPop_ctrl {s t : State} {x : Option QWord} (h : outPop s = (t, x)) :
    CtrlKept (fun i => 8 ≤ i) s t := by
  rcases outPop_cases s with ⟨f, e⟩ | ⟨f, q, qs, -, -, e⟩ <;> cases e.symm.trans h
  · exact .refl _ s
  · exact fun i hi => getLsbD_putField_other 4 _ _ i (by decide) (by omega)

theorem Pop.ctrl {s t : State} (h : Pop s t) : CtrlKept (fun i => 8 ≤ i) s t := by
  cases h with
  | store _ h =>
    unfold CtrlKept
    rw [popStore_unit]
    exact outPop_ctrl h
  | stall _ h =>
    have ht := outPop_ctrl h
    exact ht
  | finish =>
    rw [finishFrom_eq]
    exact .refl _ s

theorem reset_reservedInv : ReservedInv UnitState.reset := ⟨by decide, by decide⟩

theorem Effect.reservedInv {s t : State} (h : Effect s t) (hs : ReservedInv s.unit) : ReservedInv t.unit := by
  cases h with
  | @submit w _ _ _ _ h => exact ((acceptCommand_hostBits w s).trans (commandStep_ends h).hostBits).reserved hs
  | dispatch _ h => exact (commandStep_ends h).hostBits.reserved hs
  | clear bp => exact (cleared_ctrl bp s).reserved hs
  | error => exact CtrlKept.reserved ((protocolError_ctrl s).mono fun i ⟨hlo, _⟩ => by omega) hs
  | signal src => exact CtrlKept.reserved (raise_ctrl _ src s) hs
  | walk h => exact CtrlKept.reserved (h.ctrl.mono fun i ⟨hlo, _⟩ => by omega) hs
  | pop h => exact CtrlKept.reserved (h.ctrl.mono fun i ⟨hlo, _⟩ => by omega) hs
  | record h =>
    rw [h.eq]
    exact hs
  | control v => exact maskedCtrl_reserved v hs rfl
  | reset => exact reset_reservedInv
  | _ => exact hs

/-- A step of the command in flight leaves the dead marker. -/
theorem StepEnds.hasNew {lib : Bool} {s t : State} (h : StepEnds lib s t) :
    t.unit.cur.hasNew = s.unit.cur.hasNew := by
  obtain ⟨u, hm, e⟩ := h
  have hk := hm.inFlightKept.hasNew
  rcases e with rfl | rfl | rfl
  · exact hk
  · rw [(complete_spec u).2]
    exact hk
  · exact hk

theorem Effect.hasNewInv {s t : State} (h : Effect s t) (hs : HasNewInv s.unit) : HasNewInv t.unit := by
  cases h with
  | submit _ _ h => exact (commandStep_ends h).hasNew.trans hs
  | dispatch _ h => exact (commandStep_ends h).hasNew.trans hs
  | clear => rfl
  | signal src =>
    rw [raise_eq]
    exact hs
  | walk h =>
    cases h with
    | finish =>
      rw [finishTo_eq]
      exact hs
    | _ => exact hs
  | pop h =>
    cases h with
    | store _ h =>
      rw [popStore_unit, outPop_eq h]
      exact hs
    | stall _ h =>
      rw [outPop_eq h]
      exact hs
    | finish =>
      rw [finishFrom_eq]
      exact hs
  | record h =>
    rw [h.eq]
    exact hs
  | reset => rfl
  | _ => exact hs

/-- Settles O57: every change keeps the reserved bits and the dead marker. -/
theorem reservedStateStaysZero : Obligations.ReservedStateStaysZero := by
  unfold Obligations.ReservedStateStaysZero
  exact stepKeeps_of_effects fun _ _ h ⟨hres, hnew⟩ => ⟨h.reservedInv hres, h.hasNewInv hnew⟩

end Sys2Proof.Machine
end

section
/-! SUPPORT. The interrupt slots stay legal (`10_state.md` R59, `60_exceptions.md` R361, R363): a call raises one source at
most (`step_signals`), time only shortens what is left, and a hard reset empties the slots. -/

namespace Sys2Proof.Machine

theorem Quiet.pendInv {cfg : UnitConfig} {s t : State} (h : Quiet s t) (hs : PendInv cfg s.unit) :
    PendInv cfg t.unit := by
  obtain ⟨-, hpend⟩ := h
  unfold PendInv
  rwa [hpend]

/-- A raised source waits its delay at most, whether its slot was armed or is armed now. -/
theorem Raised.pendInv {src : IrqSrc} {s t : State} (h : Raised src s t) (hs : PendInv s.cfg s.unit) :
    PendInv s.cfg t.unit := by
  rcases h.cases_policy with ⟨-, -, hpend⟩ | ⟨hpolicy, -, hpend⟩
  · unfold PendInv
    rwa [hpend]
  · intro other c hc
    rw [hpend] at hc
    by_cases ho : other = src
    · subst ho
      rw [pendOf_putPend_same] at hc
      cases hslot : pendOf s.unit.pend other with
      | none =>
        rw [hslot] at hc
        cases hc
        exact ⟨hpolicy, le_refl _⟩
      | some d =>
        rw [hslot] at hc
        cases hc
        exact hs other d hslot
    · rw [pendOf_putPend_other _ _ ho] at hc
      exact hs other c hc

theorem pendOf_tickBy (n : Nat) (s : State) (src : IrqSrc) :
    pendOf (tickBy n s).unit.pend src = pendAfter n (pendOf s.unit.pend src) := by cases src <;> rfl

theorem pendAfter_eq_some {n : Nat} {slot : Option Nat} {c : Nat} (h : pendAfter n slot = some c) :
    ∃ d, slot = some d ∧ c ≤ d := by
  cases slot with
  | none => cases h
  | some d =>
    simp only [pendAfter] at h
    split at h <;> cases h
    exact ⟨d, rfl, Nat.sub_le d n⟩

theorem tickBy_pendInv {cfg : UnitConfig} {s : State} (n : Nat) (hs : PendInv cfg s.unit) :
    PendInv cfg (tickBy n s).unit := by
  intro src c hc
  rw [pendOf_tickBy] at hc
  obtain ⟨d, hd, hle⟩ := pendAfter_eq_some hc
  obtain ⟨hpolicy, hdelay⟩ := hs src d hd
  exact ⟨hpolicy, hle.trans hdelay⟩

theorem reset_pendInv (cfg : UnitConfig) : PendInv cfg UnitState.reset := by
  intro src c hc
  cases src <;> cases hc

/-- Settles O58: time and a hard reset apart, by the at most one source a call raises. -/
theorem slotsStayLegal : Obligations.SlotsStayLegal := by
  unfold Obligations.SlotsStayLegal
  refine stepKeeps_of_calls fun c rest s t hc hrestore h hs => ?_
  by_cases hreset : c = .hardReset
  · subst hreset
    cases step_runCall hc h
    exact reset_pendInv _
  by_cases htick : ∃ n, c = .tick n
  · obtain ⟨n, rfl⟩ := htick
    cases step_runCall hc h
    exact tickBy_pendInv (s := s) n hs
  rcases step_signals hc h (fun n e => htick ⟨n, e⟩) hreset hrestore with hq | ⟨src, -, hr⟩
  · exact hq.pendInv hs
  · exact hr.pendInv hs

end Sys2Proof.Machine
end

section
/-! SUPPORT. The command state stays consistent (`10_state.md` R33, R35 to R37, R61). -/

namespace Sys2Proof.Machine

/-- The invariant looks at the command state, the session and BUSY only. -/
theorem CommandInv.congr {u v : UnitState} (h : CommandInv u) (hcmd : v.cmd = u.cmd) (hlib : v.lib = u.lib)
    (hbusy : ctrlBUSY v.ctrl = ctrlBUSY u.ctrl) : CommandInv v := by
  unfold CommandInv at h ⊢
  rwa [hcmd, hlib, hbusy]

/-- A unit with no command in flight. -/
theorem commandInv_idle {u : UnitState} (hcmd : u.cmd = Command.idle) (hlib : u.lib = none)
    (hbusy : ctrlBUSY u.ctrl = false) : CommandInv u := by
  unfold CommandInv
  rw [hcmd, hlib, hbusy]
  exact ⟨⟨nofun, fun h => absurd rfl h⟩, rfl, nofun, fun _ => ⟨rfl, rfl, rfl⟩, fun h => absurd rfl h⟩

theorem reset_commandInv : CommandInv UnitState.reset := commandInv_idle rfl rfl (by decide)

/-- A unit with a command of opcode 1 to 9 in flight. The sentinel's opcode is 15. -/
theorem commandInv_inFlight {u : UnitState} (hb : u.cmd.busy = true) (hbusy : ctrlBUSY u.ctrl = true)
    (hlo : 1 ≤ u.cmd.opcode) (hhi : u.cmd.opcode ≤ 9) (hlib : u.lib ≠ none → u.cmd.opcode ≤ 3) : CommandInv u := by
  have hne : u.cmd.current ≠ currentNone := fun h => by
    unfold Command.opcode at hhi
    rw [h] at hhi
    exact absurd hhi (by decide)
  exact ⟨⟨fun _ => hne, fun _ => hb⟩, hbusy.trans hb.symm, fun _ => ⟨hlo, hhi⟩,
    fun hn => (nomatch hb.symm.trans hn), fun h => ⟨hb, hlib h⟩⟩

theorem clearCommand_commandInv (s : State) : CommandInv (clearCommand s).unit :=
  commandInv_idle rfl rfl (ctrlBUSY_putBUSY _ _)

theorem raise_commandInv {s : State} (src : IrqSrc) (hs : CommandInv s.unit) : CommandInv (raise src s).unit := by
  rw [raise_eq]
  exact hs

/-- Elementary changes of the command in flight open a session only under an opcode of at most 3. -/
theorem Moves.commandInv {s t : State} (h : Moves (decide (s.unit.cmd.opcode ≤ 3)) s t)
    (hb : s.unit.cmd.busy = true) (hs : CommandInv s.unit) : CommandInv t.unit := by
  have hk := h.inFlightKept
  obtain ⟨-, hbusy, hop, -, hlib⟩ := hs
  obtain ⟨hlo, hhi⟩ := hop hb
  have hbit : ctrlBUSY t.unit.ctrl = ctrlBUSY s.unit.ctrl := hk.ctrl 31 (by omega)
  refine commandInv_inFlight (hk.busy.trans hb) ((hbit.trans hbusy).trans hb) (hk.opcode ▸ hlo) (hk.opcode ▸ hhi)
    fun hne => ?_
  rw [hk.opcode]
  rcases h.lib_ne_none hne with hne | hd
  · exact (hlib hne).2
  · exact of_decide_eq_true hd

theorem commandStep_commandInv {s t : State} (h : (commandStep s).outcome = .next t) (hb : s.unit.cmd.busy = true)
    (hs : CommandInv s.unit) : CommandInv t.unit := by
  obtain ⟨u, hm, rfl | rfl | rfl⟩ := commandStep_ends h
  · exact hm.commandInv hb hs
  · exact raise_commandInv .cmd (clearCommand_commandInv u)
  · exact hm.commandInv hb hs

/-- The opcode of an accepted word is the code of its instruction. -/
theorem acceptCommand_opcode (w : Word) (s : State) : (acceptCommand w s).unit.cmd.opcode = (decodeCommand w).code :=
  (decodeCommand_code w).symm

theorem acceptCommand_commandInv {w : Word} (s : State) (hlo : 1 ≤ (decodeCommand w).code)
    (hhi : (decodeCommand w).code ≤ 9) : CommandInv (acceptCommand w s).unit := by
  rw [← acceptCommand_opcode w s] at hlo hhi
  exact commandInv_inFlight rfl (ctrlBUSY_putBUSY _ _) hlo hhi fun h => absurd rfl h

theorem Walk.commandInv {s t : State} (h : Walk s t) (hs : CommandInv s.unit) : CommandInv t.unit := by
  cases h with
  | push => exact hs.congr rfl rfl (ctrlBUSY_putIFC _ _)
  | finish =>
    rw [finishTo_eq]
    exact hs
  | _ => exact hs

/-- A pop leaves the command state and the session. -/
theorem Pop.command {s t : State} (h : Pop s t) : t.unit.cmd = s.unit.cmd ∧ t.unit.lib = s.unit.lib := by
  cases h with
  | store _ h =>
    rw [popStore_unit, outPop_eq h]
    exact ⟨rfl, rfl⟩
  | stall _ h =>
    rw [outPop_eq h]
    exact ⟨rfl, rfl⟩
  | finish =>
    rw [finishFrom_eq]
    exact ⟨rfl, rfl⟩

theorem ctrlBUSY_maskedCtrl (c v : Word) : ctrlBUSY (maskedCtrl c v) = ctrlBUSY c := by
  have h : ctrlWmask.getLsbD 31 = false := by decide
  simp [ctrlBUSY, maskedCtrl, -BitVec.getLsbD_eq_getElem, h]

theorem Effect.commandInv {s t : State} (h : Effect s t) (hs : CommandInv s.unit) : CommandInv t.unit := by
  cases h with
  | submit hlo hhi h => exact commandStep_commandInv h rfl (acceptCommand_commandInv s hlo hhi)
  | dispatch hb h => exact commandStep_commandInv h hb hs
  | clear bp =>
    have hc := clearCommand_commandInv s
    obtain ⟨-, -, hbits⟩ := fifoClear_ctrl (clearCommand s)
    exact hc.congr rfl rfl (hbits 31 (by omega))
  | error => exact hs.congr rfl rfl (ctrlBUSY_putECD _ _)
  | signal src => exact raise_commandInv src hs
  | walk h => exact h.commandInv hs
  | pop h =>
    obtain ⟨hcmd, hlib⟩ := h.command
    exact hs.congr hcmd hlib (h.ctrl 31 (by omega))
  | record h =>
    rw [h.eq]
    exact hs
  | control v => exact hs.congr rfl rfl (ctrlBUSY_maskedCtrl _ v)
  | reset => exact reset_commandInv
  | _ => exact hs

end Sys2Proof.Machine
end

section
/-! SUPPORT. A CSC or PACK in flight has finished fewer macroblocks than it converts: the round that finishes the last one
is followed, in the same step, by the round that completes (`43_command_dispatcher.md` R247, R248). -/

namespace Sys2Proof.Machine

/-- A part of a step goes on in a state of `G`, ends the step in one of `S`, and does not cut it. -/
def Flow.Leads (G S : State → Prop) : Flow → Prop
  | .go t => G t
  | .stop t => S t
  | .more _ => False
  | .fault _ => True
  | .refused _ => True

theorem Flow.Leads.bind {G G' S : State → Prop} {f : Flow} {g : State → Flow} (h : f.Leads G S)
    (hg : ∀ t, G t → (g t).Leads G' S) : (f.bind g).Leads G' S := by
  cases f with
  | go t => exact hg t h
  | stop _ => exact h
  | more _ => exact h
  | fault _ => trivial
  | refused _ => trivial

theorem Flow.Leads.mono_stop {G S S' : State → Prop} {f : Flow} (h : f.Leads G S) (hS : ∀ t, S t → S' t) :
    f.Leads G S' := by
  cases f with
  | stop t => exact hS t h
  | go _ => exact h
  | more _ => exact h
  | fault _ => trivial
  | refused _ => trivial

/-- The word in flight and the number of macroblocks finished. -/
def AtIndex (w k : Word) (s : State) : Prop := s.unit.cmd.current = w ∧ s.unit.cmd.index = k

/-! ### The parts of a round keep word and index -/

theorem pullLoop_cmd (want n : Nat) (s : State) : (pullLoop want n s).unit.cmd = s.unit.cmd := by
  induction n generalizing s with
  | zero => rfl
  | succ n ih =>
    unfold pullLoop
    split
    · cases h : inTake s with
      | none => rfl
      | some x =>
        obtain ⟨⟨e, -⟩, -⟩ := inputOnly_inTake h
        refine (ih _).trans ?_
        change x.2.unit.cmd = _
        rw [e]
    · rfl

theorem pull_cmd (want : Nat) (s : State) : (pull want s).unit.cmd = s.unit.cmd := pullLoop_cmd want _ s

/-- Whatever `readBits` answers, the command state is as before. -/
theorem readBits_cmd {w : Nat} {s t : State} (h : readBits w s = .short t ∨ ∃ v, readBits w s = .ok v t) :
    t.unit.cmd = s.unit.cmd := by
  unfold readBits at h
  dsimp only at h
  split at h
  · split at h
    · obtain h | ⟨v, h⟩ := h <;> cases h
      exact pull_cmd w s
    · obtain h | ⟨v, h⟩ := h <;> cases h
      exact pull_cmd w s
  · obtain h | ⟨v, h⟩ := h <;> cases h

theorem AtIndex.congr {w k : Word} {s t : State} (h : AtIndex w k s) (hcmd : t.unit.cmd = s.unit.cmd) :
    AtIndex w k t := by
  unfold AtIndex at h ⊢
  rwa [hcmd]

theorem byteLoop_leads {w k : Word} {store : Nat → Byte → State → State}
    (hst : ∀ j v s, AtIndex w k s → AtIndex w k (store j v s)) (n j : Nat) (s : State) (hs : AtIndex w k s) :
    (byteLoop store n j s).Leads (AtIndex w k) (AtIndex w k) := by
  induction n generalizing j s with
  | zero => exact hs
  | succ n ih =>
    unfold byteLoop
    cases h : readBits 8 s with
    | ok v t => exact ih _ _ (hst _ _ _ (hs.congr (readBits_cmd (.inr ⟨v, h⟩))))
    | short t => exact hs.congr (readBits_cmd (.inl h))
    | bad => trivial

theorem readBytes_leads {w k : Word} {store : Nat → Byte → State → State} (total : Nat)
    (hst : ∀ j v s, (store j v s).unit.cmd = s.unit.cmd) (s : State) (hs : AtIndex w k s) :
    (readBytes total store s).Leads (AtIndex w k) (AtIndex w k) := by
  refine byteLoop_leads (fun j v u hu => ?_) _ _ s hs
  have hstore : AtIndex w k (store j v u) := hu.congr (hst j v u)
  exact hstore

theorem drainLoop_leads {w k : Word} (qw : Nat → QWord) (n j : Nat) (s : State) (hs : AtIndex w k s) :
    (drainLoop qw n j s).Leads (AtIndex w k) (AtIndex w k) := by
  induction n generalizing j s with
  | zero => exact hs
  | succ n ih =>
    unfold drainLoop
    rcases outPut_spec (qw j) s with ⟨-, t, ht, -, -, -, -, e⟩ | ⟨-, hn⟩
    · have htcmd : AtIndex w k t := hs.congr (by rw [e])
      rw [ht]
      exact ih _ _ htcmd
    · rw [hn]
      exact hs

theorem cscInput_leads {w k : Word} (s : State) (hs : AtIndex w k s) :
    (cscInput s).Leads (AtIndex w k) (AtIndex w k) := by
  unfold cscInput
  exact (readBytes_leads (store := storeRaw) 384 (fun _ _ _ => rfl) s hs).bind fun _ ht => ht

theorem packInput_leads {w k : Word} (s : State) (hs : AtIndex w k s) :
    (packInput s).Leads (AtIndex w k) (AtIndex w k) := by
  unfold packInput
  exact (readBytes_leads (store := storePixel) 1024 (fun _ _ _ => rfl) s hs).bind fun _ ht => ht

/-! ### The loop over macroblocks -/

/-- The command `w` has completed, or is in flight with fewer than `mbc` macroblocks finished. -/
def BelowCount (w : Word) (mbc : BitVec 11) (s : State) : Prop :=
  s.unit.cmd.busy = false ∨ s.unit.cmd.current = w ∧ s.unit.cmd.index.toNat < mbc.toNat

theorem complete_cmd (s : State) : (complete s).unit.cmd = Command.idle := by rw [(complete_spec s).2]

/-- From an index of at most `mbc`, rounds enough for the rest of the macroblocks end the step below the count. -/
theorem macroblockLoop_leads {w : Word} {mbc : BitVec 11} {input : State → Flow} (fmt : Format) (dte : Bool)
    (hin : ∀ k s, AtIndex w k s → (input s).Leads (AtIndex w k) (AtIndex w k)) (n : Nat) (k : Word) (s : State)
    (hs : AtIndex w k s) (hk : k.toNat ≤ mbc.toNat) (hn : mbc.toNat < k.toNat + n) :
    (macroblockLoop mbc input fmt dte n s).Leads (fun _ => False) (BelowCount w mbc) := by
  induction n generalizing k s with
  | zero => omega
  | succ n ih =>
    have hindex := hs.2
    unfold macroblockLoop
    split
    · exact .inl (by rw [complete_cmd]; rfl)
    · rename_i hne
      have hlt : k.toNat < mbc.toNat := by
        refine lt_of_le_of_ne hk fun he => hne ?_
        rw [hindex]
        apply BitVec.eq_of_toNat_eq
        rw [BitVec.toNat_setWidth_of_le (by decide), he]
      have hsucc : (k + 1).toNat = k.toNat + 1 := by
        have := mbc.isLt
        rw [BitVec.toNat_add]
        change (k.toNat + 1) % 2 ^ 32 = _
        omega
      have hbelow : ∀ t, AtIndex w k t → BelowCount w mbc t := fun t ⟨hc, hi⟩ => .inr ⟨hc, by rwa [hi]⟩
      refine Flow.Leads.bind (G := AtIndex w (k + 1)) (Flow.Leads.bind (G := AtIndex w k) ?_ fun t ht => ?_)
        fun t ht => ih (k + 1) t ht (by omega) (by omega)
      · split
        · exact (hin k s hs).mono_stop hbelow
        · exact hs
      · exact ((drainLoop_leads _ _ _ t ht).mono_stop hbelow).bind fun u ⟨hc, hi⟩ => ⟨hc, congrArg (· + 1) hi⟩

theorem Flow.Leads.next {S : State → Prop} {f : Flow} {t : State} (h : f.Leads (fun _ => False) S)
    (e : f.outcome = .next t) : S t := by
  rcases Flow.outcome_next e with rfl | rfl | ⟨u, rfl, -⟩
  · exact h.elim
  · exact h
  · exact h.elim

/-! ### The invariant -/

/-- The CSC or PACK in flight, if it is one, has finished at most as many macroblocks as it converts. -/
def IndexAtMost (u : UnitState) : Prop := ∀ mbc dte ofm unused,
  decodeCommand u.cmd.current = .csc mbc dte ofm unused ∨ decodeCommand u.cmd.current = .pack mbc dte ofm unused →
    u.cmd.index.toNat ≤ mbc.toNat

theorem IndexInv.congr {u v : UnitState} (h : IndexInv u) (hcmd : v.cmd = u.cmd) : IndexInv v := by
  unfold IndexInv at h ⊢
  rwa [hcmd]

theorem indexInv_idle {u : UnitState} (h : u.cmd.busy = false) : IndexInv u := fun hb => nomatch h.symm.trans hb

theorem BelowCount.indexInv {w : Word} {mbc : BitVec 11} {s : State} (h : BelowCount w mbc s)
    (hw : ∀ mbc' dte ofm unused, decodeCommand w = .csc mbc' dte ofm unused ∨
      decodeCommand w = .pack mbc' dte ofm unused → mbc' = mbc) : IndexInv s.unit := by
  rcases h with hb | ⟨hc, hlt⟩
  · exact indexInv_idle hb
  · intro _ mbc' dte ofm unused hd
    rw [hc] at hd
    exact hw mbc' dte ofm unused hd ▸ hlt

/-- A command that is neither CSC nor PACK keeps its word until it completes. -/
theorem StepEnds.indexInv {lib : Bool} {s t : State} (h : StepEnds lib s t)
    (hs : ∀ mbc dte ofm unused, ¬ (decodeCommand s.unit.cmd.current = .csc mbc dte ofm unused ∨
      decodeCommand s.unit.cmd.current = .pack mbc dte ofm unused)) : IndexInv t.unit := by
  obtain ⟨u, hm, e⟩ := h
  have hu : IndexInv u.unit := fun _ mbc dte ofm unused hd =>
    absurd (hm.inFlightKept.current ▸ hd) (hs mbc dte ofm unused)
  rcases e with rfl | rfl | rfl
  · exact hu
  · exact indexInv_idle (by rw [complete_cmd]; rfl)
  · exact hu

/-- A step of CSC or PACK, whatever its input phase and format. -/
theorem macroblockLoop_indexInv {s t : State} {mbc : BitVec 11} {input : State → Flow} {fmt : Format} {dte : Bool}
    (hin : ∀ k u, AtIndex s.unit.cmd.current k u →
      (input u).Leads (AtIndex s.unit.cmd.current k) (AtIndex s.unit.cmd.current k))
    (hle : s.unit.cmd.index.toNat ≤ mbc.toNat)
    (hw : ∀ mbc' dte' ofm unused, decodeCommand s.unit.cmd.current = .csc mbc' dte' ofm unused ∨
      decodeCommand s.unit.cmd.current = .pack mbc' dte' ofm unused → mbc' = mbc)
    (h : (macroblockLoop mbc input fmt dte (mbc.toNat + 1) s).outcome = .next t) : IndexInv t.unit :=
  ((macroblockLoop_leads fmt dte hin _ s.unit.cmd.index s ⟨rfl, rfl⟩ hle (by omega)).next h).indexInv hw

theorem commandStep_indexInv {s t : State} (h : (commandStep s).outcome = .next t) (hs : IndexAtMost s.unit) :
    IndexInv t.unit := by
  have hends := commandStep_ends h
  rw [commandStep_eq] at h
  cases hd : decodeCommand s.unit.cmd.current with
  | csc mbc dte ofm unused =>
    rw [hd] at h
    refine macroblockLoop_indexInv (fun _ => cscInput_leads) (hs mbc dte ofm unused (.inl hd))
      (fun mbc' dte' ofm' unused' hd' => ?_) h
    rw [hd] at hd'
    rcases hd' with e | e <;> cases e
    rfl
  | pack mbc dte ofm unused =>
    rw [hd] at h
    refine macroblockLoop_indexInv (fun _ => packInput_leads) (hs mbc dte ofm unused (.inr hd))
      (fun mbc' dte' ofm' unused' hd' => ?_) h
    rw [hd] at hd'
    rcases hd' with e | e <;> cases e
    rfl
  | _ =>
    refine hends.indexInv fun mbc dte ofm unused hd' => ?_
    rw [hd] at hd'
    rcases hd' with e | e <;> cases e

theorem Effect.indexInv {s t : State} (h : Effect s t) (hs : IndexInv s.unit) : IndexInv t.unit := by
  cases h with
  | submit _ _ h => exact commandStep_indexInv h fun _ _ _ _ _ => Nat.zero_le _
  | dispatch hb h => exact commandStep_indexInv h fun mbc dte ofm unused hd => (hs hb mbc dte ofm unused hd).le
  | clear => exact indexInv_idle rfl
  | signal src =>
    rw [raise_eq]
    exact hs
  | walk h =>
    cases h with
    | finish =>
      rw [finishTo_eq]
      exact hs
    | _ => exact hs
  | pop h => exact hs.congr h.command.1
  | record h =>
    rw [h.eq]
    exact hs
  | reset => exact indexInv_idle rfl
  | _ => exact hs

/-- Settles O55: every change keeps the command state consistent, and a CSC or PACK in flight below its count. -/
theorem commandStateStaysConsistent : Obligations.CommandStateStaysConsistent := by
  unfold Obligations.CommandStateStaysConsistent
  exact stepKeeps_of_effects fun _ _ h ⟨hcmd, hindex⟩ => ⟨h.commandInv hcmd, h.indexInv hindex⟩

end Sys2Proof.Machine
end

section
/-! SUPPORT. The state after reset meets every invariant (`10_state.md` R62). -/

namespace Sys2Proof.Machine

/-- No call waits after reset, so a property held there is one of the unit. -/
theorem held_reset {P : UnitConfig → UnitState → Prop} (h : P configDefault UnitState.reset) : Held P State.reset :=
  ⟨h, fun _ hm => absurd hm List.not_mem_nil⟩

/-- Settles O60: invariant by invariant, for the unit after reset. -/
theorem resetMeetsInvariants : Obligations.ResetMeetsInvariants := by
  unfold Obligations.ResetMeetsInvariants
  refine ⟨held_reset (reset_fifoInv _), held_reset ⟨reset_commandInv, indexInv_idle rfl⟩,
    held_reset ((dmaInv_iff _).mpr ⟨intoInv_reset, outOfInv_reset⟩), held_reset ⟨reset_reservedInv, rfl⟩,
    held_reset (reset_pendInv _), .nil, fun _ hm => absurd hm List.not_mem_nil⟩

end Sys2Proof.Machine
end

section
/-! SUPPORT. A stored quadword is read back (`20_memory.md` R81, R85, R89), and every step keeps memory in its canonical form
(Log 2). -/

namespace Sys2Proof.Machine

/-! ### Quadwords and their bytes (R81) -/

theorem leBytes_eq_map (n v : Nat) : leBytes n v = (List.range n).map fun k => BitVec.ofNat 8 (v / 256 ^ k) := by
  induction n generalizing v with
  | zero => rfl
  | succ n ih =>
    rw [leBytes, ih, List.range_succ_eq_map, List.map_cons, List.map_map, Nat.pow_zero, Nat.div_one]
    simp only [Function.comp_def, Nat.div_div_eq_div_mul, Nat.pow_succ']

theorem qwByte_eq_ofNat (q : QWord) (k : Nat) : qwByte q k = BitVec.ofNat 8 (q.toNat / 256 ^ k) := by
  apply BitVec.eq_of_toNat_eq
  rw [qwByte, BitVec.extractLsb'_toNat, BitVec.toNat_ofNat, Nat.shiftRight_eq_div_pow, Nat.pow_mul]

/-- The quadword of a quadword's own bytes is itself. -/
theorem qwOfBytes_qwByte (q : QWord) : qwOfBytes (qwByte q) = q := by
  have hbytes : (List.range 16).map (qwByte q) = leBytes 16 q.toNat := by
    rw [leBytes_eq_map]
    exact List.map_congr_left fun k _ => qwByte_eq_ofNat q k
  rw [qwOfBytes, hbytes, leValue_leBytes, Nat.mod_eq_of_lt (by exact q.isLt), BitVec.ofNat_toNat, BitVec.setWidth_eq]

/-- Reading a quadword reads its sixteen bytes. -/
theorem qwOfBytes_congr {f g : Nat → Byte} (h : ∀ k, k < 16 → f k = g k) : qwOfBytes f = qwOfBytes g := by
  unfold qwOfBytes
  rw [List.map_congr_left fun k hk => h k (List.mem_range.mp hk)]

/-! ### A store of a quadword -/

theorem Memory.readQW_writeQW_same (a : Addr) (q : QWord) (m : List Host.Cell) (h : Memory.wf m) :
    Memory.readQW (Memory.writeQW a q m) a = q := by
  refine (qwOfBytes_congr fun k hk => ?_).trans (qwOfBytes_qwByte q)
  have hlen : ((List.range 16).map (qwByte q)).length = 16 := by rw [List.length_map, List.length_range]
  rw [Memory.writeQW, Memory.read_writeBytes_same a _ m h (by rw [hlen]; decide) k (by rw [hlen]; exact hk),
    List.getElem_map, List.getElem_range]

theorem Memory.read_writeQW_other (a : Addr) (q : QWord) (m : List Host.Cell) (h : Memory.wf m) (x : Nat)
    (hx : ∀ k, k < 16 → x ≠ (a + BitVec.ofNat 32 k).toNat) :
    Memory.read (Memory.writeQW a q m) x = Memory.read m x :=
  Memory.read_writeBytes_other a _ m h x fun k hk => hx k (by rwa [List.length_map, List.length_range] at hk)

/-- An address is its rounded address and its low four bits (R85). -/
theorem align16_add_lowBits (a : Addr) : (align16 a).toNat + a.toNat % 16 = a.toNat := by
  have hlow : (a &&& 15#32).toNat = a.toNat % 16 := by
    rw [BitVec.toNat_and]
    exact Nat.and_two_pow_sub_one_eq_mod a.toNat 4
  have hdisjoint : align16 a &&& (a &&& 15#32) = 0#32 := by
    rw [align16, BitVec.and_comm a (15#32), ← BitVec.and_assoc, BitVec.and_assoc a,
      show ~~~15#32 &&& 15#32 = 0#32 by decide, BitVec.and_zero, BitVec.zero_and]
  have hsum : align16 a + (a &&& 15#32) = a := by
    rw [BitVec.add_eq_or_of_and_eq_zero _ _ hdisjoint, align16, ← BitVec.and_or_distrib_left]
    exact BitVec.and_allOnes
  rw [← hlow, ← BitVec.toNat_add_of_and_eq_zero hdisjoint, hsum]

/-- Settles O48: the three parts are lemmas of their own. -/
theorem storedQuadwordIsReadBack : Obligations.StoredQuadwordIsReadBack := by
  unfold Obligations.StoredQuadwordIsReadBack
  intro a q m h
  have halign := align16_add_lowBits a
  exact ⟨Memory.readQW_writeQW_same a q m h, Memory.read_writeQW_other a q m h, by omega⟩

/-! ### The canonical form -/

@[simp] theorem popStore_mem (a : Addr) (q : QWord) (d : Transfer) (s : State) :
    (bumpMoved ((memWrite a q s).setDmaFrom d)).mem = Memory.writeQW a q s.mem := by simp [bumpMoved, memWrite]

/-- Each pop stores one quadword; nothing else in the loop touches memory (R211). -/
theorem popLoop_wf (n : Nat) {s : State} (h : Memory.wf s.mem) : Memory.wf (popLoop n s).mem := by
  have popped_mem {u v : State} {x : Option QWord} (e : outPop u = (v, x)) : v.mem = u.mem := by rw [outPop_eq e]
  refine popLoop_induct (fun u => Memory.wf u.mem) (fun u hu _ => ?finish) (fun u v hu hv => ?stall)
    (fun u v q hu _ hv => ?pop) n s h
  case finish => rwa [(finishFrom_hostKept u).mem]
  case stall => rwa [setDmaFrom_mem, popped_mem hv]
  case pop =>
    rw [popStore_mem, popped_mem hv]
    exact Memory.wf_writeQW _ q u.mem hu

theorem kickFrom_wf {a : Addr} {n : Word} {s t : State} (h : kickFrom a n s = .next t) (hs : Memory.wf s.mem) :
    Memory.wf t.mem := by
  obtain ⟨u, ho, rfl⟩ := kickFrom_cases h
  rw [← (openFrom_hostKept ho).mem] at hs
  exact popLoop_wf 16 hs

/-- Settles O59: an out-of-unit kick and a store of the environment store bytes; every other call leaves memory. -/
theorem memoryStaysCanonical : Obligations.MemoryStaysCanonical := by
  unfold Obligations.MemoryStaysCanonical
  intro s t hs h
  cases hc : s.calls with
  | nil =>
    simp only [step, hc] at h
    cases h
    exact hs
  | cons c rest =>
    have hrun := step_runCall hc h
    rcases runCall_host_cases hrun with ⟨a, n, rfl, -⟩ | ⟨a, bs, rfl, -⟩ | hk
    · exact kickFrom_wf hrun hs
    · cases hrun
      exact Memory.wf_writeBytes a bs s.mem hs
    · rw [hk.mem]
      exact hs

end Sys2Proof.Machine
end

section
/-! SUPPORT. The out-of-unit transfer stores the head of the output FIFO (`42_dma_tag_walker.md` R210 to R212). -/

namespace Sys2Proof.Machine

/-! ### The kick -/

/-- A kick of a transfer in progress pops, whatever its arguments (R210). -/
theorem kickFrom_inProgress (a : Addr) (b : Word) {s : State} (hi : s.unit.dmaFrom.inProgress = true) :
    kickFrom a b s = .next (popLoop 16 (s.setResult (.status 0))) := by
  unfold kickFrom openFrom
  rw [if_pos hi]

/-- The low four bits of a byte count are its rest modulo 16. -/
theorem lowBits_eq_zero_iff (b : Word) : b.extractLsb' 0 4 = 0 ↔ b.toNat % 16 = 0 := by
  rw [← BitVec.toNat_inj, BitVec.extractLsb'_toNat, Nat.shiftRight_zero]
  rfl

/-- The other bits of a byte count are its quadwords. -/
theorem highBits_eq (b : Word) : b.extractLsb' 4 28 = BitVec.ofNat 28 (b.toNat / 16) := by
  apply BitVec.eq_of_toNat_eq
  rw [BitVec.extractLsb'_toNat, BitVec.toNat_ofNat, Nat.shiftRight_eq_div_pow]

/-- A kick that starts a transfer of whole quadwords does what a kick of that transfer does (R210). -/
theorem kickFrom_start (a : Addr) (b : Word) {s : State} (hi : s.unit.dmaFrom.inProgress = false)
    (hb : b.toNat % 16 = 0) :
    kickFrom a b s = kickFrom a b (s.setDmaFrom { s.unit.dmaFrom with
      inProgress := true, mode := .normal, tagFollow := .none, dmaFinished := false, irqTriggered := false
      stalled := false, memAddr := align16 a, remaining := BitVec.ofNat 28 (b.toNat / 16) }) := by
  unfold kickFrom openFrom
  rw [if_neg (by rw [hi]; decide), if_neg (not_not.mpr ((lowBits_eq_zero_iff b).mpr hb)), highBits_eq]
  rfl

/-! ### How the pops end -/

/-- With nothing left to move the pops finish the transfer (R212). -/
theorem popLoop_of_remaining_zero (f : Nat) {s : State} (h : s.unit.dmaFrom.remaining = 0) :
    popLoop (f + 1) s = finishFrom s := by
  unfold popLoop
  exact if_pos h

/-- With something left to move and nothing in the output FIFO they stall (R211). -/
theorem popLoop_of_empty (f : Nat) {s : State} (hr : s.unit.dmaFrom.remaining ≠ 0) (hq : s.unit.fifoOut = [])
    (hc : OutputCounted s) :
    popLoop (f + 1) s = (s.setStall (putStall s.cfg.stallFlagOut true s.unit.stall)).setDmaFrom
      { s.unit.dmaFrom with stalled := true } := by
  rcases outPop_spec s hc with ⟨-, e⟩ | ⟨q, qs, t, hq', -⟩
  · unfold popLoop
    dsimp only
    rw [if_neg hr, e]
  · exact absurd (hq.symm.trans hq') (List.cons_ne_nil q qs).symm

theorem putStall_putStall (flag : StallFlag) (b c : Bool) (f : StallFlags) :
    putStall flag b (putStall flag c f) = putStall flag b f := by
  cases flag <;> rfl

/-! ### What the pops leave, whatever ends them -/

/-- From `s` to `t` the first `n` quadwords of the output FIFO went to memory from `MemAddr` on, and to the history
(`20_memory.md` R92); of the unit only what a pop or the end of the pops writes has changed (R211, R212). -/
structure StoredOut (n : Nat) (s t : State) : Prop where
  fifoOut : t.unit.fifoOut = s.unit.fifoOut.drop n
  counted : OutputCounted t
  stored : ∀ k j, k < n → j < 16 →
    Memory.read t.mem (s.unit.dmaFrom.memAddr + BitVec.ofNat 32 (16 * k + j)).toNat = qwByte (s.unit.fifoOut.getD k 0) j
  kept : ∀ x, (∀ k, k < 16 * n → x ≠ (s.unit.dmaFrom.memAddr + BitVec.ofNat 32 k).toNat) →
    Memory.read t.mem x = Memory.read s.mem x
  memWrites : t.memWrites = s.memWrites ++ storedWrites s.unit.dmaFrom.memAddr (s.unit.fifoOut.take n)
  result : t.result = .status n
  ctrl : CtrlKept (fun i => i < 4 ∨ 8 ≤ i) s t
  cfg : t.cfg = s.cfg
  calls : t.calls = s.calls
  unit : t.unit = { s.unit with
    ctrl := t.unit.ctrl, fifoOut := t.unit.fifoOut, stall := t.unit.stall, dmaFrom := t.unit.dmaFrom
    pend := t.unit.pend }

/-- The end of the pops writes the record, a stall flag, the trace and the slots, which `StoredOut` does not look at. -/
theorem StoredOut.ended {n : Nat} {s p t : State} (h : StoredOut n s p) (e : t = { p with
      irqTrace := t.irqTrace
      unit := { p.unit with stall := t.unit.stall, dmaFrom := t.unit.dmaFrom, pend := t.unit.pend } }) :
    StoredOut n s t := by
  obtain ⟨hfifo, hcounted, hstored, hkept, hwrites, hresult, hctrl, hcfg, hcalls, hunit⟩ := h
  rw [e]
  exact ⟨hfifo, hcounted, hstored, hkept, hwrites, hresult, hctrl, hcfg, hcalls, by rw [hunit]⟩

/-- Quadwords stored in order from an address on are read back byte by byte. -/
theorem Memory.read_writeBytes_qwBytes (addr : Addr) (qs : List QWord) (m : List Host.Cell) (h : Memory.wf m)
    (hl : 16 * qs.length ≤ 2 ^ 32) {k j : Nat} (hk : k < qs.length) (hj : j < 16) :
    Memory.read (Memory.writeBytes addr (qwBytes qs) m) (addr + BitVec.ofNat 32 (16 * k + j)).toNat =
      qwByte (qs.getD k 0) j := by
  have hlen := qwBytes_length qs
  rw [Memory.read_writeBytes_same addr _ m h (by omega) (16 * k + j) (by omega), qwBytes_get,
    show (16 * k + j) / 16 = k by omega, show (16 * k + j) % 16 = j by omega]

/-- The state after the first `n` pops of a kick, which sets its status to 0 before them (R210). -/
def poppedOut (n : Nat) (s : State) : State :=
  popped (s.unit.fifoOut.drop n) (s.unit.fifoOut.take n) (s.setResult (.status 0))

/-- The first `n` pops from a counted output FIFO. -/
theorem poppedOut_storedOut {n : Nat} {s : State} (hn : n ≤ s.unit.fifoOut.length) (hc : OutputCounted s)
    (hm : Memory.wf s.mem) : StoredOut n s (poppedOut n s) := by
  have hlen : (s.unit.fifoOut.take n).length = n := List.length_take_of_le hn
  have hofc : s.ofc.toNat = s.unit.fifoOut.length := hc
  have hcap := s.ofc.isLt
  obtain ⟨pmem, pfifo, -, -, -, pctrl, pofc, pframe⟩ :=
    popped_spec (s.unit.fifoOut.drop n) (s.unit.fifoOut.take n) (s.setResult (.status 0))
  have presult := popped_result (s.unit.fifoOut.drop n) (s.unit.fifoOut.take n) (s.setResult (.status 0)) rfl
  have pwrites := popped_memWrites (s.unit.fifoOut.drop n) (s.unit.fifoOut.take n) (s.setResult (.status 0))
  rw [← poppedOut] at pmem pfifo pctrl pofc pframe presult pwrites
  generalize poppedOut n s = p at *
  have hfifo : p.unit.fifoOut = s.unit.fifoOut.drop n := by
    rw [pfifo]
    split
    · rename_i hnil
      have hzero : n = 0 := by rw [← hlen, hnil, List.length_nil]
      rw [hzero]
      rfl
    · rfl
  rw [hlen] at presult pofc
  refine ⟨hfifo, ?counted, fun k j hk hj => ?stored, fun x hx => ?kept, pwrites, ?result, pctrl, ?cfg, ?calls, ?unit⟩
  case counted =>
    have hleft : p.ofc.toNat + n = s.ofc.toNat := pofc (hn.trans hofc.ge)
    unfold OutputCounted
    rw [hfifo, List.length_drop]
    omega
  case stored =>
    rw [pmem]
    refine (Memory.read_writeBytes_qwBytes _ _ _ hm (by omega) (by omega) hj).trans ?_
    rw [List.getD_eq_getElem?_getD, List.getElem?_take_of_lt hk, ← List.getD_eq_getElem?_getD]
  case kept =>
    rw [pmem]
    exact Memory.read_writeBytes_other _ _ _ hm x fun k hk => hx k (by rw [qwBytes_length, hlen] at hk; exact hk)
  case result => rw [presult, show (s.setResult (.status 0)).moved = 0 from rfl, Nat.zero_add]
  case cfg => rw [pframe]; rfl
  case calls => rw [pframe]; rfl
  case unit => rw [pframe]; rfl

/-- A kick of a transfer in progress first pops as much as there is to move and in the output FIFO. -/
theorem kickFrom_poppedOut (a : Addr) (b : Word) {n : Nat} {s : State} (hi : s.unit.dmaFrom.inProgress = true)
    (hc : OutputCounted s) (hn : n ≤ s.unit.fifoOut.length) (hr : n ≤ s.unit.dmaFrom.remaining.toNat) :
    kickFrom a b s = .next (popLoop (15 - n + 1) (poppedOut n s)) := by
  have hlen : (s.unit.fifoOut.take n).length = n := List.length_take_of_le hn
  have hsplit := (List.take_append_drop n s.unit.fifoOut).symm
  have hofc : s.ofc.toNat = s.unit.fifoOut.length := hc
  have hcap := s.ofc.isLt
  have hpops := popLoop_popped (s.unit.fifoOut.take n) (s.unit.fifoOut.drop n) (15 - n + 1)
    (s.setResult (.status 0)) hsplit (hofc.trans (congrArg List.length hsplit)) (by rw [hlen]; exact hr)
  rw [hlen, show n + (15 - n + 1) = 16 by omega] at hpops
  rw [kickFrom_inProgress a b hi, hpops, poppedOut]

/-- The record after the first `n` pops. -/
theorem poppedOut_dmaFrom {n : Nat} {s : State} (hn : n ≤ s.unit.fifoOut.length) :
    (poppedOut n s).unit.dmaFrom = { s.unit.dmaFrom with
      memAddr := s.unit.dmaFrom.memAddr + BitVec.ofNat 32 (16 * n)
      remaining := s.unit.dmaFrom.remaining - BitVec.ofNat 28 n
      stalled := if n = 0 then s.unit.dmaFrom.stalled else false } := by
  have hlen : (s.unit.fifoOut.take n).length = n := List.length_take_of_le hn
  obtain ⟨-, -, -, h, -⟩ :=
    popped_spec (s.unit.fifoOut.drop n) (s.unit.fifoOut.take n) (s.setResult (.status 0))
  simpa only [poppedOut, ← List.length_eq_zero_iff, hlen, setResult_unit] using h

/-- The stall flags after the first `n` pops. -/
theorem poppedOut_stall {n : Nat} {s : State} (hn : n ≤ s.unit.fifoOut.length) :
    (poppedOut n s).unit.stall =
      if n = 0 then s.unit.stall else putStall s.cfg.stallFlagOut false s.unit.stall := by
  have hlen : (s.unit.fifoOut.take n).length = n := List.length_take_of_le hn
  obtain ⟨-, -, h, -⟩ :=
    popped_spec (s.unit.fifoOut.drop n) (s.unit.fifoOut.take n) (s.setResult (.status 0))
  simpa only [poppedOut, ← List.length_eq_zero_iff, hlen, setResult_cfg, setResult_unit] using h

/-- The pops themselves signal nothing. -/
theorem poppedOut_quiet (n : Nat) (s : State) : Quiet s (poppedOut n s) := by
  obtain ⟨-, -, -, -, -, -, -, e⟩ :=
    popped_spec (s.unit.fifoOut.drop n) (s.unit.fifoOut.take n) (s.setResult (.status 0))
  rw [poppedOut, e]
  exact ⟨rfl, rfl⟩

/-! ### The two ends of a kick of a transfer in progress -/

section
variable (a : Addr) (b : Word) {s : State} (hi : s.unit.dmaFrom.inProgress = true) (hc : OutputCounted s)
  (hm : Memory.wf s.mem)
include hi hc hm

/-- With enough in the output FIFO the transfer finishes, and its interrupt is raised once (R212, R199). -/
theorem kickFrom_finishes (ht : s.unit.dmaFrom.irqTriggered = false) {n : Nat}
    (hn : n = s.unit.dmaFrom.remaining.toNat) (hl : n ≤ s.unit.fifoOut.length) :
    ∃ t, kickFrom a b s = .next t ∧ StoredOut n s t ∧
      t.unit.dmaFrom = { s.unit.dmaFrom with
        inProgress := false, dmaFinished := true, irqTriggered := true, stalled := false, remaining := 0
        memAddr := s.unit.dmaFrom.memAddr + BitVec.ofNat 32 (16 * n) } ∧
      t.unit.stall = (if n = 0 then s.unit.stall else putStall s.cfg.stallFlagOut false s.unit.stall) ∧
      Raised .fromUnit s t := by
  have hstored := poppedOut_storedOut hl hc hm
  have hrecord := poppedOut_dmaFrom hl
  rw [hn, BitVec.ofNat_toNat, BitVec.setWidth_eq, BitVec.sub_self, ← hn] at hrecord
  obtain ⟨hraised, heq⟩ := finishFrom_spec (poppedOut n s) (by rw [hrecord]; exact ht)
  have hremaining : (poppedOut n s).unit.dmaFrom.remaining = 0 := by rw [hrecord]; rfl
  refine ⟨finishFrom (poppedOut n s),
    (kickFrom_poppedOut a b hi hc hl hn.le).trans (congrArg _ (popLoop_of_remaining_zero _ hremaining)),
    hstored.ended (by rw [heq]), ?_, ?_, (poppedOut_quiet n s).raised hstored.cfg hraised⟩
  · rw [heq, hrecord]
    rfl
  · rw [heq]
    exact poppedOut_stall hl

/-- With less in the output FIFO than there is to move the transfer stalls (R211). -/
theorem kickFrom_stalls {n : Nat} (hn : n = s.unit.fifoOut.length) (hr : n < s.unit.dmaFrom.remaining.toNat) :
    ∃ t, kickFrom a b s = .next t ∧ StoredOut n s t ∧
      t.unit.dmaFrom = { s.unit.dmaFrom with
        stalled := true, remaining := s.unit.dmaFrom.remaining - BitVec.ofNat 28 n
        memAddr := s.unit.dmaFrom.memAddr + BitVec.ofNat 32 (16 * n) } ∧
      t.unit.stall = putStall s.cfg.stallFlagOut true s.unit.stall ∧ Quiet s t := by
  have hstored := poppedOut_storedOut hn.le hc hm
  have hrecord := poppedOut_dmaFrom hn.le
  have hremaining : (poppedOut n s).unit.dmaFrom.remaining ≠ 0 := by
    rw [hrecord]
    intro h
    have := congrArg BitVec.toNat (sub_eq_zero.mp h)
    have hlt := s.unit.dmaFrom.remaining.isLt
    rw [BitVec.toNat_ofNat] at this
    omega
  have hempty : (poppedOut n s).unit.fifoOut = [] := by rw [hstored.fifoOut, hn, List.drop_length]
  refine ⟨_, (kickFrom_poppedOut a b hi hc hn.le hr.le).trans
    (congrArg _ (popLoop_of_empty _ hremaining hempty hstored.counted)), hstored.ended rfl, ?_, ?_, poppedOut_quiet n s⟩
  · rw [hrecord]
    rfl
  · show putStall (poppedOut n s).cfg.stallFlagOut true (poppedOut n s).unit.stall = _
    rw [hstored.cfg, poppedOut_stall hn.le]
    split
    · rfl
    · exact putStall_putStall _ _ _ _

end

/-! ### The statement -/

/-- Settles O32: the start by `kickFrom_start`; a transfer in progress finishes or stalls, and `StoredOut` says what it has
stored by then. -/
theorem outTransferStoresQuadwords : Obligations.OutTransferStoresQuadwords := by
  unfold Obligations.OutTransferStoresQuadwords
  refine ⟨fun a b s hi hb => kickFrom_start a b hi hb, fun a b n s hi ht hc hm hn => ?_⟩
  by_cases hl : s.unit.dmaFrom.remaining.toNat ≤ s.unit.fifoOut.length
  · obtain ⟨t, e, h, hend⟩ := kickFrom_finishes a b hi hc hm ht (n := n) (by omega) (by omega)
    exact ⟨t, e, h.fifoOut, h.counted, h.stored, h.kept, h.memWrites, h.result, h.ctrl, h.cfg, h.calls, fun _ => hend,
      fun hlt => absurd hl hlt.not_ge, h.unit⟩
  · obtain ⟨t, e, h, hend⟩ := kickFrom_stalls a b hi hc hm (n := n) (by omega) (by omega)
    exact ⟨t, e, h.fifoOut, h.counted, h.stored, h.kept, h.memWrites, h.result, h.ctrl, h.cfg, h.calls,
      fun hle => absurd hle hl, fun _ => hend, h.unit⟩

end Sys2Proof.Machine
end

section
/-! SUPPORT. Register reads (`45_host_register_interface.md` R320 to R324, R330, R332). -/

namespace Sys2Proof.Machine

/-! ### Images as numbers -/

/-- The image of a flag and a data word is the data, with the flag in bit 63 (`30_encoding.md` R117). -/
theorem image64_toNat (flag : Bool) (data : Word) :
    (image64 flag data).toNat = (if flag then 2 ^ 63 else 0) + data.toNat := by
  have hlow : data.toNat < 2 ^ 63 := data.isLt.trans (by decide)
  have hdata : (data.setWidth 64).toNat = data.toNat := by
    rw [BitVec.toNat_setWidth, Nat.mod_eq_of_lt (hlow.trans (by decide))]
  have hflag : ((BitVec.ofBool flag).setWidth 64 <<< 63).toNat = flag.toNat <<< 63 := by
    cases flag <;> rfl
  rw [image64, BitVec.toNat_or, hflag, hdata, ← Nat.shiftLeft_add_eq_or_of_lt hlow]
  cases flag <;> rfl

/-- The value of two fields that stand beside each other. -/
theorem toNat_append_eq_add {n m : Nat} (x : BitVec n) (y : BitVec m) :
    (x ++ y).toNat = x.toNat * 2 ^ m + y.toNat := by
  rw [BitVec.toNat_append, ← Nat.shiftLeft_add_eq_or_of_lt y.isLt, Nat.shiftLeft_eq]

/-- The image of `BP`: the slots in use, the snapshot and the position (`30_encoding.md` R116). -/
theorem imageBP_toNat (s : State) :
    (imageBP s).toNat = s.unit.cur.fp.val * 2 ^ 16 + s.unit.cur.ifcSnap.toNat * 2 ^ 8 + s.unit.cur.pos := by
  have hfp := s.unit.cur.fp.isLt
  simp only [imageBP, toNat_append_eq_add, BitVec.toNat_ofNat, Cursor.pos]
  omega

/-! ### Reads -/

/-- A read of 32 bits is the low half of the read of 64 (R321, R332). -/
theorem regRead32_eq (off : Nat) (s : State) : regRead32 off s = (regRead64 off s).setWidth 32 := by
  have halves (w : Word) : (w.setWidth 64).setWidth 32 = w :=
    (BitVec.setWidth_setWidth_of_le w (by decide)).trans (BitVec.setWidth_eq w)
  simp only [regRead32, regRead64, apply_ite (BitVec.setWidth 32), halves]
  rfl

/-- A step makes the oldest waiting call (Log 1). -/
theorem step_of_calls {c : Call} {rest : List Call} {s : State} (hc : s.calls = c :: rest) :
    step s = runCall c (s.setCalls rest) := by
  unfold step
  rw [hc]

/-- A read looks at the unit only. -/
theorem regRead64_setCalls (off : Nat) (calls : List Call) (s : State) :
    regRead64 off (s.setCalls calls) = regRead64 off s := rfl

/-- Settles O36: the reads by `regRead32_eq` and the images, register by register. -/
theorem registerReadsArePureImages : Obligations.RegisterReadsArePureImages := by
  unfold Obligations.RegisterReadsArePureImages
  intro off rest s
  refine ⟨fun hc => ?_, fun hc => ?_, image64_toNat _ _, rfl, ?_, fun h0 h1 h2 h3 => ?_⟩
  · rw [step_of_calls hc, ← regRead64_setCalls off rest, ← regRead32_eq]
    rfl
  · rw [step_of_calls hc]
    rfl
  · have himage : regRead64 0x20 s = (imageBP s).setWidth 64 := rfl
    have hlt := (imageBP s).isLt
    rw [himage, BitVec.toNat_setWidth, Nat.mod_eq_of_lt (by omega), imageBP_toNat]
  · rw [regRead64, if_neg h0, if_neg h1, if_neg h2, if_neg h3]

end Sys2Proof.Machine
end

section
/-! SUPPORT. Encoding and decoding are inverse on well-formed commands (`30_encoding.md` R100 to R111, R118). -/

namespace Sys2Proof

/-- Two fields that fill a part of a word stand beside each other in it. -/
theorem fields_of_append {w : Word} {n m : Nat} {a : BitVec n} {b : BitVec m} (p q : Nat)
    (h : a ++ b = w.extractLsb' q (n + m)) (hp : p = q + m) : w.extractLsb' p n = a ∧ w.extractLsb' q m = b := by
  rw [← BitVec.extractLsb'_append_extractLsb'_eq_extractLsb' hp] at h
  constructor
  · exact (BitVec.extractLsb'_append_eq_left.symm.trans (congrArg _ h.symm)).trans BitVec.extractLsb'_append_eq_left
  · exact (BitVec.extractLsb'_append_eq_right.symm.trans (congrArg _ h.symm)).trans BitVec.extractLsb'_append_eq_right

/-- The same where the upper field is one bit. -/
theorem flag_of_append {w : Word} {m : Nat} {f : Bool} {b : BitVec m} (p q : Nat)
    (h : flagBit f ++ b = w.extractLsb' q (1 + m)) (hp : p = q + m) :
    w.getLsbD p = f ∧ w.extractLsb' q m = b := by
  obtain ⟨hf, hb⟩ := fields_of_append p q h hp
  refine ⟨?_, hb⟩
  have hbit := congrArg (BitVec.getLsbD · 0) hf
  simpa [flagBit] using hbit

/-- The word of a command is its opcode before its option field (R100). -/
theorem option_of_bits {i : Instr} {c : BitVec 4} {x : BitVec 28} (h : i.bits = (c ++ x : Word).setWidth 128) :
    i.word.extractLsb' 28 4 = c ∧ i.word.extractLsb' 0 28 = x :=
  fields_of_append 28 0 ((Instr.word_of_bits h).symm.trans BitVec.extractLsb'_eq_self.symm) rfl

/-- Decoding the word of a well-formed command gives it back: the opcode selects its row, and its fields, taken off the word
from the top down, are read where they stand. -/
theorem decodeCommand_word {i : Instr} (hw : i.wf = true) (hp : i.port = .command) : decodeCommand i.word = i := by
  cases i with
  | bclr bp unused =>
    obtain ⟨hc, h⟩ := option_of_bits (i := .bclr bp unused) (c := 0) rfl
    obtain ⟨hunused, hbp⟩ := fields_of_append 7 0 h.symm rfl
    simp only [decodeCommand, hc, hunused, hbp]
    rfl
  | idec fb qsc dtd sgn dte ofm lo hi =>
    obtain ⟨hc, h⟩ := option_of_bits (i := .idec fb qsc dtd sgn dte ofm lo hi) (c := 1) rfl
    obtain ⟨hofm, h⟩ := flag_of_append 27 0 h.symm rfl
    obtain ⟨hdte, h⟩ := flag_of_append 26 0 h.symm rfl
    obtain ⟨hsgn, h⟩ := flag_of_append 25 0 h.symm rfl
    obtain ⟨hdtd, h⟩ := flag_of_append 24 0 h.symm rfl
    obtain ⟨hhi, h⟩ := fields_of_append 21 0 h.symm rfl
    obtain ⟨hqsc, h⟩ := fields_of_append 16 0 h.symm rfl
    obtain ⟨hlo, hfb⟩ := fields_of_append 6 0 h.symm rfl
    simp only [decodeCommand, hc, hofm, hdte, hsgn, hdtd, hhi, hqsc, hlo, hfb]
    rfl
  | bdec fb qsc dt dcr mbi lo hi =>
    obtain ⟨hc, h⟩ := option_of_bits (i := .bdec fb qsc dt dcr mbi lo hi) (c := 2) rfl
    obtain ⟨hmbi, h⟩ := flag_of_append 27 0 h.symm rfl
    obtain ⟨hdcr, h⟩ := flag_of_append 26 0 h.symm rfl
    obtain ⟨hdt, h⟩ := flag_of_append 25 0 h.symm rfl
    obtain ⟨hhi, h⟩ := fields_of_append 21 0 h.symm rfl
    obtain ⟨hqsc, h⟩ := fields_of_append 16 0 h.symm rfl
    obtain ⟨hlo, hfb⟩ := fields_of_append 6 0 h.symm rfl
    simp only [decodeCommand, hc, hmbi, hdcr, hdt, hhi, hqsc, hlo, hfb]
    rfl
  | vdec fb tbl unused =>
    obtain ⟨hc, h⟩ := option_of_bits (i := .vdec fb tbl unused) (c := 3) rfl
    obtain ⟨htbl, h⟩ := fields_of_append 26 0 h.symm rfl
    obtain ⟨hunused, hfb⟩ := fields_of_append 6 0 h.symm rfl
    simp only [decodeCommand, hc, htbl, hunused, hfb]
    rfl
  | fdec fb unused =>
    obtain ⟨hc, h⟩ := option_of_bits (i := .fdec fb unused) (c := 4) rfl
    obtain ⟨hunused, hfb⟩ := fields_of_append 6 0 h.symm rfl
    simp only [decodeCommand, hc, hunused, hfb]
    rfl
  | setiq fb iqm unused =>
    obtain ⟨hc, h⟩ := option_of_bits (i := .setiq fb iqm unused) (c := 5) rfl
    obtain ⟨hiqm, h⟩ := flag_of_append 27 0 h.symm rfl
    obtain ⟨hunused, hfb⟩ := fields_of_append 6 0 h.symm rfl
    simp only [decodeCommand, hc, hiqm, hunused, hfb]
    rfl
  | setvq unused =>
    obtain ⟨hc, hunused⟩ := option_of_bits (i := .setvq unused) (c := 6) rfl
    simp only [decodeCommand, hc, hunused]
    rfl
  | csc mbc dte ofm unused =>
    obtain ⟨hc, h⟩ := option_of_bits (i := .csc mbc dte ofm unused) (c := 7) rfl
    obtain ⟨hofm, h⟩ := flag_of_append 27 0 h.symm rfl
    obtain ⟨hdte, h⟩ := flag_of_append 26 0 h.symm rfl
    obtain ⟨hunused, hmbc⟩ := fields_of_append 11 0 h.symm rfl
    simp only [decodeCommand, hc, hofm, hdte, hunused, hmbc]
    rfl
  | pack mbc dte ofm unused =>
    obtain ⟨hc, h⟩ := option_of_bits (i := .pack mbc dte ofm unused) (c := 8) rfl
    obtain ⟨hofm, h⟩ := flag_of_append 27 0 h.symm rfl
    obtain ⟨hdte, h⟩ := flag_of_append 26 0 h.symm rfl
    obtain ⟨hunused, hmbc⟩ := fields_of_append 11 0 h.symm rfl
    simp only [decodeCommand, hc, hofm, hdte, hunused, hmbc]
    rfl
  | setth th0 th1 lo hi =>
    obtain ⟨hc, h⟩ := option_of_bits (i := .setth th0 th1 lo hi) (c := 9) rfl
    obtain ⟨hhi, h⟩ := fields_of_append 25 0 h.symm rfl
    obtain ⟨hth1, h⟩ := fields_of_append 16 0 h.symm rfl
    obtain ⟨hlo, hth0⟩ := fields_of_append 9 0 h.symm rfl
    simp only [decodeCommand, hc, hhi, hth1, hlo, hth0]
    rfl
  | invalid101 opcode option =>
    obtain ⟨hc, h⟩ := option_of_bits (i := .invalid101 opcode option) rfl
    have hopcode : opcode = 10#4 ∨ opcode = 11#4 := by simpa only [Instr.wf, Bool.or_eq_true, beq_iff_eq] using hw
    simp only [decodeCommand, hc, h]
    rcases hopcode with rfl | rfl <;> rfl
  | invalid11 opcode option =>
    obtain ⟨hc, h⟩ := option_of_bits (i := .invalid11 opcode option) rfl
    have hrow : ∀ c : BitVec 4, 12 ≤ c.toNat → c = 12#4 ∨ c = 13#4 ∨ c = 14#4 ∨ c = 15#4 := by decide
    simp only [decodeCommand, hc, h]
    rcases hrow opcode (of_decide_eq_true hw) with rfl | rfl | rfl | rfl <;> rfl
  | tagFollow _ | tagQwc _ | tagAddr _ | tagNone _ | tagMalformed _ _ => cases hp

/-- The instruction of a command word is well-formed. -/
theorem decodeCommand_wf (w : Word) : (decodeCommand w).wf = true := by
  unfold decodeCommand
  dsimp only
  split
  case h_11 h => simp only [Instr.wf, BitVec.eq_of_toNat_eq (y := 10#4) h, beq_self_eq_true, Bool.true_or]
  case h_12 h => simp only [Instr.wf, BitVec.eq_of_toNat_eq (y := 11#4) h, beq_self_eq_true, Bool.or_true]
  case h_13 =>
    refine decide_eq_true (p := 12 ≤ (w.extractLsb' 28 4).toNat) ?_
    simp only [imp_false] at *
    omega
  all_goals rfl

end Sys2Proof
end

section
/-! SUPPORT. A step runs the decoded instruction or the operation of the call (`00_scope.md` R10, R11; Log 1, 5, 6). -/

namespace Sys2Proof.Machine

/-! ### Tags -/

/-- The tag at an address is the quadword its sixteen bytes decode to (`42_dma_tag_walker.md` R200). -/
theorem decodeTag_readQW {m : List Host.Cell} {a : Addr} {i : Instr}
    (h : decode .tag ((List.range 16).map fun k => Memory.read m (a + BitVec.ofNat 32 k).toNat) = .ok (i, [])) :
    decodeTag (Memory.readQW m a) = i := by
  have hlen : ((List.range 16).map fun k => Memory.read m (a + BitVec.ofNat 32 k).toNat).length = 16 := by
    rw [List.length_map, List.length_range]
  simp only [decode, hlen, lt_irrefl, if_false, Except.ok.injEq, Prod.mk.injEq] at h
  obtain ⟨hi, -⟩ := h
  rwa [List.take_of_length_le hlen.le] at hi

/-- A walker that stands before a fetch makes no micro-step (R192). -/
theorem runMicro_of_fetchEnabled (n : Nat) {s : State} (h : fetchEnabled s = true) : runMicro n s = s := by
  obtain ⟨hi, hm, hf, hst⟩ := (fetchEnabled_iff s).mp h
  have hfetch : microStep s = .fetch := by simp [microStep, hi, hm, hf, hst]
  cases n with
  | zero => rfl
  | succ n =>
    unfold runMicro
    rw [hfetch]

/-- A kick whose transfer stands before a fetch runs the instruction the tag decodes to (R192, R200). -/
theorem kickTo_of_fetchEnabled {mode : DmaMode} {a : Addr} {n : Word} {i : Instr} {s u : State}
    (ho : openTo mode a n s = some u) (hf : fetchEnabled u = true)
    (hi : decodeTag (Memory.readQW u.mem u.unit.dmaTo.nextMem) = i) :
    kickTo mode a n s = exec i (u.setResult (.status 0)) := by
  have hfetch : fetchEnabled (u.setResult (.status 0)) = true := hf
  have htag : decodeTag (fetchTag (u.setResult (.status 0))) = i := hi
  simp only [kickTo, ho, runMicro_of_fetchEnabled _ hfetch, hfetch, if_true, htag]

/-! ### Commands -/

/-- A well-formed command of opcode 1 to 9 is submitted (R230, R234). -/
theorem exec_eq_submit {i : Instr} (hw : i.wf = true) (hp : i.port = .command) (hlo : 1 ≤ i.code) (hhi : i.code ≤ 9)
    (s : State) : exec i s = submit i.word (inFlightStep i) s := by
  cases i with
  | bclr bp unused => exact absurd hlo (Nat.not_succ_le_zero 0)
  | invalid101 opcode option =>
    have hrow : opcode = 10#4 ∨ opcode = 11#4 := by simpa only [Instr.wf, Bool.or_eq_true, beq_iff_eq] using hw
    have hopcode : 10 ≤ opcode.toNat := by rcases hrow with rfl | rfl <;> decide
    exact absurd (hopcode.trans hhi) (by decide)
  | invalid11 opcode option =>
    have hopcode : 12 ≤ opcode.toNat := of_decide_eq_true hw
    exact absurd (hopcode.trans hhi) (by decide)
  | tagFollow _ | tagQwc _ | tagAddr _ | tagNone _ | tagMalformed _ _ => cases hp
  | _ => rfl

/-- On an idle unit a word of opcode 1 to 9 is accepted, and the call is the dispatch step of the accepted command (R234). -/
theorem exec_decodeCommand_idle {w : Word} {s : State} (hlo : 1 ≤ (w.extractLsb' 28 4).toNat)
    (hhi : (w.extractLsb' 28 4).toNat ≤ 9) (hb : s.unit.cmd.busy = false) :
    exec (decodeCommand w) s = (dispatchStep (acceptCommand w s)).outcome := by
  rw [← decodeCommand_code] at hlo hhi
  rw [exec_eq_submit (decodeCommand_wf w) (decodeCommand_port w) hlo hhi, word_decodeCommand, submit,
    if_neg (by rw [hb]; decide), dispatchStep, if_pos (by rfl), commandStep_eq]
  rfl

/-- The control register after acceptance: ECD and SCD cleared, BUSY set (R234). -/
theorem acceptCommand_ctrl_bit (w : Word) (s : State) (i : Nat) :
    (acceptCommand w s).unit.ctrl.getLsbD i =
      if i = 14 ∨ i = 15 then false else if i = 31 then true else s.unit.ctrl.getLsbD i := by
  have hflags : ctrlECD (acceptCommand w s).unit.ctrl = false ∧ ctrlSCD (acceptCommand w s).unit.ctrl = false ∧
      ctrlBUSY (acceptCommand w s).unit.ctrl = true := by simp [acceptCommand_eq]
  obtain ⟨hecd, hscd, hbusy⟩ := hflags
  split
  · rename_i h
    rcases h with rfl | rfl
    · exact hecd
    · exact hscd
  · split
    · rename_i h
      subst h
      exact hbusy
    · exact acceptCommand_ctrl w s i (by omega)

/-! ### The statement -/

theorem stepEnd_eq_outcome (f : Flow) : stepEnd f = f.outcome := by
  cases f <;> rfl

/-- Settles O5: a command word by `decodeCommand_word`, a kick before a fetch by `kickTo_of_fetchEnabled`, acceptance by
`exec_decodeCommand_idle`; the other calls are what `runCall` makes of them. -/
theorem stepRunsDecodedInstruction : Obligations.StepRunsDecodedInstruction := by
  unfold Obligations.StepRunsDecodedInstruction
  refine ⟨fun i rest s hw hp hc => ?write, fun i rest s hw hp hc => ?register, fun i mode a n rest s _ hc hf hd => ?kick,
    fun i a n rest s _ hc hidle hd => ?chain, fun w s hlo hhi hb => ?accept, fun c rest s hc => ?calls⟩
  case write =>
    rw [step_of_calls hc]
    show exec (decodeCommand i.word) _ = _
    rw [decodeCommand_word hw hp]
  case register =>
    rw [step_of_calls hc]
    show dropResult (exec (decodeCommand i.word) _) = _
    rw [decodeCommand_word hw hp]
  case kick =>
    obtain ⟨hi, -⟩ := (fetchEnabled_iff s).mp hf
    rw [step_of_calls hc]
    exact kickTo_of_fetchEnabled (u := s.setCalls rest) (if_pos hi) hf (decodeTag_readQW hd)
  case chain =>
    rw [step_of_calls hc]
    exact kickTo_of_fetchEnabled (if_neg (by rw [setCalls_unit, hidle]; decide)) rfl (decodeTag_readQW hd)
  case accept =>
    exact ⟨(acceptCommand w s).unit.ctrl, fun i _ => acceptCommand_ctrl_bit w s i,
      (exec_decodeCommand_idle hlo hhi hb).trans (stepEnd_eq_outcome _).symm⟩
  case calls =>
    have hstep := step_of_calls hc
    simp only [stepEnd_eq_outcome, Bool.not_or]
    refine ⟨?_, ?_, ?_, ?_, ?_, ?_, ?_, ?_, ?_⟩ <;> intros <;> subst c <;> exact hstep

end Sys2Proof.Machine
end

section
/-! SUPPORT. Decoding and encoding are inverse on both ports (`30_encoding.md` R100 to R114, R118). -/

namespace Sys2Proof

/-! ### Tags -/

/-- The fields of a tag stand beside each other in it (R112): put together again, they are the tag. -/
theorem tagWordOf_tagFieldsOf (t : QWord) : tagWordOf (t.extractLsb' 28 3) (tagFieldsOf t) = t := by
  have hlo : t.extractLsb' 16 12 ++ t.extractLsb' 0 16 = t.extractLsb' 0 28 :=
    BitVec.extractLsb'_append_extractLsb'_eq_extractLsb' rfl
  have hcode : t.extractLsb' 28 3 ++ t.extractLsb' 0 28 = t.extractLsb' 0 31 :=
    BitVec.extractLsb'_append_extractLsb'_eq_extractLsb' rfl
  have hbit : t.extractLsb' 31 1 ++ t.extractLsb' 0 31 = t.extractLsb' 0 32 :=
    BitVec.extractLsb'_append_extractLsb'_eq_extractLsb' rfl
  have hnext : t.extractLsb' 32 32 ++ t.extractLsb' 0 32 = t.extractLsb' 0 64 :=
    BitVec.extractLsb'_append_extractLsb'_eq_extractLsb' rfl
  have hhi : t.extractLsb' 64 64 ++ t.extractLsb' 0 64 = t.extractLsb' 0 128 :=
    BitVec.extractLsb'_append_extractLsb'_eq_extractLsb' rfl
  calc tagWordOf (t.extractLsb' 28 3) (tagFieldsOf t)
    _ = t.extractLsb' 64 64 ++ (t.extractLsb' 32 32 ++ (t.extractLsb' 31 1 ++
          (t.extractLsb' 28 3 ++ (t.extractLsb' 16 12 ++ t.extractLsb' 0 16)))) := rfl
    _ = t := by rw [hlo, hcode, hbit, hnext, hhi, BitVec.extractLsb'_eq_self]

/-- Two fields that fill a part of a tag stand beside each other in it. -/
theorem tag_fields_of_append {t : QWord} {n m : Nat} {a : BitVec n} {b : BitVec m} (p q : Nat)
    (h : a ++ b = t.extractLsb' q (n + m)) (hp : p = q + m) : t.extractLsb' p n = a ∧ t.extractLsb' q m = b := by
  rw [← BitVec.extractLsb'_append_extractLsb'_eq_extractLsb' hp] at h
  have hfield := congrArg (fun v => (v.extractLsb' m n, v.extractLsb' 0 m)) h
  simpa only [BitVec.extractLsb'_append_eq_left, BitVec.extractLsb'_append_eq_right, Prod.mk.injEq, eq_comm] using hfield

/-- The code and the other fields of a tag, taken off it from the top down, are read where they stand (R112). -/
theorem fields_tagWordOf (c : BitVec 3) (f : TagFields) :
    (tagWordOf c f).extractLsb' 28 3 = c ∧ tagFieldsOf (tagWordOf c f) = f := by
  obtain ⟨hhi, h⟩ := tag_fields_of_append (t := tagWordOf c f) 64 0 BitVec.extractLsb'_eq_self.symm rfl
  obtain ⟨hnext, h⟩ := tag_fields_of_append 32 0 h.symm rfl
  obtain ⟨hbit, h⟩ := tag_fields_of_append 31 0 h.symm rfl
  obtain ⟨hcode, h⟩ := tag_fields_of_append 28 0 h.symm rfl
  obtain ⟨hlo, hqwc⟩ := tag_fields_of_append 16 0 h.symm rfl
  exact ⟨hcode, by rw [tagFieldsOf, hqwc, hnext, hlo, hbit, hhi]⟩

theorem code_tagWordOf (c : BitVec 3) (f : TagFields) : (tagWordOf c f).extractLsb' 28 3 = c := (fields_tagWordOf c f).1

theorem tagFieldsOf_tagWordOf (c : BitVec 3) (f : TagFields) : tagFieldsOf (tagWordOf c f) = f := (fields_tagWordOf c f).2

/-- Encoding the instruction of a tag gives the tag back. -/
theorem bits_decodeTag (t : QWord) : (decodeTag t).bits = t := by
  have key {c : BitVec 3} (h : (t.extractLsb' 28 3).toNat = c.toNat) : tagWordOf c (tagFieldsOf t) = t := by
    rw [← BitVec.eq_of_toNat_eq h, tagWordOf_tagFieldsOf]
  unfold decodeTag
  split <;> rename_i h
  · exact key (c := 0) h
  · exact key (c := 1) h
  · exact key (c := 2) h
  · exact key (c := 3) h
  · exact key rfl

/-- Decoding the quadword of a well-formed tag gives it back: the code selects its row. -/
theorem decodeTag_bits {i : Instr} (hw : i.wf = true) (hp : i.port = .tag) : decodeTag i.bits = i := by
  cases i with
  | tagFollow f | tagQwc f | tagAddr f | tagNone f =>
    simp only [Instr.bits, decodeTag, code_tagWordOf, tagFieldsOf_tagWordOf]
    rfl
  | tagMalformed code f =>
    have hrow : ∀ c : BitVec 3, 4 ≤ c.toNat → c = 4#3 ∨ c = 5#3 ∨ c = 6#3 ∨ c = 7#3 := by decide
    simp only [Instr.bits, decodeTag, code_tagWordOf, tagFieldsOf_tagWordOf]
    rcases hrow code (of_decide_eq_true hw) with rfl | rfl | rfl | rfl <;> rfl
  | _ => cases hp

/-- The instruction of a tag is well-formed. -/
theorem decodeTag_wf (t : QWord) : (decodeTag t).wf = true := by
  unfold decodeTag
  split
  case h_5 =>
    refine decide_eq_true (p := 4 ≤ (t.extractLsb' 28 3).toNat) ?_
    simp only [imp_false] at *
    omega
  all_goals rfl

/-! ### Bytes -/

/-- The quadword of a command holds nothing above its word. -/
theorem bits_eq_word {i : Instr} (hp : i.port = .command) : i.bits = i.word.setWidth 128 := by
  cases i with
  | tagFollow _ | tagQwc _ | tagAddr _ | tagNone _ | tagMalformed _ _ => cases hp
  | _ => rw [Instr.word_of_bits rfl]; rfl

/-- The four bytes of a command word decode to its instruction, with what follows left over. -/
theorem decode_command_leBytes (w : Word) (rest : List Byte) :
    decode .command (leBytes 4 w.toNat ++ rest) = .ok (decodeCommand w, rest) := by
  have hlen : ¬ (leBytes 4 w.toNat ++ rest).length < 4 := by rw [List.length_append, leBytes_length]; omega
  simp only [decode, if_neg hlen, leValue_take_leBytes 4 _ rest w.isLt, drop_leBytes, BitVec.ofNat_toNat,
    BitVec.setWidth_eq]

/-- The sixteen bytes of a tag decode to its instruction, with what follows left over. -/
theorem decode_tag_leBytes (t : QWord) (rest : List Byte) :
    decode .tag (leBytes 16 t.toNat ++ rest) = .ok (decodeTag t, rest) := by
  have hlen : ¬ (leBytes 16 t.toNat ++ rest).length < 16 := by rw [List.length_append, leBytes_length]; omega
  simp only [decode, if_neg hlen, leValue_take_leBytes 16 _ rest t.isLt, drop_leBytes, BitVec.ofNat_toNat,
    BitVec.setWidth_eq]

/-! ### The statements -/

/-- Settles O1: port by port, from the bytes to the word or quadword, and from there by the inverse of the decoder. -/
theorem decodeOfEncodeIsIdentity : Obligations.DecodeOfEncodeIsIdentity := by
  unfold Obligations.DecodeOfEncodeIsIdentity
  intro i rest hw
  unfold encode
  cases hp : i.port with
  | command =>
    have hword : i.bits.toNat = i.word.toNat := by
      rw [bits_eq_word hp]
      exact BitVec.toNat_setWidth_of_le (by decide)
    rw [hword]
    exact (decode_command_leBytes i.word rest).trans (by rw [decodeCommand_word hw hp])
  | tag => exact (decode_tag_leBytes i.bits rest).trans (by rw [decodeTag_bits hw hp])

/-- Settles O2: the decoder's output is well-formed and of the port it was read at, and the encoder inverts it. -/
theorem everyWordReencodes : Obligations.EveryWordReencodes :=
  ⟨fun w => ⟨decodeCommand_wf w, decodeCommand_port w, word_decodeCommand w⟩,
    fun t => ⟨decodeTag_wf t, decodeTag_port t, bits_decodeTag t⟩⟩

/-- Settles O3: each word is a literal, so the decoder evaluates. -/
theorem specWordsDecode : Obligations.SpecWordsDecode := by
  unfold Obligations.SpecWordsDecode
  decide

end Sys2Proof
end

section
/-! SUPPORT. No step of a command reads the word in flight: the unused option bits it keeps are ignored (`30_encoding.md`
R111, `10_state.md` R35). -/

namespace Sys2Proof.Machine

/-- The state with the word of the command in flight, if there is one, replaced. -/
def withWord (w : Word) (s : State) : State :=
  s.setCmd { s.unit.cmd with current := if s.unit.cmd.busy then w else s.unit.cmd.current }

theorem withWord_eq (w : Word) (s : State) :
    withWord w s = if s.unit.cmd.busy then s.setCmd { s.unit.cmd with current := w } else s := by
  unfold withWord
  split <;> rfl

theorem withWord_acceptCommand (v w : Word) (s : State) : withWord w (acceptCommand v s) = acceptCommand w s := rfl

/-- A change of the state that does not read the word in flight. -/
def IgnoresWord (f : State → State) : Prop := ∀ w s, f (withWord w s) = withWord w (f s)

/-! ### Parts of a step -/

/-- A part of a step, where it ends in other states. -/
def Flow.map (f : State → State) : Flow → Flow
  | .go s => .go (f s)
  | .stop s => .stop (f s)
  | .more s => .more (f s)
  | .fault x => .fault x
  | .refused r => .refused r

/-- A part of a step that does not read the word in flight. -/
def StepIgnoresWord (f : State → Flow) : Prop := ∀ w s, f (withWord w s) = (f s).map (withWord w)

theorem StepIgnoresWord.bind {f g : State → Flow} (hf : StepIgnoresWord f) (hg : StepIgnoresWord g) :
    StepIgnoresWord fun s => (f s).bind g := by
  intro w s
  dsimp only
  rw [hf w s]
  cases f s with
  | go t => exact hg w t
  | stop _ | more _ | fault _ | refused _ => rfl

theorem StepIgnoresWord.bind_go {f : State → Flow} {g : State → State} (hf : StepIgnoresWord f) (hg : IgnoresWord g) :
    StepIgnoresWord fun s => (f s).bind fun s => .go (g s) :=
  hf.bind fun w s => congrArg Flow.go (hg w s)

theorem StepIgnoresWord.bind_stop {f : State → Flow} {g : State → State} (hf : StepIgnoresWord f) (hg : IgnoresWord g) :
    StepIgnoresWord fun s => (f s).bind fun s => .stop (g s) :=
  hf.bind fun w s => congrArg Flow.stop (hg w s)

/-- The end of a step that ignores the word in flight, as the outcome of the machine step. -/
theorem StepIgnoresWord.outcome {f : State → Flow} (hf : StepIgnoresWord f) (w : Word) {s t : State}
    (h : (f s).outcome = .next t) : (f (withWord w s)).outcome = .next (withWord w t) := by
  rw [hf w s]
  rcases Flow.outcome_next h with e | e | ⟨u, e, rfl⟩ <;> rw [e] <;> rfl

/-! ### Completion -/

theorem raise_ignoresWord (src : IrqSrc) : IgnoresWord (raise src) := by
  intro w s
  unfold raise
  change (match s.cfg.irqPolicy with
    | .inline => emit src (withWord w s)
    | .deferred => match pendOf s.unit.pend src with
      | none => (withWord w s).setPend (putPend s.unit.pend src (some (delayOf s.cfg.irqDelay src)))
      | some _ => withWord w s) = _
  cases s.cfg.irqPolicy with
  | inline => rfl
  | deferred => cases pendOf s.unit.pend src <;> rfl

theorem complete_ignoresWord : IgnoresWord complete := fun w s => raise_ignoresWord .cmd w (clearCommand s)

/-! ### The cursor -/

/-- An outcome of a cursor operation in another state. -/
def Take.map (f : State → State) {α : Type} : Take α → Take α
  | .ok a s => .ok a (f s)
  | .short s => .short (f s)
  | .bad => .bad

theorem inTake_withWord (w : Word) (s : State) :
    inTake (withWord w s) = (inTake s).map fun x => (x.1, withWord w x.2) := by
  unfold inTake
  change (if s.ifc = 0 then none else match s.unit.fifoIn with
    | [] => none
    | q :: qs => some (q, ((withWord w s).setFifoIn qs).setCtrl (putIFC (s.ifc - 1) s.unit.ctrl))) = _
  split
  · rfl
  · cases s.unit.fifoIn <;> rfl

theorem pullLoop_ignoresWord (want n : Nat) : IgnoresWord (pullLoop want n) := by
  induction n with
  | zero => exact fun _ _ => rfl
  | succ n ih =>
    intro w s
    unfold pullLoop
    rw [inTake_withWord]
    change (if s.unit.cur.avail < want ∧ s.unit.cur.fp.val < Config.bufQw then _ else _) = _
    split
    · cases inTake s with
      | none => rfl
      | some x => exact ih w (x.2.setCur (x.2.unit.cur.addQWord x.1))
    · rfl

theorem pull_ignoresWord (want : Nat) : IgnoresWord (pull want) := by
  intro w s
  unfold pull
  rw [pullLoop_ignoresWord]
  rfl

theorem readBits_withWord (n : Nat) (w : Word) (s : State) :
    readBits n (withWord w s) = (readBits n s).map (withWord w) := by
  unfold readBits
  rw [pull_ignoresWord]
  split
  · dsimp only
    change (if (pull n s).unit.cur.avail < n then _ else _) = _
    split <;> rfl
  · rfl

theorem peekBits_withWord (n : Nat) (w : Word) (s : State) :
    peekBits n (withWord w s) = (peekBits n s).map (withWord w) := by
  unfold peekBits
  rw [pull_ignoresWord]
  split
  · dsimp only
    change (if (pull n s).unit.cur.avail < n then _ else _) = _
    split <;> rfl
  · rfl

theorem skipBits_withWord (n : Nat) (w : Word) (s : State) :
    skipBits n (withWord w s) = (skipBits n s).map (withWord w) := by
  unfold skipBits
  rw [pull_ignoresWord]
  split
  · dsimp only
    change (if (pull n s).unit.cur.avail < n then _ else _) = _
    split <;> rfl
  · rfl

theorem alignByte_withWord (w : Word) (s : State) : alignByte (withWord w s) = (alignByte s).map (withWord w) := by
  unfold alignByte
  rw [pull_ignoresWord]
  change (if s.unit.cur.bitOfs = 0 then _ else _) = _
  split
  · rfl
  · dsimp only
    change (if (pull 1 s).unit.cur.fp.val = 0 then _ else _) = _
    split <;> rfl

theorem refill_withWord (hint bytes : Nat) (w : Word) (s : State) :
    refill hint bytes (withWord w s) = (refill hint bytes s).map fun x => (x.1, withWord w x.2) := by
  unfold refill
  rw [pull_ignoresWord]
  split <;> rfl

/-! ### The parts the commands share -/

theorem fbPhase_ignoresWord (fb : BitVec 6) : StepIgnoresWord (fbPhase fb) := by
  intro w s
  unfold fbPhase
  rw [skipBits_withWord]
  change (if s.unit.cmd.pos0 = 0 then _ else _) = _
  split
  · cases skipBits fb.toNat s <;> rfl
  · rfl

theorem outPut_withWord (q : QWord) (w : Word) (s : State) :
    outPut q (withWord w s) = (outPut q s).map (withWord w) := by
  unfold outPut
  change (if s.ofc < s.cfg.fifoOutCap then _ else _) = _
  split <;> rfl

theorem drainLoop_ignoresWord (qw : Nat → QWord) (n k : Nat) : StepIgnoresWord (drainLoop qw n k) := by
  induction n generalizing k with
  | zero => exact fun _ _ => rfl
  | succ n ih =>
    intro w s
    unfold drainLoop
    rw [outPut_withWord]
    cases outPut (qw k) s with
    | none => rfl
    | some t => exact ih (k + 1) w (setPos1 (BitVec.ofNat 32 (k + 1)) t)

theorem drain_ignoresWord (total : Nat) (qw : Nat → QWord) : StepIgnoresWord (drain total qw) :=
  fun w s => drainLoop_ignoresWord qw _ s.unit.cmd.pos1.toNat w s

theorem drainMb_ignoresWord (fmt : Format) (dte : Bool) : StepIgnoresWord (drainMb fmt dte) :=
  fun w s => drain_ignoresWord _ (outQW s.cfg.pixel s.unit.vqclut fmt dte s.unit.mb.rgb32) w s

theorem byteLoop_ignoresWord {store : Nat → Byte → State → State} (hst : ∀ k v, IgnoresWord (store k v)) (n k : Nat) :
    StepIgnoresWord (byteLoop store n k) := by
  induction n generalizing k with
  | zero => exact fun _ _ => rfl
  | succ n ih =>
    intro w s
    unfold byteLoop
    rw [readBits_withWord]
    cases readBits 8 s with
    | ok v t =>
      change byteLoop store n (k + 1) (store k (v.setWidth 8) (withWord w t)) = _
      rw [hst]
      exact ih (k + 1) w _
    | short t => rfl
    | bad => rfl

theorem readBytes_ignoresWord {store : Nat → Byte → State → State} (hst : ∀ k v, IgnoresWord (store k v)) (total : Nat) :
    StepIgnoresWord (readBytes total store) :=
  fun w s => byteLoop_ignoresWord
    (fun k v w s => congrArg (setPos1 (BitVec.ofNat 32 (k + 1))) (hst k v w s)) _ s.unit.cmd.pos1.toNat w s

/-! ### Library sessions -/

/-- A served request in another state. -/
def Served.map (f : State → State) : Served → Served
  | .reply r s => .reply r (f s)
  | .wait s => .wait (f s)
  | .fault x => .fault x
  | .refused r => .refused r

theorem Take.served_map {α : Type} (g : α → LibReply) (f : State → State) (x : Take α) :
    (x.map f).served g = (x.served g).map f := by
  cases x <;> rfl

theorem serveCursor_withWord (req : LibRequest) (w : Word) (s : State) :
    serveCursor req (withWord w s) = (serveCursor req s).map (withWord w) := by
  cases req with
  | skip n => simp only [serveCursor, skipBits_withWord, Take.served_map]
  | read n => simp only [serveCursor, readBits_withWord, Take.served_map]
  | peek n => simp only [serveCursor, peekBits_withWord, Take.served_map]
  | align => simp only [serveCursor, alignByte_withWord, Take.served_map]
  | refill hint bytes =>
    simp only [serveCursor, refill_withWord]
    cases refill hint bytes s <;> rfl
  | emitMB _ | emitCoef _ | done _ => rfl

theorem answer_ignoresWord (r : LibReply) : IgnoresWord (answer r) := by
  intro w s
  unfold answer
  change (match s.unit.lib with
    | some ses => (withWord w s).setLib (some (libAnswer s.cfg ses r))
    | none => withWord w s) = _
  cases s.unit.lib <;> rfl

/-- The requests that are a command's own are answered without reading the word in flight. -/
structure SessionRules.IgnoreWord (r : SessionRules) : Prop where
  drainEmitted : StepIgnoresWord r.drainEmitted
  takeEmit : ∀ req, StepIgnoresWord (r.takeEmit req)
  takeResult : ∀ res, IgnoresWord (r.takeResult res)

/-- How the session loop goes on after a request of the cursor was served. -/
def afterServe (r : SessionRules) (n : Nat) : Served → Flow
  | .reply a s => sessionLoop r n (answer a s)
  | .wait s => .stop s
  | .fault x => .fault x
  | .refused x => .refused x

/-- A round of the session loop in phase 1, by the outstanding request. -/
def requestRound (r : SessionRules) (n : Nat) (s : State) : LibRequest → Flow
  | .done res => .stop (complete (applyDone res (r.takeResult res s)))
  | .emitMB raw => (r.takeEmit (.emitMB raw) s).bind (sessionLoop r n)
  | .emitCoef c => (r.takeEmit (.emitCoef c) s).bind (sessionLoop r n)
  | req => afterServe r n (serveCursor req s)

theorem sessionLoop_succ (r : SessionRules) (n : Nat) (s : State) : sessionLoop r (n + 1) s =
    if s.unit.cmd.pos0 = 2 then (r.drainEmitted s).bind (sessionLoop r n)
    else requestRound r n (s.setLib (some (sessionOf r.command s))) (sessionOf r.command s).req := by
  conv_lhs => unfold sessionLoop
  split
  · rfl
  · dsimp only
    cases (sessionOf r.command s).req <;> rfl

theorem requestRound_ignoresWord {r : SessionRules} (hr : r.IgnoreWord) {n : Nat}
    (hloop : StepIgnoresWord (sessionLoop r n)) (req : LibRequest) : StepIgnoresWord fun s => requestRound r n s req := by
  intro w s
  have serve : afterServe r n (serveCursor req (withWord w s)) = (afterServe r n (serveCursor req s)).map (withWord w) := by
    rw [serveCursor_withWord]
    cases serveCursor req s with
    | reply a t => exact (congrArg (sessionLoop r n) (answer_ignoresWord a w t)).trans (hloop w (answer a t))
    | wait _ | fault _ | refused _ => rfl
  cases req with
  | done res =>
    change Flow.stop (complete (applyDone res (r.takeResult res (withWord w s)))) = _
    rw [hr.takeResult]
    exact congrArg Flow.stop (complete_ignoresWord w (applyDone res (r.takeResult res s)))
  | emitMB raw => exact (hr.takeEmit (.emitMB raw)).bind hloop w s
  | emitCoef c => exact (hr.takeEmit (.emitCoef c)).bind hloop w s
  | align | skip | read | peek | refill => exact serve

theorem sessionLoop_ignoresWord {r : SessionRules} (hr : r.IgnoreWord) (n : Nat) : StepIgnoresWord (sessionLoop r n) := by
  induction n with
  | zero => exact fun _ _ => rfl
  | succ n ih =>
    intro w s
    simp only [sessionLoop_succ]
    change (if s.unit.cmd.pos0 = 2 then _ else _) = _
    split
    · exact hr.drainEmitted.bind ih w s
    · exact requestRound_ignoresWord hr ih _ w (s.setLib (some (sessionOf r.command s)))

theorem sessionStep_ignoresWord {r : SessionRules} (hr : r.IgnoreWord) (fb : BitVec 6) :
    StepIgnoresWord (sessionStep fb r) :=
  (fbPhase_ignoresWord fb).bind (sessionLoop_ignoresWord hr _)

theorem idecRules_ignoreWord (qsc : BitVec 5) (dtd sgn dte ofm : Bool) : (idecRules qsc dtd sgn dte ofm).IgnoreWord where
  drainEmitted := (drainMb_ignoresWord _ dte).bind_go fun w s => answer_ignoresWord .unit w (setPhase 1 0 (bumpIndex s))
  takeEmit req _ _ := by cases req <;> rfl
  takeResult _ _ _ := rfl

theorem bdecRules_ignoreWord (qsc : BitVec 5) (dt dcr mbi : Bool) : (bdecRules qsc dt dcr mbi).IgnoreWord where
  drainEmitted w s := by
    have hlib : (withWord w s).unit.lib = s.unit.lib := rfl
    simp only [bdecRules, hlib]
    split
    · rename_i c _
      exact (drain_ignoresWord 48 (coefQW c)).bind_go (fun w s => answer_ignoresWord .unit w (setPhase 1 0 s)) w s
    · rfl
  takeEmit req _ _ := by cases req <;> rfl
  takeResult _ _ _ := rfl

theorem vdecRules_ignoreWord (tbl : BitVec 2) : (vdecRules tbl).IgnoreWord where
  drainEmitted _ _ := rfl
  takeEmit _ _ _ := rfl
  takeResult _ _ _ := rfl

/-! ### The commands -/

theorem fdecStep_ignoresWord (fb : BitVec 6) : StepIgnoresWord (fdecStep fb) := by
  refine (fbPhase_ignoresWord fb).bind fun w s => ?_
  rw [peekBits_withWord]
  cases peekBits 32 s with
  | ok v t => exact congrArg Flow.stop (complete_ignoresWord w (t.setCmdData v))
  | short t => rfl
  | bad => rfl

theorem storeIq_ignoresWord (iqm : Bool) (k : Nat) (v : Byte) : IgnoresWord (storeIq iqm k v) := by
  cases iqm <;> exact fun _ _ => rfl

theorem setiqStep_ignoresWord (fb : BitVec 6) (iqm : Bool) : StepIgnoresWord (setiqStep fb iqm) := by
  intro w s
  unfold setiqStep
  dsimp only
  rw [pull_ignoresWord, skipBits_withWord]
  change (if totalAvail (pull (fb.toNat + 512) s) < fb.toNat + 512 then _ else _) = _
  split
  · rfl
  · cases skipBits fb.toNat (pull (fb.toNat + 512) s) with
    | ok _ t => exact (byteLoop_ignoresWord (storeIq_ignoresWord iqm) 64 0).bind_stop complete_ignoresWord w t
    | short t => rfl
    | bad => rfl

theorem setvqStep_ignoresWord : StepIgnoresWord setvqStep := by
  intro w s
  unfold setvqStep
  dsimp only
  rw [pull_ignoresWord]
  change (if totalAvail (pull 256 s) < 256 then _ else _) = _
  split
  · rfl
  · exact (byteLoop_ignoresWord (fun _ _ _ _ => rfl) 32 0).bind_stop complete_ignoresWord w (pull 256 s)

theorem setthStep_ignoresWord (th0 th1 : BitVec 9) : StepIgnoresWord (setthStep th0 th1) :=
  fun w s => congrArg Flow.stop (complete_ignoresWord w (s.setTh th0 th1))

theorem macroblockLoop_ignoresWord {input : State → Flow} (hin : StepIgnoresWord input) (mbc : BitVec 11) (fmt : Format)
    (dte : Bool) (n : Nat) : StepIgnoresWord (macroblockLoop mbc input fmt dte n) := by
  induction n with
  | zero => exact fun _ _ => rfl
  | succ n ih =>
    have hinput : StepIgnoresWord fun s => if s.unit.cmd.pos0 = 0 then input s else .go s := by
      intro w s
      change (if s.unit.cmd.pos0 = 0 then _ else _) = _
      dsimp only
      split
      · exact hin w s
      · rfl
    intro w s
    unfold macroblockLoop
    change (if s.unit.cmd.index = mbc.setWidth 32 then _ else _) = _
    split
    · exact congrArg Flow.stop (complete_ignoresWord w s)
    · exact (hinput.bind ((drainMb_ignoresWord fmt dte).bind_go fun _ _ => rfl)).bind ih w s

theorem cscInput_ignoresWord : StepIgnoresWord cscInput :=
  (readBytes_ignoresWord (store := storeRaw) (fun _ _ _ _ => rfl) 384).bind_go fun _ _ => rfl

theorem packInput_ignoresWord : StepIgnoresWord packInput :=
  (readBytes_ignoresWord (store := storePixel) (fun _ _ _ _ => rfl) 1024).bind_go fun _ _ => rfl

/-- No step of a command in flight reads its word: the fields it needs are the operands of the instruction. -/
theorem inFlightStep_ignoresWord (i : Instr) : StepIgnoresWord (inFlightStep i) := by
  cases i with
  | idec fb qsc dtd sgn dte ofm => exact sessionStep_ignoresWord (idecRules_ignoreWord qsc dtd sgn dte ofm) fb
  | bdec fb qsc dt dcr mbi => exact sessionStep_ignoresWord (bdecRules_ignoreWord qsc dt dcr mbi) fb
  | vdec fb tbl => exact sessionStep_ignoresWord (vdecRules_ignoreWord tbl) fb
  | fdec fb => exact fdecStep_ignoresWord fb
  | setiq fb iqm => exact setiqStep_ignoresWord fb iqm
  | setvq => exact setvqStep_ignoresWord
  | csc mbc dte ofm => exact macroblockLoop_ignoresWord cscInput_ignoresWord mbc _ dte _
  | pack mbc dte ofm => exact macroblockLoop_ignoresWord packInput_ignoresWord mbc _ dte _
  | setth th0 th1 => exact setthStep_ignoresWord th0 th1
  | bclr | invalid101 | invalid11 | tagFollow | tagQwc | tagAddr | tagNone | tagMalformed => exact fun _ _ => rfl

/-! ### The statement -/

/-- Commands that differ in unused bits only are BCLR from the same position, or are submitted with the same step. -/
theorem sameFields_kinds {i j : Instr} (h : sameFields i j) :
    (∃ bp unused unused', i = .bclr bp unused ∧ j = .bclr bp unused') ∨
      (inFlightStep j = inFlightStep i ∧ (∀ s, exec i s = submit i.word (inFlightStep i) s) ∧
        ∀ s, exec j s = submit j.word (inFlightStep j) s) := by
  cases i with
  | bclr bp unused =>
    cases j with
    | bclr bp' unused' =>
      obtain rfl : bp = bp' := h
      exact .inl ⟨bp, unused, unused', rfl, rfl⟩
    | _ => exact False.elim h
  | idec =>
    cases j with
    | idec =>
      obtain ⟨rfl, rfl, rfl, rfl, rfl, rfl⟩ := h
      exact .inr ⟨rfl, fun _ => rfl, fun _ => rfl⟩
    | _ => exact False.elim h
  | bdec =>
    cases j with
    | bdec =>
      obtain ⟨rfl, rfl, rfl, rfl, rfl⟩ := h
      exact .inr ⟨rfl, fun _ => rfl, fun _ => rfl⟩
    | _ => exact False.elim h
  | vdec =>
    cases j with
    | vdec =>
      obtain ⟨rfl, rfl⟩ := h
      exact .inr ⟨rfl, fun _ => rfl, fun _ => rfl⟩
    | _ => exact False.elim h
  | fdec =>
    cases j with
    | fdec =>
      cases (show _ = _ from h)
      exact .inr ⟨rfl, fun _ => rfl, fun _ => rfl⟩
    | _ => exact False.elim h
  | setiq =>
    cases j with
    | setiq =>
      obtain ⟨rfl, rfl⟩ := h
      exact .inr ⟨rfl, fun _ => rfl, fun _ => rfl⟩
    | _ => exact False.elim h
  | setvq =>
    cases j with
    | setvq =>
      exact .inr ⟨rfl, fun _ => rfl, fun _ => rfl⟩
    | _ => exact False.elim h
  | csc =>
    cases j with
    | csc =>
      obtain ⟨rfl, rfl, rfl⟩ := h
      exact .inr ⟨rfl, fun _ => rfl, fun _ => rfl⟩
    | _ => exact False.elim h
  | pack =>
    cases j with
    | pack =>
      obtain ⟨rfl, rfl, rfl⟩ := h
      exact .inr ⟨rfl, fun _ => rfl, fun _ => rfl⟩
    | _ => exact False.elim h
  | setth =>
    cases j with
    | setth =>
      obtain ⟨rfl, rfl⟩ := h
      exact .inr ⟨rfl, fun _ => rfl, fun _ => rfl⟩
    | _ => exact False.elim h
  | _ => exact False.elim h

/-- Settles O4: BCLR leaves no command in flight; any other command is accepted with its word, which its first step does
not read. -/
theorem unusedBitsAreIgnored : Obligations.UnusedBitsAreIgnored := by
  unfold Obligations.UnusedBitsAreIgnored
  intro i j s t hij hb h
  rw [← withWord_eq]
  rcases sameFields_kinds hij with ⟨bp, unused, unused', rfl, rfl⟩ | ⟨hstep, hi, hj⟩
  · cases h
    have hraise := raise_ignoresWord .cmd (Instr.bclr bp unused').word (cursorReset bp (fifoClear (clearCommand s)))
    exact congrArg (fun u => Host.Outcome.next (u.setResult .accepted)) hraise
  · have hidle : ¬ s.unit.cmd.busy = true := by rw [hb]; decide
    rw [hi, submit, if_neg hidle] at h
    rw [hj, hstep, submit, if_neg hidle, ← withWord_acceptCommand i.word]
    exact (inFlightStep_ignoresWord i).outcome j.word h

end Sys2Proof.Machine
end

section
/-! SUPPORT. The operations of the cursor as `InputMoved`: what each consumes, pulls and leaves unchanged
(`40_bitstream_cursor.md` R142, R144 to R148, R150, R154). -/

namespace Sys2Proof.Machine

/-! ### The shared form of an operation -/

/-- An operation that consumed `n` bits, pulled lazily and wrote the snapshot. -/
theorem InputOnly.inputMoved {want n : Nat} {s t : State} (h : InputOnly s t) (hc : InputCounted t)
    (hn : Consumed n s t) (hp : Pulled want s t ∧ Snapped s t) : InputMoved want n s t := by
  obtain ⟨hframe, hctrl⟩ := h
  obtain ⟨hpull, hsnap⟩ := hp
  exact ⟨hn, hc, hpull, hsnap, hctrl, hframe⟩

theorem ShortOf.inputMoved {want : Nat} {s t : State} (h : ShortOf s t) (hp : Pulled want s t ∧ Snapped s t) :
    InputMoved want 0 s t := by
  obtain ⟨honly, hc, hsame⟩ := h
  exact honly.inputMoved hc (Consumed.zero s t hsame) hp

/-! ### The operations -/

section
variable {w : Nat} {s : State}

theorem readBits_short (h1 : 1 ≤ w) (h32 : w ≤ 32) (hc : InputCounted s) (h : totalAvail s < w) :
    ∃ t, readBits w s = .short t ∧ InputMoved w 0 s t := by
  rcases readBits_spec w s h1 h32 hc with ⟨-, t, e, ht⟩ | ⟨h', -⟩
  · exact ⟨t, e, ht.inputMoved (readBits_pulled hc (.inl e))⟩
  · omega

theorem readBits_ok (h1 : 1 ≤ w) (h32 : w ≤ 32) (hc : InputCounted s) (h : w ≤ totalAvail s) :
    ∃ t, readBits w s = .ok (BitVec.ofNat 32 (aheadValue s 0 w)) t ∧ InputMoved w w s t := by
  rcases readBits_spec w s h1 h32 hc with ⟨h', -⟩ | ⟨-, t, e, honly, hct, hcons⟩
  · omega
  · exact ⟨t, e, honly.inputMoved hct hcons (readBits_pulled hc (.inr ⟨_, e⟩))⟩

theorem peekBits_short (h1 : 1 ≤ w) (h32 : w ≤ 32) (hc : InputCounted s) (h : totalAvail s < w) :
    ∃ t, peekBits w s = .short t ∧ InputMoved w 0 s t := by
  rcases peekBits_spec w s h1 h32 hc with ⟨-, t, e, ht⟩ | ⟨h', -⟩
  · exact ⟨t, e, ht.inputMoved (peekBits_pulled hc (.inl e))⟩
  · omega

theorem peekBits_ok (h1 : 1 ≤ w) (h32 : w ≤ 32) (hc : InputCounted s) (h : w ≤ totalAvail s) :
    ∃ t, peekBits w s = .ok (BitVec.ofNat 32 (aheadValue s 0 w)) t ∧ InputMoved w 0 s t := by
  rcases peekBits_spec w s h1 h32 hc with ⟨h', -⟩ | ⟨-, t, e, ht⟩
  · omega
  · exact ⟨t, e, ht.inputMoved (peekBits_pulled hc (.inr ⟨_, e⟩))⟩

theorem skipBits_short (h63 : w ≤ 63) (hc : InputCounted s) (h : totalAvail s < w) :
    ∃ t, skipBits w s = .short t ∧ InputMoved w 0 s t := by
  rcases skipBits_spec w s h63 hc with ⟨-, t, e, ht⟩ | ⟨h', -⟩
  · exact ⟨t, e, ht.inputMoved (skipBits_pulled hc (.inl e))⟩
  · omega

theorem skipBits_ok (h63 : w ≤ 63) (hc : InputCounted s) (h : w ≤ totalAvail s) :
    ∃ t, skipBits w s = .ok () t ∧ InputMoved w w s t := by
  rcases skipBits_spec w s h63 hc with ⟨h', -⟩ | ⟨-, t, e, honly, hct, hcons⟩
  · omega
  · exact ⟨t, e, honly.inputMoved hct hcons (skipBits_pulled hc (.inr e))⟩

theorem alignByte_short (hc : InputCounted s) (hb : s.unit.cur.bitOfs ≠ 0) (h : totalAvail s = 0) :
    ∃ t, alignByte s = .short t ∧ InputMoved 1 0 s t := by
  rcases alignByte_spec s hc with ⟨-, -, t, e, ht⟩ | ⟨t, -, -, -, hcons, -⟩
  · have hp := alignByte_pulled hc (.inl e)
    rw [if_neg hb] at hp
    exact ⟨t, e, ht.inputMoved hp⟩
  · -- an answer would have consumed at least one bit
    have hne : s.unit.cur.bitOfs.toNat ≠ 0 := fun h0 => hb (BitVec.eq_of_toNat_eq h0)
    have hlt := s.unit.cur.bitOfs.isLt
    omega

theorem alignByte_ok (hc : InputCounted s) (h : s.unit.cur.bitOfs = 0 ∨ 1 ≤ totalAvail s) :
    ∃ t, alignByte s = .ok () t ∧
      InputMoved (if s.unit.cur.bitOfs = 0 then 0 else 1) ((8 - s.unit.cur.bitOfs.toNat) % 8) s t := by
  rcases alignByte_spec s hc with ⟨hb, h0, -⟩ | ⟨t, e, honly, hct, hcons⟩
  · rcases h with h | h
    · exact absurd h hb
    · omega
  · exact ⟨t, e, honly.inputMoved hct hcons (alignByte_pulled hc (.inr e))⟩

/-- The bit offset is the position in the byte. -/
theorem Cursor.bitOfs_toNat (c : Cursor) : c.bitOfs.toNat = c.pos % 8 := by
  have := c.bitOfs.isLt
  unfold Cursor.pos
  omega

/-- Consuming the bits `alignByte` consumes leaves the cursor on a byte (R148). -/
theorem Consumed.bitOfs_eq_zero {t : State} (h : Consumed ((8 - s.unit.cur.bitOfs.toNat) % 8) s t) :
    t.unit.cur.bitOfs = 0 := by
  obtain ⟨-, hpos, -⟩ := h
  have ht := t.unit.cur.bitOfs_toNat
  have hs := s.unit.cur.bitOfs_toNat
  have hlt := s.unit.cur.bitOfs.isLt
  refine BitVec.eq_of_toNat_eq (show t.unit.cur.bitOfs.toNat = 0 from ?_)
  omega

/-- A refill consumes nothing, and leaves the bits asked for in the buffer unless the buffer is full or the FIFO empty
(R144). -/
theorem refill_ok {hint n : Nat} (hn : n ≤ Config.bufCap) (hc : InputCounted s) :
    ∃ t, refill hint n s = some (t.unit.cur.avail / 8, t) ∧ InputMoved (8 * n + hint) 0 s t ∧
      (8 * n + hint ≤ t.unit.cur.avail ∨ t.unit.cur.fp.val = 2 ∨ t.ifc = 0) := by
  obtain ⟨honly, hct, hsame, -, hfull⟩ := pull_spec (8 * n + hint) s hc
  have hshort : ShortOf s (pull (8 * n + hint) s) := ⟨honly, hct, hsame⟩
  exact ⟨_, if_neg (Nat.not_lt.mpr hn), hshort.inputMoved (pull_pulled _ s hc), hfull⟩

end

/-- A look and a read are short together, in the same state. -/
theorem peekBits_of_readBits_short {w : Nat} {s t : State} (h : readBits w s = .short t) : peekBits w s = .short t := by
  unfold readBits at h
  unfold peekBits
  dsimp only at h ⊢
  split at h
  · rename_i hw
    rw [if_pos hw]
    split at h
    · rename_i hs
      rw [if_pos hs]
      exact h
    · cases h
  · cases h

/-! ### The statement -/

/-- Settles O43: each operation by its own two lemmas. -/
theorem shortReadsConsumeNothing : Obligations.ShortReadsConsumeNothing := by
  unfold Obligations.ShortReadsConsumeNothing
  intro w s hc
  refine ⟨fun h h1 h32 => ?_, fun h h1 h32 => ?_, fun h h63 => skipBits_short h63 hc h,
    fun h h63 => skipBits_ok h63 hc h, fun hb h => alignByte_short hc hb h, fun h => alignByte_ok hc h⟩
  · obtain ⟨t, hread, hmoved⟩ := readBits_short h1 h32 hc h
    exact ⟨t, hread, peekBits_of_readBits_short hread, hmoved⟩
  · obtain ⟨t, hread, ht⟩ := readBits_ok h1 h32 hc h
    obtain ⟨u, hpeek, hu⟩ := peekBits_ok h1 h32 hc h
    exact ⟨t, u, hread, ht, hpeek, hu⟩

end Sys2Proof.Machine
end

section
/-! SUPPORT. Two cursor operations in a row are one (`40_bitstream_cursor.md` R142, R143, R146, R152): pulling again
pulls nothing more, and moving the cursor commutes with pulling. -/

namespace Sys2Proof.Machine

/-! ### Pulling twice -/

/-- The loop of `pull` is over where the bits wanted are in the buffer, no slot is free or no quadword comes. -/
theorem pullLoop_over {want : Nat} {s : State}
    (h : ¬ (s.unit.cur.avail < want ∧ s.unit.cur.fp.val < 2) ∨ inTake s = none) (n : Nat) : pullLoop want n s = s := by
  cases n with
  | zero => rfl
  | succ n =>
    unfold pullLoop
    by_cases hw : s.unit.cur.avail < want ∧ s.unit.cur.fp.val < Config.bufQw
    · rw [if_pos hw, h.resolve_left (not_not_intro hw)]
    · rw [if_neg hw]

/-- A pull for bits that are in the buffer only writes the snapshot. -/
theorem pull_of_avail {want : Nat} {s : State} (h : want ≤ s.unit.cur.avail) : pull want s = snapIfc s :=
  congrArg snapIfc (pullLoop_over (.inl (by omega)) _)

theorem addQWord_fp {c : Cursor} (q : QWord) (h : c.fp.val < 2) : (c.addQWord q).fp.val = c.fp.val + 1 := by
  simp [Cursor.addQWord, Fin.ofNat]
  omega

theorem addQWord_pos (c : Cursor) (q : QWord) : (c.addQWord q).pos = c.pos := rfl

/-- One round of the loop of `pull` that takes a quadword. -/
theorem pullLoop_take {want n : Nat} {s t : State} {q : QWord} (hw : s.unit.cur.avail < want)
    (hf : s.unit.cur.fp.val < 2) (h : inTake s = some (q, t)) :
    pullLoop want (n + 1) s = pullLoop want n (t.setCur (s.unit.cur.addQWord q)) := by
  obtain ⟨-, hcur, -⟩ := inputOnly_inTake h
  conv_lhs => unfold pullLoop
  rw [if_pos ⟨hw, hf⟩, h, ← hcur]

/-- A round of the loop of `pull` takes a quadword, or the loop is over. -/
theorem pullLoop_round (want : Nat) (s : State) :
    (∀ n, pullLoop want n s = s) ∨
      (s.unit.cur.avail < want ∧ s.unit.cur.fp.val < 2 ∧ ∃ q t, inTake s = some (q, t)) := by
  by_cases hw : s.unit.cur.avail < want ∧ s.unit.cur.fp.val < 2
  · cases h : inTake s with
    | none => exact .inl (pullLoop_over (.inr h))
    | some x => exact .inr ⟨hw.1, hw.2, x.1, x.2, rfl⟩
  · exact .inl (pullLoop_over (.inl hw))

/-- The loop of `pull` runs at most as often as slots are free. -/
theorem pullLoop_enough (want n : Nat) (s : State) (hn : 2 ≤ n + s.unit.cur.fp.val) :
    pullLoop want (n + 1) s = pullLoop want n s := by
  induction n generalizing s with
  | zero =>
    rcases pullLoop_round want s with h | ⟨-, hf, -⟩
    · rw [h, h]
    · omega
  | succ n ih =>
    rcases pullLoop_round want s with h | ⟨hw, hf, q, t, ht⟩
    · rw [h, h]
    · rw [pullLoop_take hw hf ht, pullLoop_take hw hf ht]
      refine ih _ ?_
      rw [setCur_cur, addQWord_fp q hf]
      omega

/-- Pulling for fewer bits first takes nothing more. -/
theorem pullLoop_absorb {want want' : Nat} (hle : want' ≤ want) (n m : Nat) (hnm : n ≤ m) (s : State)
    (hm : 2 ≤ m + s.unit.cur.fp.val) : pullLoop want m (pullLoop want' n s) = pullLoop want m s := by
  induction n generalizing s m with
  | zero => rfl
  | succ n ih =>
    rcases pullLoop_round want' s with h | ⟨hw, hf, q, t, ht⟩
    · rw [h]
    · obtain ⟨m, rfl⟩ : ∃ k, m = k + 1 := ⟨m - 1, by omega⟩
      have hfp : 2 ≤ m + (t.setCur (s.unit.cur.addQWord q)).unit.cur.fp.val := by
        rw [setCur_cur, addQWord_fp q hf]
        omega
      rw [pullLoop_take hw hf ht, pullLoop_take (by omega) hf ht, ih (m + 1) (by omega) _ (by omega),
        pullLoop_enough want m _ hfp]

theorem inTake_setCur (c : Cursor) (s : State) :
    inTake (s.setCur c) = (inTake s).map fun x => (x.1, x.2.setCur c) := by
  unfold inTake
  change (if s.ifc = 0 then none else match s.unit.fifoIn with
    | [] => none
    | q :: qs => some (q, ((s.setCur c).setFifoIn qs).setCtrl (putIFC (s.ifc - 1) s.unit.ctrl))) = _
  split
  · rfl
  · cases s.unit.fifoIn <;> rfl

/-- A change of the cursor, on the cursors of `P`, that commutes with filling a slot, and after which a pull for `want'`
bits goes on exactly where one for `want` bits did before it. -/
structure PullsAlike (P : Cursor → Prop) (f : Cursor → Cursor) (want want' : Nat) : Prop where
  keep : ∀ c q, P c → c.fp.val < 2 → P (c.addQWord q)
  add : ∀ c q, P c → c.fp.val < 2 → (f c).addQWord q = f (c.addQWord q)
  goesOn : ∀ c, P c → ((f c).avail < want' ∧ (f c).fp.val < 2 ↔ c.avail < want ∧ c.fp.val < 2)

theorem PullsAlike.pullLoop_setCur {P : Cursor → Prop} {f : Cursor → Cursor} {want want' : Nat}
    (hf : PullsAlike P f want want') (n : Nat) (s : State) (hP : P s.unit.cur) :
    pullLoop want' n (s.setCur (f s.unit.cur)) =
      (pullLoop want n s).setCur (f (pullLoop want n s).unit.cur) := by
  induction n generalizing s with
  | zero => rfl
  | succ n ih =>
    by_cases hw : s.unit.cur.avail < want ∧ s.unit.cur.fp.val < 2
    · have hw' := (hf.goesOn _ hP).mpr hw
      cases ht : inTake s with
      | none =>
        have ht' : inTake (s.setCur (f s.unit.cur)) = none := by rw [inTake_setCur, ht]; rfl
        rw [pullLoop_over (.inr ht'), pullLoop_over (.inr ht)]
      | some x =>
        have ht' : inTake (s.setCur (f s.unit.cur)) = some (x.1, x.2.setCur (f s.unit.cur)) := by
          rw [inTake_setCur, ht]; rfl
        rw [pullLoop_take hw'.1 hw'.2 ht', pullLoop_take hw.1 hw.2 ht, setCur_cur, hf.add _ _ hP hw.2]
        exact ih (x.2.setCur (s.unit.cur.addQWord x.1)) (hf.keep _ _ hP hw.2)
    · rw [pullLoop_over (.inl (mt (hf.goesOn _ hP).mp hw)), pullLoop_over (.inl hw)]

theorem pullsAlike_snap (want : Nat) (v : BitVec 4) :
    PullsAlike (fun _ => True) ({ · with ifcSnap := v }) want want where
  keep _ _ _ _ := trivial
  add _ _ _ _ := rfl
  goesOn _ _ := Iff.rfl

/-- A pull after a pull for fewer bits is one pull. -/
theorem pull_pull {want want' : Nat} (hle : want' ≤ want) (s : State) : pull want (pull want' s) = pull want s := by
  have hsnap := (pullsAlike_snap want (pullLoop want' Config.bufQw s).ifc).pullLoop_setCur Config.bufQw
    (pullLoop want' Config.bufQw s) trivial
  rw [pullLoop_absorb hle Config.bufQw Config.bufQw le_rfl s (by simp [Config.bufQw])] at hsnap
  exact (congrArg snapIfc hsnap :)

/-! ### Moving the cursor -/

/-- The cursor after `advance` and the snapshot `v`. -/
def Cursor.advancedSnap (n : Nat) (v : BitVec 4) (c : Cursor) : Cursor := { c.advance n with ifcSnap := v }

theorem advanceSnap_eq (n : Nat) (s : State) : advanceSnap n s = s.setCur (s.unit.cur.advancedSnap n s.ifc) := rfl

/-- Freeing slots concerns the slots only. -/
theorem dropSlots_update (n : Nat) (c : Cursor) (p : BitVec 4) (b : BitVec 3) (v : BitVec 4) :
    Cursor.dropSlots n { c with byteOfs := p, bitOfs := b, ifcSnap := v } =
      { Cursor.dropSlots n c with byteOfs := p, bitOfs := b, ifcSnap := v } := by
  induction n generalizing c with
  | zero => rfl
  | succ n ih => exact ih c.dropSlot

theorem dropSlots_dropSlots (n m : Nat) (c : Cursor) :
    Cursor.dropSlots m (Cursor.dropSlots n c) = Cursor.dropSlots (n + m) c := by
  induction n generalizing c with
  | zero => rw [Nat.zero_add]; rfl
  | succ n ih => rw [Nat.add_right_comm]; exact ih c.dropSlot

theorem advancedSnap_pos (n : Nat) (v : BitVec 4) (c : Cursor) : (c.advancedSnap n v).pos = (c.pos + n) % 128 := by
  simp only [Cursor.advancedSnap, Cursor.advance, Cursor.pos, BitVec.toNat_ofNat]
  omega

theorem advancedSnap_fp (n : Nat) (v : BitVec 4) (c : Cursor) :
    (c.advancedSnap n v).fp.val = c.fp.val - (c.pos + n) / 128 :=
  (dropSlots_spec ((c.pos + n) / 128) c).1

/-- Moving the cursor by `n` bits takes `n` bits out of the buffer. -/
theorem advancedSnap_avail {n : Nat} (v : BitVec 4) {c : Cursor} (h : n ≤ c.avail) :
    (c.advancedSnap n v).avail = c.avail - n := by
  have hpos := c.pos_lt
  unfold Cursor.avail at h ⊢
  rw [advancedSnap_fp, advancedSnap_pos]
  split at h <;> split <;> omega

theorem dropSlots_advancedSnap (k n : Nat) (v : BitVec 4) (c : Cursor) :
    Cursor.dropSlots k (c.advancedSnap n v) = { Cursor.dropSlots ((c.pos + n) / 128 + k) c with
      byteOfs := BitVec.ofNat 4 ((c.pos + n) % 128 / 8), bitOfs := BitVec.ofNat 3 ((c.pos + n) % 8), ifcSnap := v } := by
  rw [← dropSlots_dropSlots]
  exact dropSlots_update k (Cursor.dropSlots ((c.pos + n) / 128) c) _ _ _

/-- Two moves of the cursor are one. -/
theorem advancedSnap_advancedSnap (n m : Nat) (v v' : BitVec 4) (c : Cursor) :
    (c.advancedSnap n v).advancedSnap m v' = c.advancedSnap (n + m) v' := by
  have hdiv : (c.pos + n) / 128 + ((c.pos + n) % 128 + m) / 128 = (c.pos + (n + m)) / 128 := by omega
  have hmod : ((c.pos + n) % 128 + m) % 128 = (c.pos + (n + m)) % 128 := by omega
  have hbit : ((c.pos + n) % 128 + m) % 8 = (c.pos + (n + m)) % 8 := by omega
  show ({ Cursor.dropSlots (((c.advancedSnap n v).pos + m) / 128) (c.advancedSnap n v) with
    byteOfs := BitVec.ofNat 4 (((c.advancedSnap n v).pos + m) % 128 / 8)
    bitOfs := BitVec.ofNat 3 (((c.advancedSnap n v).pos + m) % 8), ifcSnap := v' } : Cursor) = _
  rw [advancedSnap_pos, dropSlots_advancedSnap, hdiv, hmod, hbit]
  rfl

/-- The snapshot before a move of the cursor is written over. -/
theorem advancedSnap_snap (n : Nat) (v v' : BitVec 4) (c : Cursor) :
    ({ c with ifcSnap := v' } : Cursor).advancedSnap n v = c.advancedSnap n v := by
  show ({ Cursor.dropSlots ((c.pos + n) / 128) { c with byteOfs := c.byteOfs, bitOfs := c.bitOfs, ifcSnap := v' } with
    byteOfs := BitVec.ofNat 4 ((c.pos + n) % 128 / 8), bitOfs := BitVec.ofNat 3 ((c.pos + n) % 8)
    ifcSnap := v } : Cursor) = _
  rw [dropSlots_update]
  rfl

/-- Filling a slot commutes with freeing valid ones: the quadword filled in after the last valid slot was freed is the
first one. -/
theorem dropSlots_addQWord {d : Nat} {c : Cursor} (q : QWord) (hd : d ≤ c.fp.val) (hf : c.fp.val < 2) :
    Cursor.dropSlots d (c.addQWord q) = (Cursor.dropSlots d c).addQWord q := by
  obtain rfl | ⟨rfl, hfp⟩ : d = 0 ∨ d = 1 ∧ c.fp = 1 := by omega
  · rfl
  · obtain ⟨slot, fp, byteOfs, bitOfs, ifcSnap, hasNew⟩ := c
    obtain rfl : fp = 1 := hfp
    have hset : (slot.setIfInBounds 1 q).getD 1 0 = q := by simp [Vector.getD]
    show (⟨#v[(slot.setIfInBounds 1 q).getD 1 0, 0], 1, byteOfs, bitOfs, ifcSnap, hasNew⟩ : Cursor) = _
    rw [hset]
    rfl

/-- Filling a slot commutes with moving the cursor inside the buffer. -/
theorem addQWord_advancedSnap {n : Nat} (v : BitVec 4) {c : Cursor} (q : QWord) (h : n ≤ c.avail) (hf : c.fp.val < 2) :
    (c.advancedSnap n v).addQWord q = (c.addQWord q).advancedSnap n v := by
  have hd : (c.pos + n) / 128 ≤ c.fp.val := by
    have hpos := c.pos_lt
    unfold Cursor.avail at h
    split at h <;> omega
  show _ = ({ Cursor.dropSlots ((c.pos + n) / 128) (c.addQWord q) with
    byteOfs := BitVec.ofNat 4 ((c.pos + n) % 128 / 8), bitOfs := BitVec.ofNat 3 ((c.pos + n) % 8)
    ifcSnap := v } : Cursor)
  rw [dropSlots_addQWord q hd hf]
  rfl

theorem pullsAlike_advancedSnap {a b : Nat} (hab : a + b ≤ 129) (v : BitVec 4) :
    PullsAlike (a ≤ ·.avail) (Cursor.advancedSnap a v) (a + b) b where
  keep c q h hf := by
    have hpos := c.pos_lt
    unfold Cursor.avail at h ⊢
    rw [addQWord_fp q hf, addQWord_pos]
    split at h <;> simp <;> omega
  add _ q h hf := addQWord_advancedSnap v q h hf
  goesOn c h := by
    have hpos := c.pos_lt
    have hfp := c.fp.isLt
    have havail : c.avail = if c.fp.val = 0 then 0 else 128 * c.fp.val - c.pos := rfl
    have hfp' := advancedSnap_fp a v c
    have havail' := advancedSnap_avail v h
    split at havail <;> omega

/-- A pull after a move of the cursor is the same move after the pull for both. -/
theorem pull_advanceSnap {a b : Nat} {s : State} (h : a ≤ s.unit.cur.avail) (hab : a + b ≤ 129) :
    pull b (advanceSnap a s) = advanceSnap a (pull (a + b) s) := by
  have hloop := (pullsAlike_advancedSnap hab s.ifc).pullLoop_setCur Config.bufQw s h
  rw [advanceSnap_eq, advanceSnap_eq, pull, hloop]
  exact congrArg _ (advancedSnap_snap a _ _ _).symm

theorem advanceSnap_advanceSnap (n m : Nat) (s : State) : advanceSnap m (advanceSnap n s) = advanceSnap (n + m) s := by
  rw [advanceSnap_eq, advanceSnap_eq, advanceSnap_eq]
  exact congrArg s.setCur (advancedSnap_advancedSnap n m _ _ _)

/-! ### Two reads, a look and a read -/

/-- A read the stream has the bits for pulls, answers and moves the cursor (R145). -/
theorem readBits_eq {w : Nat} {s : State} (h1 : 1 ≤ w) (h32 : w ≤ 32) (hc : InputCounted s) (h : w ≤ totalAvail s) :
    readBits w s = .ok (BitVec.ofNat 32 (aheadValue s 0 w)) (advanceSnap w (pull w s)) ∧
      InputCounted (advanceSnap w (pull w s)) ∧ Consumed w s (advanceSnap w (pull w s)) := by
  obtain ⟨-, hct, hsame, -, -⟩ := pull_spec w s hc
  have hav := (pull_avail w s hc (by omega)).mpr h
  obtain ⟨-, hcount, hcons, -⟩ := advance_spec w (pull w s) hav
  refine ⟨?_, hcount hct, hcons.sameStream_left hsame⟩
  unfold readBits
  rw [if_pos ⟨h1, h32⟩]
  dsimp only
  rw [if_neg (by omega), extract_eq_ahead _ _ hav, aheadValue_sameStream hsame]

/-- All that an answered look does (R146): it pulls, and the bits are in the buffer. -/
theorem peekBits_eq_ok {w : Nat} {v : Word} {s t : State} (h : peekBits w s = .ok v t) :
    t = pull w s ∧ w ≤ t.unit.cur.avail ∧ v = BitVec.ofNat 32 (t.unit.cur.extract w) := by
  unfold peekBits at h
  dsimp only at h
  split at h
  · split at h
    · cases h
    · cases h
      exact ⟨rfl, by omega, rfl⟩
  · cases h

/-- The state after two reads is the state after one of both widths (R152). -/
theorem advanceSnap_pull_twice {a b : Nat} {s : State} (hab : a + b ≤ 129) (hc : InputCounted s)
    (h : a ≤ totalAvail s) :
    advanceSnap b (pull b (advanceSnap a (pull a s))) = advanceSnap (a + b) (pull (a + b) s) := by
  have hav := (pull_avail a s hc (by omega)).mpr h
  rw [pull_advanceSnap hav hab, pull_pull (Nat.le_add_right a b), advanceSnap_advanceSnap]

theorem aheadValue_add (s : State) (a b : Nat) :
    aheadValue s 0 (a + b) = aheadValue s 0 a * 2 ^ b + aheadValue s a b :=
  streamValue_add (pendingQWords s) s.unit.cur.pos a b

/-- At most 32 bits ahead fit in a word. -/
theorem toNat_ofNat_aheadValue (s : State) (k : Nat) {w : Nat} (h : w ≤ 32) :
    (BitVec.ofNat 32 (aheadValue s k w)).toNat = aheadValue s k w := by
  rw [BitVec.toNat_ofNat]
  exact Nat.mod_eq_of_lt ((streamValue_lt _ _ w).trans_le (Nat.pow_le_pow_right (by decide) h))

/-- Settles O42: the values by splitting the bits ahead, the end states because pulls and moves of the cursor
commute. -/
theorem readsAssociate : Obligations.ReadsAssociate := by
  unfold Obligations.ReadsAssociate
  intro a b s ha1 ha32 hb1 hb32 hc hle
  obtain ⟨hreadA, hcA, hconsA⟩ := readBits_eq ha1 ha32 hc (by omega)
  have htotal := hconsA.1
  obtain ⟨hreadB, -, hconsB⟩ := readBits_eq hb1 hb32 hcA (by omega)
  have hvalue : aheadValue s 0 (a + b) = (BitVec.ofNat 32 (aheadValue s 0 a)).toNat * 2 ^ b +
      (BitVec.ofNat 32 (aheadValue (advanceSnap a (pull a s)) 0 b)).toNat := by
    rw [toNat_ofNat_aheadValue _ _ ha32, toNat_ofNat_aheadValue _ _ hb32,
      aheadValue_consumed hconsA 0 b (by omega), aheadValue_add]
    rfl
  refine ⟨_, _, _, _, hreadA, hreadB, hconsA.trans hconsB, hvalue, fun hab => ?_⟩
  rw [← hvalue, advanceSnap_pull_twice (by omega) hc (by omega)]
  exact (readBits_eq (by omega) hab hc hle).1

/-- Settles O44: after the look the bits are in the buffer, so the read pulls nothing. -/
theorem peekThenReadAgree : Obligations.PeekThenReadAgree := by
  unfold Obligations.PeekThenReadAgree
  intro w v s t h1 h32 hc h
  obtain ⟨rfl, hav, rfl⟩ := peekBits_eq_ok h
  obtain ⟨-, hct, hsame, -, -⟩ := pull_spec w s hc
  have htotal : w ≤ totalAvail (pull w s) := by
    rw [hsame.2.1]
    exact (pull_avail w s hc (by omega)).mp hav
  obtain ⟨hread, -, hcons⟩ := readBits_eq h1 h32 hct htotal
  rw [pull_of_avail hav] at hread hcons
  rw [extract_eq_ahead _ _ hav]
  exact ⟨_, hread, rfl, rfl, hcons.sameStream_left hsame⟩

end Sys2Proof.Machine
end

section
/-! SUPPORT. The requests of a library session: what serving one reads and changes, the rounds of a session in the
command's step, and how that step ends where a request stops it (`43_command_dispatcher.md` R241 to R243, R252). -/

namespace Sys2Proof.Machine

/-! ### A request changes the input side only -/

theorem pullLoop_inputOnly (want n : Nat) (s : State) : InputOnly s (pullLoop want n s) := by
  induction n generalizing s with
  | zero => exact .refl s
  | succ n ih =>
    rcases pullLoop_round want s with h | ⟨hw, hf, q, t, ht⟩
    · rw [h]
      exact .refl s
    · rw [pullLoop_take hw hf ht]
      exact ((inputOnly_inTake ht).1.trans (.setCur t _)).trans (ih _)

theorem pull_inputOnly (want : Nat) (s : State) : InputOnly s (pull want s) :=
  (pullLoop_inputOnly want _ s).trans (.setCur _ _)

theorem advanceSnap_inputOnly (n : Nat) (s : State) : InputOnly s (advanceSnap n s) := .setCur s _

/-- Every state the operation can end in differs in the input side only. -/
def Take.InputOnly (s : State) {α : Type} : Take α → Prop
  | .ok _ t => Machine.InputOnly s t
  | .short t => Machine.InputOnly s t
  | .bad => True

/-- Every state the served request can end in differs in the input side only. -/
def Served.InputOnly (s : State) : Served → Prop
  | .reply _ t => Machine.InputOnly s t
  | .wait t => Machine.InputOnly s t
  | .fault _ => True
  | .refused _ => True

theorem Take.InputOnly.served {α : Type} {f : α → LibReply} {s : State} {x : Take α} (h : x.InputOnly s) :
    (x.served f).InputOnly s := by
  cases x <;> exact h

theorem readBits_inputOnly (w : Nat) (s : State) : (readBits w s).InputOnly s := by
  unfold readBits
  dsimp only
  split
  · split
    · exact pull_inputOnly w s
    · exact (pull_inputOnly w s).trans (advanceSnap_inputOnly w _)
  · trivial

theorem peekBits_inputOnly (w : Nat) (s : State) : (peekBits w s).InputOnly s := by
  unfold peekBits
  dsimp only
  split
  · split <;> exact pull_inputOnly w s
  · trivial

theorem skipBits_inputOnly (n : Nat) (s : State) : (skipBits n s).InputOnly s := by
  unfold skipBits
  dsimp only
  split
  · split
    · exact pull_inputOnly n s
    · exact (pull_inputOnly n s).trans (advanceSnap_inputOnly n _)
  · trivial

theorem alignByte_inputOnly (s : State) : (alignByte s).InputOnly s := by
  unfold alignByte
  dsimp only
  split
  · exact .setCur s _
  · split
    · exact pull_inputOnly 1 s
    · exact (pull_inputOnly 1 s).trans (advanceSnap_inputOnly _ _)

/-- A refill is fatal beyond the capacity, and else a pull (R144). -/
theorem serveCursor_refill (hint n : Nat) (s : State) : serveCursor (.refill hint n) s =
    if Config.bufCap < n then .fault .refillOverCapacity
    else .reply (.bytes ((pull (8 * n + hint) s).unit.cur.avail / 8)) (pull (8 * n + hint) s) := by
  by_cases h : Config.bufCap < n
  · simp only [serveCursor, refill, if_pos h]
  · simp only [serveCursor, refill, if_neg h]

theorem serveCursor_inputOnly (req : LibRequest) (s : State) : (serveCursor req s).InputOnly s := by
  cases req with
  | skip n => exact (skipBits_inputOnly n s).served
  | read n => exact (readBits_inputOnly n s).served
  | peek n => exact (peekBits_inputOnly n s).served
  | align => exact (alignByte_inputOnly s).served
  | refill hint n =>
    rw [serveCursor_refill]
    split
    · trivial
    · exact pull_inputOnly _ s
  | emitMB _ | emitCoef _ | done _ => trivial

/-! ### A request reads the input side only -/

theorem inTake_withInput (u s : State) :
    inTake (withInput u s) = (inTake u).map fun x => (x.1, withInput x.2 s) := by
  unfold inTake
  change (if u.ifc = 0 then none else match u.unit.fifoIn with
    | [] => none
    | q :: qs => some (q, ((withInput u s).setFifoIn qs).setCtrl (putIFC (u.ifc - 1) u.unit.ctrl))) = _
  split
  · rfl
  · cases u.unit.fifoIn <;> rfl

theorem pullLoop_withInput (want n : Nat) (u s : State) :
    pullLoop want n (withInput u s) = withInput (pullLoop want n u) s := by
  induction n generalizing u with
  | zero => rfl
  | succ n ih =>
    unfold pullLoop
    rw [inTake_withInput]
    change (if u.unit.cur.avail < want ∧ u.unit.cur.fp.val < Config.bufQw then _ else _) = _
    split
    · cases inTake u with
      | none => rfl
      | some x => exact ih (x.2.setCur (x.2.unit.cur.addQWord x.1))
    · rfl

theorem pull_withInput (want : Nat) (u s : State) : pull want (withInput u s) = withInput (pull want u) s := by
  unfold pull
  rw [pullLoop_withInput]
  rfl

theorem readBits_withInput (w : Nat) (u s : State) :
    readBits w (withInput u s) = (readBits w u).map (withInput · s) := by
  unfold readBits
  dsimp only
  rw [pull_withInput]
  change (if _ then (if (pull w u).unit.cur.avail < w then _ else _) else _) = _
  split
  · split <;> rfl
  · rfl

theorem peekBits_withInput (w : Nat) (u s : State) :
    peekBits w (withInput u s) = (peekBits w u).map (withInput · s) := by
  unfold peekBits
  dsimp only
  rw [pull_withInput]
  change (if _ then (if (pull w u).unit.cur.avail < w then _ else _) else _) = _
  split
  · split <;> rfl
  · rfl

theorem skipBits_withInput (n : Nat) (u s : State) :
    skipBits n (withInput u s) = (skipBits n u).map (withInput · s) := by
  unfold skipBits
  dsimp only
  rw [pull_withInput]
  change (if _ then (if (pull n u).unit.cur.avail < n then _ else _) else _) = _
  split
  · split <;> rfl
  · rfl

theorem alignByte_withInput (u s : State) : alignByte (withInput u s) = (alignByte u).map (withInput · s) := by
  unfold alignByte
  dsimp only
  rw [pull_withInput]
  change (if u.unit.cur.bitOfs = 0 then _ else (if (pull 1 u).unit.cur.fp.val = 0 then _ else _)) = _
  split
  · rfl
  · split <;> rfl

theorem serveCursor_withInput (req : LibRequest) (u s : State) :
    serveCursor req (withInput u s) = (serveCursor req u).map (withInput · s) := by
  cases req with
  | skip n => simp only [serveCursor, skipBits_withInput, Take.served_map]
  | read n => simp only [serveCursor, readBits_withInput, Take.served_map]
  | peek n => simp only [serveCursor, peekBits_withInput, Take.served_map]
  | align => simp only [serveCursor, alignByte_withInput, Take.served_map]
  | refill hint n =>
    rw [serveCursor_refill, serveCursor_refill, pull_withInput]
    split <;> rfl
  | emitMB _ | emitCoef _ | done _ => rfl

/-! ### The rounds of a session -/

/-- The state with this command state and this session open. -/
def inSession (cmd : Command) (ses : LibSession) (s : State) : State := (s.setCmd cmd).setLib (some ses)

/-- A request is served alike whatever command and session are open. -/
theorem serveCursor_inSession (req : LibRequest) (cmd : Command) (ses : LibSession) (s : State) :
    serveCursor req (inSession cmd ses s) = (serveCursor req s).map (inSession cmd ses) := by
  have h : serveCursor req (inSession cmd ses s) = (serveCursor req s).map (withInput · (inSession cmd ses s)) :=
    serveCursor_withInput req s (inSession cmd ses s)
  have hin {t : State} (ht : InputOnly s t) : withInput t (inSession cmd ses s) = inSession cmd ses t := by
    rw [ht.eq_withInput]
    rfl
  have honly := serveCursor_inputOnly req s
  rw [h]
  cases hs : serveCursor req s with
  | reply a t => rw [hs] at honly; exact congrArg (Served.reply a) (hin honly)
  | wait t => rw [hs] at honly; exact congrArg Served.wait (hin honly)
  | fault _ | refused _ => rfl

/-- A round in phase 1 is one with its session open. -/
theorem sessionLoop_open (r : SessionRules) (n : Nat) {s : State} (hp : s.unit.cmd.pos0 ≠ 2) :
    sessionLoop r (n + 1) s = sessionLoop r (n + 1) (inSession s.unit.cmd (sessionOf r.command s) s) := by
  rw [sessionLoop_succ, sessionLoop_succ, if_neg hp]
  exact (if_neg (show ¬ (inSession s.unit.cmd (sessionOf r.command s) s).unit.cmd.pos0 = 2 from hp)).symm

/-- A round of the session loop whose request is one of the cursor. -/
theorem sessionLoop_serve {r : SessionRules} {cmd : Command} (hp : cmd.pos0 ≠ 2) {ses : LibSession} {s : State}
    (h : serveCursor ses.req s ≠ .refused .libraryContract) (n : Nat) :
    sessionLoop r (n + 1) (inSession cmd ses s) = afterServe r n ((serveCursor ses.req s).map (inSession cmd ses)) := by
  have hround : sessionLoop r (n + 1) (inSession cmd ses s) = requestRound r n (inSession cmd ses s) ses.req :=
    (sessionLoop_succ r n _).trans (if_neg hp)
  rw [hround, ← serveCursor_inSession]
  cases hreq : ses.req with
  | emitMB _ | emitCoef _ | done _ => rw [hreq] at h; exact absurd rfl h
  | align | skip | read | peek | refill => rfl

/-- The rounds of a run of answered requests, whatever comes after them. -/
theorem sessionLoop_run {r : SessionRules} {cmd : Command} (hp : cmd.pos0 ≠ 2) {n : Nat} {ses ses' : LibSession}
    {s t : State} (h : SessionRun n ses s ses' t) (m : Nat) :
    sessionLoop r (m + n) (inSession cmd ses s) = sessionLoop r m (inSession cmd ses' t) := by
  induction n generalizing ses s with
  | zero =>
    obtain ⟨rfl, rfl⟩ := h
    rfl
  | succ n ih =>
    obtain ⟨a, u, hserve, hrun⟩ := h
    have honly := serveCursor_inputOnly ses.req s
    rw [hserve] at honly
    have hcfg : u.cfg = s.cfg := by rw [honly.eq_withInput]; rfl
    rw [← hcfg] at hrun
    rw [← Nat.add_assoc, sessionLoop_serve hp (by rw [hserve]; exact nofun), hserve]
    show sessionLoop r (m + n) (inSession cmd (libAnswer u.cfg ses a) u) = _
    exact ih hrun

/-- A run of answered requests changes the input side only. -/
theorem SessionRun.inputOnly {n : Nat} {ses ses' : LibSession} {s t : State} (h : SessionRun n ses s ses' t) :
    InputOnly s t := by
  induction n generalizing ses s with
  | zero =>
    obtain ⟨-, rfl⟩ := h
    exact .refl t
  | succ n ih =>
    obtain ⟨a, u, hserve, hrun⟩ := h
    have honly := serveCursor_inputOnly ses.req s
    rw [hserve] at honly
    exact Machine.InputOnly.trans honly (ih hrun)

/-! ### The session part of a dispatch step -/

/-- The command refuses the emits of another command (R242, R243, R252). -/
structure SessionRules.RefusesForeignEmits (r : SessionRules) : Prop where
  emitMB : (∀ qsc dtd sgn, r.command ≠ .idec qsc dtd sgn) →
    ∀ raw s, r.takeEmit (.emitMB raw) s = .refused .libraryContract
  emitCoef : (∀ qsc dt dcr mbi, r.command ≠ .bdec qsc dt dcr mbi) →
    ∀ coef s, r.takeEmit (.emitCoef coef) s = .refused .libraryContract

/-- The step of an instruction that opens a session: its `FB` phase, then its session. -/
theorem inFlightStep_session {i : Instr} {fb : BitVec 6} {c : LibCommand} (h : librarySession i = some (fb, c)) :
    ∃ r : SessionRules, r.command = c ∧ inFlightStep i = sessionStep fb r ∧ r.RefusesForeignEmits := by
  cases i with
  | idec fb qsc dtd sgn dte ofm =>
    cases h
    exact ⟨idecRules qsc dtd sgn dte ofm, rfl, rfl, fun h => absurd rfl (h qsc dtd sgn), fun _ _ _ => rfl⟩
  | bdec fb qsc dt dcr mbi =>
    cases h
    exact ⟨bdecRules qsc dt dcr mbi, rfl, rfl, fun _ _ _ => rfl, fun h => absurd rfl (h qsc dt dcr mbi)⟩
  | vdec fb tbl =>
    cases h
    exact ⟨vdecRules tbl, rfl, rfl, fun _ _ _ => rfl, fun _ _ _ => rfl⟩
  | _ => cases h

/-- A session opened after reading bits is given the same parameters (R251). -/
theorem InputOnly.libOpen_eq {s t : State} (h : InputOnly s t) (c : LibCommand) : libOpen c t = libOpen c s := by
  obtain ⟨e, hctrl⟩ := h
  have hfield (lo w : Nat) (hlo : 4 ≤ lo) : getField lo w t.unit.ctrl = getField lo w s.unit.ctrl :=
    getField_congr fun i hi _ => hctrl i (by omega)
  have hparams : libParams c t.unit = libParams c s.unit := by
    rw [e]
    simp only [libParams, ctrlPCT, ctrlIDP, ctrlAS, ctrlIVF, ctrlQST, ctrlMP1, hfield 24 3 (by decide),
      hfield 16 2 (by decide), hctrl 20 (by decide), hctrl 21 (by decide), hctrl 22 (by decide), hctrl 23 (by decide)]
  have hcfg : t.cfg = s.cfg := by rw [e]
  unfold Machine.libOpen
  rw [hparams, hcfg]

/-- The command state in the session part of a dispatch step: phase 0 is over. -/
def sessionCommand (cmd : Command) : Command := if cmd.pos0 = 0 then { cmd with pos0 := 1, pos1 := 0 } else cmd

/-- A dispatch step that reaches its session part goes on with the rounds of the session. -/
theorem dispatchStep_session {fb : BitVec 6} {c : LibCommand} {ses : LibSession} {s u : State}
    (hbusy : s.unit.cmd.busy = true) (hi : librarySession (decodeCommand s.unit.cmd.current) = some (fb, c))
    (hbegin : SessionBegins fb c s ses u) :
    ∃ r : SessionRules, r.command = c ∧ r.RefusesForeignEmits ∧ InputOnly s u ∧
      (sessionCommand s.unit.cmd).pos0 ≠ 2 ∧
      dispatchStep s = sessionLoop r Config.serveChunk (inSession (sessionCommand s.unit.cmd) ses u) := by
  obtain ⟨r, hr, hstep, hforeign⟩ := inFlightStep_session hi
  have hdispatch : dispatchStep s = sessionStep fb r s := by
    rw [← hstep, ← commandStep_eq]
    exact if_pos hbusy
  rcases hbegin with ⟨hp, hlib, hskip, rfl⟩ | ⟨hp, hlib, rfl⟩
  · have honly : InputOnly s u := by
      have h := skipBits_inputOnly fb.toNat s
      rw [hskip] at h
      exact h
    have hcmd : sessionCommand s.unit.cmd = (setPhase 1 0 u).unit.cmd := by
      rw [honly.eq_withInput]
      exact if_pos hp
    have hses : sessionOf r.command (setPhase 1 0 u) = libOpen c s := by
      have hu : (setPhase 1 0 u).unit.lib = none := by rw [honly.eq_withInput]; exact hlib
      rw [sessionOf, hu, hr, ← honly.libOpen_eq c]
      rfl
    have hphase : fbPhase fb s = .go (setPhase 1 0 u) := by rw [fbPhase, if_pos hp, hskip]
    have hp1 : (setPhase 1 0 u).unit.cmd.pos0 ≠ 2 := (by decide : (1 : Word) ≠ 2)
    refine ⟨r, hr, hforeign, honly, by rw [hcmd]; exact hp1, ?_⟩
    rw [hdispatch, sessionStep, hphase, hcmd, ← hses]
    exact sessionLoop_open r 1023 hp1
  · have hcmd : sessionCommand u.unit.cmd = u.unit.cmd := if_neg (by rw [hp]; decide)
    refine ⟨r, hr, hforeign, .refl u, by rw [hcmd, hp]; decide, ?_⟩
    have hphase : fbPhase fb u = .go u := if_neg (by rw [hp]; decide)
    have hu : inSession u.unit.cmd ses u = u := by rw [inSession, ← hlib]; rfl
    rw [hdispatch, sessionStep, hphase, hcmd, hu]
    rfl

/-- A dispatch step after a run of answered requests, whatever comes after them. -/
theorem dispatchStep_run {fb : BitVec 6} {c : LibCommand} {n : Nat} {ses ses' : LibSession} {s u v : State}
    (hbusy : s.unit.cmd.busy = true) (hi : librarySession (decodeCommand s.unit.cmd.current) = some (fb, c))
    (hbegin : SessionBegins fb c s ses u) (hrun : SessionRun n ses u ses' v) :
    ∃ r : SessionRules, r.command = c ∧ r.RefusesForeignEmits ∧ InputOnly s v ∧
      (sessionCommand s.unit.cmd).pos0 ≠ 2 ∧ ∀ m, m + n = Config.serveChunk →
        dispatchStep s = sessionLoop r m (inSession (sessionCommand s.unit.cmd) ses' v) := by
  obtain ⟨r, hr, hforeign, honly, hp, hstep⟩ := dispatchStep_session hbusy hi hbegin
  refine ⟨r, hr, hforeign, honly.trans hrun.inputOnly, hp, fun m hm => ?_⟩
  rw [hstep, ← hm, sessionLoop_run hp hrun]

/-- What a step that is cut leaves: the command in phase 1 with its session, and the input side moved (Log 5). -/
theorem inSession_frame {s v : State} (h : InputOnly s v) (cmd : Command) (ses : LibSession) :
    CtrlKept (fun i => 4 ≤ i) s (inSession cmd ses v) ∧ Quiet s (inSession cmd ses v) ∧
      SameSetup s (inSession cmd ses v) ∧ (inSession cmd ses v).result = s.result ∧
      (inSession cmd ses v).unit = { s.unit with
        ctrl := v.unit.ctrl, cmd := cmd, cur := v.unit.cur, fifoIn := v.unit.fifoIn, lib := some ses } := by
  refine ⟨h.2, ?_⟩
  rw [h.eq_withInput]
  exact ⟨⟨rfl, rfl⟩, ⟨rfl, rfl, fun _ => rfl, rfl⟩, rfl, rfl⟩

/-! ### The statement -/

/-- Settles O19: each request by the lemmas of its operation; in the step, the rounds before the request that ends it
are those of the run. -/
theorem libraryRequestsAreServed : Obligations.LibraryRequestsAreServed := by
  unfold Obligations.LibraryRequestsAreServed
  constructor
  · intro s hc
    refine ⟨fun n h63 h => ?_, fun n h63 h => ?_, fun n h => ?_, fun n h1 h32 h => ?_, fun n h1 h32 h => ?_,
      fun n h1 h32 h => ?_, fun n h1 h32 h => ?_, fun n h => ?_, fun h => ?_, fun hb h => ?_, fun hint n h => ?_,
      fun hint n h => ?_⟩
    · obtain ⟨t, e, ht⟩ := skipBits_ok h63 hc h
      exact ⟨t, congrArg (Take.served _) e, ht⟩
    · obtain ⟨t, e, ht⟩ := skipBits_short h63 hc h
      exact ⟨t, congrArg (Take.served _) e, ht⟩
    · exact congrArg (Take.served _) (if_neg (Nat.not_le.mpr h))
    · obtain ⟨t, e, ht⟩ := readBits_ok h1 h32 hc h
      exact ⟨t, congrArg (Take.served _) e, ht⟩
    · obtain ⟨t, e, ht⟩ := readBits_short h1 h32 hc h
      exact ⟨t, congrArg (Take.served _) e, ht⟩
    · obtain ⟨t, e, ht⟩ := peekBits_ok h1 h32 hc h
      exact ⟨t, congrArg (Take.served _) e, ht⟩
    · obtain ⟨t, e, ht⟩ := peekBits_short h1 h32 hc h
      exact ⟨t, congrArg (Take.served _) e, ht⟩
    · have hbad : ¬ (1 ≤ n ∧ n ≤ 32) := by omega
      exact ⟨congrArg (Take.served _) (if_neg hbad), congrArg (Take.served _) (if_neg hbad)⟩
    · obtain ⟨t, e, ht⟩ := alignByte_ok hc h
      exact ⟨t, congrArg (Take.served _) e, ht, ht.1.bitOfs_eq_zero⟩
    · obtain ⟨t, e, ht⟩ := alignByte_short hc hb h
      exact ⟨t, congrArg (Take.served _) e, ht⟩
    · obtain ⟨t, e, ht, hfull⟩ := refill_ok (hint := hint) (show n ≤ Config.bufCap from h) hc
      refine ⟨t, ?_, ht, hfull⟩
      rw [serveCursor, e]
    · rw [serveCursor_refill, if_pos (show Config.bufCap < n from h)]
  · intro fb c n ses ses' s u v hbusy hi hbegin hrun
    obtain ⟨r, rfl, hforeign, honly, hp, hstep⟩ := dispatchStep_run hbusy hi hbegin hrun
    have hround (hn : n < 1024) : dispatchStep s =
        sessionLoop r (1023 - n + 1) (inSession (sessionCommand s.unit.cmd) ses' v) :=
      hstep _ (show 1023 - n + 1 + n = 1024 by omega)
    refine ⟨fun f hn h => ?_, fun hn h => ?_, fun hn ⟨raw, hreq⟩ hother => ?_, fun hn ⟨coef, hreq⟩ hother => ?_,
      fun hn => ?_⟩
    · rw [hround hn, sessionLoop_serve hp (by rw [h]; exact nofun), h]
      rfl
    · rw [hround hn, sessionLoop_serve hp (by rw [h]; decide), h]
      rfl
    · rw [hround hn, sessionLoop_emitMB r _ (inSession (sessionCommand s.unit.cmd) ses' v) raw hp hreq,
        hforeign.emitMB hother]
      rfl
    · rw [hround hn, sessionLoop_emitCoef r _ (inSession (sessionCommand s.unit.cmd) ses' v) coef hp hreq,
        hforeign.emitCoef hother]
      rfl
    · obtain ⟨hctrl, hquiet, hsetup, hresult, hunit⟩ := inSession_frame honly (sessionCommand s.unit.cmd) ses'
      exact ⟨_, hstep 0 (show 0 + n = 1024 by omega), rfl, rfl, rfl, hctrl, hquiet, hsetup, hresult, hunit⟩

end Sys2Proof.Machine
end

section
/-! SUPPORT. The into-unit transfer moves its payload to the input FIFO, until the FIFO is full or the payload ends
(`42_dma_tag_walker.md` R192 to R206). -/

namespace Sys2Proof.Machine

/-! ### What the walker leaves, whatever ends its run -/

/-- From `s` to `t` the next `n` quadwords of the payload, those from `MemAddr` on, went to the input FIFO, and were added to
the status of the kick; nothing else has changed but what a push, a stage move or the end of the run writes (R192, R195). -/
structure MovedIn (n : Nat) (s t : State) : Prop where
  fifoIn : t.unit.fifoIn = s.unit.fifoIn ++ payload s.mem s.unit.dmaTo.memAddr n
  counted : InputCounted t
  result : t.result = .status (s.moved + n)
  ctrl : CtrlKept (fun i => 4 ≤ i) s t
  frame : t = { s with
    irqTrace := t.irqTrace, result := t.result
    unit := { s.unit with
      ctrl := t.unit.ctrl, fifoIn := t.unit.fifoIn, stall := t.unit.stall, dmaTo := t.unit.dmaTo
      pend := t.unit.pend } }

section
variable {n : Nat} {s t : State} (h : MovedIn n s t)
include h

theorem MovedIn.setup : SameSetup s t := by
  rw [h.frame]
  exact ⟨rfl, rfl, fun _ => rfl, rfl⟩

theorem MovedIn.unit : t.unit = { s.unit with
    ctrl := t.unit.ctrl, fifoIn := t.unit.fifoIn, stall := t.unit.stall, dmaTo := t.unit.dmaTo
    pend := t.unit.pend } := congrArg State.unit h.frame

theorem MovedIn.unit_of_quiet (hq : Quiet s t) : t.unit = { s.unit with
    ctrl := t.unit.ctrl, fifoIn := t.unit.fifoIn, stall := t.unit.stall, dmaTo := t.unit.dmaTo } := by
  obtain ⟨-, hpend⟩ := hq
  refine h.unit.trans ?_
  rw [hpend]

/-- The end of the run writes the record, a stall flag, the trace and the slots, which `MovedIn` does not look at. -/
theorem MovedIn.ended {u : State} (e : u = { t with
      irqTrace := u.irqTrace
      unit := { t.unit with stall := u.unit.stall, dmaTo := u.unit.dmaTo, pend := u.unit.pend } }) :
    MovedIn n s u := by
  obtain ⟨hfifo, hcounted, hresult, hctrl, hframe⟩ := h
  rw [e]
  exact ⟨hfifo, hcounted, hresult, hctrl, by rw [hframe]⟩

/-- `finish(TO)` (R199) after `n` quadwords that raised nothing: the record is marked, the interrupt raised once. -/
theorem MovedIn.finish (hq : Quiet s t) (hirq : t.unit.dmaTo.irqTriggered = false) :
    MovedIn n s (finishTo t) ∧ (finishTo t).unit.dmaTo = t.unit.dmaTo.finished ∧
      (finishTo t).unit.stall = t.unit.stall ∧ Raised .toUnit s (finishTo t) := by
  obtain ⟨hraised, -⟩ := finishTo_spec t hirq
  obtain ⟨hcfg, -⟩ := h.setup
  have heq := finishTo_eq t
  exact ⟨h.ended (by rw [heq]), by rw [heq], by rw [heq], hq.raised hcfg hraised⟩

end

/-! ### The pushes -/

/-- `n` pushes change the input FIFO, its counter, the stall flags, the record of the transfer and the status. -/
theorem pushed_eq (n : Nat) (s : State) : pushed n s = { s with
    result := (pushed n s).result
    unit := { s.unit with
      fifoIn := (pushed n s).unit.fifoIn, ctrl := (pushed n s).unit.ctrl, stall := (pushed n s).unit.stall
      dmaTo := (pushed n s).unit.dmaTo } } := by
  induction n generalizing s with
  | zero => rfl
  | succ n ih => exact (ih (pushOne s)).trans rfl

theorem pushed_quiet (n : Nat) (s : State) : Quiet s (pushed n s) := by
  rw [pushed_eq]
  exact ⟨rfl, rfl⟩

/-- `n` pushes where there is room for them, in a call that counts them. -/
theorem pushed_movedIn {n : Nat} {s : State} (hc : InputCounted s) (hres : s.result = .status s.moved)
    (hfit : s.unit.fifoIn.length + n ≤ s.cfg.fifoInCap.toNat) : MovedIn n s (pushed n s) := by
  have hcap := s.cfg.fifoInCap.isLt
  have hifc : s.ifc.toNat = s.unit.fifoIn.length := hc
  refine ⟨pushed_fifoIn n s, ?counted, pushed_result n s hres, pushed_ctrl n s, ?frame⟩
  case counted =>
    unfold InputCounted
    rw [pushed_ifc n s (by omega), pushed_fifoIn, List.length_append, List.length_map, List.length_range, hifc]
  case frame =>
    rw [pushed_eq]

/-- The walker moves as much as there is to move and room for, before anything else (R192). -/
theorem runMicro_payload {n : Nat} {s : State} (hp : Pushing s.unit.dmaTo) (hc : InputCounted s)
    (hn : n ≤ s.unit.dmaTo.remaining.toNat) (hfit : s.unit.fifoIn.length + n ≤ s.cfg.fifoInCap.toNat) :
    runMicro runBound s = runMicro (runBound - n) (pushed n s) := by
  have hcap := s.cfg.fifoInCap.isLt
  have hifc : s.ifc.toNat = s.unit.fifoIn.length := hc
  rw [← runMicro_pushed n (runBound - n) s hp hn (by omega),
    Nat.add_sub_cancel' (show n ≤ runBound by simp only [runBound]; omega)]

/-- The record when the whole payload has been moved. -/
theorem pushed_dmaTo_all {n : Nat} {s : State} (hn : n = s.unit.dmaTo.remaining.toNat) :
    (pushed n s).unit.dmaTo = { s.unit.dmaTo with
      memAddr := s.unit.dmaTo.memAddr + BitVec.ofNat 32 (16 * n), remaining := 0
      stalled := if n = 0 then s.unit.dmaTo.stalled else false } := by
  have hzero : s.unit.dmaTo.remaining - BitVec.ofNat 28 n = 0 := by
    rw [hn, BitVec.ofNat_toNat, BitVec.setWidth_eq, BitVec.sub_self]
    rfl
  rw [pushed_dmaTo, hzero]

/-! ### The stage moves after the payload -/

/-- A walker of no transfer makes no micro-step (R193). -/
theorem runMicro_of_idle (f : Nat) {s : State} (h : s.unit.dmaTo.inProgress = false) : runMicro f s = s := by
  have hnone : microStep s = .none := by simp [microStep, h]
  cases f with
  | zero => rfl
  | succ f =>
    unfold runMicro
    rw [hnone]

/-- A micro-step performed, then the others. -/
theorem runMicro_step (f : Nat) {s t : State} (h : microStep s = .step t) : runMicro (f + 1) s = runMicro f t := by
  conv_lhs => unfold runMicro
  rw [h]

/-- `finish` is the last micro-step. -/
theorem runMicro_finish (f : Nat) {s : State} (h : microStep s = .step (finishTo s)) :
    runMicro (f + 1) s = finishTo s := by
  rw [runMicro_step f h, runMicro_of_idle f (by rw [finishTo_eq]; rfl)]

/-- The state after the link of the latched tag was taken (R204). -/
def linkTaken (s : State) : State :=
  s.setDmaTo { s.unit.dmaTo with nextMem := align16 (s.unit.dmaTo.tagWord.extractLsb' 32 32), tagFollow := .none }

/-- In stage QWC with nothing left to move, the walker takes the link and ends the descriptor (R203, R204, R206). -/
theorem runMicro_linkTaken (f : Nat) {s : State} (hi : s.unit.dmaTo.inProgress = true)
    (hm : s.unit.dmaTo.mode = .chain) (hq : s.unit.dmaTo.tagFollow = .qwc) (hr : s.unit.dmaTo.remaining = 0) :
    runMicro (f + 2) s = runMicro f (linkTaken s) := by
  have hqwc : microStep s = .step (s.setDmaTo { s.unit.dmaTo with tagFollow := .addr }) := by
    simp [microStep, hi, hm, hq, hr]
  have haddr : microStep (s.setDmaTo { s.unit.dmaTo with tagFollow := .addr }) = .step (linkTaken s) := by
    simp [microStep, linkTaken, hi, hm, State.setDmaTo]
  rw [runMicro_step (f + 1) hqwc, runMicro_step f haddr]

/-- Stage NONE of a chain ends the descriptor (R206). -/
theorem microStep_linkTaken {s : State} (hi : s.unit.dmaTo.inProgress = true) (hm : s.unit.dmaTo.mode = .chain) :
    microStep (linkTaken s) = .step (endDescriptor (linkTaken s)) := by
  simp [microStep, linkTaken, hi, hm]

/-! ### The three ends of a run that moves payload -/

section
variable {n : Nat} {s : State} (hp : Pushing s.unit.dmaTo) (hc : InputCounted s) (hres : s.result = .status s.moved)
include hp hc hres

/-- Without room for all that remains, the transfer fills the input FIFO and stalls (R196, R202). -/
theorem runMicro_stalls (hcap : s.unit.fifoIn.length ≤ s.cfg.fifoInCap.toNat) (hn : n = inRoom s)
    (hr : n < s.unit.dmaTo.remaining.toNat) :
    ∃ t, runMicro runBound s = t ∧ MovedIn n s t ∧
      t.unit.dmaTo = { s.unit.dmaTo with
        stalled := true, remaining := s.unit.dmaTo.remaining - BitVec.ofNat 28 n
        memAddr := s.unit.dmaTo.memAddr + BitVec.ofNat 32 (16 * n) } ∧
      t.unit.stall = putStall s.cfg.stallFlagIn true s.unit.stall ∧ Quiet s t := by
  have hfull : s.unit.fifoIn.length + n = s.cfg.fifoInCap.toNat := by unfold inRoom at hn; omega
  have hbound := s.cfg.fifoInCap.isLt
  have hifc : s.ifc.toNat = s.unit.fifoIn.length := hc
  have hrecord := pushed_dmaTo n s
  have hpushing : Pushing (pushed n s).unit.dmaTo := by rw [hrecord]; exact hp
  have hremaining : (pushed n s).unit.dmaTo.remaining ≠ 0 := by
    rw [hrecord]
    intro h
    have hval := congrArg BitVec.toNat (sub_eq_zero.mp h)
    have hlt := s.unit.dmaTo.remaining.isLt
    rw [BitVec.toNat_ofNat] at hval
    omega
  have hroom : ¬ (pushed n s).ifc < (pushed n s).cfg.fifoInCap := by
    have hcount := pushed_ifc n s (by omega)
    rw [pushed_cfg, BitVec.lt_def]
    omega
  have hend : runMicro runBound s = pushStall (pushed n s) := by
    rw [runMicro_payload hp hc hr.le hfull.le, show runBound - n = (31 - n) + 1 by simp only [runBound]; omega]
    unfold runMicro
    rw [microStep_pushing hpushing hremaining, pushPayload_eq, if_neg hroom]
  refine ⟨_, hend, (pushed_movedIn hc hres hfull.le).ended rfl, ?_, ?_, pushed_quiet n s⟩
  · show { (pushed n s).unit.dmaTo with stalled := true } = _
    rw [hrecord]
  · show putStall (pushed n s).cfg.stallFlagIn true (pushed n s).unit.stall = _
    rw [pushed_cfg, pushed_stall]
    split
    · rfl
    · exact putStall_putStall _ _ _ _

section
variable (hn : n = s.unit.dmaTo.remaining.toNat) (hfit : s.unit.fifoIn.length + n ≤ s.cfg.fifoInCap.toNat)
include hn hfit

/-- With room for all that remains, all of it is moved before anything else (R192). -/
theorem runMicro_drained :
    ∃ p f, runMicro runBound s = runMicro (f + 3) p ∧ MovedIn n s p ∧
      p.unit.dmaTo = { s.unit.dmaTo with
        memAddr := s.unit.dmaTo.memAddr + BitVec.ofNat 32 (16 * n), remaining := 0
        stalled := if n = 0 then s.unit.dmaTo.stalled else false } ∧
      p.unit.stall = (if n = 0 then s.unit.stall else putStall s.cfg.stallFlagIn false s.unit.stall) ∧ Quiet s p := by
  have hbound := s.cfg.fifoInCap.isLt
  refine ⟨pushed n s, 29 - n, ?_, pushed_movedIn hc hres hfit, pushed_dmaTo_all hn, pushed_stall n s, pushed_quiet n s⟩
  rw [runMicro_payload hp hc hn.le hfit, show runBound - n = 29 - n + 3 by simp only [runBound]; omega]

/-- Of a chain in stage QWC with room for all that remains, all of it is moved and the link taken (R203, R204). -/
theorem runMicro_toDescriptorEnd (hm : s.unit.dmaTo.mode = .chain) :
    ∃ p f, runMicro runBound s = runMicro f (endDescriptor p) ∧ MovedIn n s p ∧
      p.unit.dmaTo = { s.unit.dmaTo with
        memAddr := s.unit.dmaTo.memAddr + BitVec.ofNat 32 (16 * n), remaining := 0
        stalled := if n = 0 then s.unit.dmaTo.stalled else false
        nextMem := align16 (s.unit.dmaTo.tagWord.extractLsb' 32 32), tagFollow := .none } ∧
      p.unit.stall = (if n = 0 then s.unit.stall else putStall s.cfg.stallFlagIn false s.unit.stall) ∧ Quiet s p := by
  obtain ⟨p, f, hrun, h, hrecord, hstall, hquiet⟩ := runMicro_drained hp hc hres hn hfit
  obtain ⟨hi, hstage⟩ := hp
  have hq : s.unit.dmaTo.tagFollow = .qwc := by simpa [hm] using hstage
  have hpi : p.unit.dmaTo.inProgress = true := by rw [hrecord]; exact hi
  have hpm : p.unit.dmaTo.mode = .chain := by rw [hrecord]; exact hm
  have hpq : p.unit.dmaTo.tagFollow = .qwc := by rw [hrecord]; exact hq
  have hpr : p.unit.dmaTo.remaining = 0 := by rw [hrecord]
  refine ⟨linkTaken p, f, ?_, h.ended rfl, ?_, hstall, hquiet⟩
  · rw [hrun, show f + 3 = f + 1 + 2 by omega, runMicro_linkTaken _ hpi hpm hpq hpr,
      runMicro_step f (microStep_linkTaken hpi hpm)]
  · rw [linkTaken, setDmaTo_dmaTo, hrecord]

/-- With room for all that remains, a NORMAL transfer finishes, and so does a chain in stage QWC of its last tag, which takes
the link of that tag before (R197, R199, R203, R204, R206). -/
theorem runMicro_finishes (hirq : s.unit.dmaTo.irqTriggered = false)
    (hlast : s.unit.dmaTo.mode = .normal ∨ s.unit.dmaTo.tagWord.extractLsb' 28 3 = 3#3) :
    ∃ t, runMicro runBound s = t ∧ MovedIn n s t ∧
      t.unit.dmaTo = { s.unit.dmaTo with
        inProgress := false, dmaFinished := true, irqTriggered := true, stalled := false, remaining := 0
        memAddr := s.unit.dmaTo.memAddr + BitVec.ofNat 32 (16 * n)
        tagFollow := if s.unit.dmaTo.mode = .normal then s.unit.dmaTo.tagFollow else .none
        nextMem := if s.unit.dmaTo.mode = .normal then s.unit.dmaTo.nextMem
          else align16 (s.unit.dmaTo.tagWord.extractLsb' 32 32) } ∧
      t.unit.stall = (if n = 0 then s.unit.stall else putStall s.cfg.stallFlagIn false s.unit.stall) ∧
      Raised .toUnit s t := by
  cases hm : s.unit.dmaTo.mode with
  | normal =>
    obtain ⟨p, f, hrun, h, hrecord, hstall, hquiet⟩ := runMicro_drained hp hc hres hn hfit
    obtain ⟨hi, -⟩ := hp
    have hstep : microStep p = .step (finishTo p) := by simp [microStep, hrecord, hi, hm]
    obtain ⟨hfin, hdma, hkept, hraised⟩ := h.finish hquiet (by rw [hrecord]; exact hirq)
    refine ⟨finishTo p, hrun.trans (runMicro_finish _ hstep), hfin, ?_, hkept.trans hstall, hraised⟩
    rw [hdma, hrecord]
    simp only [Transfer.finished, hm, if_true]
  | chain =>
    obtain ⟨p, f, hrun, h, hrecord, hstall, hquiet⟩ := runMicro_toDescriptorEnd hp hc hres hn hfit hm
    have hcode : p.unit.dmaTo.tagWord.extractLsb' 28 3 = 3#3 := by
      rw [hrecord]
      simpa [hm] using hlast
    obtain ⟨hfin, hdma, hkept, hraised⟩ := h.finish hquiet (by rw [hrecord]; exact hirq)
    refine ⟨finishTo p, ?_, hfin, ?_, hkept.trans hstall, hraised⟩
    · rw [hrun, endDescriptor, if_pos hcode, runMicro_of_idle f (by rw [hdma]; rfl)]
    · rw [hdma, hrecord]
      simp only [Transfer.finished, hm, reduceCtorEq, if_false]

/-- With room for all that remains, a chain in stage QWC of another tag takes its link and goes on to the next fetch (R203,
R204, R206); where it had nothing to move, it must not be marked stalled. -/
theorem runMicro_goesOn (hm : s.unit.dmaTo.mode = .chain) (hcode : s.unit.dmaTo.tagWord.extractLsb' 28 3 ≠ 3#3)
    (hst : n = 0 → s.unit.dmaTo.stalled = false) :
    ∃ t, runMicro runBound s = t ∧ fetchEnabled t = true ∧ MovedIn n s t ∧
      t.unit.dmaTo = { s.unit.dmaTo with
        tagFollow := .follow, stalled := false, remaining := 0
        memAddr := s.unit.dmaTo.memAddr + BitVec.ofNat 32 (16 * n)
        nextMem := align16 (s.unit.dmaTo.tagWord.extractLsb' 32 32) } ∧
      t.unit.stall = (if n = 0 then s.unit.stall else putStall s.cfg.stallFlagIn false s.unit.stall) ∧ Quiet s t := by
  obtain ⟨p, f, hrun, h, hrecord, hstall, hquiet⟩ := runMicro_toDescriptorEnd hp hc hres hn hfit hm
  obtain ⟨hi, -⟩ := hp
  have hclear : (if n = 0 then s.unit.dmaTo.stalled else false) = false := ite_eq_right_iff.mpr hst
  rw [hclear] at hrecord
  have hpcode : p.unit.dmaTo.tagWord.extractLsb' 28 3 ≠ 3#3 := by rw [hrecord]; exact hcode
  have hfetch : fetchEnabled (p.setDmaTo { p.unit.dmaTo with tagFollow := .follow }) = true := by
    rw [fetchEnabled_iff, setDmaTo_dmaTo, hrecord]
    exact ⟨hi, hm, rfl, rfl⟩
  refine ⟨_, ?_, hfetch, h.ended rfl, ?_, hstall, hquiet⟩
  · rw [hrun, endDescriptor, if_neg hpcode, runMicro_of_fetchEnabled f hfetch]
  · rw [setDmaTo_dmaTo, hrecord]

end
end

end Sys2Proof.Machine
end

section
/-! SUPPORT. The tags (`42_dma_tag_walker.md` R200 to R206). -/

namespace Sys2Proof.Machine

/-! ### A good tag, fetched -/

/-- The state after a tag was latched in a call that counts what it moves (R200). -/
def latched (q : QWord) (s : State) : State := latchTag q (s.setResult (.status s.moved))

/-- The link of a tag is its NEXT field (`30_encoding.md` R112). -/
theorem next_tagWordOf (c : BitVec 3) (f : TagFields) : (tagWordOf c f).extractLsb' 32 32 = f.next :=
  congrArg TagFields.next (tagFieldsOf_tagWordOf c f)

/-- The quadword count of a tag is its QWC field (`30_encoding.md` R112). -/
theorem qwc_tagWordOf (c : BitVec 3) (f : TagFields) : (tagWordOf c f).extractLsb' 0 16 = f.qwc :=
  congrArg TagFields.qwc (tagFieldsOf_tagWordOf c f)

/-- The record after a tag was latched (R200). -/
theorem latched_dmaTo (c : BitVec 3) (f : TagFields) (s : State) :
    (latched (tagWordOf c f) s).unit.dmaTo = { s.unit.dmaTo with
      tagWord := tagWordOf c f, memAddr := s.unit.dmaTo.nextMem + 16, remaining := f.qwc.setWidth 28
      tagFollow := .qwc } := by
  rw [← qwc_tagWordOf c f]
  rfl

theorem latched_remaining (c : BitVec 3) (f : TagFields) (s : State) :
    f.qwc.toNat = (latched (tagWordOf c f) s).unit.dmaTo.remaining.toNat := by
  rw [latched_dmaTo, BitVec.toNat_setWidth_of_le (by decide)]

/-- After a tag was latched the walker moves its payload (R201). -/
theorem latched_pushing {s : State} (hf : fetchEnabled s = true) (q : QWord) : Pushing (latched q s).unit.dmaTo := by
  obtain ⟨hi, hm, -⟩ := (fetchEnabled_iff s).mp hf
  exact ⟨hi, .inr ⟨hm, rfl⟩⟩

/-- A good tag, where one is fetched, is latched and walked to the end of the call (R192). -/
theorem walkTag_of_fetchEnabled (q : QWord) {s : State} (hf : fetchEnabled s = true) :
    walkTag q s = runMicro runBound (latched q s) := if_pos hf

/-- FOLLOW, QWC and ADDR are walked alike: their code is not that of the last tag (R206). -/
theorem continuing_tag {f : TagFields} {i : Instr} (h : i = .tagFollow f ∨ i = .tagQwc f ∨ i = .tagAddr f) :
    ∃ c, c ≠ 3#3 ∧ i.bits = tagWordOf c f ∧ ∀ s, exec i s = .next (walkTag i.bits s) := by
  rcases h with rfl | rfl | rfl
  · exact ⟨0#3, by decide, rfl, fun _ => rfl⟩
  · exact ⟨1#3, by decide, rfl, fun _ => rfl⟩
  · exact ⟨2#3, by decide, rfl, fun _ => rfl⟩

/-- A tag of any legal code is walked (R200). -/
theorem legal_tag {f : TagFields} {i : Instr}
    (h : i = .tagFollow f ∨ i = .tagQwc f ∨ i = .tagAddr f ∨ i = .tagNone f) :
    ∃ c, i.bits = tagWordOf c f ∧ ∀ s, exec i s = .next (walkTag i.bits s) := by
  rcases h with h | h | h | rfl
  · exact (continuing_tag (.inl h)).imp fun _ ⟨_, e⟩ => e
  · exact (continuing_tag (.inr (.inl h))).imp fun _ ⟨_, e⟩ => e
  · exact (continuing_tag (.inr (.inr h))).imp fun _ ⟨_, e⟩ => e
  · exact ⟨3#3, rfl, fun _ => rfl⟩

/-- No quadwords moved: the count is zero. -/
theorem ite_toNat_eq_zero {w : Nat} (v : BitVec w) {α : Type} (x y : α) :
    (if v.toNat = 0 then x else y) = if v = 0 then x else y :=
  if_congr (by rw [← BitVec.toNat_inj]; rfl) rfl rfl

/-- Fewer quadwords moved than there were to move leave the difference. -/
theorem sub_ofNat_eq {w n : Nat} {v : BitVec w} (h : n ≤ v.toNat) :
    v - BitVec.ofNat w n = BitVec.ofNat w (v.toNat - n) := by
  rw [← BitVec.ofNat_sub_ofNat_of_le _ _ (h.trans_lt v.isLt) h, BitVec.ofNat_toNat, BitVec.setWidth_eq]

/-! ### The statements -/

/-- Settles O24: the latched tag is walked by `runMicro_goesOn`. -/
theorem continuingTagMovesPayload : Obligations.ContinuingTagMovesPayload := by
  unfold Obligations.ContinuingTagMovesPayload
  intro f i s hi hf hc hfit
  obtain ⟨c, hcode, hbits, hexec⟩ := continuing_tag hi
  obtain ⟨-, hm, -, hst⟩ := (fetchEnabled_iff s).mp hf
  rw [hexec, hbits, walkTag_of_fetchEnabled _ hf]
  obtain ⟨t, hrun, -, h, hdma, hstall, hquiet⟩ := runMicro_goesOn (s := latched (tagWordOf c f) s)
    (latched_pushing hf _) hc rfl (latched_remaining c f s) hfit hm (by rwa [latched_dmaTo, code_tagWordOf]) fun _ => hst
  refine ⟨t, congrArg _ hrun, h.fifoIn, h.counted, ?_, ?_, h.result, h.ctrl, hquiet, h.setup, h.unit_of_quiet hquiet⟩
  · rw [hdma, latched_dmaTo, next_tagWordOf]
  · rw [hstall, ite_toNat_eq_zero]
    rfl

/-- Settles O25: the latched tag is walked by `runMicro_finishes`. -/
theorem lastTagFinishesTransfer : Obligations.LastTagFinishesTransfer := by
  unfold Obligations.LastTagFinishesTransfer
  intro f s hf hirq hc hfit
  obtain ⟨-, hm, -⟩ := (fetchEnabled_iff s).mp hf
  obtain ⟨t, hrun, h, hdma, hstall, hraised⟩ := runMicro_finishes (s := latched (tagWordOf 3#3 f) s)
    (latched_pushing hf _) hc rfl (latched_remaining 3#3 f s) hfit hirq (.inr (by rw [latched_dmaTo, code_tagWordOf]))
  refine ⟨t, ?_, h.fifoIn, h.counted, ?_, ?_, h.result, h.ctrl, hraised, h.setup, h.unit⟩
  · rw [← hrun, ← walkTag_of_fetchEnabled _ hf]
    rfl
  · rw [hdma, latched_dmaTo, next_tagWordOf, hm]
    rfl
  · rw [hstall, ite_toNat_eq_zero]
    rfl

/-- Settles O26: the latched tag is walked by `runMicro_stalls`. -/
theorem tagPayloadStalls : Obligations.TagPayloadStalls := by
  unfold Obligations.TagPayloadStalls
  intro f i s hi hf hc hcap hroom
  obtain ⟨c, hbits, hexec⟩ := legal_tag hi
  rw [hexec, hbits, walkTag_of_fetchEnabled _ hf]
  obtain ⟨t, hrun, h, hdma, hstall, hquiet⟩ := runMicro_stalls (n := inRoom s) (s := latched (tagWordOf c f) s)
    (latched_pushing hf _) hc rfl hcap rfl (hroom.trans_eq (latched_remaining c f s))
  refine ⟨t, congrArg _ hrun, h.fifoIn, h.counted, ?_, hstall, h.result, h.ctrl, hquiet, h.setup, h.unit_of_quiet hquiet⟩
  have hleft := sub_ofNat_eq (hroom.trans_eq (latched_remaining c f s)).le
  rw [← latched_remaining] at hleft
  rw [hdma, hleft, latched_dmaTo]

/-- Settles O27: nothing is latched. -/
theorem malformedTagHaltsTransfer : Obligations.MalformedTagHaltsTransfer := by
  unfold Obligations.MalformedTagHaltsTransfer
  intro code f s hf
  exact ⟨_, if_pos hf, rfl, ctrlECD_putECD true _, protocolError_ctrl _, rfl, ⟨rfl, rfl⟩,
    ⟨rfl, rfl, fun _ => rfl, rfl⟩, rfl⟩

end Sys2Proof.Machine
end

section
/-! SUPPORT. The kicks of the into-unit transfer and the abort (`42_dma_tag_walker.md` R191 to R213). -/

namespace Sys2Proof.Machine

/-! ### The kick -/

/-- A kick of a transfer in progress runs the walker, whatever its arguments, to a fetch or to its end (R192). -/
theorem kickTo_inProgress (mode : DmaMode) (a : Addr) (n : Word) {s t : State} (hi : s.unit.dmaTo.inProgress = true)
    (hrun : runMicro runBound (s.setResult (.status 0)) = t) :
    kickTo mode a n s = if fetchEnabled t then exec (decodeTag (fetchTag t)) t else .next t := by
  simp only [kickTo, openTo, hi, if_true, hrun]

/-- Where the walker does not come to a fetch, the kick is the run. -/
theorem kickTo_inProgress_next (mode : DmaMode) (a : Addr) (n : Word) {s t : State}
    (hi : s.unit.dmaTo.inProgress = true) (hrun : runMicro runBound (s.setResult (.status 0)) = t)
    (hend : t.unit.dmaTo.inProgress = false ∨ t.unit.dmaTo.stalled = true) : kickTo mode a n s = .next t := by
  have hf : ¬ fetchEnabled t = true := fun h => by
    obtain ⟨hti, -, -, hst⟩ := (fetchEnabled_iff t).mp h
    rcases hend with h | h
    · exact absurd (hti.symm.trans h) (by decide)
    · exact absurd (hst.symm.trans h) (by decide)
  rw [kickTo_inProgress mode a n hi hrun, if_neg hf]

/-- The status of a kick counts the quadwords it moved (`30_encoding.md` R121). -/
theorem MovedIn.status {n : Nat} {s t : State} (h : MovedIn n (s.setResult (.status 0)) t) : t.result = .status n :=
  h.result.trans (congrArg CallResult.status (Nat.zero_add n))

/-- A kick without room for all that remains fills the input FIFO and stalls (R196, R202). -/
theorem kickTo_stalls (mode : DmaMode) (a : Addr) (b : Word) {n : Nat} {s : State} (hp : Pushing s.unit.dmaTo)
    (hc : InputCounted s) (hcap : s.unit.fifoIn.length ≤ s.cfg.fifoInCap.toNat) (hn : n = inRoom s)
    (hr : n < s.unit.dmaTo.remaining.toNat) :
    ∃ t, kickTo mode a b s = .next t ∧ MovedIn n (s.setResult (.status 0)) t ∧
      t.unit.dmaTo = { s.unit.dmaTo with
        stalled := true, remaining := s.unit.dmaTo.remaining - BitVec.ofNat 28 n
        memAddr := s.unit.dmaTo.memAddr + BitVec.ofNat 32 (16 * n) } ∧
      t.unit.stall = putStall s.cfg.stallFlagIn true s.unit.stall ∧ Quiet s t := by
  obtain ⟨t, hrun, h, hdma, hend⟩ := runMicro_stalls (s := s.setResult (.status 0)) hp hc rfl hcap hn hr
  exact ⟨t, kickTo_inProgress_next mode a b hp.1 hrun (.inr (by rw [hdma])), h, hdma, hend⟩

/-- A kick with room for all that remains of a NORMAL transfer, or of a chain after its last tag, finishes it (R199). -/
theorem kickTo_finishes (mode : DmaMode) (a : Addr) (b : Word) {n : Nat} {s : State} (hp : Pushing s.unit.dmaTo)
    (hc : InputCounted s) (hn : n = s.unit.dmaTo.remaining.toNat)
    (hfit : s.unit.fifoIn.length + n ≤ s.cfg.fifoInCap.toNat) (hirq : s.unit.dmaTo.irqTriggered = false)
    (hlast : s.unit.dmaTo.mode = .normal ∨ s.unit.dmaTo.tagWord.extractLsb' 28 3 = 3#3) :
    ∃ t, kickTo mode a b s = .next t ∧ MovedIn n (s.setResult (.status 0)) t ∧
      t.unit.dmaTo = { s.unit.dmaTo with
        inProgress := false, dmaFinished := true, irqTriggered := true, stalled := false, remaining := 0
        memAddr := s.unit.dmaTo.memAddr + BitVec.ofNat 32 (16 * n)
        tagFollow := if s.unit.dmaTo.mode = .normal then s.unit.dmaTo.tagFollow else .none
        nextMem := if s.unit.dmaTo.mode = .normal then s.unit.dmaTo.nextMem
          else align16 (s.unit.dmaTo.tagWord.extractLsb' 32 32) } ∧
      t.unit.stall = (if n = 0 then s.unit.stall else putStall s.cfg.stallFlagIn false s.unit.stall) ∧
      Raised .toUnit s t := by
  obtain ⟨t, hrun, h, hdma, hend⟩ := runMicro_finishes (s := s.setResult (.status 0)) hp hc rfl hn hfit hirq hlast
  exact ⟨t, kickTo_inProgress_next mode a b hp.1 hrun (.inl (by rw [hdma])), h, hdma, hend⟩

/-- A chain in stage QWC, with room for the payload that is left, comes to the next fetch, and the kick is the instruction
fetched there (R192, R203, R204, R206). -/
theorem kickTo_goesOn (mode : DmaMode) (a : Addr) (b : Word) {n : Nat} {s : State} (hp : Pushing s.unit.dmaTo)
    (hc : InputCounted s) (hn : n = s.unit.dmaTo.remaining.toNat) (hpos : 1 ≤ n)
    (hfit : s.unit.fifoIn.length + n ≤ s.cfg.fifoInCap.toNat) (hm : s.unit.dmaTo.mode = .chain)
    (hcode : s.unit.dmaTo.tagWord.extractLsb' 28 3 ≠ 3#3) :
    ∃ t, kickTo mode a b s = exec (decodeTag (fetchTag t)) t ∧ MovedIn n (s.setResult (.status 0)) t ∧
      t.unit.dmaTo = { s.unit.dmaTo with
        tagFollow := .follow, stalled := false, remaining := 0
        memAddr := s.unit.dmaTo.memAddr + BitVec.ofNat 32 (16 * n)
        nextMem := align16 (s.unit.dmaTo.tagWord.extractLsb' 32 32) } ∧
      t.unit.stall = putStall s.cfg.stallFlagIn false s.unit.stall ∧ Quiet s t := by
  obtain ⟨t, hrun, hfetch, h, hdma, hstall, hquiet⟩ := runMicro_goesOn (s := s.setResult (.status 0)) hp hc rfl hn
    hfit hm hcode (fun h0 => absurd h0 (by omega))
  rw [if_neg (by omega)] at hstall
  exact ⟨t, by rw [kickTo_inProgress mode a b hp.1 hrun, if_pos hfetch], h, hdma, hstall, hquiet⟩

/-- The record a NORMAL kick starts a transfer of whole quadwords with (R191). -/
def normalStart (a : Addr) (n : Word) : Transfer :=
  { Transfer.reset with inProgress := true, memAddr := align16 a, remaining := BitVec.ofNat 28 (n.toNat / 16) }

/-- A NORMAL kick that starts a transfer of whole quadwords does what a kick of that transfer does (R191). -/
theorem kickTo_start (a : Addr) (n : Word) {s : State} (hi : s.unit.dmaTo.inProgress = false) (hn : n.toNat % 16 = 0) :
    kickTo .normal a n s = kickTo .normal a n (s.setDmaTo (normalStart a n)) := by
  have hopen : openTo .normal a n s = some (s.setDmaTo (normalStart a n)) := by
    rw [openTo, if_neg (by rw [hi]; decide), startTo, if_neg (not_not.mpr ((lowBits_eq_zero_iff n).mpr hn)), highBits_eq]
    rfl
  have hagain : openTo .normal a n (s.setDmaTo (normalStart a n)) = some (s.setDmaTo (normalStart a n)) := rfl
  unfold kickTo
  rw [hopen, hagain]

/-- Every tag has a next state. -/
theorem exec_tag_next {i : Instr} (hp : i.port = .tag) (s : State) : ∃ t, exec i s = .next t := by
  rcases exec_tag_cases i s hp with ⟨-, e⟩ | ⟨-, -, e⟩ | ⟨-, e⟩ <;> exact ⟨_, e⟩

/-- A kick that has a transfer to work on has a next state. -/
theorem kickTo_next_of_open {mode : DmaMode} {a : Addr} {n : Word} {s u : State} (ho : openTo mode a n s = some u) :
    ∃ t, kickTo mode a n s = .next t := by
  simp only [kickTo, ho]
  split
  · exact exec_tag_next (decodeTag_port _) _
  · exact ⟨_, rfl⟩

/-- A kick has no transfer to work on exactly where it would start one of a partial quadword (R191). -/
theorem openTo_eq_none_iff (mode : DmaMode) (a : Addr) (n : Word) (s : State) :
    openTo mode a n s = none ↔ s.unit.dmaTo.inProgress = false ∧ mode = .normal ∧ n.toNat % 16 ≠ 0 := by
  have hlow := lowBits_eq_zero_iff n
  cases hi : s.unit.dmaTo.inProgress <;> cases mode <;> simp [openTo, startTo, hi, ← hlow]

/-- The same of the out-of-unit direction (R210). -/
theorem openFrom_eq_none_iff (a : Addr) (n : Word) (s : State) :
    openFrom a n s = none ↔ s.unit.dmaFrom.inProgress = false ∧ n.toNat % 16 ≠ 0 := by
  have hlow := lowBits_eq_zero_iff n
  cases hi : s.unit.dmaFrom.inProgress <;> simp [openFrom, hi, ← hlow]

/-! ### The statements -/

/-- Settles O28: the walker has no micro-step to make and no tag to fetch. -/
theorem haltedTransferIgnoresKicks : Obligations.HaltedTransferIgnoresKicks := by
  unfold Obligations.HaltedTransferIgnoresKicks
  intro mode a n s hi hm hf hst
  have hnone : microStep (s.setResult (.status 0)) = .none := by simp [microStep, hi, hm, hf, hst]
  have hrun : runMicro runBound (s.setResult (.status 0)) = s.setResult (.status 0) := by
    unfold runBound runMicro
    rw [hnone]
  exact kickTo_inProgress_next mode a n hi hrun (.inr hst)

/-- Settles O31: only a kick without a transfer to work on is refused. -/
theorem partialQuadwordCountIsRefused : Obligations.PartialQuadwordCountIsRefused := by
  unfold Obligations.PartialQuadwordCountIsRefused
  intro mode a n s
  rw [← openTo_eq_none_iff mode a n s, ← openFrom_eq_none_iff a n s]
  constructor
  · cases ho : openTo mode a n s with
    | none => simp [kickTo, ho]
    | some u =>
      obtain ⟨t, ht⟩ := kickTo_next_of_open ho
      simp [ht]
  · cases ho : openFrom a n s with
    | none => simp [kickFrom, ho]
    | some u => simp [kickFrom, ho]

/-- Settles O33: the abort writes one record. -/
theorem abortResetsOneTransfer : Obligations.AbortResetsOneTransfer := by
  unfold Obligations.AbortResetsOneTransfer
  intro dir rest s hc
  rw [step_of_calls hc]
  cases dir <;> rfl

/-- Settles O29: the kick of the transfer it starts, by `kickTo_finishes` and `kickTo_stalls`. -/
theorem normalKickTransfersOrStalls : Obligations.NormalKickTransfersOrStalls := by
  unfold Obligations.NormalKickTransfersOrStalls
  intro a n s hi hn hc
  have hremaining : n.toNat / 16 = (normalStart a n).remaining.toNat := by
    have := n.isLt
    rw [normalStart, BitVec.toNat_ofNat]
    omega
  have hpushing : Pushing (normalStart a n) := ⟨rfl, .inl rfl⟩
  rw [kickTo_start a n hi hn]
  refine ⟨fun hfit => ?finishes, fun hcap hroom => ?stalls⟩
  case finishes =>
    obtain ⟨t, hkick, h, hdma, hstall, hraised⟩ := kickTo_finishes .normal a n (s := s.setDmaTo (normalStart a n))
      hpushing hc hremaining hfit rfl (.inl rfl)
    have hbytes : BitVec.ofNat 32 (16 * (n.toNat / 16)) = n := by
      rw [show 16 * (n.toNat / 16) = n.toNat by omega, BitVec.ofNat_toNat, BitVec.setWidth_eq]
    have hnone : n.toNat / 16 = 0 ↔ n = 0 := by
      rw [← BitVec.toNat_inj]
      show n.toNat / 16 = 0 ↔ n.toNat = 0
      omega
    refine ⟨t, hkick, h.fifoIn, h.counted, ?_, ?_, h.status, h.ctrl, hraised, h.setup, h.unit⟩
    · rw [hdma, hbytes]
      rfl
    · rw [hstall]
      exact if_congr hnone rfl rfl
  case stalls =>
    obtain ⟨t, hkick, h, hdma, hstall, hquiet⟩ := kickTo_stalls .normal a n (n := inRoom s)
      (s := s.setDmaTo (normalStart a n)) hpushing hc hcap rfl (hroom.trans_eq hremaining)
    refine ⟨t, hkick, h.fifoIn, h.counted, ?_, hstall, h.status, h.ctrl, hquiet, h.setup, h.unit_of_quiet hquiet⟩
    have hleft := sub_ofNat_eq (hroom.trans_eq hremaining).le
    rw [← hremaining] at hleft
    rw [hdma, setDmaTo_dmaTo, hleft]
    rfl

/-- Settles O30: the three ends of the run, by `kickTo_stalls`, `kickTo_finishes` and `kickTo_goesOn`. -/
theorem transferResumes : Obligations.TransferResumes := by
  unfold Obligations.TransferResumes
  rintro mode a n r d s rfl hi hr hirq hc hcap
  have hfits : r ≤ inRoom s → s.unit.fifoIn.length + r ≤ s.cfg.fifoInCap.toNat := fun h => by
    unfold inRoom at h
    omega
  refine ⟨fun hstage hroom => ?stalls, fun f hlast hroom => ?finishes, fun f i hm hf hd htag hpos hroom => ?goesOn⟩
  case stalls =>
    have hpushing : Pushing s.unit.dmaTo := by
      cases hm : s.unit.dmaTo.mode with
      | normal => exact ⟨hi, .inl hm⟩
      | chain => exact ⟨hi, .inr ⟨hm, by simpa [hm] using hstage⟩⟩
    obtain ⟨t, hkick, h, hdma, hstall, hquiet⟩ := kickTo_stalls mode a n hpushing hc hcap rfl (hroom.trans_eq hr)
    exact ⟨t, hkick, h.fifoIn, h.counted, hdma, hstall, h.status, h.ctrl, hquiet, h.setup, h.unit_of_quiet hquiet⟩
  case finishes =>
    have hpushing : Pushing s.unit.dmaTo := ⟨hi, hlast.imp id fun ⟨hm, hf, _⟩ => ⟨hm, hf⟩⟩
    have hword : s.unit.dmaTo.mode = .normal ∨ s.unit.dmaTo.tagWord = tagWordOf 3#3 f :=
      hlast.imp id fun ⟨_, _, hd⟩ => (bits_decodeTag _).symm.trans (congrArg Instr.bits hd)
    obtain ⟨t, hkick, h, hdma, hstall, hraised⟩ := kickTo_finishes mode a n hpushing hc hr (hfits hroom) hirq
      (hword.imp id fun hw => by rw [hw, code_tagWordOf])
    refine ⟨t, hkick, h.fifoIn, h.counted, ?_, hstall, h.status, h.ctrl, hraised, h.setup, h.unit⟩
    rcases hword with hm | hw
    · rw [hdma]
      simp only [hm, if_true]
    · have hlink : s.unit.dmaTo.tagWord.extractLsb' 32 32 = f.next := by rw [hw, next_tagWordOf]
      rw [hdma, hlink]
  case goesOn =>
    obtain ⟨c, hcode, hbits, -⟩ := continuing_tag htag
    have hword : s.unit.dmaTo.tagWord = tagWordOf c f :=
      (bits_decodeTag _).symm.trans ((congrArg Instr.bits hd).trans hbits)
    obtain ⟨u, hkick, h, hdma, hstall, htrace, hpend⟩ := kickTo_goesOn mode a n ⟨hi, .inr ⟨hm, hf⟩⟩ hc hr hpos
      (hfits hroom) hm (by rwa [hword, code_tagWordOf])
    have hlink : s.unit.dmaTo.tagWord.extractLsb' 32 32 = f.next := by rw [hword, next_tagWordOf]
    rw [hlink] at hdma
    refine ⟨u, ?_, h.fifoIn, h.counted, hdma, hstall, h.ctrl, ?_⟩
    · have hmem : u.mem = s.mem := by
        rw [h.frame]
        rfl
      rw [hkick, fetchTag, hdma, hmem]
    · refine h.frame.trans ?_
      rw [htrace, hpend, h.status]
      rfl

end Sys2Proof.Machine
end

section
/-! SUPPORT. What acceptance, completion and reading the stream leave of the input side, and that a command written to an
idle unit is a dispatch step of the accepted command (`43_command_dispatcher.md` R234, R235, R237). -/

namespace Sys2Proof.Machine

/-! ### The input side -/

/-- The input side of `t`, which is cursor, input FIFO and input counter, reads as that of `s`. -/
structure SameSide (s t : State) : Prop where
  cur : t.unit.cur = s.unit.cur
  fifoIn : t.unit.fifoIn = s.unit.fifoIn
  ifc : t.ifc = s.ifc

section
variable {s t u : State}

theorem SameSide.trans (h : SameSide s t) (g : SameSide t u) : SameSide s u :=
  ⟨g.cur.trans h.cur, g.fifoIn.trans h.fifoIn, g.ifc.trans h.ifc⟩

theorem SameSide.sameStream (h : SameSide s t) : SameStream s t := by
  refine ⟨by rw [h.cur], ?_, ?_⟩
  · unfold totalAvail
    rw [h.cur, h.ifc]
  · unfold pendingQWords
    rw [h.cur, h.fifoIn]

theorem SameSide.totalAvail (h : SameSide s t) : totalAvail t = totalAvail s := h.sameStream.2.1

theorem SameSide.counted (h : SameSide s t) (hc : InputCounted s) : InputCounted t := by
  unfold InputCounted at *
  rwa [h.ifc, h.fifoIn]

theorem SameSide.ahead (h : SameSide s t) (k w : Nat) : aheadValue t k w = aheadValue s k w :=
  aheadValue_sameStream h.sameStream k w

theorem withInput_sameSide (u s : State) : SameSide u (withInput u s) := ⟨rfl, rfl, rfl⟩

/-- From `s` to `t` the next `n` bits of the stream were read, and a cursor operation was the last to touch the cursor. -/
structure Took (n : Nat) (s t : State) : Prop where
  counted : InputCounted t
  consumed : Consumed n s t
  snapped : Snapped s t

theorem InputMoved.took {want n : Nat} (h : InputMoved want n s t) : Took n s t := by
  obtain ⟨hn, hc, -, hsnap, -⟩ := h
  exact ⟨hc, hn, hsnap⟩

theorem InputMoved.inputOnly {want n : Nat} (h : InputMoved want n s t) : InputOnly s t := by
  obtain ⟨-, -, -, -, hctrl, e⟩ := h
  exact ⟨e, hctrl⟩

theorem Took.trans {n m : Nat} (h : Took n s t) (g : Took m t u) : Took (n + m) s u :=
  ⟨g.counted, h.consumed.trans g.consumed, g.snapped.1, g.snapped.2.trans h.snapped.2⟩

theorem Snapped.sameSide (h : Snapped s t) (g : SameSide t u) : Snapped s u := by
  obtain ⟨hsnap, hnew⟩ := h
  exact ⟨by rw [g.cur, g.ifc, hsnap], by rw [g.cur, hnew]⟩

theorem Took.sameSide_right {n : Nat} (h : Took n s t) (g : SameSide t u) : Took n s u := by
  obtain ⟨hc, hn, hsnap⟩ := h
  exact ⟨g.counted hc, hn.trans (Consumed.zero t u g.sameStream), hsnap.sameSide g⟩

theorem Took.sameSide_left {n : Nat} (g : SameSide s t) (h : Took n t u) : Took n s u := by
  obtain ⟨hc, hn, hsnap, hnew⟩ := h
  exact ⟨hc, hn.sameStream_left g.sameStream, hsnap, by rw [hnew, g.cur]⟩

/-- The output counter is outside the input side. -/
theorem InputOnly.ofc (h : InputOnly s t) : t.ofc = s.ofc := getField_congr fun i hi _ => h.2 i (by omega)

end

/-! ### Completion (R237) -/

section
variable {s u : State}

theorem complete_eq (u : State) : complete u = { u with irqTrace := (complete u).irqTrace, unit := { u.unit with
    pend := (complete u).unit.pend, cmd := Command.idle, ctrl := putBUSY false u.unit.ctrl, lib := none } } :=
  (complete_spec u).2

theorem complete_completed (hq : Quiet s u) (hcfg : u.cfg = s.cfg) : Completed s (complete u) := by
  obtain ⟨hraised, e⟩ := complete_spec u
  refine ⟨complete_cmd u, ?_, ?_, hq.raised hcfg hraised⟩
  · rw [e]
  · rw [e]
    exact ctrlBUSY_putBUSY false u.unit.ctrl

theorem complete_sameSide (u : State) : SameSide u (complete u) := by
  rw [complete_eq]
  exact ⟨rfl, rfl, ctrlIFC_putBUSY false u.unit.ctrl⟩

theorem complete_ctrlKept (u : State) : CtrlKept (fun i => i ≠ 31) u (complete u) :=
  (clearCommand_ctrl u).trans (raise_ctrl _ .cmd _)

theorem complete_ofc (u : State) : (complete u).ofc = u.ofc :=
  getField_congr fun i _ hi => complete_ctrlKept u i (by omega)

theorem complete_sameSetup (h : SameSetup s u) : SameSetup s (complete u) := by
  rw [complete_eq]
  exact h

theorem complete_result (u : State) : (complete u).result = u.result := raise_result .cmd (clearCommand u)

/-- Nothing but the unit changes, and no interrupt is raised. -/
structure Calm (s t : State) : Prop where
  quiet : Quiet s t
  setup : SameSetup s t
  result : t.result = s.result

theorem calm_unit (s : State) (v : UnitState) (hp : v.pend = s.unit.pend) : Calm s { s with unit := v } :=
  ⟨⟨rfl, hp⟩, ⟨rfl, rfl, fun _ => rfl, rfl⟩, rfl⟩

theorem Calm.withInput (h : Calm s u) (x : State) : Calm s (withInput x u) := ⟨h.quiet, h.setup, h.result⟩

theorem InputOnly.calm (h : InputOnly s u) : Calm s u := by
  rw [h.eq_withInput]
  exact calm_unit s _ rfl

/-- How a command ends that read `n` bits of the stream, then changed nothing but the unit, and completes. -/
theorem complete_end {n : Nat} {x : State} (honly : InputOnly s x) (htook : Took n s x) (hcalm : Calm s u) :
    Completed s (complete (withInput x u)) ∧ Took n s (complete (withInput x u)) ∧
      CtrlKept (fun i => 4 ≤ i ∧ i ≠ 31) s (complete (withInput x u)) ∧ SameSetup s (complete (withInput x u)) ∧
      (complete (withInput x u)).result = s.result := by
  obtain ⟨hquiet, hsetup, hresult⟩ := hcalm.withInput x
  exact ⟨complete_completed hquiet hsetup.1,
    htook.sameSide_right ((withInput_sameSide x u).trans (complete_sameSide _)),
    fun i ⟨h4, h31⟩ => (complete_ctrlKept (withInput x u) i h31).trans (honly.2 i h4),
    complete_sameSetup hsetup, (complete_result _).trans hresult⟩

end

/-! ### Acceptance (R234) -/

/-- The dispatch step of the command in flight is the step of its instruction (R235). -/
theorem dispatchStep_inFlight {i : Instr} {s : State} (hb : s.unit.cmd.busy = true)
    (hi : decodeCommand s.unit.cmd.current = i) : dispatchStep s = inFlightStep i s := by
  rw [dispatchStep, if_pos hb, commandStep_eq, hi]

theorem acceptCommand_sameSide (w : Word) (s : State) : SameSide s (acceptCommand w s) := by
  refine ⟨rfl, rfl, ?_⟩
  simp [State.ifc, acceptCommand_eq]

theorem acceptCommand_ofc (w : Word) (s : State) : (acceptCommand w s).ofc = s.ofc := by
  simp [State.ofc, acceptCommand_eq]

section
variable {i : Instr} (hw : i.wf = true) (hp : i.port = .command)
include hw hp

theorem decode_accepted (s : State) : decodeCommand (acceptCommand i.word s).unit.cmd.current = i :=
  decodeCommand_word hw hp

/-- On an idle unit a command that is submitted is accepted, and the call is the dispatch step of the accepted command. -/
theorem exec_written {s : State} (he : exec i s = submit i.word (inFlightStep i) s) (hb : s.unit.cmd.busy = false) :
    exec i s = (dispatchStep (acceptCommand i.word s)).outcome := by
  rw [he, submit, if_neg (by rw [hb]; decide), dispatchStep, if_pos (by rfl), commandStep_eq, decode_accepted hw hp]

theorem exec_of_stop {s t : State} (he : exec i s = submit i.word (inFlightStep i) s) (hb : s.unit.cmd.busy = false)
    (h : dispatchStep (acceptCommand i.word s) = .stop t) : exec i s = .next t := by
  rw [exec_written hw hp he hb, h]
  rfl

end

section
variable {p : Nat → Prop} {w : Word} {s t : State} (h : CtrlKept p (acceptCommand w s) t)
include h

theorem CtrlKept.accepted : CtrlKept (fun i => p i ∧ i ≠ 14 ∧ i ≠ 15 ∧ i ≠ 31) s t :=
  fun i ⟨hi, hflags⟩ => (h i hi).trans (acceptCommand_ctrl w s i hflags)

theorem CtrlKept.flagsCleared (h14 : p 14) (h15 : p 15) : FlagsCleared t :=
  ⟨(h 14 h14).trans (acceptCommand_ctrl_bit w s 14), (h 15 h15).trans (acceptCommand_ctrl_bit w s 15)⟩

theorem CtrlKept.waiting {p0 p1 ix : Word} (h31 : p 31) (hcmd : t.unit.cmd = ⟨w, true, p0, p1, ix⟩)
    (hq : Quiet (acceptCommand w s) t) : Waiting w p0 p1 ix s t :=
  ⟨hcmd, (h 31 h31).trans (acceptCommand_ctrl_bit w s 31), hq⟩

end

/-- An accepted command whose first step only pulls waits in phase 0 (R238). -/
theorem InputMoved.accepted {want : Nat} {w : Word} {s t : State} (h : InputMoved want 0 (acceptCommand w s) t) :
    Waiting w 0 0 0 s t ∧ t.result = .accepted ∧ FlagsCleared t ∧ Took 0 s t ∧
      CtrlKept (fun i => 4 ≤ i ∧ i ≠ 14 ∧ i ≠ 15 ∧ i ≠ 31) s t ∧ SameSetup s t ∧
      t.unit = { s.unit with
        ctrl := t.unit.ctrl, cmd := t.unit.cmd, cur := t.unit.cur, fifoIn := t.unit.fifoIn, lib := none } := by
  have htook := Took.sameSide_left (acceptCommand_sameSide w s) h.took
  obtain ⟨hquiet, hsetup, hresult⟩ := h.inputOnly.calm
  obtain ⟨e, hctrl⟩ := h.inputOnly
  have hkept : CtrlKept (fun i => 4 ≤ i) (acceptCommand w s) t := hctrl
  have hcmd : t.unit.cmd = ⟨w, true, 0, 0, 0⟩ := by rw [e]; rfl
  exact ⟨hkept.waiting (by decide) hcmd hquiet, hresult, hkept.flagsCleared (by decide) (by decide), htook,
    hkept.accepted, hsetup, by rw [e]; rfl⟩

theorem and_of_right {a b : Prop} (hb : b) (ha : b → a) : a ∧ b := ⟨ha hb, hb⟩

end Sys2Proof.Machine
end

section
/-! SUPPORT. Rejected commands, BCLR and SETTH: each is one change of the state (`43_command_dispatcher.md` R231, R233, R240,
R249). -/

namespace Sys2Proof.Machine

/-! ### Rejections -/

/-- A rejection sets ECD and is the result of the call; nothing else changes (R231, R233). -/
theorem rejectCommand_rejectedOnly (r : RejectReason) (s : State) : RejectedOnly r s (rejectCommand r s) :=
  ⟨rfl, ctrlECD_putECD true s.unit.ctrl, protocolError_ctrl s, rfl, rfl, rfl, rfl, fun _ => rfl, rfl⟩

/-- Settles O21: both rows reject. -/
theorem invalidOpcodeOnlySetsError : Obligations.InvalidOpcodeOnlySetsError := by
  unfold Obligations.InvalidOpcodeOnlySetsError
  intro opcode option s
  exact ⟨⟨_, rfl, rejectCommand_rejectedOnly _ s⟩, ⟨_, rfl, rejectCommand_rejectedOnly _ s⟩⟩

/-- Settles O22: a word of opcode 1 to 9 is submitted, which rejects it while a command is in flight. -/
theorem busyCommandOnlySetsError : Obligations.BusyCommandOnlySetsError := by
  unfold Obligations.BusyCommandOnlySetsError
  intro w s hlo hhi hb
  rw [← decodeCommand_code] at hlo hhi
  refine ⟨_, ?_, rejectCommand_rejectedOnly .busy s⟩
  rw [exec_eq_submit (decodeCommand_wf w) (decodeCommand_port w) hlo hhi, submit, if_pos hb]

/-! ### BCLR -/

/-- A cursor reset stands at the position it is given (`40_bitstream_cursor.md` R149). -/
theorem cursorReset_pos (bp : BitVec 7) (s : State) : (cursorReset bp s).unit.cur.pos = bp.toNat := by
  have hlt := bp.isLt
  simp only [cursorReset, setCur_cur, Cursor.pos, BitVec.extractLsb'_toNat, Nat.shiftRight_eq_div_pow]
  omega

/-- The control bits BCLR leaves alone: all but the counters and BUSY (R240). -/
theorem cleared_ctrlKept (bp : BitVec 7) (s : State) :
    CtrlKept (fun i => 8 ≤ i ∧ i ≠ 31) s (cursorReset bp (fifoClear (clearCommand s))) := fun i ⟨h8, h31⟩ => by
  obtain ⟨-, -, hclear⟩ := fifoClear_ctrl (clearCommand s)
  exact (hclear i h8).trans (clearCommand_ctrl s i h31)

/-- Settles O6: the cleared state is written out, and the interrupt changes trace and slots only. -/
theorem bclrClearsFifosAndCursor : Obligations.BclrClearsFifosAndCursor := by
  unfold Obligations.BclrClearsFifosAndCursor
  intro bp unused s
  have hctrl := cleared_ctrlKept bp s
  have hpos := cursorReset_pos bp (fifoClear (clearCommand s))
  have hraised : Raised .cmd s (raise .cmd (cursorReset bp (fifoClear (clearCommand s)))) :=
    Quiet.raised (t := cursorReset bp (fifoClear (clearCommand s))) ⟨rfl, rfl⟩ rfl (raise_raised _ _)
  obtain ⟨hifc, hofc, -⟩ := fifoClear_ctrl (clearCommand s)
  have hbusy : ctrlBUSY (cursorReset bp (fifoClear (clearCommand s))).unit.ctrl = false := by
    simp [cursorReset, fifoClear, clearCommand]
  refine ⟨_, rfl, ?_⟩
  rw [raise_eq] at hraised ⊢
  exact ⟨⟨rfl, rfl, hbusy, hraised⟩, rfl, rfl, rfl, hifc, hofc, rfl, rfl, rfl, hpos, rfl, hifc, hctrl,
    ⟨rfl, rfl, fun _ => rfl, rfl⟩, rfl⟩

/-! ### SETTH -/

/-- Settles O7: the first step of the accepted command loads the thresholds and completes. -/
theorem setthLoadsThresholds : Obligations.SetthLoadsThresholds := by
  unfold Obligations.SetthLoadsThresholds
  intro th0 th1 lo hi s hb
  have hexec : exec (.setth th0 th1 lo hi) s =
      .next (complete ((acceptCommand (Instr.setth th0 th1 lo hi).word s).setTh th0 th1)) :=
    exec_of_stop rfl rfl rfl hb (dispatchStep_inFlight rfl (decode_accepted rfl rfl s))
  have hctrl : CtrlKept (fun i => i ≠ 31) (acceptCommand (Instr.setth th0 th1 lo hi).word s)
    (complete ((acceptCommand (Instr.setth th0 th1 lo hi).word s).setTh th0 th1)) := complete_ctrlKept _
  refine ⟨_, hexec, ?_, ?_, complete_completed ⟨rfl, rfl⟩ rfl, complete_result _,
    hctrl.flagsCleared (by decide) (by decide), hctrl.accepted.mono fun i hi => by omega,
    complete_sameSetup ⟨rfl, rfl, fun _ => rfl, rfl⟩, ?_⟩ <;> rw [complete_eq] <;> rfl

end Sys2Proof.Machine
end

section
/-! SUPPORT. FDEC, written and resumed: the `FB` phase, then a look at the stream (`43_command_dispatcher.md` R244, R256), and
the register `TOP`, which shows the same look (`45_host_register_interface.md` R325). -/

namespace Sys2Proof.Machine

/-! ### The FB phase, by the bits ahead -/

section
variable {fb : BitVec 6} {s : State}

/-- Short of the `FB` bits the phase waits (R256). -/
theorem fbPhase_short (hc : InputCounted s) (hp : s.unit.cmd.pos0 = 0) (h : totalAvail s < fb.toNat) :
    ∃ x, fbPhase fb s = .stop x ∧ InputMoved fb.toNat 0 s x := by
  obtain ⟨x, hx, hmoved⟩ := skipBits_short (by have := fb.isLt; omega) hc h
  exact ⟨x, by rw [fbPhase, if_pos hp, hx], hmoved⟩

/-- With the `FB` bits ahead, or behind it, the phase goes on in phase 1 or later. -/
theorem fbPhase_passed {m : Nat} (hc : InputCounted s) (hm : m = if s.unit.cmd.pos0 = 0 then fb.toNat else 0)
    (h : m ≤ totalAvail s) :
    ∃ x, fbPhase fb s = .go (withInput x (s.setCmd (sessionCommand s.unit.cmd))) ∧ InputOnly s x ∧ InputCounted x ∧
      Consumed m s x ∧ x.unit.cur.hasNew = s.unit.cur.hasNew := by
  unfold sessionCommand fbPhase
  by_cases hp : s.unit.cmd.pos0 = 0
  · rw [if_pos hp] at hm
    obtain ⟨x, hx, hmoved⟩ := skipBits_ok (w := m) (by have := fb.isLt; omega) hc h
    have honly := hmoved.inputOnly
    refine ⟨x, ?_, honly, hmoved.took.counted, hmoved.took.consumed, hmoved.took.snapped.2⟩
    rw [if_pos hp, if_pos hp, ← hm, hx]
    dsimp only
    rw [honly.eq_withInput]
    rfl
  · rw [if_neg hp] at hm
    subst hm
    exact ⟨s, by rw [if_neg hp, if_neg hp]; rfl, .refl s, hc, .zero s s (.refl s), rfl⟩

/-- An operation of the cursor after another, each but for the input side on a state of its own. -/
theorem InputOnly.withInput_trans {s x u y : State} (h : InputOnly s x) (g : InputOnly (withInput x u) y) :
    InputOnly s (withInput y s) ∧ y = withInput y u :=
  ⟨⟨rfl, fun i hi => (g.2 i hi).trans (h.2 i hi)⟩, g.1⟩

/-- A look after bits were consumed. -/
theorem Consumed.took_look {n want : Nat} {s x u y : State} (h : Consumed n s x)
    (hnew : x.unit.cur.hasNew = s.unit.cur.hasNew) (g : InputMoved want 0 (withInput x u) y) :
    Took n s (withInput y s) := by
  have hlook : Took 0 x y := Took.sameSide_left (withInput_sameSide x u) g.took
  have htook : Took n s y := ⟨hlook.counted, h.trans hlook.consumed, hlook.snapped.1, hlook.snapped.2.trans hnew⟩
  exact htook.sameSide_right (withInput_sameSide y s)

end

/-! ### The step -/

/-- After its `FB` phase FDEC looks at 32 bits: it shows them and completes, or waits. -/
theorem fdecStep_look {fb : BitVec 6} {s x : State} (h : fbPhase fb s = .go x) :
    (∀ v y, peekBits 32 x = .ok v y → fdecStep fb s = .stop (complete (y.setCmdData v))) ∧
      ∀ y, peekBits 32 x = .short y → fdecStep fb s = .stop y := by
  constructor <;> intros <;> simp only [fdecStep, Flow.bind, *]

section
variable {fb : BitVec 6} {m : Nat} {s : State} (hc : InputCounted s)
  (hm : m = if s.unit.cmd.pos0 = 0 then fb.toNat else 0)
include hc hm

/-- With 32 bits after those of the skip, FDEC shows them and completes (R244). -/
theorem fdecStep_shows (h : m + 32 ≤ totalAvail s) :
    ∃ x, InputOnly s x ∧ Took m s x ∧ fdecStep fb s = .stop (complete (withInput x ((s.setCmd
      (sessionCommand s.unit.cmd)).setCmdData (BitVec.ofNat 32 (aheadValue s m 32))))) := by
  obtain ⟨x, hphase, honly, hcx, hcons, hnew⟩ := fbPhase_passed hc hm (by omega)
  have hside := withInput_sameSide x (s.setCmd (sessionCommand s.unit.cmd))
  have htotal := hcons.1
  obtain ⟨y, hpeek, hmoved⟩ := peekBits_ok (w := 32) (by decide) (by decide) (hside.counted hcx)
    (by rw [hside.totalAvail]; omega)
  obtain ⟨hy, hframe⟩ := honly.withInput_trans hmoved.inputOnly
  rw [hside.ahead, aheadValue_consumed hcons 0 32 (by omega), Nat.add_zero] at hpeek
  refine ⟨_, hy, hcons.took_look hnew hmoved, ?_⟩
  rw [(fdecStep_look hphase).1 _ y hpeek, hframe]
  rfl

/-- Short of the bits it skips, FDEC waits in phase 0. -/
theorem fdecStep_waits_for_skip (h : totalAvail s < m) :
    ∃ x, fdecStep fb s = .stop x ∧ InputOnly s x ∧ Took 0 s x := by
  split at hm
  case isFalse => omega
  case isTrue hp =>
    obtain ⟨x, hx, hmoved⟩ := fbPhase_short hc hp (hm ▸ h)
    exact ⟨x, by rw [fdecStep, hx]; rfl, hmoved.inputOnly, hmoved.took⟩

/-- With those, but short of 32 more, it skips them and waits in phase 1. -/
theorem fdecStep_waits_for_look (h : m ≤ totalAvail s) (h32 : totalAvail s < m + 32) :
    ∃ x, InputOnly s x ∧ Took m s x ∧ fdecStep fb s = .stop (withInput x (s.setCmd (sessionCommand s.unit.cmd))) := by
  obtain ⟨x, hphase, honly, hcx, hcons, hnew⟩ := fbPhase_passed hc hm h
  have hside := withInput_sameSide x (s.setCmd (sessionCommand s.unit.cmd))
  have htotal := hcons.1
  obtain ⟨y, hpeek, hmoved⟩ := peekBits_short (w := 32) (by decide) (by decide) (hside.counted hcx)
    (by rw [hside.totalAvail]; omega)
  obtain ⟨hy, hframe⟩ := honly.withInput_trans hmoved.inputOnly
  refine ⟨_, hy, hcons.took_look hnew hmoved, ?_⟩
  rw [(fdecStep_look hphase).2 y hpeek, hframe]
  rfl

end

/-! ### The statements -/

/-- Settles O8: `fdecStep_shows`, in flight and on the accepted command. -/
theorem fdecShowsWithoutConsuming : Obligations.FdecShowsWithoutConsuming := by
  unfold Obligations.FdecShowsWithoutConsuming
  refine and_of_right (fun fb unused m s hb hi hc hm h => ?_) fun inFlight fb unused s hb hc h => ?_
  · obtain ⟨x, honly, htook, hstep⟩ := fdecStep_shows hc hm h
    obtain ⟨hcompleted, hend, hctrl, hsetup, hresult⟩ := complete_end honly htook
      (calm_unit s ((s.setCmd (sessionCommand s.unit.cmd)).setCmdData (BitVec.ofNat 32 (aheadValue s m 32))).unit rfl)
    refine ⟨_, (dispatchStep_inFlight hb hi).trans hstep, ?_, hcompleted, hresult, hend.consumed, hend.counted,
      hend.snapped, hctrl, hsetup, ?_⟩ <;> rw [complete_eq] <;> rfl
  · have ha := acceptCommand_sameSide (Instr.fdec fb unused).word s
    obtain ⟨t, hstep, hdata, hcompleted, hresult, hcons, hct, hsnap, hctrl, hsetup, hunit⟩ :=
      inFlight fb unused fb.toNat (acceptCommand (Instr.fdec fb unused).word s) rfl (decode_accepted rfl rfl s)
        (ha.counted hc) rfl (by rwa [ha.totalAvail])
    exact ⟨t, exec_of_stop rfl rfl rfl hb hstep, hdata, hcompleted, hresult, hcons.sameStream_left ha.sameStream, hct,
      hsnap, hctrl.flagsCleared (by decide) (by decide), hctrl.accepted.mono fun i hi => by omega, hsetup, hunit⟩

/-- Settles O9: the two ways FDEC can be short, in flight and on the accepted command. -/
theorem fdecWaitsForInput : Obligations.FdecWaitsForInput := by
  unfold Obligations.FdecWaitsForInput
  refine and_of_right (fun fb unused m s hb hi hc hm h => ?_) fun inFlight fb unused s hb hc h => ?_
  · have hstep := dispatchStep_inFlight hb hi
    by_cases hskip : totalAvail s < m
    · obtain ⟨x, hx, honly, htook⟩ := fdecStep_waits_for_skip hc hm hskip
      obtain ⟨hquiet, hsetup, hresult⟩ := honly.calm
      refine ⟨x, hstep.trans hx, hresult, htook.counted, htook.snapped, hquiet, fun _ => ⟨htook.consumed, ?_⟩,
        fun h' => absurd hskip (Nat.not_lt.mpr h'), honly.2, hsetup, ?_⟩ <;> rw [honly.eq_withInput] <;> rfl
    · obtain ⟨x, honly, htook, hx⟩ := fdecStep_waits_for_look hc hm (by omega) h
      have hend := htook.sameSide_right (withInput_sameSide x (s.setCmd (sessionCommand s.unit.cmd)))
      exact ⟨_, hstep.trans hx, rfl, hend.counted, hend.snapped, ⟨rfl, rfl⟩, fun h' => absurd h' hskip,
        fun _ => ⟨hend.consumed, rfl⟩, honly.2, ⟨rfl, rfl, fun _ => rfl, rfl⟩, rfl⟩
  · have ha := acceptCommand_sameSide (Instr.fdec fb unused).word s
    obtain ⟨t, hstep, hresult, hct, hsnap, hquiet, hskip, hlook, hctrl, hsetup, hunit⟩ :=
      inFlight fb unused fb.toNat (acceptCommand (Instr.fdec fb unused).word s) rfl (decode_accepted rfl rfl s)
        (ha.counted hc) rfl (by rwa [ha.totalAvail])
    rw [ha.totalAvail] at hskip hlook
    refine ⟨t, exec_of_stop rfl rfl rfl hb hstep, hresult, hctrl.flagsCleared (by decide) (by decide), hct, hsnap,
      fun h' => ?_, fun h' => ?_,
      hctrl.accepted, hsetup, hunit⟩
    · obtain ⟨hcons, hcmd⟩ := hskip h'
      exact ⟨hcons.sameStream_left ha.sameStream, hctrl.waiting (by decide) hcmd hquiet⟩
    · obtain ⟨hcons, hcmd⟩ := hlook h'
      exact ⟨hcons.sameStream_left ha.sameStream, hctrl.waiting (by decide) hcmd hquiet⟩

/-- Settles O37: the image of `TOP` is the bits ahead, which FDEC shows in `cmdData`. -/
theorem topShowsWhatFdecWouldLookAt : Obligations.TopShowsWhatFdecWouldLookAt := by
  unfold Obligations.TopShowsWhatFdecWouldLookAt
  intro s hc
  have hread : regRead64 0x30 s = imageTOP s := rfl
  refine ⟨fun hb h => ?_, fun h => ?_⟩
  · have himage : regRead64 0x30 s = image64 false (BitVec.ofNat 32 (aheadValue s 0 32)) := by
      rw [hread, imageTOP, if_pos ⟨hb, h⟩]
      rfl
    have hvalue : (regRead64 0x30 s).toNat = aheadValue s 0 32 := by
      rw [himage, image64_toNat, toNat_ofNat_aheadValue s 0 (le_refl 32)]
      simp
    refine ⟨hvalue, fun unused => ?_⟩
    obtain ⟨t, hexec, hdata, -⟩ := fdecShowsWithoutConsuming.1 0 unused s hb hc (by simpa using h)
    refine ⟨t, hexec, hdata.trans (BitVec.eq_of_toNat_eq ?_)⟩
    rw [BitVec.toNat_setWidth, hvalue, BitVec.toNat_ofNat]
    rfl
  · rw [hread, imageTOP, if_neg, image64_toNat]
    · rfl
    · rintro ⟨hb, h32⟩
      rcases h with h | h
      · rw [hb] at h
        cases h
      · omega

end Sys2Proof.Machine
end

section
/-! SUPPORT. Byte input by the bytes ahead, and the commands that load a table, SETIQ and SETVQ, written and resumed
(`43_command_dispatcher.md` R245, R246, R257). -/

namespace Sys2Proof.Machine

/-! ### Byte input -/

theorem StoreOk.sameSide {store : Nat → Byte → State → State} (h : StoreOk store) (k : Nat) (v : Byte) (s : State) :
    SameSide s (store k v s) := by
  have hs := withInput_sameSide s (store k v s)
  rwa [h.input] at hs

/-- Reading bytes ends with a cursor operation, unless there is none to read. -/
theorem byteLoop_snapped {store : Nat → Byte → State → State} (h : StoreOk store) (n k : Nat) {s t : State}
    (hc : InputCounted s) (ht : byteLoop store n k s = .go t ∨ byteLoop store n k s = .stop t) :
    (n ≠ 0 ∨ s.unit.cur.ifcSnap = s.ifc → Snapped s t) ∧ t.unit.cur.hasNew = s.unit.cur.hasNew := by
  induction n generalizing k s with
  | zero =>
    obtain ht | ht := ht <;> cases ht
    exact ⟨fun hs => ⟨hs.resolve_left (by simp), rfl⟩, rfl⟩
  | succ n ih =>
    unfold byteLoop at ht
    by_cases h8 : 8 ≤ totalAvail s
    · obtain ⟨x, hx, hmoved⟩ := readBits_ok (w := 8) (by decide) (by decide) hc h8
      rw [hx] at ht
      have hside := h.sameSide k ((BitVec.ofNat 32 (aheadValue s 0 8)).setWidth 8) x
      obtain ⟨hcx, -, hsnap, hnew⟩ := hmoved.took
      obtain ⟨hlater, tnew⟩ := ih (k + 1) (hside.counted hcx) ht
      have hnewt := tnew.trans ((congrArg Cursor.hasNew hside.cur).trans hnew)
      obtain ⟨tsnap, -⟩ := hlater (.inr (by rw [hside.cur, hside.ifc, hsnap]))
      exact ⟨fun _ => ⟨tsnap, hnewt⟩, hnewt⟩
    · obtain ⟨x, hx, hmoved⟩ := readBits_short (w := 8) (by decide) (by decide) hc (by omega)
      rw [hx] at ht
      obtain ht | ht := ht <;> cases ht
      exact ⟨fun _ => hmoved.took.snapped, hmoved.took.snapped.2⟩

section
variable {store : Nat → Byte → State → State} (hst : StoreOk store) (n k : Nat) {s : State} (hc : InputCounted s)
include hst hc

/-- With the bytes ahead, all are read and stored (R257). -/
theorem byteLoop_all (h : 8 * n ≤ totalAvail s) :
    ∃ x, InputOnly s x ∧ InputCounted x ∧ Consumed (8 * n) s x ∧
      (n ≠ 0 ∨ s.unit.cur.ifcSnap = s.ifc → Snapped s x) ∧ x.unit.cur.hasNew = s.unit.cur.hasNew ∧
      byteLoop store n k s = .go (withInput x (storeFold store (aheadByte s) n k s)) := by
  obtain ⟨m, x, hm, honly, hcx, hcons, he⟩ := byteLoop_spec hst n k s hc
  obtain rfl : m = n := by omega
  rw [if_pos rfl] at he
  obtain ⟨hsnap, hnew⟩ := byteLoop_snapped hst m k hc (.inl he)
  exact ⟨x, honly, hcx, hcons, hsnap, hnew, he⟩

/-- Short of them, the whole bytes the stream holds are, and the command waits for the rest. -/
theorem byteLoop_short (h : totalAvail s < 8 * n) :
    ∃ x, InputOnly s x ∧ Took (8 * (totalAvail s / 8)) s x ∧
      byteLoop store n k s = .stop (withInput x (storeFold store (aheadByte s) (totalAvail s / 8) k s)) := by
  obtain ⟨m, x, hm, honly, hcx, hcons, he⟩ := byteLoop_spec hst n k s hc
  obtain rfl : m = totalAvail s / 8 := by omega
  rw [if_neg (by omega)] at he
  obtain ⟨hsnap, -⟩ := byteLoop_snapped hst n k hc (.inr he)
  exact ⟨x, honly, ⟨hcx, hcons, hsnap (.inl (by omega))⟩, he⟩

end

/-! ### A table loaded from the stream -/

theorem pull_inputMoved (want : Nat) {s : State} (hc : InputCounted s) : InputMoved want 0 s (pull want s) := by
  obtain ⟨honly, hct, hsame, -, -⟩ := pull_spec want s hc
  exact ShortOf.inputMoved ⟨honly, hct, hsame⟩ (pull_pulled want s hc)

/-- Byte `j` of the stream after `m` bits. -/
def byteAfter (m : Nat) (s : State) (j : Nat) : Byte := BitVec.ofNat 8 (aheadValue s (m + 8 * j) 8)

/-- Bytes read after `m` bits were read, on to a state that agrees but for the input side. -/
theorem byteLoop_table {store : Nat → Byte → State → State} (hst : StoreOk store) {m n : Nat} {s q : State}
    (hn : n ≠ 0) (honly : InputOnly s q) (hq : Took m s q) (h : m + 8 * n ≤ totalAvail s) :
    ∃ x, InputOnly s x ∧ Took (m + 8 * n) s x ∧
      byteLoop store n 0 q = .go (withInput x (storeFold store (byteAfter m s) n 0 s)) := by
  have htotal := hq.consumed.1
  obtain ⟨x, hx, hcx, hcons, hsnap, -, he⟩ := byteLoop_all hst n 0 hq.counted (by omega)
  have hbytes : ∀ j, j < n → aheadByte q j = byteAfter m s j := fun j hj =>
    congrArg (BitVec.ofNat 8) (aheadValue_consumed hq.consumed (8 * j) 8 (by omega))
  refine ⟨x, honly.trans hx, hq.trans ⟨hcx, hcons, hsnap (.inl hn)⟩, ?_⟩
  rw [he, storeFold_congr n 0 q hbytes]
  conv_lhs => rw [honly.eq_withInput, storeFold_comm hst]
  rfl

/-- SETIQ's stores load a whole table (R245). -/
theorem storeFold_iq_table (iqm : Bool) (vals : Nat → Byte) (s : State) :
    ∃ table, (∀ k, k < 64 → table.getD k 0 = vals k) ∧ storeFold (storeIq iqm) vals 64 0 s =
      if iqm then s.setIqNonIntra table else s.setIqIntra table := by
  have hfill (v : Vector Byte 64) (k : Nat) (hk : k < 64) : (vecFill vals 64 0 v).getD k 0 = vals k := by
    rw [vecFill_getD vals 64 0 v k hk, if_pos (by omega), Nat.sub_zero]
  cases iqm with
  | false => exact ⟨_, hfill s.unit.iqIntra, by simp only [storeFold_iq, Bool.false_eq_true, if_false]⟩
  | true => exact ⟨_, hfill s.unit.iqNonIntra, by simp only [storeFold_iq, if_true]⟩

/-- A value is its high byte and its low byte. -/
theorem toNat_eq_bytes (e : BitVec 16) : e.toNat = (e.extractLsb' 8 8).toNat * 256 + (e.extractLsb' 0 8).toNat := by
  have hlt := e.isLt
  simp only [BitVec.extractLsb'_toNat, Nat.shiftRight_eq_div_pow]
  omega

/-- The colour table loaded whole: entry by entry, low byte first. -/
theorem vqFill_table (s : State) (v : Vector (BitVec 16) 16) (k : Nat) (hk : k < 16) :
    ((vqFill (byteAfter 0 s) 32 v).getD k 0).toNat = aheadValue s (16 * k + 8) 8 * 256 + aheadValue s (16 * k) 8 := by
  have hbyte (j : Nat) : (byteAfter 0 s j).toNat = aheadValue s (8 * j) 8 := by
    rw [byteAfter, BitVec.toNat_ofNat, Nat.zero_add]
    exact Nat.mod_eq_of_lt (streamValue_lt _ _ 8)
  obtain ⟨hlow, hhigh⟩ := vqFill_getD (byteAfter 0 s) 32 v k hk
  rw [toNat_eq_bytes, hlow, hhigh, if_pos (by omega), if_pos (by omega), hbyte, hbyte,
    show 8 * (2 * k + 1) = 16 * k + 8 by omega, show 8 * (2 * k) = 16 * k by omega]

/-! ### The steps -/

section
variable {fb : BitVec 6} {iqm : Bool} {s : State} (hc : InputCounted s)
include hc

/-- With the table ahead, SETIQ skips, loads and completes (R245). -/
theorem setiqStep_loads (h : fb.toNat + 512 ≤ totalAvail s) :
    ∃ x table, InputOnly s x ∧ Took (fb.toNat + 512) s x ∧ (∀ k, k < 64 → table.getD k 0 = byteAfter fb.toNat s k) ∧
      setiqStep fb iqm s =
        .stop (complete (withInput x (if iqm then s.setIqNonIntra table else s.setIqIntra table))) := by
  have hp := pull_inputMoved (fb.toNat + 512) hc
  have htotal := hp.took.consumed.1
  obtain ⟨q, hskip, hq⟩ := skipBits_ok (w := fb.toNat) (by have := fb.isLt; omega) hp.took.counted (by omega)
  have htook : Took fb.toNat s q := by
    have := hp.took.trans hq.took
    rwa [Nat.zero_add] at this
  obtain ⟨x, honly, hx, he⟩ := byteLoop_table (storeIq_ok iqm) (n := 64) (by decide)
    (hp.inputOnly.trans hq.inputOnly) htook h
  obtain ⟨table, htable, hstore⟩ := storeFold_iq_table iqm (byteAfter fb.toNat s) s
  refine ⟨x, table, honly, hx, htable, ?_⟩
  unfold setiqStep
  dsimp only
  rw [if_neg (by omega), hskip]
  dsimp only
  rw [he, hstore]
  rfl

/-- Short of it, SETIQ only pulls. -/
theorem setiqStep_waits (h : totalAvail s < fb.toNat + 512) :
    ∃ x, setiqStep fb iqm s = .stop x ∧ InputMoved (fb.toNat + 512) 0 s x := by
  have hp := pull_inputMoved (fb.toNat + 512) hc
  have htotal := hp.took.consumed.1
  refine ⟨_, ?_, hp⟩
  unfold setiqStep
  dsimp only
  rw [if_pos (by omega)]

/-- With the colours ahead, SETVQ loads them and completes (R246). -/
theorem setvqStep_loads (h : 256 ≤ totalAvail s) :
    ∃ x clut, InputOnly s x ∧ Took 256 s x ∧
      (∀ k, k < 16 → (clut.getD k 0).toNat = aheadValue s (16 * k + 8) 8 * 256 + aheadValue s (16 * k) 8) ∧
      setvqStep s = .stop (complete (withInput x (s.setVqclut clut))) := by
  have hp := pull_inputMoved 256 hc
  have htotal := hp.took.consumed.1
  obtain ⟨x, honly, hx, he⟩ := byteLoop_table storeVq_ok (n := 32) (by decide) hp.inputOnly hp.took (by omega)
  refine ⟨x, _, honly, hx, vqFill_table s s.unit.vqclut, ?_⟩
  unfold setvqStep
  dsimp only
  rw [if_neg (by omega), he, storeFold_vq]
  rfl

/-- Short of them, SETVQ only pulls. -/
theorem setvqStep_waits (h : totalAvail s < 256) :
    ∃ x, setvqStep s = .stop x ∧ InputMoved 256 0 s x := by
  have hp := pull_inputMoved 256 hc
  have htotal := hp.took.consumed.1
  refine ⟨_, ?_, hp⟩
  unfold setvqStep
  dsimp only
  rw [if_pos (by omega)]

end

/-! ### The statements -/

/-- Settles O10: `setiqStep_loads` and `setiqStep_waits`, in flight and on the accepted command. -/
theorem setiqLoadsTableOrWaits : Obligations.SetiqLoadsTableOrWaits := by
  unfold Obligations.SetiqLoadsTableOrWaits
  refine and_of_right (fun fb iqm unused s hb hi hc => ⟨fun h => ?_, fun h => ?_⟩) fun inFlight fb iqm unused s hb hc => ?_
  · obtain ⟨x, table, honly, htook, htable, hstep⟩ := setiqStep_loads (iqm := iqm) hc h
    have hcalm : Calm s (if iqm then s.setIqNonIntra table else s.setIqIntra table) := by
      cases iqm <;> exact calm_unit s _ rfl
    obtain ⟨hcompleted, hend, hctrl, hsetup, hresult⟩ := complete_end honly htook hcalm
    refine ⟨_, (dispatchStep_inFlight hb hi).trans hstep, hcompleted, hend.consumed, hend.counted, hend.snapped, ?_, ?_,
      hresult, hctrl, hsetup, ?_⟩ <;> rw [complete_eq]
    · cases iqm <;> exact htable
    all_goals cases iqm <;> rfl
  · obtain ⟨x, hstep, hmoved⟩ := setiqStep_waits (iqm := iqm) hc h
    exact ⟨x, (dispatchStep_inFlight hb hi).trans hstep, hmoved⟩
  · have ha := acceptCommand_sameSide (Instr.setiq fb iqm unused).word s
    obtain ⟨hload, hwait⟩ := inFlight fb iqm unused (acceptCommand (Instr.setiq fb iqm unused).word s) rfl
      (decode_accepted rfl rfl s) (ha.counted hc)
    rw [ha.totalAvail] at hload hwait
    by_cases h : fb.toNat + 512 ≤ totalAvail s
    · obtain ⟨t, hstep, hcompleted, hcons, hct, hsnap, htable, hother, hresult, hctrl, hsetup, hunit⟩ := hload h
      exact ⟨t, exec_of_stop rfl rfl rfl hb hstep, hresult, hctrl.flagsCleared (by decide) (by decide), hct, hsnap,
        fun _ => ⟨hcompleted, hcons.sameStream_left ha.sameStream, htable, hother⟩, fun h' => by omega,
        hctrl.accepted.mono fun i hi => by omega, hsetup, hunit⟩
    · obtain ⟨t, hstep, hmoved⟩ := hwait (by omega)
      obtain ⟨hwaiting, hresult, hflags, htook, hctrl, hsetup, -⟩ := hmoved.accepted
      refine ⟨t, exec_of_stop rfl rfl rfl hb hstep, hresult, hflags, htook.counted, htook.snapped, fun h' => absurd h' h,
        fun _ => ⟨hwaiting, htook.consumed, ?_, ?_⟩, hctrl, hsetup, ?_⟩
      all_goals rw [hmoved.inputOnly.eq_withInput]
      · exact ⟨rfl, rfl⟩
      all_goals rfl

/-- Settles O11: `setvqStep_loads` and `setvqStep_waits`, in flight and on the accepted command. -/
theorem setvqLoadsColoursOrWaits : Obligations.SetvqLoadsColoursOrWaits := by
  unfold Obligations.SetvqLoadsColoursOrWaits
  refine and_of_right (fun unused s hb hi hc => ⟨fun h => ?_, fun h => ?_⟩) fun inFlight unused s hb hc => ?_
  · obtain ⟨x, clut, honly, htook, hclut, hstep⟩ := setvqStep_loads hc h
    obtain ⟨hcompleted, hend, hctrl, hsetup, hresult⟩ :=
      complete_end honly htook (calm_unit s (s.setVqclut clut).unit rfl)
    refine ⟨_, (dispatchStep_inFlight hb hi).trans hstep, hcompleted, hend.consumed, hend.counted, hend.snapped, ?_,
      hresult, hctrl, hsetup, ?_⟩ <;> rw [complete_eq]
    · exact hclut
    · rfl
  · obtain ⟨x, hstep, hmoved⟩ := setvqStep_waits hc h
    exact ⟨x, (dispatchStep_inFlight hb hi).trans hstep, hmoved⟩
  · have ha := acceptCommand_sameSide (Instr.setvq unused).word s
    obtain ⟨hload, hwait⟩ := inFlight unused (acceptCommand (Instr.setvq unused).word s) rfl
      (decode_accepted rfl rfl s) (ha.counted hc)
    rw [ha.totalAvail] at hload hwait
    by_cases h : 256 ≤ totalAvail s
    · obtain ⟨t, hstep, hcompleted, hcons, hct, hsnap, htable, hresult, hctrl, hsetup, hunit⟩ := hload h
      exact ⟨t, exec_of_stop rfl rfl rfl hb hstep, hresult, hctrl.flagsCleared (by decide) (by decide), hct, hsnap,
        fun _ => ⟨hcompleted, hcons.sameStream_left ha.sameStream, htable⟩, fun h' => by omega,
        hctrl.accepted.mono fun i hi => by omega, hsetup, hunit⟩
    · obtain ⟨t, hstep, hmoved⟩ := hwait (by omega)
      obtain ⟨hwaiting, hresult, hflags, htook, hctrl, hsetup, -⟩ := hmoved.accepted
      refine ⟨t, exec_of_stop rfl rfl rfl hb hstep, hresult, hflags, htook.counted, htook.snapped, fun h' => absurd h' h,
        fun _ => ⟨hwaiting, htook.consumed, ?_, ?_⟩, hctrl, hsetup, ?_⟩
      all_goals rw [hmoved.inputOnly.eq_withInput]
      all_goals rfl

end Sys2Proof.Machine
end

section
/-! SUPPORT. The bytes of a quadword made of bytes, and the default 16-bit pixel as a number
(`44_color_space_converter.md` R296, R298, R299, R301). -/

namespace Sys2Proof.Machine

/-- The digits of a little-endian value are its bytes. -/
theorem leValue_digit (bs : List Byte) (k : Nat) (hk : k < bs.length) :
    leValue bs / 256 ^ k % 256 = (bs[k]).toNat := by
  induction bs generalizing k with
  | nil => simp at hk
  | cons b bs ih =>
    have hb := b.isLt
    cases k with
    | zero =>
      rw [leValue, List.getElem_cons_zero]
      omega
    | succ k =>
      rw [leValue, List.getElem_cons_succ, Nat.pow_succ', ← Nat.div_div_eq_div_mul,
        show (b.toNat + 256 * leValue bs) / 256 = leValue bs by omega]
      exact ih k (by simpa using hk)

/-- A quadword made of sixteen bytes has those bytes (`20_memory.md` R81). -/
theorem qwByte_qwOfBytes (f : Nat → Byte) (j : Nat) (hj : j < 16) : qwByte (qwOfBytes f) j = f j := by
  have hlen : ((List.range 16).map f).length = 16 := by rw [List.length_map, List.length_range]
  have hlt := leValue_lt ((List.range 16).map f)
  rw [hlen] at hlt
  have hdigit := leValue_digit ((List.range 16).map f) j (by rw [hlen]; exact hj)
  rw [List.getElem_map, List.getElem_range] at hdigit
  apply BitVec.eq_of_toNat_eq
  rw [qwByte_eq_ofNat, qwOfBytes, BitVec.toNat_ofNat, BitVec.toNat_ofNat, Nat.mod_eq_of_lt (hlt.trans_eq (by decide)),
    ← hdigit]

/-- A 16-bit value is its high byte and its low byte. -/
theorem bytes_append (v : BitVec 16) : v.extractLsb' 8 8 ++ v.extractLsb' 0 8 = v := by
  apply BitVec.eq_of_toNat_eq
  rw [toNat_append_eq_add]
  exact (toNat_eq_bytes v).symm

/-- Two neighbouring bytes of a quadword that is made of 16-bit values, low byte first. -/
theorem qwByte_pair (f : Nat → Byte) (v : BitVec 16) (j : Nat) (hj : j < 8)
    (hlow : f (2 * j) = v.extractLsb' 0 8) (hhigh : f (2 * j + 1) = v.extractLsb' 8 8) :
    qwByte (qwOfBytes f) (2 * j + 1) ++ qwByte (qwOfBytes f) (2 * j) = v := by
  rw [qwByte_qwOfBytes f _ (by omega), qwByte_qwOfBytes f _ (by omega), hlow, hhigh]
  exact bytes_append v

theorem clamp8_toNat (v : Int) : (clamp8 v).toNat = (min 255 (max 0 v)).toNat := by
  rw [clamp8, BitVec.toNat_ofInt]
  omega

/-- A channel of a 16-bit pixel before it is narrowed: with the dither offset, clamped, where `DTE` is set (R296). -/
theorem dithered_toNat (dte : Bool) (d : Int) (c : Byte) :
    (if dte then clamp8 ((c.toNat : Int) + (if dte then d else 0)) else c).toNat =
      (min 255 (max 0 ((c.toNat : Int) + (if dte then d else 0)))).toNat := by
  have hc := c.isLt
  cases dte with
  | true => exact clamp8_toNat _
  | false =>
    simp only [Bool.false_eq_true, if_false]
    omega

/-- The default 16-bit pixel is 5, 6 and 5 bits of the channels (R296). -/
theorem narrow16Default_toNat (m : PixelMath) (p : Pixel) (x y : Nat) (dte : Bool) :
    let d : Int := if dte then (m.dither.getD (y % 4) (Vector.replicate 4 0)).getD (x % 4) 0 else 0
    let ch (v : Byte) : Nat := (min 255 (max 0 ((v.toNat : Int) + d))).toNat
    (narrow16Default m p x y dte).toNat = ch p.r / 8 + 32 * (ch p.g / 4) + 2048 * (ch p.b / 8) := by
  intro d ch
  have hch (v : Byte) : (if dte then clamp8 ((v.toNat : Int) + d) else v).toNat = ch v := dithered_toNat dte _ v
  have hlt (v : Byte) : ch v < 256 := by rw [← hch]; exact BitVec.isLt _
  have hr := hlt p.r
  have hg := hlt p.g
  have hb := hlt p.b
  show (((if dte then clamp8 ((p.b.toNat : Int) + d) else p.b).extractLsb' 3 5) ++
    (((if dte then clamp8 ((p.g.toNat : Int) + d) else p.g).extractLsb' 2 6) ++
      ((if dte then clamp8 ((p.r.toNat : Int) + d) else p.r).extractLsb' 3 5))).toNat = _
  simp only [toNat_append_eq_add, BitVec.extractLsb'_toNat, Nat.shiftRight_eq_div_pow, hch]
  omega

/-- Settles O46: byte by byte, and the tables' answers. -/
theorem outputQuadwordBytes : Obligations.OutputQuadwordBytes := by
  unfold Obligations.OutputQuadwordBytes
  intro m clut dte px c k
  have hhalf (j : Nat) : 2 * j / 2 = j ∧ (2 * j + 1) / 2 = j ∧ 2 * j % 2 = 0 ∧ (2 * j + 1) % 2 = 1 := by omega
  refine ⟨fun j hj => qwByte_qwOfBytes _ j hj, fun j hj => ?_, fun j hj => qwByte_qwOfBytes _ j hj, fun j hj => ?_,
    fun p x y v h => tableAnswer_of_answers _ h, fun p x y h => ?_, fun p x y e h => tableAnswer_of_answers _ h⟩
  · obtain ⟨hlow, hhigh, hlow', hhigh'⟩ := hhalf j
    exact qwByte_pair _ _ j hj (by rw [hlow, hlow']) (by rw [hhigh, hhigh'])
  · obtain ⟨hlow, hhigh, hlow', hhigh'⟩ := hhalf j
    exact qwByte_pair _ _ j hj (by rw [hlow, hlow']) (by rw [hhigh, hhigh'])
  · have hdefault : narrow16 m p x y dte = narrow16Default m p x y dte := tableAnswer_of_unlisted _ h
    rw [hdefault]
    exact narrow16Default_toNat m p x y dte

end Sys2Proof.Machine
end

section
/-! SUPPORT. The parts of a step of CSC and PACK, by what there is ahead and what the output side takes: the input of a
macroblock, the drain of one, and the rounds (`43_command_dispatcher.md` R247, R248, R255, R257). -/

namespace Sys2Proof.Machine

/-! ### The output side -/

/-- The quadwords `qs` put on the output side. -/
def putOut (qs : List QWord) (s : State) : State :=
  (s.setFifoOut (s.unit.fifoOut ++ qs)).setCtrl (putOFC (s.ofc + BitVec.ofNat 4 qs.length) s.unit.ctrl)

theorem putOut_ctrl (qs : List QWord) (s : State) : CtrlKept (fun i => i < 4 ∨ 8 ≤ i) s (putOut qs s) :=
  fun i hi => getLsbD_putField_other 4 _ _ i (by decide) (by omega)

theorem putOut_sameSide (qs : List QWord) (s : State) : SameSide s (putOut qs s) :=
  ⟨rfl, rfl, ctrlIFC_putOFC _ _⟩

theorem putOut_counted {qs : List QWord} {s : State} (h : OutputCounted s) (hl : s.unit.fifoOut.length + qs.length ≤ 15) :
    OutputCounted (putOut qs s) := by
  have hofc : (putOut qs s).ofc = s.ofc + BitVec.ofNat 4 qs.length := ctrlOFC_putOFC _ _
  unfold OutputCounted at *
  rw [hofc, BitVec.toNat_add, h, BitVec.toNat_ofNat]
  show _ = (s.unit.fifoOut ++ qs).length
  rw [List.length_append]
  omega

/-- What the output FIFO still takes is at most its fifteen places. -/
theorem outRoom_le (s : State) : outRoom s ≤ 15 := by
  have := s.cfg.fifoOutCap.isLt
  unfold outRoom
  omega

theorem putField_putField (lo : Nat) {w : Nat} (v v' : BitVec w) (c : Word) (hw : lo + w ≤ 32) :
    putField lo v (putField lo v' c) = putField lo v c := by
  apply BitVec.eq_of_getLsbD_eq
  intro i _
  rw [getLsbD_putField lo v _ i hw, getLsbD_putField lo v c i hw]
  split
  · rfl
  · rename_i h
    rw [getLsbD_putField lo v' c i hw, if_neg h]

theorem drained_ctrl (qw : Nat → QWord) (n k : Nat) (s : State) :
    (drained qw n k s).unit.ctrl = putOFC (s.ofc + BitVec.ofNat 4 n) s.unit.ctrl := by
  induction n generalizing k s with
  | zero =>
    show s.unit.ctrl = _
    apply BitVec.eq_of_getLsbD_eq
    intro i _
    rw [putOFC, getLsbD_putField 4 _ _ i (by decide)]
    split
    · rename_i h
      rw [show s.ofc + BitVec.ofNat 4 0 = s.ofc from BitVec.add_zero _, State.ofc, ctrlOFC, getField,
        BitVec.getLsbD_extractLsb']
      simp only [show i - 4 < 4 by omega, decide_true, Bool.true_and]
      rw [show 4 + (i - 4) = i by omega]
    · rfl
  | succ n ih =>
    show (drained qw n (k + 1) (drainOne (qw k) k s)).unit.ctrl = _
    rw [ih, drainOne_ofc]
    show putOFC _ (putOFC _ s.unit.ctrl) = _
    rw [putOFC, putOFC, putField_putField _ _ _ _ (by decide), BitVec.add_assoc, putOFC, Nat.add_comm n 1,
      BitVec.ofNat_add]
    rfl

/-- A drain puts its quadwords on the output side, and moves the marker past them. -/
theorem drained_eq (qw : Nat → QWord) (n k : Nat) (s : State) (hk : s.unit.cmd.pos1 = BitVec.ofNat 32 k) :
    drained qw n k s = (putOut ((List.range n).map fun j => qw (k + j)) s).setCmd
      { s.unit.cmd with pos1 := BitVec.ofNat 32 (k + n) } := by
  obtain ⟨hfifo, hcmd, -, -, hframe⟩ := drained_spec qw n k s
  have hmark : (if n = 0 then s.unit.cmd.pos1 else BitVec.ofNat 32 (k + n)) = BitVec.ofNat 32 (k + n) := by
    split
    · rename_i h
      rw [hk, h, Nat.add_zero]
    · rfl
  rw [hmark] at hcmd
  rw [hframe, hfifo, hcmd, drained_ctrl]
  unfold putOut
  rw [List.length_map, List.length_range]
  rfl

/-- A drain from `cmd.pos1` on puts out what there is room for, and goes on where that is all (R255). -/
theorem drain_cases (total : Nat) (qw : Nat → QWord) {k : Nat} {s : State} (hk : s.unit.cmd.pos1 = BitVec.ofNat 32 k)
    (hle : k ≤ total) (htotal : total < 2 ^ 32) (ho : OutputCounted s)
    (hcap : s.unit.fifoOut.length ≤ s.cfg.fifoOutCap.toNat) :
    (outRoom s < total - k → drain total qw s = .stop ((putOut ((List.range (outRoom s)).map fun j => qw (k + j)) s).setCmd
        { s.unit.cmd with pos1 := BitVec.ofNat 32 (k + outRoom s) })) ∧
      (total - k ≤ outRoom s → drain total qw s = .go ((putOut ((List.range (total - k)).map fun j => qw (k + j)) s).setCmd
        { s.unit.cmd with pos1 := BitVec.ofNat 32 total })) := by
  have hpos : s.unit.cmd.pos1.toNat = k := by
    rw [hk, BitVec.toNat_ofNat, Nat.mod_eq_of_lt (by omega)]
  obtain ⟨hall, hpart⟩ := drainLoop_spec qw (total - k) k s
  have hroom : s.ofc.toNat + outRoom s = s.cfg.fifoOutCap.toNat := by
    unfold outRoom
    rw [ho]
    omega
  unfold drain
  rw [hpos]
  refine ⟨fun h => ?_, fun h => ?_⟩
  · rw [hpart _ h hroom, drained_eq qw _ _ s hk]
  · rw [hall (.inl (by omega)), drained_eq qw _ _ s hk, show k + (total - k) = total by omega]

theorem map_range_length {α : Type} (n : Nat) (f : Nat → α) : ((List.range n).map f).length = n := by
  rw [List.length_map, List.length_range]

/-- The output side is counted after a step that read the stream and changed the unit elsewhere. -/
theorem OutputCounted.withInput {s x u : State} (ho : OutputCounted s) (honly : InputOnly s x)
    (hfifo : u.unit.fifoOut = s.unit.fifoOut) : OutputCounted (withInput x u) := by
  have hofc : (Machine.withInput x u).ofc = s.ofc := honly.ofc
  unfold OutputCounted at *
  rw [hofc, ho]
  exact congrArg List.length hfifo.symm

/-- From `s` to `d` the stream was read as in `x`, the quadwords `qs` went out, and the command and the macroblock buffer
became `c` and `mb`. -/
structure WentOut (qs : List QWord) (c : Command) (mb : MacroblockBuffer) (s x d : State) : Prop where
  side : SameSide x d
  counted : OutputCounted d
  ctrl : CtrlKept (fun i => 8 ≤ i) s d
  calm : Calm s d
  unit : d.unit = { s.unit with
    ctrl := d.unit.ctrl, cmd := c, cur := d.unit.cur, fifoIn := d.unit.fifoIn, fifoOut := s.unit.fifoOut ++ qs, mb := mb }

theorem putOut_wentOut {s x : State} {qs : List QWord} (c : Command) (mb : MacroblockBuffer) (honly : InputOnly s x)
    (ho : OutputCounted s) (hcap : s.unit.fifoOut.length ≤ s.cfg.fifoOutCap.toNat) (hl : qs.length ≤ outRoom s) :
    WentOut qs c mb s x ((putOut qs (withInput x (s.setMb mb))).setCmd c) where
  side := ⟨rfl, rfl, (putOut_sameSide qs (withInput x (s.setMb mb))).ifc⟩
  counted := by
    have hlen : s.unit.fifoOut.length + qs.length ≤ 15 := by
      have := s.cfg.fifoOutCap.isLt
      unfold outRoom at hl
      omega
    exact putOut_counted (s := withInput x (s.setMb mb)) (ho.withInput honly rfl) hlen
  ctrl i h8 := (putOut_ctrl qs (withInput x (s.setMb mb)) i (.inr h8)).trans (honly.2 i (by omega))
  calm := ⟨⟨rfl, rfl⟩, ⟨rfl, rfl, fun _ => rfl, rfl⟩, rfl⟩
  unit := rfl

/-! ### The input of a macroblock -/

/-- The stream holds at most the buffer and a full input FIFO, which is less than a macroblock. -/
theorem totalAvail_le (s : State) : totalAvail s ≤ 2176 := by
  have hfp := s.unit.cur.fp.isLt
  have hifc := s.ifc.isLt
  unfold totalAvail Cursor.avail
  split <;> omega

/-- The input phase of CSC or PACK: from byte `k` of a macroblock of `total` bytes on it fills the buffer, which
`Filled` says of it, waits where bytes are missing, and else goes on in phase 1 with the buffer `taken` makes of it. -/
structure MacroblockInput (total : Nat) (Filled : Nat → Nat → State → MacroblockBuffer → Prop)
    (taken : State → MacroblockBuffer → MacroblockBuffer) (input : State → Flow) : Prop where
  enough : 2176 < 8 * total
  short : ∀ k s, InputCounted s → s.unit.cmd.pos1 = BitVec.ofNat 32 k → k ≤ total → totalAvail s < 8 * (total - k) →
    ∃ x mb, InputOnly s x ∧ Took (8 * (totalAvail s / 8)) s x ∧ Filled k (totalAvail s / 8) s mb ∧
      input s = .stop (withInput x ((s.setMb mb).setCmd
        { s.unit.cmd with pos1 := BitVec.ofNat 32 (k + totalAvail s / 8) }))
  full : ∀ k s, InputCounted s → s.unit.cmd.pos1 = BitVec.ofNat 32 k → k ≤ total → 8 * (total - k) ≤ totalAvail s →
    ∃ x mb, InputOnly s x ∧ InputCounted x ∧ Consumed (8 * (total - k)) s x ∧ (k < total → Snapped s x) ∧
      x.unit.cur.hasNew = s.unit.cur.hasNew ∧ Filled k (total - k) s mb ∧
      input s = .go (withInput x ((s.setMb (taken s mb)).setCmd { s.unit.cmd with pos0 := 1, pos1 := 0 }))

section
variable {total : Nat} {Filled : Nat → Nat → State → MacroblockBuffer → Prop}
  {taken : State → MacroblockBuffer → MacroblockBuffer} {store : Nat → Byte → State → State} {finish : State → State}

/-- An input phase that reads bytes to the buffer, each with the marker after it, and then changes the buffer. -/
theorem macroblockInput_of_store (henough : 2176 < 8 * total) (htotal : total < 2 ^ 32) (hst : StoreOk store)
    (hfill : ∀ n k (s : State), s.unit.cmd.pos1 = BitVec.ofNat 32 k → ∃ mb, Filled k n s mb ∧
      storeFold (fun k v s => setPos1 (BitVec.ofNat 32 (k + 1)) (store k v s)) (aheadByte s) n k s =
        (s.setMb mb).setCmd { s.unit.cmd with pos1 := BitVec.ofNat 32 (k + n) })
    (hfinish : ∀ (x s : State) mb c,
      finish (withInput x ((s.setMb mb).setCmd c)) = withInput x ((s.setMb (taken s mb)).setCmd c)) :
    MacroblockInput total Filled taken fun s =>
      (readBytes total store s).bind fun s => .go (setPhase 1 0 (finish s)) where
  enough := henough
  short k s hc hk hle h := by
    have hpos : s.unit.cmd.pos1.toNat = k := by
      rw [hk, BitVec.toNat_ofNat, Nat.mod_eq_of_lt (by omega)]
    obtain ⟨x, honly, htook, he⟩ := byteLoop_short (marked_ok hst) (total - k) k hc h
    obtain ⟨mb, hmb, hfold⟩ := hfill (totalAvail s / 8) k s hk
    refine ⟨x, mb, honly, htook, hmb, ?_⟩
    rw [readBytes, hpos, he, hfold]
    rfl
  full k s hc hk hle h := by
    have hpos : s.unit.cmd.pos1.toNat = k := by
      rw [hk, BitVec.toNat_ofNat, Nat.mod_eq_of_lt (by omega)]
    obtain ⟨x, honly, hcx, hcons, hsnap, hnew, he⟩ := byteLoop_all (marked_ok hst) (total - k) k hc h
    obtain ⟨mb, hmb, hfold⟩ := hfill (total - k) k s hk
    refine ⟨x, mb, honly, hcx, hcons, fun hlt => hsnap (.inl (by omega)), hnew, hmb, ?_⟩
    rw [readBytes, hpos, he, hfold]
    show Flow.go (setPhase 1 0 (finish _)) = _
    rw [hfinish]
    rfl

/-- The marker after `n` bytes. -/
theorem marker_eq {k n : Nat} {p : Word} (hk : p = BitVec.ofNat 32 k) :
    (if n = 0 then p else BitVec.ofNat 32 (k + n)) = BitVec.ofNat 32 (k + n) := by
  split
  · rename_i h
    rw [hk, h, Nat.add_zero]
  · rfl

end

/-- The input phase of CSC: the planes are filled and the macroblock is converted (R247). -/
theorem cscInput_macroblock : MacroblockInput 384 (fun k n s mb => RawFilled k n s (s.setMb mb))
    (fun s mb => { mb with rgb32 := convertMacroblock s.cfg.pixel mb.raw s.unit.th0 s.unit.th1 }) cscInput := by
  refine macroblockInput_of_store (store := storeRaw) (finish := convertMb) (by decide) (by decide) storeRaw_ok
    (fun n k s hk => ?_) fun _ _ _ _ => rfl
  refine ⟨{ s.unit.mb with raw := vecFill (aheadByte s) n k s.unit.mb.raw },
    ⟨rfl, fun j hj => vecFill_getD (aheadByte s) n k s.unit.mb.raw j hj⟩, ?_⟩
  rw [storeFold_raw, marker_eq hk]

/-- The input phase of PACK: the channels are filled (R248). -/
theorem packInput_macroblock : MacroblockInput 1024 (fun k n s mb => PixelsFilled k n s (s.setMb mb))
    (fun _ mb => mb) packInput := by
  refine macroblockInput_of_store (store := storePixel) (finish := id) (by decide) (by decide) storePixel_ok
    (fun n k s hk => ?_) fun _ _ _ _ => rfl
  refine ⟨{ s.unit.mb with rgb32 := pixelFill (aheadByte s) n k s.unit.mb.rgb32 },
    ⟨rfl, fun j hj => pixelFill_channel (aheadByte s) n k s.unit.mb.rgb32 j hj⟩, ?_⟩
  rw [storeFold_pixel, marker_eq hk]

/-! ### The rounds -/

/-- The count of macroblocks as it stands in `cmd.index`. -/
theorem index_eq_iff {i : Word} {mbc : BitVec 11} : i = mbc.setWidth 32 ↔ i.toNat = mbc.toNat := by
  have hmbc : (mbc.setWidth 32).toNat = mbc.toNat := BitVec.toNat_setWidth_of_le (by decide)
  rw [← hmbc]
  exact BitVec.toNat_inj.symm

theorem index_ne {i : Word} {mbc : BitVec 11} (h : i.toNat < mbc.toNat) : i ≠ mbc.setWidth 32 := fun e =>
  absurd (index_eq_iff.mp e) (Nat.ne_of_lt h)

theorem index_succ {i : Word} {mbc : BitVec 11} (h : i.toNat < mbc.toNat) : (i + 1).toNat = i.toNat + 1 := by
  have := mbc.isLt
  rw [BitVec.toNat_add]
  change (i.toNat + 1) % 2 ^ 32 = _
  omega

section
variable {mbc : BitVec 11} {input : State → Flow} {fmt : Format} {dte : Bool} (n : Nat) {s : State}

/-- After the last macroblock the command completes. -/
theorem macroblockLoop_last (h : s.unit.cmd.index.toNat = mbc.toNat) :
    macroblockLoop mbc input fmt dte (n + 1) s = .stop (complete s) := by
  unfold macroblockLoop
  rw [if_pos (index_eq_iff.mpr h)]

section
variable (h : s.unit.cmd.index ≠ mbc.setWidth 32)
include h

/-- A round whose input phase waits. -/
theorem macroblockLoop_input_stop (hp : s.unit.cmd.pos0 = 0) {t : State} (ht : input s = .stop t) :
    macroblockLoop mbc input fmt dte (n + 1) s = .stop t := by
  unfold macroblockLoop
  rw [if_neg h, if_pos hp, ht]
  rfl

/-- A round whose input phase goes on is the round in phase 1. -/
theorem macroblockLoop_input_go (hp : s.unit.cmd.pos0 = 0) {t : State} (ht : input s = .go t)
    (hpt : t.unit.cmd.pos0 ≠ 0) (hit : t.unit.cmd.index = s.unit.cmd.index) :
    macroblockLoop mbc input fmt dte (n + 1) s = macroblockLoop mbc input fmt dte (n + 1) t := by
  unfold macroblockLoop
  rw [if_neg h, if_pos hp, ht, hit, if_neg h, if_neg hpt]

/-- A round in phase 1 puts out what there is room for: the command waits, or the next round begins (R255). -/
theorem macroblockLoop_drain (hp : s.unit.cmd.pos0 ≠ 0) {k : Nat} (hk : s.unit.cmd.pos1 = BitVec.ofNat 32 k)
    (hle : k ≤ fmt.outCount) (ho : OutputCounted s) (hcap : s.unit.fifoOut.length ≤ s.cfg.fifoOutCap.toNat) :
    (outRoom s < fmt.outCount - k → macroblockLoop mbc input fmt dte (n + 1) s =
        .stop ((putOut ((List.range (outRoom s)).map fun j =>
          outQW s.cfg.pixel s.unit.vqclut fmt dte s.unit.mb.rgb32 (k + j)) s).setCmd
            { s.unit.cmd with pos1 := BitVec.ofNat 32 (k + outRoom s) })) ∧
      (fmt.outCount - k ≤ outRoom s → macroblockLoop mbc input fmt dte (n + 1) s =
        macroblockLoop mbc input fmt dte n ((putOut ((List.range (fmt.outCount - k)).map fun j =>
          outQW s.cfg.pixel s.unit.vqclut fmt dte s.unit.mb.rgb32 (k + j)) s).setCmd
            { s.unit.cmd with pos0 := 0, pos1 := 0, index := s.unit.cmd.index + 1 })) := by
  have htotal : fmt.outCount < 2 ^ 32 := by cases fmt <;> decide
  obtain ⟨hpart, hall⟩ := drain_cases fmt.outCount (outQW s.cfg.pixel s.unit.vqclut fmt dte s.unit.mb.rgb32) hk hle htotal
    ho hcap
  have hround : macroblockLoop mbc input fmt dte (n + 1) s = ((drainMb fmt dte s).bind fun s =>
      .go (setPhase 0 0 (bumpIndex s))).bind (macroblockLoop mbc input fmt dte n) := by
    conv_lhs => unfold macroblockLoop
    rw [if_neg h, if_neg hp]
    rfl
  rw [hround, drainMb]
  constructor
  · intro hroom
    rw [hpart hroom]
    rfl
  · intro hroom
    rw [hall hroom]
    rfl

end

end

end Sys2Proof.Machine
end

section
/-! SUPPORT. CSC and PACK, written and resumed: what a dispatch step takes in and puts out, and how it ends
(`43_command_dispatcher.md` R247, R248, R255, R257). -/

namespace Sys2Proof.Machine

/-! ### A step that takes in what there is -/

section
variable {total : Nat} {Filled : Nat → Nat → State → MacroblockBuffer → Prop}
  {taken : State → MacroblockBuffer → MacroblockBuffer} {mbc : BitVec 11} {input : State → Flow} {fmt : Format}
  {dte : Bool} (hin : MacroblockInput total Filled taken input) (n : Nat) {k : Nat} {s : State}
  (hindex : s.unit.cmd.index ≠ mbc.setWidth 32) (hp : s.unit.cmd.pos0 = 0)
  (hk : s.unit.cmd.pos1 = BitVec.ofNat 32 k) (hle : k ≤ total) (hc : InputCounted s)
include hin hindex hp hk hle hc

/-- Short of the rest of a macroblock, its whole bytes go to the buffer and the command waits in phase 0. -/
theorem macroblockLoop_waits (h : totalAvail s < 8 * (total - k)) :
    ∃ t, macroblockLoop mbc input fmt dte (n + 1) s = .stop t ∧ Took (8 * (totalAvail s / 8)) s t ∧
      Filled k (totalAvail s / 8) s t.unit.mb ∧
      t.unit.cmd = { s.unit.cmd with pos1 := BitVec.ofNat 32 (k + totalAvail s / 8) } ∧
      CtrlKept (fun i => 4 ≤ i) s t ∧ Calm s t ∧
      t.unit = { s.unit with
        ctrl := t.unit.ctrl, cmd := t.unit.cmd, cur := t.unit.cur, fifoIn := t.unit.fifoIn, mb := t.unit.mb } := by
  obtain ⟨x, mb, honly, htook, hmb, he⟩ := hin.short k s hc hk hle h
  exact ⟨_, macroblockLoop_input_stop n hindex hp he, htook.sameSide_right (withInput_sameSide x _), hmb, rfl, honly.2,
    calm_unit s _ rfl, rfl⟩

/-- With it, the round is the one in phase 1, with the macroblock in the buffer. -/
theorem macroblockLoop_takes (h : 8 * (total - k) ≤ totalAvail s) :
    ∃ x mb, InputOnly s x ∧ InputCounted x ∧ Consumed (8 * (total - k)) s x ∧ (k < total → Snapped s x) ∧
      x.unit.cur.hasNew = s.unit.cur.hasNew ∧ Filled k (total - k) s mb ∧ macroblockLoop mbc input fmt dte (n + 1) s =
        macroblockLoop mbc input fmt dte (n + 1)
          (withInput x ((s.setMb (taken s mb)).setCmd { s.unit.cmd with pos0 := 1, pos1 := 0 })) := by
  obtain ⟨x, mb, honly, hcx, hcons, hsnap, hnew, hmb, he⟩ := hin.full k s hc hk hle h
  exact ⟨x, mb, honly, hcx, hcons, hsnap, hnew, hmb,
    macroblockLoop_input_go n hindex hp he (show (1 : Word) ≠ 0 by decide) rfl⟩

end

/-- Settles O12: `macroblockLoop_waits` in flight and on the accepted command, whose stream is shorter than a
macroblock. -/
theorem convertersTakeFirstBytes : Obligations.ConvertersTakeFirstBytes := by
  unfold Obligations.ConvertersTakeFirstBytes
  refine and_of_right (fun i mbc dte ofm unused k total s hb hi hkind hindex hp hk hle hc h => ?_)
    fun inFlight i mbc dte ofm unused s hkind hb hc => ?_
  · have hdispatch := dispatchStep_inFlight hb hi
    rcases hkind with ⟨rfl, rfl⟩ | ⟨rfl, rfl⟩
    · obtain ⟨t, hstep, htook, hmb, hcmd, hctrl, ⟨hquiet, hsetup, hresult⟩, hunit⟩ :=
        macroblockLoop_waits (fmt := colourFormat ofm) (dte := dte) cscInput_macroblock mbc.toNat (index_ne hindex) hp hk
          hle hc h
      exact ⟨t, hdispatch.trans hstep, htook.counted, htook.snapped, hcmd, htook.consumed, fun _ => hmb, nofun, hctrl, hquiet,
        hsetup, hresult, hunit⟩
    · obtain ⟨t, hstep, htook, hmb, hcmd, hctrl, ⟨hquiet, hsetup, hresult⟩, hunit⟩ :=
        macroblockLoop_waits (fmt := packFormat ofm) (dte := dte) packInput_macroblock mbc.toNat (index_ne hindex) hp hk
          hle hc h
      exact ⟨t, hdispatch.trans hstep, htook.counted, htook.snapped, hcmd, htook.consumed, nofun, fun _ => hmb, hctrl, hquiet,
        hsetup, hresult, hunit⟩
  · have ha := acceptCommand_sameSide i.word s
    have hbound := totalAvail_le s
    have hwf : i.wf = true ∧ i.port = .command ∧ exec i s = submit i.word (inFlightStep i) s := by
      rcases hkind with rfl | rfl <;> exact ⟨rfl, rfl, rfl⟩
    obtain ⟨hw, hport, hexec⟩ := hwf
    obtain ⟨total, htotal, hkind'⟩ : ∃ total, totalAvail (acceptCommand i.word s) < 8 * (total - 0) ∧
        (i = .csc mbc dte ofm unused ∧ total = 384 ∨ i = .pack mbc dte ofm unused ∧ total = 1024) := by
      rw [ha.totalAvail]
      rcases hkind with rfl | rfl
      · exact ⟨384, by omega, .inl ⟨rfl, rfl⟩⟩
      · exact ⟨1024, by omega, .inr ⟨rfl, rfl⟩⟩
    by_cases hmbc : mbc = 0
    · have hstep : inFlightStep i (acceptCommand i.word s) = .stop (complete (acceptCommand i.word s)) := by
        subst hmbc
        rcases hkind with rfl | rfl
        · exact macroblockLoop_last (mbc := 0) (input := cscInput) (fmt := colourFormat ofm) (dte := dte)
            (s := acceptCommand _ s) 0 rfl
        · exact macroblockLoop_last (mbc := 0) (input := packInput) (fmt := packFormat ofm) (dte := dte)
            (s := acceptCommand _ s) 0 rfl
      have hctrl := complete_ctrlKept (acceptCommand i.word s)
      have hside := complete_sameSide (acceptCommand i.word s)
      have hmb : (complete (acceptCommand i.word s)).unit.mb = s.unit.mb := by rw [complete_eq]; rfl
      refine ⟨_, exec_of_stop hw hport hexec hb ((dispatchStep_inFlight rfl (decode_accepted hw hport s)).trans hstep),
        complete_result _, hctrl.flagsCleared (by decide) (by decide), hside.counted (ha.counted hc),
        fun _ => ⟨complete_completed ⟨rfl, rfl⟩ rfl, ⟨hside.cur, hside.fifoIn⟩, hmb⟩, fun h => absurd hmbc h,
        fun _ h => absurd hmbc h, fun _ h => absurd hmbc h, hctrl.accepted.mono fun i hi => by omega,
        complete_sameSetup ⟨rfl, rfl, fun _ => rfl, rfl⟩, ?_⟩
      rw [complete_eq]
      rfl
    · obtain ⟨t, hstep, hct, hsnap, hcmd, hcons, hraw, hpixels, hctrl, hquiet, hsetup, hresult, hunit⟩ :=
        inFlight i mbc dte ofm unused 0 total (acceptCommand i.word s) rfl (decode_accepted hw hport s) hkind'
          (Nat.pos_of_ne_zero fun h => hmbc (BitVec.eq_of_toNat_eq h)) rfl rfl (Nat.zero_le _) (ha.counted hc) htotal
      rw [ha.totalAvail] at hcmd hcons hraw hpixels
      rw [Nat.zero_add] at hcmd
      exact ⟨t, exec_of_stop hw hport hexec hb hstep, hresult, hctrl.flagsCleared (by decide) (by decide), hct,
        fun h => absurd h hmbc,
        fun _ => ⟨hctrl.waiting (by decide) hcmd hquiet, hcons.sameStream_left ha.sameStream, hsnap, by rw [hunit]; rfl⟩,
        fun h _ => hraw h, fun h _ => hpixels h, hctrl.accepted, hsetup, by rw [hunit]; rfl⟩

/-! ### A step that takes in the rest of a macroblock -/

section
variable {total : Nat} {Filled : Nat → Nat → State → MacroblockBuffer → Prop}
  {taken : State → MacroblockBuffer → MacroblockBuffer} {mbc : BitVec 11} {input : State → Flow}
  (hin : MacroblockInput total Filled taken input) (fmt : Format) (dte : Bool) (n : Nat) {k : Nat} {s : State}
  (hindex : s.unit.cmd.index ≠ mbc.setWidth 32) (hp : s.unit.cmd.pos0 = 0)
  (hk : s.unit.cmd.pos1 = BitVec.ofNat 32 k) (hle : k ≤ total) (hc : InputCounted s) (ho : OutputCounted s)
  (hcap : s.unit.fifoOut.length ≤ s.cfg.fifoOutCap.toNat)
include hin hindex hp hk hle hc ho hcap

/-- It is taken in as `x` leaves the stream and `mb` the buffer, and goes out as far as the output FIFO takes it. -/
theorem macroblockLoop_round (h : 8 * (total - k) ≤ totalAvail s) :
    ∃ x got mb, InputOnly s x ∧ InputCounted x ∧ Consumed (8 * (total - k)) s x ∧ (k < total → Snapped s x) ∧
      x.unit.cur.hasNew = s.unit.cur.hasNew ∧ Filled k (total - k) s got ∧ mb = taken s got ∧
      (outRoom s < fmt.outCount → ∃ t, macroblockLoop mbc input fmt dte (n + 1) s = .stop t ∧
        WentOut ((List.range (outRoom s)).map (outQW s.cfg.pixel s.unit.vqclut fmt dte mb.rgb32))
          { s.unit.cmd with pos0 := 1, pos1 := BitVec.ofNat 32 (outRoom s) } mb s x t) ∧
      (fmt.outCount ≤ outRoom s → ∃ d, macroblockLoop mbc input fmt dte (n + 1) s = macroblockLoop mbc input fmt dte n d ∧
        WentOut ((List.range fmt.outCount).map (outQW s.cfg.pixel s.unit.vqclut fmt dte mb.rgb32))
          { s.unit.cmd with pos0 := 0, pos1 := 0, index := s.unit.cmd.index + 1 } mb s x d) := by
  obtain ⟨x, got, honly, hcx, hcons, hsnap, hnew, hgot, he⟩ :=
    macroblockLoop_takes (fmt := fmt) (dte := dte) hin n hindex hp hk hle hc h
  refine ⟨x, got, taken s got, honly, hcx, hcons, hsnap, hnew, hgot, rfl, ?_⟩
  generalize taken s got = mb at he ⊢
  obtain ⟨hpart, hall⟩ := macroblockLoop_drain (fmt := fmt) (dte := dte) (input := input) (mbc := mbc)
    (s := withInput x ((s.setMb mb).setCmd { s.unit.cmd with pos0 := 1, pos1 := 0 })) n hindex
    (show (1 : Word) ≠ 0 by decide) (k := 0) rfl (Nat.zero_le _) (ho.withInput honly rfl) hcap
  simp only [Nat.zero_add, Nat.sub_zero] at hpart hall
  exact ⟨fun hroom => ⟨_, he.trans (hpart hroom), putOut_wentOut _ mb honly ho hcap (map_range_length _ _).le⟩,
    fun hroom => ⟨_, he.trans (hall hroom), putOut_wentOut _ mb honly ho hcap ((map_range_length _ _).trans_le hroom)⟩⟩

end

/-- Settles O13: the macroblock is taken in, and the output FIFO takes less than all of it. -/
theorem cscConvertsMacroblock : Obligations.CscConvertsMacroblock := by
  unfold Obligations.CscConvertsMacroblock
  intro mbc dte ofm unused k s hb hi hindex hp hk hle hc ho hcap h
  have hbound := outRoom_le s
  have hroom : outRoom s < (colourFormat ofm).outCount := by
    cases ofm <;> exact Nat.lt_of_le_of_lt hbound (by decide)
  obtain ⟨x, got, mb, honly, hcx, hcons, hsnap, -, ⟨-, hraw⟩, hmb, hpart, -⟩ :=
    macroblockLoop_round cscInput_macroblock (colourFormat ofm) dte mbc.toNat hindex hp hk hle hc ho hcap h
  obtain ⟨t, hstep, hside, hot, hctrl, ⟨hquiet, hsetup, hresult⟩, hunit⟩ := hpart hroom
  have hmbraw : mb.raw = got.raw := by rw [hmb]
  have hpixels : mb.rgb32 = convertMacroblock s.cfg.pixel mb.raw s.unit.th0 s.unit.th1 := by rw [hmbraw, hmb]
  refine ⟨t, (dispatchStep_inFlight hb hi).trans hstep, fun j hj => ?_, ?_, ?_, ?_,
    hcons.trans (.zero _ _ hside.sameStream), hside.counted hcx, fun hlt => (hsnap hlt).sameSide hside, hot, hctrl,
    hquiet, hsetup, hresult, ?_⟩ <;> rw [hunit]
  · show mb.raw.getD j 0 = _
    rw [hmbraw]
    exact (hraw j hj).trans (if_congr (by omega) rfl rfl)
  · exact hpixels

end Sys2Proof.Machine
end

section
/-! SUPPORT. PACK takes in a macroblock (`43_command_dispatcher.md` R248), and what CSC and PACK do with one that is in the
buffer (R255). -/

namespace Sys2Proof.Machine

/-- How a command ends that changed nothing but the unit, and completes. -/
theorem complete_of_calm {s u : State} {p : Nat → Prop} (hcalm : Calm s u) (hctrl : CtrlKept p s u)
    (ho : OutputCounted u) :
    Completed s (complete u) ∧ OutputCounted (complete u) ∧ CtrlKept (fun i => p i ∧ i ≠ 31) s (complete u) ∧
      SameSetup s (complete u) ∧ (complete u).result = s.result := by
  obtain ⟨hquiet, hsetup, hresult⟩ := hcalm
  have hfifo : (complete u).unit.fifoOut = u.unit.fifoOut := by rw [complete_eq]
  refine ⟨complete_completed hquiet hsetup.1, ?_, fun i ⟨hi, h31⟩ => (complete_ctrlKept u i h31).trans (hctrl i hi),
    complete_sameSetup hsetup, (complete_result u).trans hresult⟩
  unfold OutputCounted
  rw [complete_ofc, hfifo]
  exact ho

theorem Calm.trans {s t u : State} (h : Calm s t) (g : Calm t u) : Calm s u := by
  obtain ⟨⟨htrace, hpend⟩, ⟨hcfg, hmem, hbytes, hcalls⟩, hresult⟩ := h
  obtain ⟨⟨gtrace, gpend⟩, ⟨gcfg, gmem, gbytes, gcalls⟩, gresult⟩ := g
  exact ⟨⟨gtrace.trans htrace, gpend.trans hpend⟩, ⟨gcfg.trans hcfg, gmem.trans hmem,
    fun a => (gbytes a).trans (hbytes a), gcalls.trans hcalls⟩, gresult.trans hresult⟩

theorem OutputCounted.kept {s t : State} (h : OutputCounted s) (hctrl : CtrlKept (fun i => 4 ≤ i ∧ i < 8) s t)
    (hfifo : t.unit.fifoOut = s.unit.fifoOut) : OutputCounted t := by
  have hofc : t.ofc = s.ofc := getField_congr fun i hi h8 => hctrl i (by omega)
  unfold OutputCounted
  rw [hofc, hfifo]
  exact h

/-- Settles O14: `macroblockLoop_round`, and after a round that puts all out the completion, or the next wait. -/
theorem packTakesMacroblock : Obligations.PackTakesMacroblock := by
  unfold Obligations.PackTakesMacroblock
  intro mbc dte ofm unused k rest s hb hi hindex hp hk hle hc ho hcap h hrest
  obtain ⟨x, px, mb, -, hcx, hcons, hsnap, hnew, ⟨hraw, hpixels⟩, rfl, hpart, hall⟩ :=
    macroblockLoop_round packInput_macroblock (packFormat ofm) dte mbc.toNat (index_ne hindex) hp hk hle hc ho hcap h
  have hpx : ∀ j, j < 1024 → (flatPixel mb.rgb32 (j / 4)).channel (j % 4) =
      if k ≤ j then aheadByte s (j - k) else (flatPixel s.unit.mb.rgb32 (j / 4)).channel (j % 4) :=
    fun j hj => (hpixels j hj).trans (if_congr (by omega) rfl rfl)
  by_cases hroom : outRoom s < (packFormat ofm).outCount
  · obtain ⟨t, hstep, hside, hot, hctrl, ⟨hquiet, hsetup, hresult⟩, hunit⟩ := hpart hroom
    rw [Nat.min_eq_left hroom.le]
    refine ⟨t, mb.rgb32, (dispatchStep_inFlight hb hi).trans hstep, ?_, hpx, ?_,
      fun _ => ⟨?_, ?_, ?_, hcons.trans (.zero _ _ hside.sameStream), hctrl.mono fun i hi => by omega, hquiet⟩, fun h => absurd hroom (Nat.not_lt.mpr h),
      fun h => absurd hroom (Nat.not_lt.mpr h), fun hlt => (hsnap hlt).sameSide hside, hside.counted hcx, hot,
      hctrl.mono fun i hi => hi.1, hsetup, hresult, ?_⟩ <;> rw [hunit]
    exact hraw
  have hfits := Nat.not_lt.mp hroom
  rw [Nat.min_eq_right hfits]
  obtain ⟨n, hn⟩ : ∃ n, mbc.toNat = n + 1 := ⟨mbc.toNat - 1, by omega⟩
  obtain ⟨d, hstep, hside, hod, hctrl, hcalm, hunit⟩ := hall hfits
  replace hstep := (dispatchStep_inFlight hb hi).trans hstep
  rw [hn] at hstep
  have hconsd := hcons.trans (.zero _ _ hside.sameStream)
  have hindexd : d.unit.cmd.index.toNat = s.unit.cmd.index.toNat + 1 := by
    rw [hunit]
    exact index_succ hindex
  by_cases hlast : s.unit.cmd.index.toNat + 1 = mbc.toNat
  · obtain ⟨hcompleted, hot, hctrl, hsetup, hresult⟩ := complete_of_calm hcalm hctrl hod
    rw [macroblockLoop_last n (hindexd.trans hlast)] at hstep
    have hside' := hside.trans (complete_sameSide d)
    refine ⟨_, mb.rgb32, hstep, ?_, hpx, ?_, fun h => absurd h hroom,
      fun _ _ => ⟨?_, hcompleted, hcons.trans (.zero _ _ hside'.sameStream)⟩, fun _ h => absurd hlast h.ne,
      fun hlt => (hsnap hlt).sameSide hside', hside'.counted hcx, hot, hctrl, hsetup, hresult, ?_⟩ <;>
      rw [complete_eq, hunit]
    exact hraw
  · have hbound := totalAvail_le d
    have htotal := hconsd.1
    obtain ⟨t, hwaits, htook, ⟨hraw', hpixels'⟩, hcmd, hctrl', hcalm', hunit'⟩ :=
      macroblockLoop_waits packInput_macroblock (dte := dte) (fmt := packFormat ofm) (mbc := mbc) n (k := 0) (s := d)
        (index_ne (hindexd.trans_lt (by omega))) (by rw [hunit]) (by rw [hunit]; rfl) (Nat.zero_le _)
        (hside.counted hcx) (by omega)
    have hrestd : totalAvail d / 8 = rest := by omega
    rw [hrestd] at htook hpixels' hcmd
    rw [Nat.zero_add] at hcmd
    obtain ⟨hquiet, hsetup, hresult⟩ := hcalm.trans hcalm'
    have hkept : CtrlKept (fun i => 8 ≤ i) s t := fun i h8 => (hctrl' i (by omega)).trans (hctrl i h8)
    have hfifo : t.unit.fifoOut = d.unit.fifoOut := by rw [hunit']
    have hsnap : Snapped s t := ⟨htook.snapped.1, htook.snapped.2.trans ((congrArg _ hside.cur).trans hnew)⟩
    have hpxd : d.unit.mb = mb := by rw [hunit]
    rw [hpxd] at hraw' hpixels'
    refine ⟨t, mb.rgb32, hstep.trans hwaits, hraw'.trans hraw, hpx, ?_, fun h => absurd h hroom,
      fun _ h => absurd h hlast, fun _ _ => ⟨fun j hj => ?_, ?_, ?_, ?_, hsnap, hkept.mono fun i hi => by omega, hquiet⟩,
      fun _ => hsnap, htook.counted, hod.kept (hctrl'.mono fun i hi => hi.1) hfifo, hkept.mono fun i hi => hi.1,
      hsetup, hresult, ?_⟩
    · rw [hfifo, hunit]
    · refine (hpixels' j hj).trans ?_
      by_cases hjr : j < rest
      · rw [if_pos (by omega), if_pos hjr]
        have hbyte : aheadValue d (8 * j) 8 = aheadValue s (8 * (1024 - k) + 8 * j) 8 :=
          aheadValue_consumed hconsd (8 * j) 8 (by omega)
        rw [Nat.sub_zero, aheadByte, aheadByte, hbyte, Nat.mul_add]
      · rw [if_neg (by omega), if_neg hjr]
    · rw [hcmd, hunit]
    · rw [hunit', hunit]
    · have hboth := hconsd.trans htook.consumed
      rwa [Nat.add_zero, ← Nat.mul_add] at hboth
    · rw [hunit', hunit]

/-! ### The drain of a macroblock -/

/-- Bytes that go to a buffer, read from the same stream into the same buffer. -/
theorem RawFilled.of_sameStream {k n : Nat} {s d t : State} (h : RawFilled k n d t) (hd : SameStream s d)
    (hmb : d.unit.mb = s.unit.mb) : RawFilled k n s t := by
  obtain ⟨hrgb, hraw⟩ := h
  rw [hmb] at hrgb hraw
  refine ⟨hrgb, fun j hj => ?_⟩
  rw [hraw j hj, aheadByte, aheadByte, aheadValue_sameStream hd]

theorem PixelsFilled.of_sameStream {k n : Nat} {s d t : State} (h : PixelsFilled k n d t) (hd : SameStream s d)
    (hmb : d.unit.mb = s.unit.mb) : PixelsFilled k n s t := by
  obtain ⟨hraw, hpixels⟩ := h
  rw [hmb] at hraw hpixels
  refine ⟨hraw, fun j hj => ?_⟩
  rw [hpixels j hj, aheadByte, aheadByte, aheadValue_sameStream hd]

/-- CSC and PACK in flight are the rounds over their input phases. -/
theorem Converting.rounds {s : State} {mbc : BitVec 11} {dte : Bool} {fmt : Format} (h : Converting s mbc dte fmt) :
    ∃ total Filled taken input, MacroblockInput total Filled taken input ∧
      dispatchStep s = macroblockLoop mbc input fmt dte (mbc.toNat + 1) s ∧
      ∀ (n : Nat) (d t : State), SameStream s d → d.unit.mb = s.unit.mb → Filled 0 n d t.unit.mb →
        (∀ ofm unused, decodeCommand s.unit.cmd.current = .csc mbc dte ofm unused → RawFilled 0 n s t) ∧
          ∀ ofm unused, decodeCommand s.unit.cmd.current = .pack mbc dte ofm unused → PixelsFilled 0 n s t := by
  obtain ⟨hb, ⟨ofm, unused, hi, rfl⟩ | ⟨ofm, unused, hi, rfl⟩⟩ := h
  · refine ⟨_, _, _, _, cscInput_macroblock, dispatchStep_inFlight hb hi, fun n d t hd hmb hfill => ⟨fun _ _ _ => ?_, ?_⟩⟩
    · exact RawFilled.of_sameStream (t := t) hfill hd hmb
    · rw [hi]
      nofun
  · refine ⟨_, _, _, _, packInput_macroblock, dispatchStep_inFlight hb hi, fun n d t hd hmb hfill => ⟨?_, fun _ _ _ => ?_⟩⟩
    · rw [hi]
      nofun
    · exact PixelsFilled.of_sameStream (t := t) hfill hd hmb

/-- Settles O15: `macroblockLoop_drain`, and after a drain that puts all out the completion, or the next wait. -/
theorem convertersDrainAndComplete : Obligations.ConvertersDrainAndComplete := by
  unfold Obligations.ConvertersDrainAndComplete
  intro mbc dte fmt k s hconv hindex hp hk hle ho hcap
  obtain ⟨total, Filled, taken, input, hin, hdispatch, hfilled⟩ := hconv.rounds
  obtain ⟨n, hn⟩ : ∃ n, mbc.toNat = n + 1 := ⟨mbc.toNat - 1, by omega⟩
  obtain ⟨hpart, hall⟩ := macroblockLoop_drain (fmt := fmt) (dte := dte) (input := input) (mbc := mbc) mbc.toNat
    (index_ne hindex) (by rw [hp]; decide) hk hle ho hcap
  have hgone : fmt.outCount - k ≤ outRoom s → ∃ d,
      dispatchStep s = macroblockLoop mbc input fmt dte (n + 1) d ∧ CtrlKept (fun i => i < 4 ∨ 8 ≤ i) s d ∧
        WentOut ((List.range (fmt.outCount - k)).map fun j =>
          outQW s.cfg.pixel s.unit.vqclut fmt dte s.unit.mb.rgb32 (k + j))
          { s.unit.cmd with pos0 := 0, pos1 := 0, index := s.unit.cmd.index + 1 } s.unit.mb s s d := by
    intro hroom
    have hstep := hdispatch.trans (hall hroom)
    rw [hn] at hstep
    exact ⟨_, hstep, putOut_ctrl _ s,
      putOut_wentOut (x := s) _ _ (.refl s) ho hcap ((map_range_length _ _).trans_le hroom)⟩
  refine ⟨fun hroom => ?_, fun hroom hlast => ?_, fun hroom hnext hc => ?_⟩
  · have hwent := putOut_wentOut (x := s) (qs := (List.range (outRoom s)).map fun j =>
      outQW s.cfg.pixel s.unit.vqclut fmt dte s.unit.mb.rgb32 (k + j))
      { s.unit.cmd with pos1 := BitVec.ofNat 32 (k + outRoom s) } s.unit.mb (.refl s) ho hcap (map_range_length _ _).le
    exact ⟨_, hdispatch.trans (hpart hroom), rfl, rfl, hwent.counted, putOut_ctrl _ s, ⟨rfl, rfl⟩,
      ⟨rfl, rfl, fun _ => rfl, rfl⟩, rfl, rfl⟩
  · obtain ⟨d, hstep, hctrl, hside, hod, -, hcalm, hunit⟩ := hgone hroom
    obtain ⟨hcompleted, hot, hctrl, hsetup, hresult⟩ := complete_of_calm hcalm hctrl hod
    rw [macroblockLoop_last n (by rw [hunit]; exact (index_succ hindex).trans hlast)] at hstep
    refine ⟨_, hstep, hcompleted, ?_, hot, hctrl, hsetup, hresult, ?_⟩ <;> rw [complete_eq, hunit, hside.cur, hside.fifoIn]
  · obtain ⟨d, hstep, -, hside, hod, hctrl, hcalm, hunit⟩ := hgone hroom
    have hbound := totalAvail_le d
    have henough := hin.enough
    obtain ⟨t, hwaits, htook, hfill, hcmd, hctrl', hcalm', hunit'⟩ :=
      macroblockLoop_waits hin (dte := dte) (fmt := fmt) (mbc := mbc) n (k := 0) (s := d)
        (index_ne (by rw [hunit]; exact (index_succ hindex).trans_lt hnext)) (by rw [hunit]) (by rw [hunit]; rfl)
        (Nat.zero_le _) (hside.counted hc) (by omega)
    rw [hside.totalAvail] at htook hfill hcmd
    rw [Nat.zero_add] at hcmd
    obtain ⟨hquiet, hsetup, hresult⟩ := hcalm.trans hcalm'
    obtain ⟨hct, hcons, hsnap⟩ := Took.sameSide_left hside htook
    have hfifo : t.unit.fifoOut = d.unit.fifoOut := by rw [hunit']
    obtain ⟨hraw, hpixels⟩ := hfilled _ d t hside.sameStream (by rw [hunit]) hfill
    refine ⟨t, hstep.trans hwaits, ?_, ?_, hraw, hpixels, hcons, hsnap, hct, hod.kept (hctrl'.mono fun i hi => hi.1) hfifo,
      fun i h8 => (hctrl' i (by omega)).trans (hctrl i h8), hquiet, hsetup, hresult, ?_⟩
    · rw [hfifo, hunit]
    · rw [hcmd, hunit]
    · rw [hunit', hunit]

end Sys2Proof.Machine
end

section
/-! SUPPORT. Two states with the same input side answer the cursor alike, so that a run of the library's requests is the
same before and after what changes nothing of the input side (`40_bitstream_cursor.md` R142 to R148). -/

namespace Sys2Proof.Machine

/-! ### One operation -/

/-- Two outcomes of a cursor operation agree: on the value, and on the input side they leave. -/
def Take.Alike {α : Type} : Take α → Take α → Prop
  | .ok a x, .ok b y => a = b ∧ SameSide x y
  | .short x, .short y => SameSide x y
  | .bad, .bad => True
  | _, _ => False

/-- Two outcomes of a request agree: on the reply, and on the input side they leave. -/
def Served.Alike : Served → Served → Prop
  | .reply a x, .reply b y => a = b ∧ SameSide x y
  | .wait x, .wait y => SameSide x y
  | .fault f, .fault g => f = g
  | .refused r, .refused q => r = q
  | _, _ => False

theorem Take.Alike.served {α : Type} {f g : Take α} (h : f.Alike g) (k : α → LibReply) :
    (f.served k).Alike (g.served k) := by
  cases f with
  | ok a x =>
    cases g with
    | ok b y =>
      obtain ⟨hv, hside⟩ := h
      exact ⟨congrArg k hv, hside⟩
    | short _ | bad => exact h.elim
  | short x =>
    cases g with
    | short y => exact h
    | ok _ _ | bad => exact h.elim
  | bad =>
    cases g with
    | bad => exact rfl
    | ok _ _ | short _ => exact h.elim

section
variable {s t : State} (h : SameSide s t)
include h

theorem SameSide.setCur (c : Cursor) : SameSide (s.setCur c) (t.setCur c) := ⟨rfl, h.fifoIn, h.ifc⟩

theorem SameSide.snapIfc : SameSide (snapIfc s) (snapIfc t) := by
  unfold Machine.snapIfc
  rw [h.cur, h.ifc]
  exact h.setCur _

theorem SameSide.advanceSnap (n : Nat) : SameSide (advanceSnap n s) (advanceSnap n t) := by
  unfold Machine.advanceSnap
  rw [h.cur]
  exact (h.setCur _).snapIfc

/-- A quadword is taken from both input FIFOs or from neither. -/
theorem SameSide.inTake : (inTake s = none ∧ inTake t = none) ∨
    ∃ q x y, inTake s = some (q, x) ∧ inTake t = some (q, y) ∧ SameSide x y := by
  unfold Machine.inTake
  rw [h.ifc, h.fifoIn]
  split
  · exact .inl ⟨rfl, rfl⟩
  · cases s.unit.fifoIn with
    | nil => exact .inl ⟨rfl, rfl⟩
    | cons q qs => exact .inr ⟨q, _, _, rfl, rfl, h.cur, rfl, (ctrlIFC_putIFC _ _).trans (ctrlIFC_putIFC _ _).symm⟩

end

theorem SameSide.pullLoop {s t : State} (h : SameSide s t) (want n : Nat) :
    SameSide (pullLoop want n s) (pullLoop want n t) := by
  induction n generalizing s t with
  | zero => exact h
  | succ n ih =>
    unfold Machine.pullLoop
    rw [h.cur]
    split
    · obtain ⟨hs, ht⟩ | ⟨q, x, y, hs, ht, hxy⟩ := h.inTake <;> rw [hs, ht]
      · exact h
      · dsimp only
        rw [hxy.cur]
        exact ih (hxy.setCur _)
    · exact h

theorem SameSide.pull {s t : State} (h : SameSide s t) (want : Nat) : SameSide (pull want s) (pull want t) :=
  (h.pullLoop want Config.bufQw).snapIfc

section
variable {s t : State} (h : SameSide s t)
include h

theorem SameSide.readBits (w : Nat) : (readBits w s).Alike (readBits w t) := by
  unfold Machine.readBits
  dsimp only
  rw [(h.pull w).cur]
  split
  · split
    · exact h.pull w
    · exact ⟨rfl, (h.pull w).advanceSnap w⟩
  · trivial

theorem SameSide.peekBits (w : Nat) : (peekBits w s).Alike (peekBits w t) := by
  unfold Machine.peekBits
  dsimp only
  rw [(h.pull w).cur]
  split
  · split
    · exact h.pull w
    · exact ⟨rfl, h.pull w⟩
  · trivial

theorem SameSide.skipBits (n : Nat) : (skipBits n s).Alike (skipBits n t) := by
  unfold Machine.skipBits
  dsimp only
  rw [(h.pull n).cur]
  split
  · split
    · exact h.pull n
    · exact ⟨rfl, (h.pull n).advanceSnap n⟩
  · trivial

theorem SameSide.alignByte : (alignByte s).Alike (alignByte t) := by
  unfold Machine.alignByte
  dsimp only
  rw [h.cur, (h.pull 1).cur]
  split
  · exact ⟨rfl, h.snapIfc⟩
  · split
    · exact h.pull 1
    · exact ⟨rfl, (h.pull 1).advanceSnap _⟩

/-- A request is served alike. -/
theorem SameSide.serveCursor (req : LibRequest) : (serveCursor req s).Alike (serveCursor req t) := by
  cases req with
  | skip n => exact (h.skipBits n).served _
  | read n => exact (h.readBits n).served _
  | peek n => exact (h.peekBits n).served _
  | align => exact h.alignByte.served _
  | refill hint n =>
    rw [serveCursor_refill, serveCursor_refill, (h.pull _).cur]
    split
    · rfl
    · exact ⟨rfl, h.pull _⟩
  | emitMB _ | emitCoef _ | done _ => exact rfl

/-- What a cursor operation answers, it answers on the other state. -/
theorem SameSide.skipBits_ok {n : Nat} {x : State} (e : Machine.skipBits n s = .ok () x) :
    ∃ y, Machine.skipBits n t = .ok () y ∧ SameSide x y := by
  have ha := h.skipBits n
  rw [e] at ha
  cases ht : Machine.skipBits n t with
  | ok _ y => rw [ht] at ha; exact ⟨y, rfl, ha.2⟩
  | short y => rw [ht] at ha; exact ha.elim
  | bad => rw [ht] at ha; exact ha.elim

theorem SameSide.serveCursor_reply {req : LibRequest} {a : LibReply} {x : State}
    (e : Machine.serveCursor req s = .reply a x) : ∃ y, Machine.serveCursor req t = .reply a y ∧ SameSide x y := by
  have ha := h.serveCursor req
  rw [e] at ha
  cases ht : Machine.serveCursor req t with
  | reply b y => rw [ht] at ha; obtain ⟨rfl, hxy⟩ := ha; exact ⟨y, rfl, hxy⟩
  | wait y => rw [ht] at ha; exact ha.elim
  | fault f => rw [ht] at ha; exact ha.elim
  | refused r => rw [ht] at ha; exact ha.elim

theorem SameSide.serveCursor_wait {req : LibRequest} {x : State} (e : Machine.serveCursor req s = .wait x) :
    ∃ y, Machine.serveCursor req t = .wait y ∧ SameSide x y := by
  have ha := h.serveCursor req
  rw [e] at ha
  cases ht : Machine.serveCursor req t with
  | wait y => rw [ht] at ha; exact ⟨y, rfl, ha⟩
  | reply b y => rw [ht] at ha; exact ha.elim
  | fault f => rw [ht] at ha; exact ha.elim
  | refused r => rw [ht] at ha; exact ha.elim

end

/-! ### A run of requests -/

/-- A run of answered requests is one on another state with the same input side. -/
theorem SessionRun.sameSide {n : Nat} {ses ses' : LibSession} {s t v : State} (hrun : SessionRun n ses s ses' v)
    (h : SameSide s t) (hcfg : t.cfg = s.cfg) : ∃ w, SessionRun n ses t ses' w ∧ SameSide v w := by
  induction n generalizing ses s t with
  | zero =>
    obtain ⟨rfl, rfl⟩ := hrun
    exact ⟨t, ⟨rfl, rfl⟩, h⟩
  | succ n ih =>
    obtain ⟨a, u, hserve, hrun⟩ := hrun
    obtain ⟨y, hy, huy⟩ := h.serveCursor_reply hserve
    have hu : InputOnly s u := by have hin := serveCursor_inputOnly ses.req s; rwa [hserve] at hin
    have hty : InputOnly t y := by have hin := serveCursor_inputOnly ses.req t; rwa [hy] at hin
    have hcfg' : y.cfg = u.cfg := by rw [hty.eq_withInput, hu.eq_withInput]; exact hcfg
    obtain ⟨w, hw, hvw⟩ := ih hrun huy hcfg'
    exact ⟨w, ⟨a, y, hy, by rw [hcfg]; exact hw⟩, hvw⟩

end Sys2Proof.Machine
end

section
/-! SUPPORT. The session part of a dispatch step of IDEC, BDEC and VDEC for rules that are given: how it begins, runs, ends
with a result and waits (`43_command_dispatcher.md` R241 to R243, R250 to R256). -/

namespace Sys2Proof.Machine

/-! ### The rules of a command -/

/-- `r` is what the instruction, with this `FB` field, does with the requests that are its own (R241 to R243). -/
inductive RulesOf : Instr → BitVec 6 → SessionRules → Prop
  | idec fb qsc dtd sgn dte ofm lo hi :
    RulesOf (.idec fb qsc dtd sgn dte ofm lo hi) fb (idecRules qsc dtd sgn dte ofm)
  | bdec fb qsc dt dcr mbi lo hi : RulesOf (.bdec fb qsc dt dcr mbi lo hi) fb (bdecRules qsc dt dcr mbi)
  | vdec fb tbl unused : RulesOf (.vdec fb tbl unused) fb (vdecRules tbl)

/-- The word a result leaves in `cmdData` (R243). -/
def resultWord (c : LibCommand) (res : LibResult) (w : Word) : Word :=
  match c with
  | .vdec _ => res.data
  | .idec _ _ _ | .bdec _ _ _ _ => w

theorem exists_rulesOf {i : Instr} {fb : BitVec 6} {c : LibCommand} (h : librarySession i = some (fb, c)) :
    ∃ r, RulesOf i fb r ∧ r.command = c := by
  cases i with
  | idec fb qsc dtd sgn dte ofm lo hi => cases h; exact ⟨_, .idec .., rfl⟩
  | bdec fb qsc dt dcr mbi lo hi => cases h; exact ⟨_, .bdec .., rfl⟩
  | vdec fb tbl unused => cases h; exact ⟨_, .vdec .., rfl⟩
  | _ => cases h

section
variable {i : Instr} {fb : BitVec 6} {r : SessionRules} (h : RulesOf i fb r)
include h

theorem RulesOf.librarySession : librarySession i = some (fb, r.command) := by
  cases h <;> rfl

theorem RulesOf.inFlightStep : inFlightStep i = sessionStep fb r := by
  cases h <;> rfl

theorem RulesOf.written : i.wf = true ∧ i.port = .command ∧
    ∀ s, exec i s = submit i.word (Machine.inFlightStep i) s := by
  cases h <;> exact ⟨rfl, rfl, fun _ => rfl⟩

theorem RulesOf.takeResult (res : LibResult) (s : State) :
    r.takeResult res s = s.setCmdData (resultWord r.command res s.unit.cmdData) := by
  cases h <;> rfl

end

/-! ### The rounds -/

section
variable {fb : BitVec 6} {r : SessionRules} {s : State}

/-- In phase 1 or 2 a step of the session is its rounds. -/
theorem sessionStep_open (hp : s.unit.cmd.pos0 ≠ 0) : sessionStep fb r s = sessionLoop r Config.serveChunk s := by
  rw [sessionStep, fbPhase, if_neg hp]
  rfl

/-- A step that reaches its session part goes on with the rounds of the session, of which those of answered requests change
the input side only. -/
theorem sessionStep_run {n : Nat} {ses ses' : LibSession} {u v : State} (hbegin : SessionBegins fb r.command s ses u)
    (hrun : SessionRun n ses u ses' v) : InputOnly s v ∧ (sessionCommand s.unit.cmd).pos0 ≠ 2 ∧
      ∀ m, m + n = 1024 → sessionStep fb r s = sessionLoop r m (inSession (sessionCommand s.unit.cmd) ses' v) := by
  suffices hopen : InputOnly s u ∧ (sessionCommand s.unit.cmd).pos0 ≠ 2 ∧
      sessionStep fb r s = sessionLoop r 1024 (inSession (sessionCommand s.unit.cmd) ses u) by
    obtain ⟨honly, hp, hstep⟩ := hopen
    refine ⟨honly.trans hrun.inputOnly, hp, fun m hm => ?_⟩
    rw [hstep, ← hm, sessionLoop_run hp hrun]
  rcases hbegin with ⟨hp, hlib, hskip, rfl⟩ | ⟨hp, hlib, rfl⟩
  · have honly : InputOnly s u := by
      have hin := skipBits_inputOnly fb.toNat s
      rwa [hskip] at hin
    have hphase : fbPhase fb s = .go (setPhase 1 0 u) := by rw [fbPhase, if_pos hp, hskip]
    have hcmd : sessionCommand s.unit.cmd = (setPhase 1 0 u).unit.cmd := by
      rw [honly.eq_withInput]
      exact if_pos hp
    have hses : sessionOf r.command (setPhase 1 0 u) = libOpen r.command s := by
      have hnone : (setPhase 1 0 u).unit.lib = none := by rw [honly.eq_withInput]; exact hlib
      rw [sessionOf, hnone, ← honly.libOpen_eq]
      rfl
    have hp1 : (setPhase 1 0 u).unit.cmd.pos0 ≠ 2 := (by decide : (1 : Word) ≠ 2)
    refine ⟨honly, hcmd ▸ hp1, ?_⟩
    rw [sessionStep, hphase, hcmd, ← hses]
    exact sessionLoop_open r 1023 hp1
  · have hcmd : sessionCommand u.unit.cmd = u.unit.cmd := if_neg (by rw [hp]; decide)
    have hu : inSession u.unit.cmd ses u = u := by rw [inSession, ← hlib]; rfl
    rw [hcmd, hu]
    exact ⟨.refl u, by rw [hp]; decide, sessionStep_open (by rw [hp]; decide)⟩

/-- A request that cannot be served leaves the command with it outstanding. -/
theorem sessionLoop_wait {ses : LibSession} {cmd : Command} {v w : State} (hp : cmd.pos0 ≠ 2)
    (h : serveCursor ses.req v = .wait w) (n : Nat) :
    sessionLoop r (n + 1) (inSession cmd ses v) = .stop (inSession cmd ses w) := by
  rw [sessionLoop_serve hp (by rw [h]; nofun), h]
  rfl

/-- A result is reported, and the command completes. -/
theorem sessionLoop_result {i : Instr} (hr : RulesOf i fb r) {ses : LibSession} {cmd : Command} {v : State}
    {res : LibResult} (hp : cmd.pos0 ≠ 2) (h : ses.req = .done res) (n : Nat) :
    sessionLoop r (n + 1) (inSession cmd ses v) =
      .stop (complete (applyDone res ((inSession cmd ses v).setCmdData (resultWord r.command res v.unit.cmdData)))) := by
  rw [sessionLoop_done r n (inSession cmd ses v) res hp h, hr.takeResult]
  rfl

end

/-! ### The result (R253) -/

section
variable (res : LibResult) (s : State)

theorem applyDone_cbp : ctrlCBP (applyDone res s).unit.ctrl = res.cbp.getD (ctrlCBP s.unit.ctrl) := by
  simp only [applyDone, setLib_ctrl, setCtrl_ctrl, apply_ite ctrlCBP, ctrlCBP_putECD, ctrlCBP_putSCD, ite_self]
  cases res.cbp with
  | none => rfl
  | some p => exact ctrlCBP_putCBP p _

theorem applyDone_scd : ctrlSCD (applyDone res s).unit.ctrl = (res.scd || ctrlSCD s.unit.ctrl) := by
  simp only [applyDone, setLib_ctrl, setCtrl_ctrl, apply_ite ctrlSCD, ctrlSCD_putECD, ctrlSCD_putSCD, ite_self]
  cases res.scd with
  | true => rfl
  | false =>
    cases res.cbp with
    | none => rfl
    | some p => exact ctrlSCD_putCBP p _

theorem applyDone_ecd : ctrlECD (applyDone res s).unit.ctrl = (res.ecd || ctrlECD s.unit.ctrl) := by
  simp only [applyDone, setLib_ctrl, setCtrl_ctrl, apply_ite ctrlECD, ctrlECD_putECD, ctrlECD_putSCD, ite_self]
  cases res.ecd with
  | true => rfl
  | false =>
    cases res.cbp with
    | none => rfl
    | some p => exact ctrlECD_putCBP p _

end

/-- The end of a session on `s`, where a result was reported and the command completed. -/
structure Reported (res : LibResult) (word : Word) (s y t : State) : Prop where
  completed : Completed s t
  setup : SameSetup s t
  result : t.result = s.result
  cbp : ctrlCBP t.unit.ctrl = res.cbp.getD (ctrlCBP y.unit.ctrl)
  scd : ctrlSCD t.unit.ctrl = (res.scd || ctrlSCD y.unit.ctrl)
  ecd : ctrlECD t.unit.ctrl = (res.ecd || ctrlECD y.unit.ctrl)
  ctrl : CtrlKept (fun i => (i < 8 ∨ 16 ≤ i) ∧ i ≠ 31) y t
  unit : t.unit = { y.unit with
    ctrl := t.unit.ctrl, cmd := t.unit.cmd, cmdData := word, pend := t.unit.pend, lib := t.unit.lib }

theorem complete_reported (res : LibResult) (word : Word) {s y : State} (hcalm : Calm s y) :
    Reported res word s y (complete (applyDone res (y.setCmdData word))) := by
  obtain ⟨hquiet, hsetup, hresult⟩ := hcalm
  have hkept := complete_ctrlKept (applyDone res (y.setCmdData word))
  refine ⟨complete_completed hquiet hsetup.1, complete_sameSetup hsetup, (complete_result _).trans hresult, ?_, ?_, ?_,
    fun i ⟨hi, h31⟩ => (hkept i h31).trans (applyDone_ctrl res (y.setCmdData word) i hi), ?_⟩
  · exact (getField_congr fun i _ hi => hkept i (by omega)).trans (applyDone_cbp res (y.setCmdData word))
  · exact (hkept 15 (by decide)).trans (applyDone_scd res (y.setCmdData word))
  · exact (hkept 14 (by decide)).trans (applyDone_ecd res (y.setCmdData word))
  · rw [complete_eq]
    rfl

theorem inSession_calm {s v : State} (h : Calm s v) (cmd : Command) (ses : LibSession) : Calm s (inSession cmd ses v) :=
  ⟨h.quiet, h.setup, h.result⟩

/-- A session opened when the command is accepted is given the parameters as they stood (R234, R251). -/
theorem libParams_accepted (c : LibCommand) (w : Word) (s : State) :
    libParams c (acceptCommand w s).unit = libParams c s.unit := by
  simp [libParams, acceptCommand_eq]

theorem libOpen_accepted (c : LibCommand) (w : Word) (s : State) : libOpen c (acceptCommand w s) = libOpen c s := by
  unfold libOpen
  rw [libParams_accepted]
  rfl

/-! ### The statements -/

/-- Settles O16: the rounds of the answered requests, then the round of the result. -/
theorem sessionReportsResult : Obligations.SessionReportsResult := by
  unfold Obligations.SessionReportsResult
  refine and_of_right (fun fb c res n ses ses' s u v hb hi hbegin hrun hn hreq => ?_)
    fun inFlight i fb c res s hi hb hc h hdone => ?_
  · obtain ⟨r, hr, rfl⟩ := exists_rulesOf hi
    obtain ⟨honly, hp, hstep⟩ := sessionStep_run hbegin hrun
    have hround := (hstep (1023 - n + 1) (by omega)).trans (sessionLoop_result hr hp hreq (1023 - n))
    obtain ⟨hcompleted, hsetup, hresult, hcbp, hscd, hecd, hctrl, hunit⟩ :=
      complete_reported res (resultWord r.command res v.unit.cmdData) (inSession_calm honly.calm (sessionCommand s.unit.cmd) ses')
    have hcbpv : ctrlCBP v.unit.ctrl = ctrlCBP s.unit.ctrl := getField_congr fun i hi _ => honly.2 i (by omega)
    refine ⟨_, (dispatchStep_inFlight hb rfl).trans (hr.inFlightStep ▸ hround), hcompleted, hresult,
      hcbp.trans (congrArg _ hcbpv), hscd.trans (congrArg _ (honly.2 15 (by decide))),
      hecd.trans (congrArg _ (honly.2 14 (by decide))), ?_, getField_congr fun i _ hi => hctrl i (by omega),
      fun i hi => (hctrl i (by omega)).trans (honly.2 i (by omega)), hsetup, ?_⟩
    all_goals
      rw [hunit]
      obtain ⟨x, rfl⟩ : ∃ x, v = withInput x s := ⟨v, honly.eq_withInput⟩
    · cases r.command <;> rfl
    · rfl
  · obtain ⟨r, hr, -⟩ := exists_rulesOf hi
    obtain ⟨hw, hport, hexec⟩ := hr.written
    have ha := acceptCommand_sameSide i.word s
    obtain ⟨u, hskip, hmoved⟩ := skipBits_ok (w := fb.toNat) (by have := fb.isLt; omega) (ha.counted hc)
      (by rwa [ha.totalAvail])
    have hreq : (libOpen c (acceptCommand i.word s)).req = .done res := by rw [libOpen_accepted]; exact hdone
    obtain ⟨t, hstep, hcompleted, hresult, hcbp, hscd, hecd, hdata, hifc, hctrl, hsetup, hunit⟩ :=
      inFlight fb c res 0 _ _ (acceptCommand i.word s) u u rfl (by rw [decode_accepted hw hport, hi])
        (.inl ⟨rfl, rfl, hskip, rfl⟩) ⟨rfl, rfl⟩ (by decide) hreq
    have htook := (Took.sameSide_left ha hmoved.took).sameSide_right (u := t) ⟨by rw [hunit], by rw [hunit], hifc⟩
    have hflags : ctrlSCD (acceptCommand i.word s).unit.ctrl = false ∧ ctrlECD (acceptCommand i.word s).unit.ctrl = false :=
      ⟨acceptCommand_ctrl_bit i.word s 15, acceptCommand_ctrl_bit i.word s 14⟩
    have hcbpa : ctrlCBP (acceptCommand i.word s).unit.ctrl = ctrlCBP s.unit.ctrl := by simp [acceptCommand_eq]
    rw [hcbpa] at hcbp
    rw [hflags.1, Bool.or_false] at hscd
    rw [hflags.2, Bool.or_false] at hecd
    exact ⟨t, exec_of_stop hw hport (hexec s) hb hstep, hcompleted, hresult, htook.consumed, htook.counted, htook.snapped,
      hcbp, hscd, hecd, hdata, hctrl.accepted.mono fun i hi => by omega, hsetup, by rw [hunit]; rfl⟩

/-- Settles O17: the `FB` phase that is short, and the rounds of the answered requests, then the one that waits. A run from
the state of the call is one from the accepted command, which has the same input side. -/
theorem sessionWaitsForInput : Obligations.SessionWaitsForInput := by
  unfold Obligations.SessionWaitsForInput
  refine ⟨fun i fb c s hi hb hc h => ?_, and_of_right (fun fb c s hb hi => ⟨fun hp hc h => ?_,
    fun n ses ses' u v w hbegin hrun hn hwait => ?_⟩) fun inFlight i fb c n ses' s u v w hi hb hskip hrun hn hwait => ?_⟩
  · obtain ⟨r, hr, -⟩ := exists_rulesOf hi
    obtain ⟨hw, hport, hexec⟩ := hr.written
    have ha := acceptCommand_sameSide i.word s
    obtain ⟨t, ht, hmoved⟩ := fbPhase_short (ha.counted hc) rfl (by rwa [ha.totalAvail])
    have hstep : dispatchStep (acceptCommand i.word s) = .stop t := by
      rw [dispatchStep_inFlight rfl (decode_accepted hw hport s), hr.inFlightStep, sessionStep, ht]
      rfl
    obtain ⟨hwaits, hresult, hflags, ⟨hct, hcons, hsnap⟩, hctrl, hsetup, hunit⟩ := hmoved.accepted
    exact ⟨t, exec_of_stop hw hport (hexec s) hb hstep, hwaits, hresult, hflags, hcons, hct, hsnap, hctrl, hsetup, hunit⟩
  · obtain ⟨r, hr, -⟩ := exists_rulesOf hi
    obtain ⟨t, ht, hmoved⟩ := fbPhase_short hc hp h
    refine ⟨t, ?_, hmoved⟩
    rw [dispatchStep_inFlight hb rfl, hr.inFlightStep, sessionStep, ht]
    rfl
  · obtain ⟨r, hr, rfl⟩ := exists_rulesOf hi
    obtain ⟨honly, hp, hstep⟩ := sessionStep_run hbegin hrun
    have hround := (hstep (1023 - n + 1) (by omega)).trans (sessionLoop_wait hp hwait (1023 - n))
    have hvw : InputOnly v w := by have hin := serveCursor_inputOnly ses'.req v; rwa [hwait] at hin
    obtain ⟨hctrl, hquiet, hsetup, hresult, hunit⟩ :=
      inSession_frame (honly.trans hvw) (sessionCommand s.unit.cmd) ses'
    rw [← hr.inFlightStep] at hround
    exact ⟨_, (dispatchStep_inFlight hb rfl).trans hround, rfl, rfl, rfl, hctrl, hquiet, hsetup, hresult, hunit⟩
  · obtain ⟨r, hr, -⟩ := exists_rulesOf hi
    obtain ⟨hw, hport, hexec⟩ := hr.written
    have ha := acceptCommand_sameSide i.word s
    obtain ⟨u', hskip', hu⟩ := ha.skipBits_ok hskip
    have hsu : InputOnly s u := by have hin := skipBits_inputOnly fb.toNat s; rwa [hskip] at hin
    have hau : InputOnly (acceptCommand i.word s) u' := by
      have hin := skipBits_inputOnly fb.toNat (acceptCommand i.word s)
      rwa [hskip'] at hin
    obtain ⟨v', hrun', hv⟩ := hrun.sameSide hu (by rw [hau.eq_withInput, hsu.eq_withInput]; rfl)
    obtain ⟨w', hwait', hw'⟩ := hv.serveCursor_wait hwait
    obtain ⟨-, session⟩ := inFlight fb c (acceptCommand i.word s) rfl (by rw [decode_accepted hw hport, hi])
    obtain ⟨t, hstep, hlib, hcmd, hifc, hctrl, hquiet, hsetup, hresult, hunit⟩ :=
      session n _ ses' u' v' w' (.inl ⟨rfl, rfl, hskip', rfl⟩) (by rwa [libOpen_accepted]) hn hwait'
    exact ⟨t, exec_of_stop hw hport (hexec s) hb hstep, hctrl.waiting (by decide) hcmd hquiet, hlib, hresult,
      hctrl.flagsCleared (by decide) (by decide), hifc.trans hw'.ifc, hctrl.accepted, hsetup,
      by rw [hunit, hw'.cur, hw'.fifoIn]; rfl⟩

end Sys2Proof.Machine
end

section
/-! SUPPORT. What IDEC and BDEC put out: an emit request taken up, the rounds of its drain, and what the step leaves
(`43_command_dispatcher.md` R241, R242, R255). -/

namespace Sys2Proof.Machine

/-! ### The rules of an emit -/

/-- `y` converts as `s` does, and has its macroblock buffer. -/
structure SameData (s y : State) : Prop where
  cfg : y.cfg = s.cfg
  vqclut : y.unit.vqclut = s.unit.vqclut
  th0 : y.unit.th0 = s.unit.th0
  th1 : y.unit.th1 = s.unit.th1
  mb : y.unit.mb = s.unit.mb

theorem answer_of_lib {a : LibReply} {y : State} {ses : LibSession} (h : y.unit.lib = some ses) :
    answer a y = y.setLib (some (libAnswer y.cfg ses a)) := by
  rw [answer, h]

/-- Phase 2 of BDEC drains the coefficients of the outstanding request (R242). -/
theorem bdecRules_drain {qsc : BitVec 5} {dt dcr mbi : Bool} {y : State} {ses : LibSession}
    {coef : Vector (BitVec 16) 384} (hlib : y.unit.lib = some ses) (hreq : ses.req = .emitCoef coef) :
    (bdecRules qsc dt dcr mbi).drainEmitted y =
      (drain 48 (coefQW coef) y).bind fun z => .go (answer .unit (setPhase 1 0 z)) := by
  obtain ⟨params, replies, req⟩ := ses
  obtain rfl : req = .emitCoef coef := hreq
  simp only [bdecRules, hlib]

section
variable {fb : BitVec 6} {r : SessionRules} {c : LibCommand} {mb : MacroblockBuffer} {total : Nat} {qw : Nat → QWord}
  {s y : State}

/-- More is emitted than the output FIFO holds. -/
theorem Emits.total_bounds {req : LibRequest} (h : Emits s c req mb total qw) : 15 < total ∧ total < 2 ^ 32 := by
  rcases h with ⟨-, -, -, -, -, ofm, -, -, -, -, -, -, -, rfl, -⟩ | ⟨-, -, -, -, -, -, -, -, -, -, -, -, rfl, -⟩
  · cases ofm <;> decide
  · decide

/-- An emit request is taken up: the buffer is stored, and phase 2 begins. -/
theorem Emits.takeEmit {req : LibRequest} (h : Emits s c req mb total qw)
    (hr : RulesOf (decodeCommand s.unit.cmd.current) fb r) (hy : SameData s y) :
    r.takeEmit req y = .go (setPhase 2 0 (y.setMb mb)) := by
  obtain ⟨hcfg, -, hth0, hth1, hmb⟩ := hy
  rcases h with ⟨_, _, _, _, _, _, _, _, raw, hi, -, rfl, rfl, -⟩ | ⟨_, _, _, _, _, _, _, coef, hi, -, rfl, rfl, -⟩ <;>
    rw [hi] at hr <;> cases hr
  · rw [← hcfg, ← hth0, ← hth1]
    rfl
  · rw [← hmb]
    rfl

/-- After it, the session is putting out what was emitted. -/
theorem Emits.draining {ses : LibSession} (h : Emits s c ses.req mb total qw)
    (hcur : y.unit.cmd.current = s.unit.cmd.current) (hcfg : y.cfg = s.cfg) (hvq : y.unit.vqclut = s.unit.vqclut)
    (hmb : y.unit.mb = mb) : ∃ index, Draining y ses total qw index := by
  unfold Draining
  rw [hcur, hcfg, hvq, hmb]
  rcases h with ⟨fb, qsc, dtd, sgn, dte, ofm, lo, hi, raw, hcmd, -, -, -, htotal, hqw⟩ |
    ⟨fb, qsc, dt, dcr, mbi, lo, hi, coef, hcmd, -, hreq, -, htotal, hqw⟩
  · exact ⟨_, .inl ⟨fb, qsc, dtd, sgn, dte, ofm, lo, hi, hcmd, htotal, hqw, rfl⟩⟩
  · exact ⟨_, .inr ⟨fb, qsc, dt, dcr, mbi, lo, hi, coef, hcmd, hreq, htotal, hqw, rfl⟩⟩

section
variable {ses : LibSession} {index : Word} (h : Draining s ses total qw index)
include h

theorem Draining.total_lt : total < 2 ^ 32 := by
  rcases h with ⟨-, -, -, -, -, ofm, -, -, -, rfl, -⟩ | ⟨-, -, -, -, -, -, -, -, -, -, rfl, -⟩
  · cases ofm <;> decide
  · decide

theorem Draining.exists_rules : ∃ fb r, RulesOf (decodeCommand s.unit.cmd.current) fb r ∧
    ∀ res w, resultWord r.command res w = w := by
  rcases h with ⟨fb, qsc, dtd, sgn, dte, ofm, lo, hi, hcmd, -⟩ | ⟨fb, qsc, dt, dcr, mbi, lo, hi, -, hcmd, -⟩ <;> rw [hcmd]
  · exact ⟨_, _, .idec .., fun _ _ => rfl⟩
  · exact ⟨_, _, .bdec .., fun _ _ => rfl⟩

/-- Phase 2 is the drain, after which `cmd.index` is set, the request is answered, and phase 1 begins. -/
theorem Draining.drainEmitted_eq (hr : RulesOf (decodeCommand s.unit.cmd.current) fb r) (hlib : s.unit.lib = some ses) :
    ∃ mark : State → State,
      r.drainEmitted s = (drain total qw s).bind (fun z => .go (answer .unit (setPhase 1 0 (mark z)))) ∧
      ∀ z, z.unit.cmd.index = s.unit.cmd.index → mark z = z.setCmd { z.unit.cmd with index := index } := by
  rcases h with ⟨_, _, _, _, dte, ofm, _, _, hi, rfl, rfl, rfl⟩ | ⟨_, _, _, _, _, _, _, coef, hi, hreq, rfl, rfl, rfl⟩ <;>
    rw [hi] at hr <;> cases hr
  · refine ⟨bumpIndex, rfl, fun z hz => ?_⟩
    rw [← hz]
    rfl
  · refine ⟨id, bdecRules_drain hlib hreq, fun z hz => ?_⟩
    rw [← hz]
    rfl

/-- The round of a drain: what fits goes out, and where that is all the request is answered and phase 1 begins. -/
theorem Draining.drainEmitted (hr : RulesOf (decodeCommand s.unit.cmd.current) fb r) (hlib : s.unit.lib = some ses) {k : Nat}
    (hk : s.unit.cmd.pos1 = BitVec.ofNat 32 k) (hle : k ≤ total) (ho : OutputCounted s)
    (hcap : s.unit.fifoOut.length ≤ s.cfg.fifoOutCap.toNat) :
    (outRoom s < total - k → r.drainEmitted s = .stop ((putOut ((List.range (outRoom s)).map fun j => qw (k + j)) s).setCmd
        { s.unit.cmd with pos1 := BitVec.ofNat 32 (k + outRoom s) })) ∧
      (total - k ≤ outRoom s → r.drainEmitted s = .go (inSession { s.unit.cmd with pos0 := 1, pos1 := 0, index := index }
        (libAnswer s.cfg ses .unit) (putOut ((List.range (total - k)).map fun j => qw (k + j)) s))) := by
  obtain ⟨hpart, hall⟩ := drain_cases total qw hk hle h.total_lt ho hcap
  obtain ⟨mark, hdrain, hmark⟩ := h.drainEmitted_eq hr hlib
  refine ⟨fun hroom => ?_, fun hroom => ?_⟩
  · rw [hdrain, hpart hroom]
    rfl
  · rw [hdrain, hall hroom]
    have hmarked := hmark ((putOut ((List.range (total - k)).map fun j => qw (k + j)) s).setCmd
      { s.unit.cmd with pos1 := BitVec.ofNat 32 total }) rfl
    show Flow.go (answer .unit (setPhase 1 0 (mark _))) = _
    rw [hmarked]
    exact congrArg Flow.go (answer_of_lib hlib)

end

/-! ### The rounds of an emit -/

/-- The two rounds of an emit: the request is taken up, and what fits goes out, which is less than there is. -/
theorem sessionLoop_emit {ses : LibSession} {cmd : Command} (h : Emits s c ses.req mb total qw)
    (hr : RulesOf (decodeCommand s.unit.cmd.current) fb r) (hy : SameData s y) (hcur : cmd.current = s.unit.cmd.current)
    (hp : cmd.pos0 ≠ 2) (ho : OutputCounted y) (hcap : y.unit.fifoOut.length ≤ y.cfg.fifoOutCap.toNat) (n : Nat) :
    outRoom y < total ∧ sessionLoop r (n + 2) (inSession cmd ses y) =
      .stop (inSession { cmd with pos0 := 2, pos1 := BitVec.ofNat 32 (outRoom y) } ses
        (putOut ((List.range (outRoom y)).map qw) (y.setMb mb))) := by
  have hroom : outRoom y < total := Nat.lt_of_le_of_lt (outRoom_le y) h.total_bounds.1
  refine ⟨hroom, ?_⟩
  have hround : sessionLoop r (n + 2) (inSession cmd ses y) =
      (r.takeEmit ses.req (inSession cmd ses y)).bind (sessionLoop r (n + 1)) := by
    rcases h with ⟨_, _, _, _, _, _, _, _, raw, -, -, hreq, -⟩ | ⟨_, _, _, _, _, _, _, coef, -, -, hreq, -⟩ <;> rw [hreq]
    · exact sessionLoop_emitMB r (n + 1) (inSession cmd ses y) raw hp hreq
    · exact sessionLoop_emitCoef r (n + 1) (inSession cmd ses y) coef hp hreq
  obtain ⟨index, hd⟩ := h.draining (y := setPhase 2 0 ((inSession cmd ses y).setMb mb)) hcur hy.cfg hy.vqclut rfl
  have hr' : RulesOf (decodeCommand (setPhase 2 0 ((inSession cmd ses y).setMb mb)).unit.cmd.current) fb r := by
    show RulesOf (decodeCommand cmd.current) fb r
    rwa [hcur]
  obtain ⟨hpart, -⟩ := hd.drainEmitted hr' rfl (k := 0) rfl (Nat.zero_le _) ho hcap
  have hdata : SameData s (inSession cmd ses y) := ⟨hy.cfg, hy.vqclut, hy.th0, hy.th1, hy.mb⟩
  rw [hround, h.takeEmit hr hdata]
  show sessionLoop r (n + 1) (setPhase 2 0 ((inSession cmd ses y).setMb mb)) = _
  rw [sessionLoop_phase_two r n _ rfl, hpart hroom]
  simp only [Nat.zero_add]
  rfl

end

/-! ### What the step leaves -/

section
variable {qs : List QWord} {c : Command} {mb : MacroblockBuffer} {s x d e y : State}

/-- Requests of the cursor after quadwords went out. -/
theorem WentOut.input (h : WentOut qs c mb s x d) (honly : InputOnly d e) (hside : SameSide y e) :
    WentOut qs c mb s y e := by
  obtain ⟨-, hcounted, hctrl, hcalm, hunit⟩ := h
  obtain ⟨z, rfl⟩ : ∃ z, e = withInput z d := ⟨e, honly.eq_withInput⟩
  refine ⟨hside, hcounted.kept (fun i hi => honly.2 i hi.1) rfl,
    fun i h8 => (honly.2 i (by omega)).trans (hctrl i h8), hcalm.trans honly.calm, ?_⟩
  show { d.unit with cur := z.unit.cur, fifoIn := z.unit.fifoIn, ctrl := z.unit.ctrl } = _
  rw [hunit]
  rfl

/-- More quadwords after them. -/
theorem WentOut.putOut (h : WentOut qs c mb s x d) {qs' : List QWord} (mb' : MacroblockBuffer)
    (hcap : d.unit.fifoOut.length ≤ d.cfg.fifoOutCap.toNat) (hl : qs'.length ≤ outRoom d) :
    WentOut (qs ++ qs') c mb' s x (putOut qs' (d.setMb mb')) := by
  obtain ⟨hside, hcounted, hctrl, hcalm, hunit⟩ := h
  obtain ⟨-, hcounted', hctrl', hcalm', hunit'⟩ := putOut_wentOut d.unit.cmd mb' (.refl d) hcounted hcap hl
  have hput : SameSide d (Machine.putOut qs' (d.setMb mb')) := ⟨rfl, rfl, (putOut_sameSide qs' (d.setMb mb')).ifc⟩
  refine ⟨hside.trans hput, hcounted', fun i h8 => (hctrl' i h8).trans (hctrl i h8),
    hcalm.trans hcalm', ?_⟩
  refine hunit'.trans ?_
  rw [hunit, List.append_assoc]
  rfl

/-- The step that went so far ends with a session and a command of its own. -/
theorem WentOut.inSession (h : WentOut qs c mb s x d) (cmd : Command) (ses : LibSession) :
    OutputCounted (inSession cmd ses d) ∧ (inSession cmd ses d).ifc = x.ifc ∧
      CtrlKept (fun i => 8 ≤ i) s (inSession cmd ses d) ∧ Calm s (inSession cmd ses d) ∧
      (inSession cmd ses d).unit = { s.unit with
        ctrl := d.unit.ctrl, cmd := cmd, cur := x.unit.cur, fifoIn := x.unit.fifoIn, fifoOut := s.unit.fifoOut ++ qs
        mb := mb, lib := some ses } := by
  obtain ⟨hside, hcounted, hctrl, hcalm, hunit⟩ := h
  refine ⟨hcounted, hside.ifc, hctrl, inSession_calm hcalm cmd ses, ?_⟩
  show { d.unit with cmd := cmd, lib := some ses } = _
  rw [hunit, hside.cur, hside.fifoIn]

end

end Sys2Proof.Machine
end

section
/-! SUPPORT. The statements about the data that IDEC and BDEC emit (`43_command_dispatcher.md` R241, R242, R255). -/

namespace Sys2Proof.Machine

/-- A dispatch step that emits after a run of answered requests. -/
theorem dispatchStep_emit {fb : BitVec 6} {c : LibCommand} {mb : MacroblockBuffer} {total n : Nat} {qw : Nat → QWord}
    {ses ses' : LibSession} {s u v : State} (hb : s.unit.cmd.busy = true)
    (hi : librarySession (decodeCommand s.unit.cmd.current) = some (fb, c)) (hbegin : SessionBegins fb c s ses u)
    (hrun : SessionRun n ses u ses' v) (hn : n < 1023) (hemit : Emits s c ses'.req mb total qw) (ho : OutputCounted s)
    (hcap : s.unit.fifoOut.length ≤ s.cfg.fifoOutCap.toNat) :
    outRoom s < total ∧ ∃ d, WentOut ((List.range (outRoom s)).map qw) s.unit.cmd mb s v d ∧ dispatchStep s =
      .stop (inSession { s.unit.cmd with pos0 := 2, pos1 := BitVec.ofNat 32 (outRoom s) } ses' d) := by
  obtain ⟨r, hr, rfl⟩ := exists_rulesOf hi
  obtain ⟨honly, hp, hstep⟩ := sessionStep_run hbegin hrun
  have hcmd : { sessionCommand s.unit.cmd with pos0 := 2, pos1 := BitVec.ofNat 32 (outRoom s) } =
      { s.unit.cmd with pos0 := 2, pos1 := BitVec.ofNat 32 (outRoom s) } ∧
      (sessionCommand s.unit.cmd).current = s.unit.cmd.current := by
    unfold sessionCommand
    split <;> exact ⟨rfl, rfl⟩
  obtain ⟨hcmd, hcur⟩ := hcmd
  obtain ⟨x, rfl⟩ : ∃ x, v = withInput x s := ⟨v, honly.eq_withInput⟩
  obtain ⟨hlt, hrounds⟩ := sessionLoop_emit (y := withInput x s) hemit hr ⟨rfl, rfl, rfl, rfl, rfl⟩ hcur hp
    (ho.kept (fun i hi => honly.2 i hi.1) rfl) hcap (1022 - n)
  refine ⟨hlt, _, putOut_wentOut s.unit.cmd mb honly ho hcap (map_range_length _ _).le, ?_⟩
  rw [dispatchStep_inFlight hb rfl, hr.inFlightStep, hstep (1022 - n + 2) (by omega), hrounds]
  change Flow.stop (inSession { sessionCommand s.unit.cmd with pos0 := 2, pos1 := BitVec.ofNat 32 (outRoom s) } ses' _) = _
  rw [hcmd]
  rfl

/-- The same for a command that is written, when the emit is the library's first request. -/
theorem exec_emit {i : Instr} {fb : BitVec 6} {c : LibCommand} {mb : MacroblockBuffer} {total : Nat} {qw : Nat → QWord}
    {s : State} (hi : librarySession i = some (fb, c)) (hb : s.unit.cmd.busy = false) (hc : InputCounted s)
    (ho : OutputCounted s) (hcap : s.unit.fifoOut.length ≤ s.cfg.fifoOutCap.toNat) (h : fb.toNat ≤ totalAvail s)
    (hemit : Emits (acceptCommand i.word s) c (libOpen c s).req mb total qw) :
    ∃ t, exec i s = .next t ∧ t.unit.mb = mb ∧ t.unit.fifoOut = s.unit.fifoOut ++ (List.range (outRoom s)).map qw ∧
      Waiting i.word 2 (BitVec.ofNat 32 (outRoom s)) 0 s t ∧ t.unit.lib = some (libOpen c s) ∧ Took fb.toNat s t ∧
      OutputCounted t ∧ t.result = .accepted ∧ FlagsCleared t ∧
      CtrlKept (fun i => 8 ≤ i ∧ i ≠ 14 ∧ i ≠ 15 ∧ i ≠ 31) s t ∧ SameSetup s t ∧
      t.unit = { s.unit with
        ctrl := t.unit.ctrl, cmd := t.unit.cmd, cur := t.unit.cur, fifoIn := t.unit.fifoIn
        fifoOut := t.unit.fifoOut, mb := t.unit.mb, lib := t.unit.lib } := by
  obtain ⟨r, hr, -⟩ := exists_rulesOf hi
  obtain ⟨hw, hport, hexec⟩ := hr.written
  have ha := acceptCommand_sameSide i.word s
  have hoa : OutputCounted (acceptCommand i.word s) := by
    unfold OutputCounted
    rw [acceptCommand_ofc]
    exact ho
  obtain ⟨u, hskip, hmoved⟩ := skipBits_ok (w := fb.toNat) (by have := fb.isLt; omega) (ha.counted hc)
    (by rwa [ha.totalAvail])
  rw [← libOpen_accepted c i.word s] at hemit
  obtain ⟨-, d, hwent, hstep⟩ := dispatchStep_emit (n := 0)
    (ses' := libOpen c (acceptCommand i.word s)) (v := u) rfl (by rw [decode_accepted hw hport, hi])
    (.inl ⟨rfl, rfl, hskip, rfl⟩) ⟨rfl, rfl⟩ (by decide) hemit hoa hcap
  obtain ⟨hot, hifc, hctrl, ⟨hquiet, hsetup, hresult⟩, hunit⟩ := hwent.inSession
    { (acceptCommand i.word s).unit.cmd with pos0 := 2, pos1 := BitVec.ofNat 32 (outRoom (acceptCommand i.word s)) }
    (libOpen c (acceptCommand i.word s))
  have htook := (Took.sameSide_left ha hmoved.took).sameSide_right
    (u := inSession _ (libOpen c (acceptCommand i.word s)) d) ⟨by rw [hunit], by rw [hunit], hifc⟩
  refine ⟨_, exec_of_stop hw hport (hexec s) hb hstep, congrArg UnitState.mb hunit, congrArg UnitState.fifoOut hunit,
    hctrl.waiting (by decide) rfl hquiet, congrArg some (libOpen_accepted c i.word s), htook, hot, hresult,
    hctrl.flagsCleared (by decide) (by decide), hctrl.accepted, hsetup, ?_⟩
  rw [hunit]
  rfl

/-- Settles O18: `exec_emit` for both commands, `dispatchStep_emit`, and the round of a drain that does not fit. -/
theorem emittedDataIsDrained : Obligations.EmittedDataIsDrained := by
  unfold Obligations.EmittedDataIsDrained
  refine ⟨fun fb qsc dtd sgn dte ofm lo hi raw s hb hc ho hcap h hreq => ?_,
    fun fb qsc dt dcr mbi lo hi coef s hb hc ho hcap h hreq => ?_,
    fun fb c mb total n qw ses ses' s u v hb hi hbegin hrun hn hemit ho hcap => ?_,
    fun ses total k qw index s hb hlib hd hp hk hle ho hcap hroom => ?_⟩
  · have hses : libOpen (.idec qsc dtd sgn) s = ⟨libParams (.idec qsc dtd sgn) s.unit, [], .emitMB raw⟩ := by
      rw [← hreq]
      rfl
    obtain ⟨t, hexec, hmb, hfifo, hwaits, hlib, ⟨hct, hcons, hsnap⟩, hot, hresult, hflags, hctrl, hsetup, hunit⟩ :=
      exec_emit (i := .idec fb qsc dtd sgn dte ofm lo hi) rfl hb hc ho hcap h
        (.inl ⟨fb, qsc, dtd, sgn, dte, ofm, lo, hi, raw, decode_accepted rfl rfl s, rfl, hreq, rfl, rfl, rfl⟩)
    rw [hses] at hlib
    exact ⟨t, hexec, hmb, by rw [hmb]; exact hfifo, hwaits, hlib, hcons, hct, hsnap, hot, hresult, hflags, hctrl, hsetup,
      hunit⟩
  · have hses : libOpen (.bdec qsc dt dcr mbi) s = ⟨libParams (.bdec qsc dt dcr mbi) s.unit, [], .emitCoef coef⟩ := by
      rw [← hreq]
      rfl
    obtain ⟨t, hexec, hmb, hfifo, hwaits, hlib, ⟨hct, hcons, hsnap⟩, hot, hresult, hflags, hctrl, hsetup, hunit⟩ :=
      exec_emit (i := .bdec fb qsc dt dcr mbi lo hi) rfl hb hc ho hcap h
        (.inr ⟨fb, qsc, dt, dcr, mbi, lo, hi, coef, decode_accepted rfl rfl s, rfl, hreq, rfl, rfl, rfl⟩)
    rw [hses] at hlib
    rw [hmb] at hunit
    exact ⟨t, hexec, hfifo, hwaits, hlib, hcons, hct, hsnap, hot, hresult, hflags, hctrl, hsetup, hunit⟩
  · obtain ⟨hlt, d, hwent, hstep⟩ := dispatchStep_emit hb hi hbegin hrun hn hemit ho hcap
    obtain ⟨hot, hifc, hctrl, ⟨hquiet, hsetup, hresult⟩, hunit⟩ := hwent.inSession
      { s.unit.cmd with pos0 := 2, pos1 := BitVec.ofNat 32 (outRoom s) } ses'
    refine ⟨_, hstep, congrArg UnitState.mb hunit, congrArg UnitState.fifoOut hunit, hlt, rfl, rfl, hifc, hot, hctrl, hquiet,
      hsetup, hresult, ?_⟩
    rw [hunit]
  · obtain ⟨fb, r, hr, -⟩ := hd.exists_rules
    obtain ⟨hpart, -⟩ := hd.drainEmitted hr hlib hk hle ho hcap
    have hwent := putOut_wentOut (x := s) (qs := (List.range (outRoom s)).map fun j => qw (k + j))
      { s.unit.cmd with pos1 := BitVec.ofNat 32 (k + outRoom s) } s.unit.mb (.refl s) ho hcap (map_range_length _ _).le
    have hstep : dispatchStep s = .stop ((putOut ((List.range (outRoom s)).map fun j => qw (k + j)) s).setCmd
        { s.unit.cmd with pos1 := BitVec.ofNat 32 (k + outRoom s) }) := by
      rw [dispatchStep_inFlight hb rfl, hr.inFlightStep, sessionStep_open (by rw [hp]; decide)]
      show sessionLoop r (1023 + 1) s = _
      rw [sessionLoop_phase_two r 1023 s hp, hpart hroom]
      rfl
    exact ⟨_, hstep, rfl, rfl, hwent.counted, putOut_ctrl _ s, ⟨rfl, rfl⟩, ⟨rfl, rfl, fun _ => rfl, rfl⟩, rfl, rfl⟩

/-- Settles O20: the round of the drain that fits, the rounds of the answered requests, which the quadwords put out do
not change, and the round or rounds of the request after them. -/
theorem drainedSessionGoesOn : Obligations.DrainedSessionGoesOn := by
  unfold Obligations.DrainedSessionGoesOn
  intro ses ses' total k m qw index s v hb hlib hd hp hk hle ho hcap hrun hm
  obtain ⟨fb, r, hr, hword⟩ := hd.exists_rules
  have hfits : total - k ≤ outRoom s := by
    unfold outRoom
    omega
  obtain ⟨-, hall⟩ := hd.drainEmitted hr hlib hk hle ho (by omega)
  have hwent := putOut_wentOut (x := s) (qs := (List.range (total - k)).map fun j => qw (k + j))
    s.unit.cmd s.unit.mb (.refl s) ho (by omega) ((map_range_length _ _).trans_le hfits)
  obtain ⟨v', hrun', hv⟩ := hrun.sameSide (putOut_sameSide ((List.range (total - k)).map fun j => qw (k + j)) s) rfl
  have hgone := hwent.input (e := v') hrun'.inputOnly hv
  have hstep : dispatchStep s = sessionLoop r (1021 - m + 2)
      (inSession { s.unit.cmd with pos0 := 1, pos1 := 0, index := index } ses' v') := by
    rw [dispatchStep_inFlight hb rfl, hr.inFlightStep, sessionStep_open (by rw [hp]; decide)]
    show sessionLoop r (1023 + 1) s = _
    rw [sessionLoop_phase_two r 1023 s hp, hall hfits, show 1023 = 1021 - m + 2 + m by omega]
    exact sessionLoop_run (show (1 : Word) ≠ 2 by decide) hrun' _
  have ⟨hside, hov, hctrlv, hcalmv, hunitv⟩ := hgone
  refine ⟨fun res hres => ?_, fun w hwait => ?_, fun c mb total' room qw' hemit hroom => ?_⟩
  · obtain ⟨hcompleted, hsetup, hresult, hcbp, hscd, hecd, hctrl, hunit⟩ := complete_reported res
      (resultWord r.command res v'.unit.cmdData)
      (inSession_calm hcalmv { s.unit.cmd with pos0 := 1, pos1 := 0, index := index } ses')
    have hcbpv : ctrlCBP v'.unit.ctrl = ctrlCBP s.unit.ctrl := getField_congr fun i hi _ => hctrlv i (by omega)
    have hot : OutputCounted (complete (applyDone res ((inSession { s.unit.cmd with pos0 := 1, pos1 := 0, index := index }
        ses' v').setCmdData (resultWord r.command res v'.unit.cmdData)))) := by
      exact hov.kept (hctrl.mono fun i hi => by omega) (by rw [hunit]; rfl)
    have hin : (inSession { s.unit.cmd with pos0 := 1, pos1 := 0, index := index } ses' v').unit = { v'.unit with
      cmd := { s.unit.cmd with pos0 := 1, pos1 := 0, index := index }, lib := some ses' } := rfl
    refine ⟨_, hstep.trans (sessionLoop_result hr (show (1 : Word) ≠ 2 by decide) hres _), hcompleted, ?_, hot,
      hcbp.trans (congrArg _ hcbpv), hscd.trans (congrArg _ (hctrlv 15 (by decide))), hecd.trans (congrArg _ (hctrlv 14 (by decide))),
      (getField_congr fun i _ hi => hctrl i (by omega)).trans hside.ifc,
      fun i hi => (hctrl i (by omega)).trans (hctrlv i (by omega)), hsetup, hresult, ?_⟩
    · rw [hunit, hin, hunitv]
    · rw [hunit, hin, hword, hunitv, hside.cur, hside.fifoIn]
  · obtain ⟨w', hwait', hw⟩ := hv.serveCursor_wait hwait
    have hvw : InputOnly v' w' := by have hin := serveCursor_inputOnly ses'.req v'; rwa [hwait'] at hin
    obtain ⟨hot, hifc, hctrl, ⟨hquiet, hsetup, hresult⟩, hunit⟩ := (hgone.input hvw hw).inSession
      { s.unit.cmd with pos0 := 1, pos1 := 0, index := index } ses'
    refine ⟨_, hstep.trans (sessionLoop_wait (show (1 : Word) ≠ 2 by decide) hwait' _), rfl, rfl,
      congrArg UnitState.fifoOut hunit, hot, hifc, hctrl, hquiet, hsetup, hresult, ?_⟩
    rw [hunit]
  · have hfifov : v'.unit.fifoOut.length = s.unit.fifoOut.length + (total - k) := by
      rw [hunitv]
      exact List.length_append.trans (congrArg _ (map_range_length _ _))
    have hcfgv : v'.cfg = s.cfg := hcalmv.setup.1
    have hcapv : v'.unit.fifoOut.length ≤ v'.cfg.fifoOutCap.toNat := by rw [hfifov, hcfgv]; exact hcap
    have hdatav : SameData s v' := by
      refine ⟨hcfgv, ?_, ?_, ?_, ?_⟩ <;> rw [hunitv]
    have hroomv : outRoom v' = room := by
      rw [hroom, outRoom, outRoom, hfifov, hcfgv]
      omega
    obtain ⟨hlt, hrounds⟩ := sessionLoop_emit (y := v') (cmd := { s.unit.cmd with pos0 := 1, pos1 := 0, index := index })
      hemit hr hdatav rfl (show (1 : Word) ≠ 2 by decide) hov hcapv (1021 - m)
    have hmore := hgone.putOut (qs' := (List.range (outRoom v')).map qw') mb hcapv (map_range_length _ _).le
    rw [hroomv] at hlt hrounds hmore
    obtain ⟨hot, hifc, hctrl, ⟨hquiet, hsetup, hresult⟩, hunit⟩ := hmore.inSession
      { s.unit.cmd with pos0 := 2, pos1 := BitVec.ofNat 32 room, index := index } ses'
    refine ⟨_, hstep.trans hrounds, congrArg UnitState.mb hunit, rfl, rfl, ?_, hlt, hot, hifc, hctrl, hquiet, hsetup,
      hresult, ?_⟩
    · rw [List.append_assoc]
      exact congrArg UnitState.fifoOut hunit
    · rw [hunit]

end Sys2Proof.Machine
end

section
/-! SUPPORT. A part of a dispatch step that waited waits again, and changes nothing more (`43_command_dispatcher.md` R238):
the cursor operations, the byte input and the drain of a macroblock. -/

namespace Sys2Proof.Machine

/-! ### The cursor -/

section
variable {w n : Nat} {s t : State}

theorem readBits_short_iff : readBits w s = .short t ↔ (1 ≤ w ∧ w ≤ 32) ∧ (pull w s).unit.cur.avail < w ∧ pull w s = t := by
  unfold readBits
  dsimp only
  split
  · split <;> simp_all
  · simp_all

theorem peekBits_short_iff : peekBits w s = .short t ↔ (1 ≤ w ∧ w ≤ 32) ∧ (pull w s).unit.cur.avail < w ∧ pull w s = t := by
  unfold peekBits
  dsimp only
  split
  · split <;> simp_all
  · simp_all

theorem skipBits_short_iff : skipBits n s = .short t ↔ n ≤ 63 ∧ (pull n s).unit.cur.avail < n ∧ pull n s = t := by
  unfold skipBits
  dsimp only
  split
  · split <;> simp_all
  · simp_all

theorem alignByte_short_iff :
    alignByte s = .short t ↔ s.unit.cur.bitOfs ≠ 0 ∧ (pull 1 s).unit.cur.fp.val = 0 ∧ pull 1 s = t := by
  unfold alignByte
  dsimp only
  split
  · simp_all
  · split <;> simp_all

theorem readBits_again (h : readBits w s = .short t) : readBits w t = .short t := by
  obtain ⟨hw, havail, rfl⟩ := readBits_short_iff.mp h
  have hp := pull_pull (le_refl w) s
  exact readBits_short_iff.mpr ⟨hw, by rwa [hp], hp⟩

theorem peekBits_again (h : peekBits w s = .short t) : peekBits w t = .short t := by
  obtain ⟨hw, havail, rfl⟩ := peekBits_short_iff.mp h
  have hp := pull_pull (le_refl w) s
  exact peekBits_short_iff.mpr ⟨hw, by rwa [hp], hp⟩

theorem skipBits_again (h : skipBits n s = .short t) : skipBits n t = .short t := by
  obtain ⟨hn, havail, rfl⟩ := skipBits_short_iff.mp h
  have hp := pull_pull (le_refl n) s
  exact skipBits_short_iff.mpr ⟨hn, by rwa [hp], hp⟩

theorem pullLoop_bitOfs (want n : Nat) (s : State) : (pullLoop want n s).unit.cur.bitOfs = s.unit.cur.bitOfs := by
  induction n generalizing s with
  | zero => rfl
  | succ n ih =>
    unfold pullLoop
    split
    · cases h : inTake s with
      | none => rfl
      | some x =>
        obtain ⟨-, hcur, -⟩ := inputOnly_inTake h
        rw [← hcur]
        exact ih (x.2.setCur (x.2.unit.cur.addQWord x.1))
    · rfl

theorem alignByte_again (h : alignByte s = .short t) : alignByte t = .short t := by
  obtain ⟨hbit, hfp, rfl⟩ := alignByte_short_iff.mp h
  have hp := pull_pull (le_refl 1) s
  have hbit' : (pull 1 s).unit.cur.bitOfs = s.unit.cur.bitOfs := pullLoop_bitOfs 1 Config.bufQw s
  exact alignByte_short_iff.mpr ⟨by rwa [hbit'], by rwa [hp], hp⟩

/-- A request that could not be served cannot be served again. -/
theorem serveCursor_again {req : LibRequest} (h : serveCursor req s = .wait t) : serveCursor req t = .wait t := by
  have hshort {α : Type} {f : α → LibReply} {x : Take α} (hx : x.served f = .wait t) : x = .short t := by
    cases x with
    | short u =>
      obtain rfl : u = t := Served.wait.inj hx
      rfl
    | ok _ _ | bad => cases hx
  cases req with
  | skip n => exact congrArg (Take.served _) (skipBits_again (hshort h))
  | read n => exact congrArg (Take.served _) (readBits_again (hshort h))
  | peek n => exact congrArg (Take.served _) (peekBits_again (hshort h))
  | align => exact congrArg (Take.served _) (alignByte_again (hshort h))
  | refill hint n =>
    rw [serveCursor_refill] at h
    split at h <;> cases h
  | emitMB _ | emitCoef _ | done _ => cases h

end

/-! ### Phases -/

section
variable {s t : State}

/-- `t` is at the same command as `s`, in the same phase and macroblock. -/
structure SamePhase (s t : State) : Prop where
  pos0 : t.unit.cmd.pos0 = s.unit.cmd.pos0
  index : t.unit.cmd.index = s.unit.cmd.index

theorem InputOnly.samePhase (h : InputOnly s t) : SamePhase s t := by
  rw [h.eq_withInput]
  exact ⟨rfl, rfl⟩

theorem readBits_short_inputOnly {w : Nat} (h : readBits w s = .short t) : InputOnly s t := by
  have hin := readBits_inputOnly w s
  rwa [h] at hin

/-- The `FB` phase, where it waited. -/
theorem fbPhase_again {fb : BitVec 6} (h : fbPhase fb s = .stop t) : fbPhase fb t = .stop t := by
  unfold fbPhase at h
  split at h
  next hp =>
    cases hskip : skipBits fb.toNat s with
    | short u =>
      rw [hskip] at h
      obtain rfl : u = t := Flow.stop.inj h
      have honly : InputOnly s u := by have hin := skipBits_inputOnly fb.toNat s; rwa [hskip] at hin
      rw [fbPhase, if_pos (honly.samePhase.pos0.trans hp), skipBits_again hskip]
    | ok _ _ | bad => rw [hskip] at h; cases h
  next => cases h

/-- Byte input that waited did so at a byte before the last, which cannot be read. -/
theorem byteLoop_stop {store : Nat → Byte → State → State} (hst : ∀ k v s, (store k v s).unit.cmd = s.unit.cmd) {n k : Nat}
    (hk : s.unit.cmd.pos1.toNat = k) (hbound : k + n < 2 ^ 32)
    (h : byteLoop (fun k v s => setPos1 (BitVec.ofNat 32 (k + 1)) (store k v s)) n k s = .stop t) :
    SamePhase s t ∧ t.unit.cmd.pos1.toNat < k + n ∧ readBits 8 t = .short t := by
  induction n generalizing k s with
  | zero => cases h
  | succ n ih =>
    unfold byteLoop at h
    have honly := readBits_inputOnly 8 s
    cases hr : readBits 8 s with
    | ok v u =>
      rw [hr] at h honly
      obtain ⟨⟨hp0, hix⟩, hlt, hread⟩ := ih (s := setPos1 (BitVec.ofNat 32 (k + 1)) (store k (v.setWidth 8) u))
        (k := k + 1) (BitVec.toNat_ofNat (k + 1) 32 |>.trans (Nat.mod_eq_of_lt (by omega))) (by omega) h
      have hcmd : (store k (v.setWidth 8) u).unit.cmd = s.unit.cmd := by
        rw [hst, InputOnly.eq_withInput honly]
        rfl
      have hp0' := congrArg Command.pos0 hcmd
      have hix' := congrArg Command.index hcmd
      exact ⟨⟨hp0.trans hp0', hix.trans hix'⟩, by omega, hread⟩
    | short u =>
      rw [hr] at h
      obtain rfl : u = t := Flow.stop.inj h
      have honly := readBits_short_inputOnly hr
      have hpos : u.unit.cmd.pos1 = s.unit.cmd.pos1 := by rw [honly.eq_withInput]; rfl
      exact ⟨honly.samePhase, by rw [hpos]; omega, readBits_again hr⟩
    | bad => rw [hr] at h; cases h

/-- Byte input that went on is in the same phase. -/
theorem byteLoop_go {store : Nat → Byte → State → State} (hst : ∀ k v s, (store k v s).unit.cmd = s.unit.cmd) {n k : Nat}
    (h : byteLoop (fun k v s => setPos1 (BitVec.ofNat 32 (k + 1)) (store k v s)) n k s = .go t) : SamePhase s t := by
  induction n generalizing k s with
  | zero =>
    obtain rfl := Flow.go.inj h
    exact ⟨rfl, rfl⟩
  | succ n ih =>
    unfold byteLoop at h
    have honly := readBits_inputOnly 8 s
    cases hr : readBits 8 s with
    | ok v u =>
      rw [hr] at h honly
      have hcmd : (store k (v.setWidth 8) u).unit.cmd = s.unit.cmd := by
        rw [hst, InputOnly.eq_withInput honly]
        rfl
      have hp0 := congrArg Command.pos0 hcmd
      have hix := congrArg Command.index hcmd
      obtain ⟨hp0', hix'⟩ := ih h
      exact ⟨hp0'.trans hp0, hix'.trans hix⟩
    | short _ | bad => rw [hr] at h; cases h

theorem byteLoop_short_head {store : Nat → Byte → State → State} {n k : Nat} (hn : 0 < n) (h : readBits 8 t = .short t) :
    byteLoop store n k t = .stop t := by
  obtain ⟨n, rfl⟩ : ∃ m, n = m + 1 := ⟨n - 1, by omega⟩
  unfold byteLoop
  rw [h]

/-- The input of a macroblock, where it waited. -/
theorem readBytes_again {store : Nat → Byte → State → State} (hst : ∀ k v s, (store k v s).unit.cmd = s.unit.cmd)
    {total : Nat} (htotal : total < 2 ^ 32) (h : readBytes total store s = .stop t) :
    SamePhase s t ∧ readBytes total store t = .stop t := by
  unfold readBytes at h
  have hle : s.unit.cmd.pos1.toNat ≤ total ∨ total - s.unit.cmd.pos1.toNat = 0 := by omega
  rcases hle with hle | hzero
  · obtain ⟨hphase, hlt, hread⟩ := byteLoop_stop hst rfl (by omega) h
    exact ⟨hphase, byteLoop_short_head (by omega) hread⟩
  · rw [hzero] at h
    cases h

/-- A drain that waited did so before its last quadword, with a full output FIFO. -/
theorem drainLoop_stop {qw : Nat → QWord} {n k : Nat} (hk : s.unit.cmd.pos1.toNat = k) (hbound : k + n < 2 ^ 32)
    (h : drainLoop qw n k s = .stop t) :
    t = { s with unit := { s.unit with
      ctrl := t.unit.ctrl, fifoOut := t.unit.fifoOut, cmd := { s.unit.cmd with pos1 := t.unit.cmd.pos1 } } } ∧
      t.unit.cmd.pos1.toNat < k + n ∧ ¬ t.ofc < t.cfg.fifoOutCap := by
  induction n generalizing k s with
  | zero => cases h
  | succ n ih =>
    unfold drainLoop at h
    rcases outPut_spec (qw k) s with ⟨-, u, hu, -, -, -, -, hframe⟩ | ⟨hfull, hnone⟩
    · rw [hu] at h
      obtain ⟨ht, hlt, hfull⟩ := ih (s := setPos1 (BitVec.ofNat 32 (k + 1)) u) (k := k + 1)
        (BitVec.toNat_ofNat (k + 1) 32 |>.trans (Nat.mod_eq_of_lt (by omega))) (by omega) h
      refine ⟨ht.trans ?_, by omega, hfull⟩
      rw [hframe]
      rfl
    · rw [hnone] at h
      obtain rfl : s = t := Flow.stop.inj h
      exact ⟨rfl, by omega, hfull⟩

theorem drain_again {qw qw' : Nat → QWord} {total : Nat} (htotal : total < 2 ^ 32) (h : drain total qw s = .stop t) :
    t = { s with unit := { s.unit with
      ctrl := t.unit.ctrl, fifoOut := t.unit.fifoOut, cmd := { s.unit.cmd with pos1 := t.unit.cmd.pos1 } } } ∧
      drain total qw' t = .stop t := by
  unfold drain at h
  have hle : s.unit.cmd.pos1.toNat ≤ total ∨ total - s.unit.cmd.pos1.toNat = 0 := by omega
  rcases hle with hle | hzero
  · obtain ⟨hframe, hlt, hfull⟩ := drainLoop_stop rfl (by omega) h
    refine ⟨hframe, ?_⟩
    obtain ⟨n, hn⟩ : ∃ n, total - t.unit.cmd.pos1.toNat = n + 1 := ⟨total - t.unit.cmd.pos1.toNat - 1, by omega⟩
    unfold drain
    rw [hn, drainLoop, outPut, if_neg hfull]
  · rw [hzero] at h
    cases h

end

end Sys2Proof.Machine
end

section
/-! SUPPORT. A command that waited waits again, and changes nothing more (`43_command_dispatcher.md` R238): the rounds of CSC
and PACK, the rounds of a session, and the commands. -/

namespace Sys2Proof.Machine

/-- Completion leaves no command in flight. -/
theorem complete_busy (s : State) : (complete s).unit.cmd.busy = false := by
  rw [complete_cmd]
  rfl

/-- A part that goes on is not where a step stopped. -/
theorem Flow.bind_stop {f : Flow} {g : State → State} {t : State} (h : (f.bind fun s => .go (g s)) = .stop t) :
    f = .stop t := by
  cases f with
  | stop u => exact h
  | go _ | more _ | fault _ | refused _ => cases h

theorem Flow.bind_go {f : Flow} {g : State → Flow} {t : State} (h : f.bind g = .go t) : ∃ u, f = .go u ∧ g u = .go t := by
  cases f with
  | go u => exact ⟨u, rfl, h⟩
  | stop _ | more _ | fault _ | refused _ => cases h

/-! ### CSC and PACK -/

theorem drainMb_again {fmt : Format} {dte : Bool} {s t : State} (h : drainMb fmt dte s = .stop t) :
    SamePhase s t ∧ drainMb fmt dte t = .stop t := by
  have htotal : fmt.outCount < 2 ^ 32 := by cases fmt <;> decide
  obtain ⟨hframe, hagain⟩ :=
    drain_again (qw' := outQW t.cfg.pixel t.unit.vqclut fmt dte t.unit.mb.rgb32) htotal h
  exact ⟨by rw [hframe]; exact ⟨rfl, rfl⟩, hagain⟩

/-- An input phase that waits again where it waited, and else begins phase 1. -/
structure InputWaits (input : State → Flow) : Prop where
  again : ∀ {s t}, input s = .stop t → SamePhase s t ∧ input t = .stop t
  phase : ∀ {s t}, input s = .go t → t.unit.cmd.pos0 = 1 ∧ t.unit.cmd.index = s.unit.cmd.index

theorem readBytes_inputWaits {store : Nat → Byte → State → State} (hst : ∀ k v s, (store k v s).unit.cmd = s.unit.cmd)
    {total : Nat} (htotal : total < 2 ^ 32) {finish : State → State}
    (hfinish : ∀ s, (finish s).unit.cmd = s.unit.cmd) :
    InputWaits fun s => (readBytes total store s).bind fun s => .go (setPhase 1 0 (finish s)) where
  again {s t} h := by
    cases hr : readBytes total store s with
    | stop u =>
      rw [hr] at h
      obtain rfl : u = t := Flow.stop.inj h
      obtain ⟨hphase, hagain⟩ := readBytes_again hst htotal hr
      exact ⟨hphase, by rw [hagain]; rfl⟩
    | go _ | more _ | fault _ | refused _ => rw [hr] at h; cases h
  phase {s t} h := by
    cases hr : readBytes total store s with
    | go u =>
      rw [hr] at h
      obtain rfl := Flow.go.inj h
      obtain ⟨-, hix⟩ := byteLoop_go hst hr
      exact ⟨rfl, (congrArg Command.index (hfinish u)).trans hix⟩
    | stop _ | more _ | fault _ | refused _ => rw [hr] at h; cases h

theorem convertMb_cmd (s : State) : (convertMb s).unit.cmd = s.unit.cmd := setMb_cmd s _

theorem cscInput_waits : InputWaits cscInput :=
  readBytes_inputWaits (store := storeRaw) (total := 384) (fun _ _ _ => rfl) (by decide) convertMb_cmd

theorem packInput_waits : InputWaits packInput :=
  readBytes_inputWaits (store := storePixel) (total := 1024) (fun _ _ _ => rfl) (by decide) (finish := id) fun _ => rfl

/-- The round in which the macroblocks waited is made again without an effect. -/
theorem macroblockLoop_again {mbc : BitVec 11} {input : State → Flow} {fmt : Format} {dte : Bool} (hin : InputWaits input)
    {n : Nat} {s t : State} (h : macroblockLoop mbc input fmt dte n s = .stop t) (hb : t.unit.cmd.busy = true) (m : Nat) :
    macroblockLoop mbc input fmt dte (m + 1) t = .stop t := by
  induction n generalizing s with
  | zero => cases h
  | succ n ih =>
    unfold macroblockLoop at h
    split at h
    next =>
      obtain rfl := Flow.stop.inj h
      rw [complete_busy] at hb
      cases hb
    next hindex =>
      have hround {x : State} (hp : x.unit.cmd.pos0 ≠ 0) (hix : x.unit.cmd.index = s.unit.cmd.index)
          (h : ((drainMb fmt dte x).bind fun s => .go (setPhase 0 0 (bumpIndex s))).bind
            (macroblockLoop mbc input fmt dte n) = .stop t) : macroblockLoop mbc input fmt dte (m + 1) t = .stop t := by
        cases hd : drainMb fmt dte x with
        | go y => rw [hd] at h; exact ih h
        | stop y =>
          rw [hd] at h
          obtain rfl : y = t := Flow.stop.inj h
          obtain ⟨⟨hp0, hix'⟩, hagain⟩ := drainMb_again hd
          unfold macroblockLoop
          rw [if_neg (by rwa [hix', hix]), if_neg (by rwa [hp0])]
          show ((drainMb fmt dte y).bind _).bind _ = _
          rw [hagain]
          rfl
        | more _ | fault _ | refused _ => rw [hd] at h; cases h
      split at h
      next hp =>
        cases hi : input s with
        | go x =>
          rw [hi] at h
          obtain ⟨hp1, hix⟩ := hin.phase hi
          exact hround (by rw [hp1]; decide) hix h
        | stop x =>
          rw [hi] at h
          obtain rfl : x = t := Flow.stop.inj h
          obtain ⟨⟨hp0, hix⟩, hagain⟩ := hin.again hi
          exact macroblockLoop_input_stop m (by rwa [hix]) (hp0.trans hp) hagain
        | more _ | fault _ | refused _ => rw [hi] at h; cases h
      next hp => exact hround hp rfl h

/-! ### Sessions -/

/-- The rules of a command whose drain waits again where it waited, and else begins phase 1, and whose emits begin phase 2. -/
structure SessionRules.Waits (r : SessionRules) : Prop where
  again : ∀ {s t}, r.drainEmitted s = .stop t → t.unit.cmd.pos0 = s.unit.cmd.pos0 ∧ r.drainEmitted t = .stop t
  drained : ∀ {s t}, r.drainEmitted s = .go t → t.unit.cmd.pos0 = 1
  taken : ∀ {req s t}, r.takeEmit req s = .go t → t.unit.cmd.pos0 = 2
  takes : ∀ {req s t}, r.takeEmit req s ≠ .stop t

theorem answer_pos0 (a : LibReply) (s : State) : (answer a s).unit.cmd.pos0 = s.unit.cmd.pos0 := by
  unfold answer
  split <;> rfl

/-- Phase 2 of BDEC has coefficients to drain, or stops. -/
theorem bdecRules_drain_cases {qsc : BitVec 5} {dt dcr mbi : Bool} (s : State) :
    (∃ ses coef, s.unit.lib = some ses ∧ ses.req = .emitCoef coef) ∨
      (bdecRules qsc dt dcr mbi).drainEmitted s = .stop s := by
  cases hlib : s.unit.lib with
  | none => exact .inr (by simp only [bdecRules, hlib])
  | some ses =>
    obtain ⟨params, replies, req⟩ := ses
    cases req with
    | emitCoef coef => exact .inl ⟨_, coef, rfl, rfl⟩
    | align | skip | read | peek | refill | emitMB | done => exact .inr (by simp only [bdecRules, hlib])

theorem RulesOf.waits {i : Instr} {fb : BitVec 6} {r : SessionRules} (h : RulesOf i fb r) : r.Waits := by
  cases h with
  | idec =>
    refine ⟨fun {s t} h => ?_, fun {s t} h => ?_, fun {req s t} h => ?_, fun {req s t} => by cases req <;> exact nofun⟩
    · have hagain := Flow.bind_stop h
      obtain ⟨⟨hp0, -⟩, hd⟩ := drainMb_again hagain
      refine ⟨hp0, ?_⟩
      show (drainMb _ _ t).bind _ = _
      rw [hd]
      rfl
    · obtain ⟨u, -, hu⟩ := Flow.bind_go h
      obtain rfl := Flow.go.inj hu
      exact answer_pos0 _ _
    · cases req <;> cases h
      rfl
  | bdec =>
    refine ⟨fun {s t} h => ?_, fun {s t} h => ?_, fun {req s t} h => ?_, fun {req s t} => by cases req <;> exact nofun⟩
    · rcases bdecRules_drain_cases s with ⟨ses, coef, hlib, hreq⟩ | hidle
      · rw [bdecRules_drain hlib hreq] at h
        obtain ⟨hframe, hd⟩ := drain_again (qw' := coefQW coef) (by decide) (Flow.bind_stop h)
        have hlib' : t.unit.lib = some ses := by rw [hframe]; exact hlib
        refine ⟨by rw [hframe], ?_⟩
        rw [bdecRules_drain hlib' hreq, hd]
        rfl
      · obtain rfl : s = t := Flow.stop.inj (hidle.symm.trans h)
        exact ⟨rfl, hidle⟩
    · unfold bdecRules at h
      dsimp only at h
      split at h
      · obtain ⟨u, -, hu⟩ := Flow.bind_go h
        obtain rfl := Flow.go.inj hu
        exact answer_pos0 _ _
      · cases h
    · cases req <;> cases h
      rfl
  | vdec => exact ⟨fun h => by cases h; exact ⟨rfl, rfl⟩, nofun, nofun, nofun⟩

/-- A round whose request cannot be served leaves the state as it is. -/
theorem sessionLoop_wait_again {r : SessionRules} {ses : LibSession} {t : State} (hp : t.unit.cmd.pos0 ≠ 2)
    (hlib : t.unit.lib = some ses) (h : serveCursor ses.req t = .wait t) (m : Nat) : sessionLoop r (m + 1) t = .stop t := by
  have ht : inSession t.unit.cmd ses t = t := by rw [inSession, ← hlib]; rfl
  have hround := sessionLoop_wait (r := r) hp h m
  rwa [ht] at hround

/-- The round in which a session waited is made again without an effect. -/
theorem sessionLoop_again {r : SessionRules} (hr : r.Waits) {n : Nat} {s t : State} (hp : s.unit.cmd.pos0 ≠ 0)
    (h : sessionLoop r n s = .stop t) (hb : t.unit.cmd.busy = true) :
    t.unit.cmd.pos0 ≠ 0 ∧ ∀ m, sessionLoop r (m + 1) t = .stop t := by
  induction n generalizing s with
  | zero => cases h
  | succ n ih =>
    rw [sessionLoop_succ] at h
    split at h
    next h2 =>
      cases hd : r.drainEmitted s with
      | go x =>
        rw [hd] at h
        exact ih (by rw [hr.drained hd]; decide) h
      | stop x =>
        rw [hd] at h
        obtain rfl : x = t := Flow.stop.inj h
        obtain ⟨hp0, hagain⟩ := hr.again hd
        refine ⟨by rwa [hp0], fun m => ?_⟩
        rw [sessionLoop_phase_two r m x (hp0.trans h2), hagain]
        rfl
      | more _ | fault _ | refused _ => rw [hd] at h; cases h
    next h2 =>
      have htake {req : LibRequest} {y : State} (h : (r.takeEmit req y).bind (sessionLoop r n) = .stop t) :
          t.unit.cmd.pos0 ≠ 0 ∧ ∀ m, sessionLoop r (m + 1) t = .stop t := by
        cases he : r.takeEmit req y with
        | go x =>
          rw [he] at h
          exact ih (by rw [hr.taken he]; decide) h
        | stop x => exact absurd he hr.takes
        | more _ | fault _ | refused _ => rw [he] at h; cases h
      have hserve (hafter : afterServe r n (serveCursor (sessionOf r.command s).req
          (s.setLib (some (sessionOf r.command s)))) = .stop t) :
          t.unit.cmd.pos0 ≠ 0 ∧ ∀ m, sessionLoop r (m + 1) t = .stop t := by
        have honly := serveCursor_inputOnly (sessionOf r.command s).req (s.setLib (some (sessionOf r.command s)))
        cases hsc : serveCursor (sessionOf r.command s).req (s.setLib (some (sessionOf r.command s))) with
        | reply a x =>
          rw [hsc] at hafter honly
          have hp0 : (answer a x).unit.cmd.pos0 = s.unit.cmd.pos0 :=
            (answer_pos0 a x).trans (InputOnly.samePhase honly).pos0
          exact ih (by rwa [hp0]) hafter
        | wait x =>
          rw [hsc] at hafter honly
          obtain rfl : x = t := Flow.stop.inj hafter
          obtain ⟨hp0, -⟩ := InputOnly.samePhase honly
          have hlib : x.unit.lib = some (sessionOf r.command s) := by rw [InputOnly.eq_withInput honly]; rfl
          exact ⟨hp0.trans_ne hp, sessionLoop_wait_again (hp0.trans_ne h2) hlib (serveCursor_again hsc)⟩
        | fault _ | refused _ => rw [hsc] at hafter; cases hafter
      cases hreq : (sessionOf r.command s).req with
      | done res =>
        rw [hreq] at h
        obtain rfl := Flow.stop.inj h
        rw [complete_busy] at hb
        cases hb
      | emitMB _ | emitCoef _ => rw [hreq] at h; exact htake h
      | align | skip _ | read _ | peek _ | refill _ _ =>
        refine hserve ?_
        rw [hreq] at h ⊢
        exact h

/-! ### The commands -/

/-- After the `FB` phase the command is in phase 1 or later. -/
theorem fbPhase_go_pos0 {fb : BitVec 6} {s x : State} (h : fbPhase fb s = .go x) : x.unit.cmd.pos0 ≠ 0 := by
  unfold fbPhase at h
  split at h
  next hp =>
    cases hskip : skipBits fb.toNat s with
    | ok _ u =>
      rw [hskip] at h
      obtain rfl := Flow.go.inj h
      exact (by decide : (1 : Word) ≠ 0)
    | short _ | bad => rw [hskip] at h; cases h
  next hp =>
    obtain rfl := Flow.go.inj h
    exact hp

theorem sessionStep_again {fb : BitVec 6} {r : SessionRules} (hr : r.Waits) {s t : State} (h : sessionStep fb r s = .stop t)
    (hb : t.unit.cmd.busy = true) : sessionStep fb r t = .stop t := by
  unfold sessionStep at h
  cases hphase : fbPhase fb s with
  | go x =>
    rw [hphase] at h
    obtain ⟨hp, hagain⟩ := sessionLoop_again hr (fbPhase_go_pos0 hphase) h hb
    exact (sessionStep_open hp).trans (hagain 1023)
  | stop x =>
    rw [hphase] at h
    obtain rfl : x = t := Flow.stop.inj h
    rw [sessionStep, fbPhase_again hphase]
    rfl
  | more _ | fault _ | refused _ => rw [hphase] at h; cases h

theorem fdecStep_again {fb : BitVec 6} {s t : State} (h : fdecStep fb s = .stop t) (hb : t.unit.cmd.busy = true) :
    fdecStep fb t = .stop t := by
  cases hphase : fbPhase fb s with
  | go x =>
    obtain ⟨hok, hshort⟩ := fdecStep_look hphase
    cases hpeek : peekBits 32 x with
    | ok v y =>
      obtain rfl := Flow.stop.inj ((hok v y hpeek).symm.trans h)
      rw [complete_busy] at hb
      cases hb
    | short y =>
      obtain rfl : y = t := Flow.stop.inj ((hshort y hpeek).symm.trans h)
      have honly : InputOnly x y := by have hin := peekBits_inputOnly 32 x; rwa [hpeek] at hin
      have hp : y.unit.cmd.pos0 ≠ 0 := honly.samePhase.pos0.trans_ne (fbPhase_go_pos0 hphase)
      have hopen : fbPhase fb y = .go y := by rw [fbPhase, if_neg hp]
      exact (fdecStep_look hopen).2 y (peekBits_again hpeek)
    | bad => rw [fdecStep, hphase] at h; simp [Flow.bind, hpeek] at h
  | stop x =>
    rw [fdecStep, hphase] at h
    obtain rfl : x = t := Flow.stop.inj h
    rw [fdecStep, fbPhase_again hphase]
    rfl
  | more _ | fault _ | refused _ => rw [fdecStep, hphase] at h; cases h

/-- SETIQ and SETVQ, short of their bits, only pull. -/
theorem setiqStep_short {fb : BitVec 6} {iqm : Bool} {s : State}
    (h : totalAvail (pull (fb.toNat + 512) s) < fb.toNat + 512) : setiqStep fb iqm s = .stop (pull (fb.toNat + 512) s) :=
  if_pos h

theorem setvqStep_short {s : State} (h : totalAvail (pull 256 s) < 256) : setvqStep s = .stop (pull 256 s) := if_pos h

theorem setiqStep_again {fb : BitVec 6} {iqm : Bool} {s t : State} (hc : InputCounted s) (h : setiqStep fb iqm s = .stop t)
    (hb : t.unit.cmd.busy = true) : setiqStep fb iqm t = .stop t := by
  have htotal := (pull_inputMoved (fb.toNat + 512) hc).took.consumed.1
  by_cases hbits : fb.toNat + 512 ≤ totalAvail s
  · obtain ⟨_, _, _, _, _, hstep⟩ := setiqStep_loads (iqm := iqm) hc hbits
    obtain rfl := Flow.stop.inj (hstep.symm.trans h)
    rw [complete_busy] at hb
    cases hb
  · have hshort : totalAvail (pull (fb.toNat + 512) s) < fb.toNat + 512 := by omega
    obtain rfl := Flow.stop.inj ((setiqStep_short hshort).symm.trans h)
    have hp := pull_pull (le_refl (fb.toNat + 512)) s
    exact (setiqStep_short (by rwa [hp])).trans (congrArg Flow.stop hp)

theorem setvqStep_again {s t : State} (hc : InputCounted s) (h : setvqStep s = .stop t) (hb : t.unit.cmd.busy = true) :
    setvqStep t = .stop t := by
  have htotal := (pull_inputMoved 256 hc).took.consumed.1
  by_cases hbits : 256 ≤ totalAvail s
  · obtain ⟨_, _, _, _, _, hstep⟩ := setvqStep_loads hc hbits
    obtain rfl := Flow.stop.inj (hstep.symm.trans h)
    rw [complete_busy] at hb
    cases hb
  · have hshort : totalAvail (pull 256 s) < 256 := by omega
    obtain rfl := Flow.stop.inj ((setvqStep_short hshort).symm.trans h)
    have hp := pull_pull (le_refl 256) s
    exact (setvqStep_short (by rwa [hp])).trans (congrArg Flow.stop hp)

/-- A step that suspended is made again without an effect. -/
theorem inFlightStep_again {i : Instr} {s t : State} (hc : InputCounted s) (h : inFlightStep i s = .stop t)
    (hb : t.unit.cmd.busy = true) : inFlightStep i t = .stop t := by
  have hsession {fb : BitVec 6} {r : SessionRules} (hr : RulesOf i fb r) : inFlightStep i t = .stop t := by
    rw [hr.inFlightStep] at h ⊢
    exact sessionStep_again hr.waits h hb
  cases i with
  | idec fb qsc dtd sgn dte ofm lo hi => exact hsession (.idec ..)
  | bdec fb qsc dt dcr mbi lo hi => exact hsession (.bdec ..)
  | vdec fb tbl unused => exact hsession (.vdec ..)
  | fdec fb unused => exact fdecStep_again h hb
  | setiq fb iqm unused => exact setiqStep_again hc h hb
  | setvq unused => exact setvqStep_again hc h hb
  | csc mbc dte ofm unused => exact macroblockLoop_again cscInput_waits h hb mbc.toNat
  | pack mbc dte ofm unused => exact macroblockLoop_again packInput_waits h hb mbc.toNat
  | setth th0 th1 lo hi =>
    obtain rfl := Flow.stop.inj h
    rw [complete_busy] at hb
    cases hb
  | bclr | invalid101 | invalid11 | tagFollow | tagQwc | tagAddr | tagNone | tagMalformed => rfl

/-- A step that suspended leaves the word of the command in flight. -/
theorem commandStep_current {s t : State} (h : commandStep s = .stop t) (hb : t.unit.cmd.busy = true) :
    t.unit.cmd.current = s.unit.cmd.current := by
  have hw := commandStep_within s
  rw [h] at hw
  rcases hw with hmoves | ⟨u, -, rfl⟩
  · exact (Moves.inFlightKept hmoves).current
  · rw [complete_busy] at hb
    cases hb

/-- Settles O23: `inFlightStep_again`, for the word of the command, which a suspended step leaves. -/
theorem suspendedRetryChangesNothing : Obligations.SuspendedRetryChangesNothing := by
  unfold Obligations.SuspendedRetryChangesNothing
  have hidle {s : State} (hb : s.unit.cmd.busy = false) : dispatchStep s = .stop s := by
    unfold dispatchStep
    rw [hb]
    rfl
  refine ⟨fun s t hc h hb => ?_, fun rest s hb => ⟨hidle hb, fun hcalls => ?_⟩⟩
  · cases hbs : s.unit.cmd.busy with
    | false =>
      obtain rfl : s = t := Flow.stop.inj ((hidle hbs).symm.trans h)
      exact h
    | true =>
      rw [dispatchStep, if_pos hbs] at h
      have hcurrent := commandStep_current h hb
      rw [commandStep_eq] at h
      rw [dispatchStep_inFlight hb (congrArg decodeCommand hcurrent)]
      exact inFlightStep_again hc h hb
  · rw [step_of_calls hcalls]
    show (dispatchStep ((s.setCalls rest).setResult .none)).outcome = _
    rw [hidle (s := (s.setCalls rest).setResult .none) hb]
    rfl

end Sys2Proof.Machine
end

section
/-! SUPPORT. Where a dispatch step faults or is refused: only a session does, and only on a request of the library outside
its contract (`43_command_dispatcher.md` R252, R254). -/

namespace Sys2Proof.Machine

/-! ### What the library may be asking -/

/-- The library asks, or for some replies will ask, the request `q` of the command `c`: in the open session, or in one that
is opened with the parameters as they stand. -/
def Asked (c : LibCommand) (s : State) (q : LibRequest) : Prop :=
  (∃ ses, s.unit.lib = some ses ∧ (ses.req = q ∨ ∃ replies, libNext s.cfg ⟨replies, ses.params⟩ = q)) ∨
    ∃ replies, libNext s.cfg ⟨replies, libParams c s.unit⟩ = q

/-- From `s` to `t` nothing changed that the library is given. -/
structure SameLibrary (s t : State) : Prop where
  cfg : t.cfg = s.cfg
  lib : t.unit.lib = s.unit.lib
  ctrl : CtrlKept (fun i => 16 ≤ i) s t
  iqIntra : t.unit.iqIntra = s.unit.iqIntra
  iqNonIntra : t.unit.iqNonIntra = s.unit.iqNonIntra
  vqclut : t.unit.vqclut = s.unit.vqclut
  th0 : t.unit.th0 = s.unit.th0
  th1 : t.unit.th1 = s.unit.th1

section
variable {c : LibCommand} {s t u : State}

/-- A session opened now is given the same parameters. -/
theorem SameLibrary.libParams (h : SameLibrary s t) (c : LibCommand) : libParams c t.unit = libParams c s.unit := by
  obtain ⟨-, -, hctrl, hiq, hniq, hvq, hth0, hth1⟩ := h
  have hfield (lo w : Nat) (hlo : 16 ≤ lo) : getField lo w t.unit.ctrl = getField lo w s.unit.ctrl :=
    getField_congr fun i hi _ => hctrl i (by omega)
  simp only [Machine.libParams, ctrlPCT, ctrlIDP, ctrlAS, ctrlIVF, ctrlQST, ctrlMP1, hfield 24 3 (by decide),
    hfield 16 2 (by decide), hctrl 20 (by decide), hctrl 21 (by decide), hctrl 22 (by decide), hctrl 23 (by decide),
    hiq, hniq, hvq, hth0, hth1]

theorem SameLibrary.asked (h : SameLibrary s t) {q : LibRequest} (ha : Asked c t q) : Asked c s q := by
  unfold Asked at ha ⊢
  rwa [h.lib, h.cfg, h.libParams] at ha

theorem InputOnly.sameLibrary (h : InputOnly s t) : SameLibrary s t := by
  obtain ⟨-, hctrl⟩ := id h
  rw [h.eq_withInput] at hctrl ⊢
  exact ⟨rfl, rfl, fun i hi => hctrl i (by omega), rfl, rfl, rfl, rfl, rfl⟩

theorem outPut_sameLibrary {q : QWord} (h : outPut q s = some t) : SameLibrary s t := by
  rcases outPut_spec q s with ⟨-, u, hu, -, -, -, hctrl, hframe⟩ | ⟨-, hnone⟩
  · obtain rfl : u = t := Option.some.inj (hu.symm.trans h)
    have hkept : CtrlKept (fun i => 16 ≤ i) s u := fun i hi => hctrl i (by omega)
    rw [hframe] at hkept ⊢
    exact ⟨rfl, rfl, hkept, rfl, rfl, rfl, rfl, rfl⟩
  · exact nomatch hnone.symm.trans h

theorem sessionOf_asked (s : State) {q : LibRequest} (h : (sessionOf c s).req = q) : Asked c s q := by
  unfold sessionOf at h
  cases hlib : s.unit.lib with
  | some ses => rw [hlib] at h; exact .inl ⟨ses, hlib, .inl h⟩
  | none => rw [hlib] at h; exact .inr ⟨[], h⟩

/-- The session in use is the open one, or is opened with the parameters as they stand. -/
theorem asked_of_setLib_sessionOf {q : LibRequest} (h : Asked c (s.setLib (some (sessionOf c s))) q) : Asked c s q := by
  obtain ⟨ses, hses, hq⟩ | h := h
  · obtain rfl : sessionOf c s = ses := Option.some.inj hses
    obtain hq | ⟨replies, hq⟩ := hq
    · exact sessionOf_asked s hq
    · unfold sessionOf at hq
      cases hlib : s.unit.lib with
      | some ses => rw [hlib] at hq; exact .inl ⟨ses, hlib, .inr ⟨replies, hq⟩⟩
      | none => rw [hlib] at hq; exact .inr ⟨replies, hq⟩
  · exact .inr h

/-- A reply is followed by a request of the same session. -/
theorem asked_of_answer {a : LibReply} {q : LibRequest} (h : Asked c (answer a s) q) : Asked c s q := by
  cases hlib : s.unit.lib with
  | none =>
    have hs : answer a s = s := by rw [answer, hlib]
    rwa [hs] at h
  | some ses =>
    rw [answer_of_lib hlib] at h
    obtain ⟨ses', hses, hq⟩ | h := h
    · obtain rfl : libAnswer s.cfg ses a = ses' := Option.some.inj hses
      obtain hq | ⟨replies, hq⟩ := hq
      · exact .inl ⟨ses, hlib, .inr ⟨a :: ses.replies, hq⟩⟩
      · exact .inl ⟨ses, hlib, .inr ⟨replies, hq⟩⟩
    · exact .inr h

end

/-! ### Requests outside the ranges -/

section
variable {w : Nat} {s : State}

theorem readBits_bad (h : readBits w s = .bad) : ¬ (1 ≤ w ∧ w ≤ 32) := by
  intro hw
  rw [readBits, if_pos hw] at h
  dsimp only at h
  split at h <;> cases h

theorem peekBits_bad (h : peekBits w s = .bad) : ¬ (1 ≤ w ∧ w ≤ 32) := by
  intro hw
  rw [peekBits, if_pos hw] at h
  dsimp only at h
  split at h <;> cases h

theorem skipBits_bad (h : skipBits w s = .bad) : ¬ w ≤ 63 := by
  intro hw
  rw [skipBits, if_pos hw] at h
  dsimp only at h
  split at h <;> cases h

theorem alignByte_ne_bad : alignByte s ≠ .bad := by
  unfold alignByte
  dsimp only
  split
  · nofun
  · split <;> nofun

theorem Take.served_refused {α : Type} {f : α → LibReply} {x : Take α} {e : Refusal} (h : x.served f = .refused e) :
    x = .bad := by
  cases x with
  | bad => rfl
  | ok _ _ | short _ => cases h

theorem Take.served_ne_fault {α : Type} {f : α → LibReply} {x : Take α} {e : Fault} : x.served f ≠ .fault e := by
  cases x <;> nofun

/-- The cursor's only fault is a refill beyond the capacity (R144). -/
theorem serveCursor_fault {req : LibRequest} {e : Fault} (h : serveCursor req s = .fault e) :
    e = .refillOverCapacity ∧ ∃ hint n, 32 < n ∧ req = .refill hint n := by
  cases req with
  | refill hint n =>
    rw [serveCursor_refill] at h
    split at h
    next hn => cases h; exact ⟨rfl, hint, n, hn, rfl⟩
    next => cases h
  | skip _ | read _ | peek _ | align => exact absurd h Take.served_ne_fault
  | emitMB _ | emitCoef _ | done _ => cases h

/-- A request of the cursor is refused only outside the ranges of R252. -/
theorem serveCursor_refused {req : LibRequest} {e : Refusal} (c : LibCommand) (h : serveCursor req s = .refused e) :
    ¬ requestAllowed c req ∨ (∃ raw, req = .emitMB raw) ∨ (∃ coef, req = .emitCoef coef) ∨ ∃ res, req = .done res := by
  cases req with
  | skip n => exact .inl (skipBits_bad (Take.served_refused h))
  | read n => exact .inl (readBits_bad (Take.served_refused h))
  | peek n => exact .inl (peekBits_bad (Take.served_refused h))
  | align => exact absurd (Take.served_refused h) alignByte_ne_bad
  | refill hint n =>
    rw [serveCursor_refill] at h
    split at h <;> cases h
  | emitMB raw => exact .inr (.inl ⟨raw, rfl⟩)
  | emitCoef coef => exact .inr (.inr (.inl ⟨coef, rfl⟩))
  | done res => exact .inr (.inr (.inr ⟨res, rfl⟩))

end

/-! ### The parts of a step -/

/-- A part of a step of the command `c` from `s` on: it faults or is refused only on a request outside the contract that the
library asks, and where it goes on, the library asks nothing new. -/
def Flow.Lawful (c : LibCommand) (s : State) : Flow → Prop
  | .go t => ∀ q, Asked c t q → Asked c s q
  | .stop _ | .more _ => True
  | .fault f => f = .refillOverCapacity ∧ ∃ hint n, 32 < n ∧ Asked c s (.refill hint n)
  | .refused _ => ∃ q, Asked c s q ∧ ¬ requestAllowed c q

section
variable {c : LibCommand} {s : State}

theorem Flow.Lawful.mono {t : State} {f : Flow} (h : f.Lawful c t) (hasked : ∀ q, Asked c t q → Asked c s q) :
    f.Lawful c s := by
  cases f with
  | go u => exact fun q hq => hasked q (h q hq)
  | stop _ | more _ => trivial
  | fault f =>
    obtain ⟨hf, hint, n, hn, hq⟩ := h
    exact ⟨hf, hint, n, hn, hasked _ hq⟩
  | refused x =>
    obtain ⟨q, hq, hbad⟩ := h
    exact ⟨q, hasked q hq, hbad⟩

theorem Flow.Lawful.bind {f : Flow} {g : State → Flow} (h : f.Lawful c s) (hg : ∀ t, (g t).Lawful c t) :
    (f.bind g).Lawful c s := by
  cases f with
  | go t => exact (hg t).mono h
  | stop _ | more _ => trivial
  | fault _ | refused _ => exact h

theorem drainLoop_lawful (qw : Nat → QWord) (n k : Nat) (s : State) : (drainLoop qw n k s).Lawful c s := by
  induction n generalizing k s with
  | zero => exact fun _ hq => hq
  | succ n ih =>
    unfold drainLoop
    cases h : outPut (qw k) s with
    | none => trivial
    | some t => exact (ih (k + 1) _).mono fun q hq => (outPut_sameLibrary h).asked hq

theorem drain_lawful (total : Nat) (qw : Nat → QWord) (s : State) : (drain total qw s).Lawful c s :=
  drainLoop_lawful qw _ _ s

theorem fbPhase_lawful (fb : BitVec 6) (s : State) : (fbPhase fb s).Lawful c s := by
  unfold fbPhase
  split
  · have honly := skipBits_inputOnly fb.toNat s
    cases hskip : skipBits fb.toNat s with
    | ok _ t => rw [hskip] at honly; exact fun q hq => (InputOnly.sameLibrary honly).asked hq
    | short t => trivial
    | bad => exact absurd (by have := fb.isLt; omega) (skipBits_bad hskip)
  · exact fun _ hq => hq

end

/-! ### Sessions -/

/-- The command's own requests stop a step only outside the contract. -/
structure SessionRules.Lawful (r : SessionRules) : Prop where
  drainEmitted : ∀ s, (r.drainEmitted s).Lawful r.command s
  emitMB : ∀ raw s, Asked r.command s (.emitMB raw) → (r.takeEmit (.emitMB raw) s).Lawful r.command s
  emitCoef : ∀ coef s, Asked r.command s (.emitCoef coef) → (r.takeEmit (.emitCoef coef) s).Lawful r.command s

theorem RulesOf.lawful {i : Instr} {fb : BitVec 6} {r : SessionRules} (h : RulesOf i fb r) : r.Lawful := by
  cases h with
  | idec =>
    refine ⟨fun s => (drain_lawful _ _ s).bind fun t q hq => ?_, fun raw s _ q hq => ?_, fun coef s hq => ?_⟩
    · exact (asked_of_answer hq : Asked _ (setPhase 1 0 (bumpIndex t)) q)
    · exact hq
    · exact ⟨_, hq, by rintro ⟨_, _, _, _, ⟨⟩⟩⟩
  | bdec =>
    refine ⟨fun s => ?_, fun raw s hq => ?_, fun coef s _ q hq => hq⟩
    · rcases bdecRules_drain_cases s with ⟨ses, coef, hlib, hreq⟩ | hidle
      · rw [bdecRules_drain hlib hreq]
        refine (drain_lawful _ _ s).bind fun t q hq => ?_
        exact (asked_of_answer hq : Asked _ (setPhase 1 0 t) q)
      · rw [hidle]
        trivial
    · exact ⟨_, hq, by rintro ⟨_, _, _, ⟨⟩⟩⟩
  | vdec =>
    exact ⟨fun s => trivial, fun raw s hq => ⟨_, hq, by rintro ⟨_, _, _, ⟨⟩⟩⟩,
      fun coef s hq => ⟨_, hq, by rintro ⟨_, _, _, _, ⟨⟩⟩⟩⟩

section
variable {r : SessionRules} {n : Nat} (hloop : ∀ t, (sessionLoop r n t).Lawful r.command t)
include hloop

theorem afterServe_lawful {req : LibRequest} {s : State} (hq : Asked r.command s req)
    (hcursor : ∀ e, serveCursor req s = .refused e → ¬ requestAllowed r.command req) :
    (afterServe r n (serveCursor req s)).Lawful r.command s := by
  have honly := serveCursor_inputOnly req s
  cases hserve : serveCursor req s with
  | reply a t =>
    rw [hserve] at honly
    exact (hloop (answer a t)).mono fun q hq => (InputOnly.sameLibrary honly).asked (asked_of_answer hq)
  | wait t => trivial
  | fault e =>
    obtain ⟨he, hint, k, hk, rfl⟩ := serveCursor_fault hserve
    exact ⟨he, hint, k, hk, hq⟩
  | refused e => exact ⟨req, hq, hcursor e hserve⟩

theorem requestRound_lawful (hr : r.Lawful) {req : LibRequest} {s : State} (hq : Asked r.command s req) :
    (requestRound r n s req).Lawful r.command s := by
  cases req with
  | done res => trivial
  | emitMB raw => exact (hr.emitMB raw s hq).bind hloop
  | emitCoef coef => exact (hr.emitCoef coef s hq).bind hloop
  | align | skip _ | read _ | peek _ | refill _ _ =>
    refine afterServe_lawful hloop hq fun e he => (serveCursor_refused r.command he).resolve_right ?_
    rintro (⟨_, ⟨⟩⟩ | ⟨_, ⟨⟩⟩ | ⟨_, ⟨⟩⟩)

end

theorem sessionLoop_lawful {r : SessionRules} (hr : r.Lawful) (n : Nat) (s : State) :
    (sessionLoop r n s).Lawful r.command s := by
  induction n generalizing s with
  | zero => trivial
  | succ n ih =>
    rw [sessionLoop_succ]
    split
    · exact (hr.drainEmitted s).bind ih
    · exact (requestRound_lawful ih hr (.inl ⟨_, rfl, .inl rfl⟩)).mono fun q hq => asked_of_setLib_sessionOf hq

theorem sessionStep_lawful {r : SessionRules} (hr : r.Lawful) (fb : BitVec 6) (s : State) :
    (sessionStep fb r s).Lawful r.command s :=
  (fbPhase_lawful fb s).bind (sessionLoop_lawful hr _)

/-! ### Commands without a session -/

/-- A part of a step that neither faults nor is refused. -/
def Flow.Runs : Flow → Prop
  | .go _ | .stop _ | .more _ => True
  | .fault _ | .refused _ => False

theorem Flow.Runs.bind {f : Flow} {g : State → Flow} (h : f.Runs) (hg : ∀ t, (g t).Runs) : (f.bind g).Runs := by
  cases f with
  | go t => exact hg t
  | stop _ | more _ => trivial
  | fault _ | refused _ => exact h.elim

theorem fbPhase_runs (fb : BitVec 6) (s : State) : (fbPhase fb s).Runs := by
  unfold fbPhase
  split
  · cases hskip : skipBits fb.toNat s with
    | bad => exact absurd (by have := fb.isLt; omega) (skipBits_bad hskip)
    | ok _ _ | short _ => trivial
  · trivial

theorem fdecStep_runs (fb : BitVec 6) (s : State) : (fdecStep fb s).Runs := by
  refine (fbPhase_runs fb s).bind fun t => ?_
  cases hpeek : peekBits 32 t with
  | bad => exact absurd (by decide) (peekBits_bad hpeek)
  | ok _ _ | short _ => trivial

theorem byteLoop_runs (store : Nat → Byte → State → State) (n k : Nat) (s : State) : (byteLoop store n k s).Runs := by
  induction n generalizing k s with
  | zero => trivial
  | succ n ih =>
    unfold byteLoop
    cases hread : readBits 8 s with
    | bad => exact absurd (by decide) (readBits_bad hread)
    | ok v t => exact ih _ _
    | short _ => trivial

theorem drainLoop_runs (qw : Nat → QWord) (n k : Nat) (s : State) : (drainLoop qw n k s).Runs := by
  induction n generalizing k s with
  | zero => trivial
  | succ n ih =>
    unfold drainLoop
    cases outPut (qw k) s with
    | none => trivial
    | some t => exact ih _ _

theorem macroblockLoop_runs {mbc : BitVec 11} {input : State → Flow} {fmt : Format} {dte : Bool}
    (hin : ∀ s, (input s).Runs) (n : Nat) (s : State) : (macroblockLoop mbc input fmt dte n s).Runs := by
  induction n generalizing s with
  | zero => trivial
  | succ n ih =>
    unfold macroblockLoop
    split
    · trivial
    · refine Flow.Runs.bind (Flow.Runs.bind ?_ fun t => (drainLoop_runs _ _ _ t).bind fun _ => trivial) ih
      split
      · exact hin s
      · trivial

theorem setiqStep_runs (fb : BitVec 6) (iqm : Bool) (s : State) : (setiqStep fb iqm s).Runs := by
  unfold setiqStep
  dsimp only
  split
  · trivial
  · cases hskip : skipBits fb.toNat (pull (fb.toNat + 512) s) with
    | bad => exact absurd (by have := fb.isLt; omega) (skipBits_bad hskip)
    | ok _ t => exact (byteLoop_runs _ _ _ t).bind fun _ => trivial
    | short _ => trivial

theorem setvqStep_runs (s : State) : (setvqStep s).Runs := by
  unfold setvqStep
  dsimp only
  split
  · trivial
  · exact (byteLoop_runs _ _ _ _).bind fun _ => trivial

/-- All that stops a step: a request outside the contract, under a command with a session. -/
theorem inFlightStep_lawful (i : Instr) (s : State) : (inFlightStep i s).Runs ∨
    ∃ fb c, librarySession i = some (fb, c) ∧ (inFlightStep i s).Lawful c s := by
  have hsession {fb : BitVec 6} {r : SessionRules} (hr : RulesOf i fb r) :
      ∃ fb c, librarySession i = some (fb, c) ∧ (inFlightStep i s).Lawful c s :=
    ⟨fb, r.command, hr.librarySession, by rw [hr.inFlightStep]; exact sessionStep_lawful hr.lawful fb s⟩
  cases i with
  | idec fb qsc dtd sgn dte ofm lo hi => exact .inr (hsession (.idec ..))
  | bdec fb qsc dt dcr mbi lo hi => exact .inr (hsession (.bdec ..))
  | vdec fb tbl unused => exact .inr (hsession (.vdec ..))
  | fdec fb unused => exact .inl (fdecStep_runs fb s)
  | setiq fb iqm unused => exact .inl (setiqStep_runs fb iqm s)
  | setvq unused => exact .inl (setvqStep_runs s)
  | csc mbc dte ofm unused =>
    exact .inl (macroblockLoop_runs (input := cscInput) (fun s => (byteLoop_runs _ _ _ s).bind fun _ => trivial) _ s)
  | pack mbc dte ofm unused =>
    exact .inl (macroblockLoop_runs (input := packInput) (fun s => (byteLoop_runs _ _ _ s).bind fun _ => trivial) _ s)
  | setth | bclr | invalid101 | invalid11 | tagFollow | tagQwc | tagAddr | tagNone | tagMalformed => exact .inl trivial

end Sys2Proof.Machine
end

section
/-! SUPPORT. The statements about faults and refusals (`43_command_dispatcher.md` R252, R254, `60_exceptions.md` R356). -/

namespace Sys2Proof.Machine

/-- A command that stops without a next state is one that was written to an idle unit and opened a session (R234). -/
theorem exec_command_lawful {i : Instr} (hp : i.port = .command) (s : State) : (∃ t, exec i s = .next t) ∨
    ∃ (fb : BitVec 6) (c : LibCommand) (f : Flow), librarySession i = some (fb, c) ∧ exec i s = f.outcome ∧
      f.Lawful c (acceptCommand i.word s) := by
  rcases exec_kinds i s hp with ⟨bp, he⟩ | ⟨r, he⟩ | ⟨-, -, he⟩
  · exact .inl ⟨_, he⟩
  · exact .inl ⟨_, he⟩
  · cases hb : s.unit.cmd.busy with
    | true => exact .inl ⟨rejectCommand .busy s, by rw [he, submit, if_pos hb]⟩
    | false =>
      have hidle : exec i s = (inFlightStep i (acceptCommand i.word s)).outcome := by
        rw [he, submit, if_neg (by rw [hb]; decide)]
      rcases inFlightStep_lawful i (acceptCommand i.word s) with hruns | ⟨fb, c, hi, hlawful⟩
      · left
        rw [hidle]
        cases hf : inFlightStep i (acceptCommand i.word s) with
        | go t | stop t | more t => exact ⟨_, rfl⟩
        | fault _ | refused _ => rw [hf] at hruns; exact hruns.elim
      · exact .inr ⟨fb, c, _, hi, hidle, hlawful⟩

/-- What the library may ask once a command is accepted: no session is open. -/
theorem asked_accepted {c : LibCommand} {w : Word} {s : State} {q : LibRequest} (h : Asked c (acceptCommand w s) q) :
    ∃ replies, libNext s.cfg ⟨replies, libParams c s.unit⟩ = q := by
  obtain ⟨ses, hses, -⟩ | ⟨replies, hq⟩ := h
  · cases hses
  · rw [libParams_accepted] at hq
    exact ⟨replies, hq⟩

/-- Settles O50: a tag has a next state, and a command has one unless `Flow.Lawful` names the request that stops it. -/
theorem onlyBrokenContractStops : Obligations.OnlyBrokenContractStops := by
  unfold Obligations.OnlyBrokenContractStops
  intro i s hstops
  cases hp : i.port with
  | tag =>
    obtain ⟨t, ht⟩ := exec_tag_next hp s
    exact absurd ht (hstops t)
  | command =>
    obtain ⟨t, ht⟩ | ⟨fb, c, f, hi, he, hlawful⟩ := exec_command_lawful hp s
    · exact absurd ht (hstops t)
    · have hbroken : ∃ q, Asked c (acceptCommand i.word s) q ∧ ¬ requestAllowed c q := by
        cases f with
        | go t | stop t | more t => exact absurd he (hstops _)
        | fault e =>
          obtain ⟨-, hint, n, hn, hq⟩ := hlawful
          exact ⟨_, hq, Nat.not_le.mpr hn⟩
        | refused e => exact hlawful
      obtain ⟨q, hq, hbad⟩ := hbroken
      obtain ⟨replies, rfl⟩ := asked_accepted hq
      exact ⟨fb, c, replies, hi, hbad⟩

/-! ### Faults -/

/-- A fault with the code of an oversized refill that the library asks for the command word `w`. -/
def Oversized (w : Word) (s : State) (f : Fault) : Prop :=
  f = .refillOverCapacity ∧ ∃ fb c hint n, librarySession (decodeCommand w) = some (fb, c) ∧ 32 < n ∧
    Asked c s (.refill hint n)

theorem exec_fault {w : Word} {s : State} {f : Fault} (h : exec (decodeCommand w) s = .fault f) : Oversized w s f := by
  obtain ⟨t, ht⟩ | ⟨fb, c, g, hi, he, hlawful⟩ := exec_command_lawful (decodeCommand_port w) s
  · cases ht.symm.trans h
  · cases g with
    | fault e =>
      cases he.symm.trans h
      obtain ⟨rfl, hint, n, hn, hq⟩ := hlawful
      exact ⟨rfl, fb, c, hint, n, hi, hn, .inr (asked_accepted hq)⟩
    | go _ | stop _ | more _ | refused _ => cases he.symm.trans h

theorem dispatchStep_fault {s : State} {f : Fault} (h : (dispatchStep s).outcome = .fault f) :
    Oversized s.unit.cmd.current s f := by
  unfold dispatchStep at h
  split at h
  · rw [commandStep_eq] at h
    rcases inFlightStep_lawful (decodeCommand s.unit.cmd.current) s with hruns | ⟨fb, c, hi, hlawful⟩ <;>
      cases hf : inFlightStep (decodeCommand s.unit.cmd.current) s with
      | fault e => _
      | _ => rw [hf] at h; cases h
    · rw [hf] at hruns
      exact hruns.elim
    · rw [hf] at h hlawful
      cases h
      obtain ⟨rfl, hint, n, hn, hq⟩ := hlawful
      exact ⟨rfl, fb, c, hint, n, hi, hn, hq⟩
  · cases h

theorem regWrite32_fault {off : Nat} {v : Word} {s : State} {f : Fault} (h : regWrite32 off v s = .fault f) :
    Oversized v s f := by
  unfold regWrite32 at h
  split at h
  · cases he : exec (decodeCommand v) s with
    | fault e =>
      rw [he] at h
      cases h
      exact exec_fault he
    | next _ | refused _ => rw [he] at h; cases h
  · split at h <;> cases h

theorem runCall_fault {call : Call} {s : State} {f : Fault} (h : runCall call s = .fault f) :
    Oversized (call.commandWord s) s f := by
  cases call with
  | cmdWrite w => exact exec_fault h
  | regWrite32 off v => exact regWrite32_fault h
  | regWrite64 off v => exact regWrite32_fault h
  | dispatchStep => exact dispatchStep_fault (s := s.setResult .none) h
  | continueStep => exact dispatchStep_fault h
  | dmaKickTo mode addr byteCount =>
    cases ho : openTo mode addr byteCount s with
    | none => simp [runCall, kickTo, ho] at h
    | some u =>
      obtain ⟨t, ht⟩ := kickTo_next_of_open ho
      cases ht.symm.trans h
  | dmaKickFrom addr byteCount =>
    cases ho : openFrom addr byteCount s with
    | none => simp [runCall, kickFrom, ho] at h
    | some u => simp [runCall, kickFrom, ho] at h
  | save =>
    simp only [runCall, callSave] at h
    split at h <;> cases h
  | restore cfg image =>
    simp only [runCall, callRestore] at h
    split at h <;> cases h
  | hardReset | softReset | regRead32 | regRead64 | dmaAbort | tick | canPersist | hostStore => cases h

/-- Settles O49: `runCall_fault`, for the call that is taken from the queue. -/
theorem onlyOversizedRefillFaults : Obligations.OnlyOversizedRefillFaults := by
  unfold Obligations.OnlyOversizedRefillFaults
  intro s f h
  cases hcalls : s.calls with
  | nil => rw [step, hcalls] at h; cases h
  | cons call rest =>
    rw [step_of_calls hcalls] at h
    obtain ⟨rfl, fb, c, hint, n, hi, hn, hq⟩ := runCall_fault h
    refine ⟨rfl, call, rest, hint, n, rfl, hn, ?_⟩
    have hword : call.commandWord (s.setCalls rest) = call.commandWord s := by cases call <;> rfl
    rw [hword] at hi
    obtain hopen | ⟨replies, hq⟩ := hq
    · exact .inl hopen
    · exact .inr ⟨fb, c, replies, hi, hq⟩

end Sys2Proof.Machine
end

section
/-! SUPPORT. The search for the nearest colour, and the converted pixel by column and row
(`44_color_space_converter.md` R292, R293, R295, R300). -/

namespace Sys2Proof.Machine

/-! ### The nearest colour (R300) -/

/-- Of the indices below `n`, `best` is the smallest one at which `d` is least. -/
structure FirstLeast (d : Nat → Nat) (n best : Nat) : Prop where
  lt : best < n
  least : ∀ k, k < n → d best ≤ d k
  first : ∀ k, k < best → d best < d k

/-- One index more: the new one is the first least only where it is strictly less. -/
theorem FirstLeast.succ {d : Nat → Nat} {n best : Nat} (h : FirstLeast d n best) :
    FirstLeast d (n + 1) (if d n < d best then n else best) := by
  obtain ⟨hlt, hleast, hfirst⟩ := h
  split
  · next hless =>
    refine ⟨Nat.lt_succ_self n, fun k hk => ?_, fun k hk => hless.trans_le (hleast k hk)⟩
    obtain hk | rfl := Nat.lt_succ_iff_lt_or_eq.1 hk
    · exact (hless.trans_le (hleast k hk)).le
    · exact le_rfl
  · next hless =>
    refine ⟨Nat.lt_succ_of_lt hlt, fun k hk => ?_, hfirst⟩
    obtain hk | rfl := Nat.lt_succ_iff_lt_or_eq.1 hk
    · exact hleast k hk
    · exact Nat.le_of_not_lt hless

/-- One entry of the search: its index is taken where its distance is strictly less. -/
theorem nearest_cons (c v : BitVec 16) (vs : List (BitVec 16)) (d : Nat → Nat) (e best : Nat)
    (hv : d e = colourDist c v) :
    nearest c (v :: vs) e best (d best) =
      let b := if d e < d best then e else best
      nearest c vs (e + 1) b (d b) := by
  rw [nearest, ← hv]
  split <;> rfl

/-- The search keeps the first least index of the entries it has passed; `d` is the distance by index. -/
theorem nearest_firstLeast (c : BitVec 16) (d : Nat → Nat) (vs : List (BitVec 16)) (e best : Nat)
    (hd : ∀ i (hi : i < vs.length), d (e + i) = colourDist c vs[i]) (h : FirstLeast d e best) :
    FirstLeast d (e + vs.length) (nearest c vs e best (d best)) := by
  induction vs generalizing e best with
  | nil => exact h
  | cons v vs ih =>
    have hrest (i : Nat) (hi : i < vs.length) : d (e + 1 + i) = colourDist c vs[i] := by
      rw [Nat.add_right_comm]
      exact hd (i + 1) (Nat.succ_lt_succ hi)
    rw [nearest_cons c v vs d e best (hd 0 (Nat.succ_pos _)), List.length_cons, Nat.add_comm vs.length,
      ← Nat.add_assoc]
    exact ih (e + 1) _ hrest h.succ

/-- The search over a whole table: it starts from a distance that the first entry beats. -/
theorem nearest_table_firstLeast (c : BitVec 16) (d : Nat → Nat) (vs : List (BitVec 16)) (hpos : 0 < vs.length)
    (hd : ∀ i (hi : i < vs.length), d i = colourDist c vs[i]) :
    FirstLeast d vs.length (nearest c vs 0 0 (d 0 + 1)) := by
  cases vs with
  | nil => exact absurd hpos (Nat.lt_irrefl 0)
  | cons v vs =>
    have hv : d 0 = colourDist c v := hd 0 hpos
    have hzero : FirstLeast d 1 0 :=
      ⟨Nat.one_pos, fun k hk => by rw [Nat.lt_one_iff.1 hk], fun k hk => absurd hk (Nat.not_lt_zero k)⟩
    rw [nearest, ← hv, if_pos (Nat.lt_succ_self _), List.length_cons, Nat.add_comm]
    exact nearest_firstLeast c d vs 1 0
      (fun i hi => by rw [Nat.add_comm]; exact hd (i + 1) (Nat.succ_lt_succ hi)) hzero

/-- The default index is the first least of the sixteen distances. -/
theorem index4Default_firstLeast (m : PixelMath) (clut : Vector (BitVec 16) 16) (p : Pixel) (x y : Nat) (dte : Bool) :
    FirstLeast (fun k => colourDist (narrow16 m p x y dte) (clut.getD k 0)) 16
      (index4Default m clut p x y dte).toNat := by
  have hlen : clut.toList.length = 16 := Vector.length_toList
  have hfound := nearest_table_firstLeast (narrow16 m p x y dte)
    (fun k => colourDist (narrow16 m p x y dte) (clut.getD k 0)) clut.toList (by omega)
    (fun i hi => by rw [Vector.getElem_toList, vec_getD_eq])
  rw [hlen] at hfound
  rw [index4Default, BitVec.toNat_ofNat, Nat.mod_eq_of_lt hfound.lt]
  exact hfound

/-! ### The converted pixel (R292 to R295) -/

/-- The converted macroblock by column and row (R293). -/
theorem flatPixel_convertMacroblock (m : PixelMath) (raw : Vector Byte 384) (th0 th1 : BitVec 9) {x y : Nat}
    (hx : x < 16) (hy : y < 16) :
    flatPixel (convertMacroblock m raw th0 th1) (16 * y + x) = convertPixel m raw th0 th1 y x := by
  rw [flatPixel, vec_getD_eq _ _ _ (by omega), convertMacroblock, Vector.getElem_ofFn]
  rw [show (16 * y + x) / 16 = y by omega, show (16 * y + x) % 16 = x by omega]

/-- A pixel whose colour is known is that colour with the thresholds applied. -/
theorem convertPixel_of_yuv2rgb {m : PixelMath} {raw : Vector Byte 384} {x y : Nat} {r g b : Byte}
    (h : yuv2rgb m (rawY raw y x) (rawCb raw (y / 2) (x / 2)) (rawCr raw (y / 2) (x / 2)) = (r, g, b))
    (th0 th1 : BitVec 9) : convertPixel m raw th0 th1 y x = applyThreshold m r g b th0 th1 := by
  rw [convertPixel, h]

/-- Half of a channel's sum, rounded up and clamped (R292). -/
theorem clamp8_half_toNat (v : Int) :
    ((clamp8 ((v + 1) >>> (1 : Nat))).toNat : Int) = min 255 (max 0 ((v + 1) / 2)) := by
  rw [clamp8_toNat, Int.shiftRight_eq_div_pow]
  omega

/-- The default colour of a pixel as numbers (R292): the fixed-point products are quotients by 64. -/
theorem yuv2rgbDefault_toNat {m : PixelMath} {luma cb cr r g b : Byte} (h : yuv2rgbDefault m luma cb cr = (r, g, b)) :
    let lum := m.yCoeff * max 0 ((luma.toNat : Int) - m.yBias) / 64
    let part (coeff : Int) (c : Byte) : Int := coeff * ((c.toNat : Int) - 128) / 64
    let clamped (v : Int) : Int := min 255 (max 0 ((v + 1) / 2))
    (r.toNat : Int) = clamped (lum + part m.rcrCoeff cr) ∧
      (g.toNat : Int) = clamped (lum + part m.gcrCoeff cr + part m.gcbCoeff cb) ∧
      (b.toNat : Int) = clamped (lum + part m.bcbCoeff cb) := by
  have hdiv (v : Int) : v >>> (6 : Nat) = v / 64 := Int.shiftRight_eq_div_pow v 6
  simp only [yuv2rgbDefault, hdiv, Prod.mk.injEq] at h
  obtain ⟨rfl, rfl, rfl⟩ := h
  exact ⟨clamp8_half_toNat _, clamp8_half_toNat _, clamp8_half_toNat _⟩

/-- A colour below the low threshold becomes the transparent black pixel (R295). -/
theorem applyThresholdDefault_below (m : PixelMath) {r g b : Byte} {th0 : BitVec 9} (th1 : BitVec 9)
    (h : r.toNat < th0.toNat ∧ g.toNat < th0.toNat ∧ b.toNat < th0.toNat) :
    applyThresholdDefault m r g b th0 th1 = ⟨0, 0, 0, 0⟩ := if_pos h

/-- Any other colour is kept, and the high threshold gives its alpha (R295). -/
theorem applyThresholdDefault_kept (m : PixelMath) {r g b : Byte} {th0 : BitVec 9} (th1 : BitVec 9)
    (h : ¬ (r.toNat < th0.toNat ∧ g.toNat < th0.toNat ∧ b.toNat < th0.toNat)) :
    applyThresholdDefault m r g b th0 th1 =
      ⟨r, g, b, if r.toNat < th1.toNat ∧ g.toNat < th1.toNat ∧ b.toNat < th1.toNat then m.alphaHalf
        else m.alphaOpaque⟩ := by
  rw [applyThresholdDefault, if_neg h]
  split <;> rfl

/-! ### The statements -/

/-- Settles O45: `index4Default_firstLeast`, where the table lists no answer. -/
theorem indexIsNearestColour : Obligations.IndexIsNearestColour := by
  unfold Obligations.IndexIsNearestColour
  intro m clut p x y dte e he hunlisted
  have hdefault : index4 m clut p x y dte = index4Default m clut p x y dte := tableAnswer_of_unlisted _ hunlisted
  obtain ⟨-, hleast, hfirst⟩ := index4Default_firstLeast m clut p x y dte
  rw [hdefault]
  exact ⟨hleast e he, hfirst e⟩

/-- Settles O47: the pixel is `applyThreshold` of the colour, and each of the two functions answers as its table lists,
else by its default. -/
theorem eachPixelIsConverted : Obligations.EachPixelIsConverted := by
  unfold Obligations.EachPixelIsConverted
  intro m raw th0 th1 x y r g b hx hy hcolour p q
  have hp : p = applyThreshold m r g b th0 th1 :=
    (flatPixel_convertMacroblock m raw th0 th1 hx hy).trans (convertPixel_of_yuv2rgb hcolour th0 th1)
  refine ⟨fun c h => ?_, fun h => ?_, fun v h => ?_, fun h => ?_⟩
  · exact hcolour.symm.trans (tableAnswer_of_answers _ h)
  · exact yuv2rgbDefault_toNat ((tableAnswer_of_unlisted _ h).symm.trans hcolour)
  · exact hp.trans (tableAnswer_of_answers _ h)
  · have hdefault : p = applyThresholdDefault m r g b th0 th1 := hp.trans (tableAnswer_of_unlisted _ h)
    exact ⟨fun hbelow => hdefault.trans (applyThresholdDefault_below m th1 hbelow),
      fun hkept => hdefault.trans (applyThresholdDefault_kept m th1 hkept)⟩

end Sys2Proof.Machine
end

section
/-! SUPPORT. Register writes but those of `CMD`, and persistence (`45_host_register_interface.md` R326 to R332, R340 to
R342). -/

namespace Sys2Proof.Machine

/-! ### Writes -/

/-- All that the masked update does (R326): a bit of the mask is the value's, every other bit stays. -/
theorem getLsbD_maskedCtrl (c v : Word) {i : Nat} (hi : i < 32) :
    (maskedCtrl c v).getLsbD i = if ctrlWmask.getLsbD i then v.getLsbD i else c.getLsbD i := by
  simp only [maskedCtrl, BitVec.getLsbD_or, BitVec.getLsbD_and, BitVec.getLsbD_not, hi, decide_true, Bool.true_and]
  cases ctrlWmask.getLsbD i <;> simp

/-- Without bit 30 the write is the masked update (R326). -/
theorem writeCtrl_of_not_reset {v : Word} (s : State) (h : v.getLsbD 30 = false) :
    writeCtrl v s = s.setCtrl (maskedCtrl s.unit.ctrl v) :=
  if_neg (ne_true_of_eq_false h)

/-- With bit 30 a soft reset follows the masked update (R327). -/
theorem writeCtrl_of_reset {v : Word} (s : State) (h : v.getLsbD 30 = true) :
    writeCtrl v s = softReset (s.setCtrl (maskedCtrl s.unit.ctrl v)) :=
  if_pos h

/-- A write of `CTRL` answers nothing (R326). -/
theorem regWrite32_ctrl (v : Word) (s : State) : regWrite32 0x10 v s = .next ((writeCtrl v s).setResult .none) := rfl

/-- A write at an offset that is neither `CMD` nor `CTRL` is ignored (R329, R331, R332). -/
theorem regWrite32_ignored {off : Nat} (v : Word) (s : State) (h0 : off ≠ 0x00) (h1 : off ≠ 0x10) :
    regWrite32 off v s = .next (s.setResult .none) := by
  rw [regWrite32, if_neg h0, if_neg h1]

/-! ### Persistence -/

/-- The unit can persist exactly when neither a command nor a transfer is in flight (R340). -/
theorem canPersist_iff (s : State) :
    canPersist s = true ↔
      s.unit.cmd.busy = false ∧ s.unit.dmaTo.inProgress = false ∧ s.unit.dmaFrom.inProgress = false := by
  simp only [canPersist, Bool.and_eq_true, Bool.not_eq_true', and_assoc]

/-! ### The statements -/

/-- Settles O38: `regWrite32_ignored`; the two widths of a write are one operation. -/
theorem otherRegisterWritesAreIgnored : Obligations.OtherRegisterWritesAreIgnored := by
  unfold Obligations.OtherRegisterWritesAreIgnored
  intro off v x rest s
  refine ⟨fun h0 h1 hc => ?ignored, fun hc => ?wide⟩
  case ignored =>
    rw [step_of_calls hc]
    exact regWrite32_ignored v _ h0 h1
  case wide =>
    rw [step_of_calls hc]
    rfl

/-- Settles O41: `canPersist_iff` decides the save, equality of the configurations the restore. -/
theorem savedImageRestores : Obligations.SavedImageRestores := by
  unfold Obligations.SavedImageRestores
  intro s t
  refine ⟨fun hcmd hto hfrom => ?saved, fun hflight => ?notSaved, fun hcfg => ?restored, fun hcfg => ?notRestored⟩
  case saved => exact if_pos ((canPersist_iff s).2 ⟨hcmd, hto, hfrom⟩)
  case notSaved =>
    refine if_neg fun hpersist => ?_
    obtain ⟨hcmd, hto, hfrom⟩ := (canPersist_iff s).1 hpersist
    simp [hcmd, hto, hfrom] at hflight
  case restored => exact if_pos hcfg.symm
  case notRestored => exact if_neg (Ne.symm hcfg)

/-- Settles O34: the masked word by `getLsbD_maskedCtrl`; bit 30 of the value says whether the soft reset follows. -/
theorem controlWriteIsMasked : Obligations.ControlWriteIsMasked := by
  unfold Obligations.ControlWriteIsMasked
  intro v rest s hc
  have hstep : step s = .next ((writeCtrl v (s.setCalls rest)).setResult .none) := by
    rw [step_of_calls hc]
    exact regWrite32_ctrl v _
  refine ⟨maskedCtrl s.unit.ctrl v, fun i hi => getLsbD_maskedCtrl _ v hi, fun hbit => ?update, fun hbit => ?reset⟩
  case update =>
    rw [hstep, writeCtrl_of_not_reset _ hbit]
    rfl
  case reset =>
    rw [hstep, writeCtrl_of_reset _ hbit]
    rfl

end Sys2Proof.Machine
end

section
/-! SUPPORT. The expiring slots of a `tick` (`60_exceptions.md` R363). -/

namespace Sys2Proof.Machine

/-! ### The order of emission -/

/-- The order of R363: the earlier expiry first, ties in the order TO, FROM, CMD. -/
def DueBefore (a b : IrqSrc × Nat) : Prop := a.2 < b.2 ∨ a.2 = b.2 ∧ irqRank a.1 < irqRank b.1

theorem DueBefore.expiry_le {a b : IrqSrc × Nat} (h : DueBefore a b) : a.2 ≤ b.2 :=
  h.elim le_of_lt fun ⟨heq, _⟩ => heq.le

/-- A source of lower rank that expires no later comes first. -/
theorem dueBefore_of_le {a b : IrqSrc × Nat} (hle : a.2 ≤ b.2) (hrank : irqRank a.1 < irqRank b.1) : DueBefore a b :=
  hle.lt_or_eq.imp_right fun heq => ⟨heq, hrank⟩

/-- `insertDue` is the library's ordered insertion by expiry. -/
theorem insertDue_eq_orderedInsert (x : IrqSrc × Nat) (l : List (IrqSrc × Nat)) :
    insertDue x l = l.orderedInsert (fun a b => a.2 ≤ b.2) x := by
  induction l with
  | nil => rfl
  | cons y ys ih => rw [insertDue, List.orderedInsert_cons, ih]

theorem insertDue_perm (x : IrqSrc × Nat) (l : List (IrqSrc × Nat)) : (insertDue x l).Perm (x :: l) :=
  insertDue_eq_orderedInsert x l ▸ List.perm_orderedInsert _ x l

/-- Inserting a slot whose source ranks before all those listed keeps the order: among equal expiries it goes first. -/
theorem insertDue_pairwise {x : IrqSrc × Nat} {l : List (IrqSrc × Nat)} (hl : l.Pairwise DueBefore)
    (hx : ∀ y ∈ l, irqRank x.1 < irqRank y.1) : (insertDue x l).Pairwise DueBefore := by
  induction l with
  | nil => exact List.pairwise_singleton _ _
  | cons y ys ih =>
    obtain ⟨hy, hys⟩ := List.pairwise_cons.1 hl
    rw [insertDue]
    split
    next hle =>
      refine List.pairwise_cons.2 ⟨fun z hz => dueBefore_of_le ?_ (hx z hz), hl⟩
      obtain rfl | hz := List.mem_cons.1 hz
      · exact hle
      · exact hle.trans (hy z hz).expiry_le
    next hlt =>
      refine List.pairwise_cons.2 ⟨fun z hz => ?_, ih hys fun z hz => hx z (List.mem_cons_of_mem y hz)⟩
      obtain rfl | hz := List.mem_cons.1 ((insertDue_perm x ys).mem_iff.1 hz)
      · exact .inl (Nat.lt_of_not_le hlt)
      · exact hy z hz

theorem foldr_insertDue_perm (l : List (IrqSrc × Nat)) : (l.foldr insertDue []).Perm l := by
  induction l with
  | nil => exact .nil
  | cons x xs ih => exact (insertDue_perm x _).trans (ih.cons x)

/-- Slots listed by rank are sorted into the order of R363. -/
theorem foldr_insertDue_pairwise {l : List (IrqSrc × Nat)} (hl : l.Pairwise fun a b => irqRank a.1 < irqRank b.1) :
    (l.foldr insertDue []).Pairwise DueBefore := by
  induction hl with
  | nil => exact .nil
  | @cons x xs hx _ ih => exact insertDue_pairwise ih fun y hy => hx y ((foldr_insertDue_perm xs).mem_iff.1 hy)

/-! ### The expiring slots -/

/-- The sources in the order in which ties are broken (R363). -/
def rankedSources : List IrqSrc := [.toUnit, .fromUnit, .cmd]

theorem mem_rankedSources (src : IrqSrc) : src ∈ rankedSources := by cases src <;> decide

theorem rankedSources_pairwise : rankedSources.Pairwise fun a b => irqRank a < irqRank b := by decide

/-- What `dueList` takes from one source: its slot, where it expires within `n` cycles. -/
def expiringSlot (p : Pend) (n : Nat) (src : IrqSrc) : Option (IrqSrc × Nat) :=
  match pendOf p src with
  | some c => if c ≤ n then some (src, c) else none
  | none => none

theorem expiringSlot_eq_some {p : Pend} {n : Nat} {src : IrqSrc} {x : IrqSrc × Nat} :
    expiringSlot p n src = some x ↔ src = x.1 ∧ pendOf p x.1 = some x.2 ∧ x.2 ≤ n := by
  obtain ⟨other, c⟩ := x
  unfold expiringSlot
  constructor
  · intro h
    split at h
    next d hd =>
      split at h <;> cases h
      exact ⟨rfl, hd, ‹_›⟩
    next => cases h
  · rintro ⟨rfl, hslot, hle⟩
    simp only [hslot, if_pos hle]

theorem dueList_eq_foldr (p : Pend) (n : Nat) :
    dueList p n = (rankedSources.filterMap (expiringSlot p n)).foldr insertDue [] := rfl

/-- The due list holds exactly the slots that expire within `n` cycles. -/
theorem mem_dueList {p : Pend} {n : Nat} {src : IrqSrc} {c : Nat} :
    (src, c) ∈ dueList p n ↔ pendOf p src = some c ∧ c ≤ n := by
  rw [dueList_eq_foldr, (foldr_insertDue_perm _).mem_iff, List.mem_filterMap]
  constructor
  · rintro ⟨other, -, h⟩
    exact (expiringSlot_eq_some.1 h).2
  · exact fun h => ⟨src, mem_rankedSources src, expiringSlot_eq_some.2 ⟨rfl, h⟩⟩

/-- The due list is in the order of R363, since the sources are asked by rank. -/
theorem dueList_pairwise (p : Pend) (n : Nat) : (dueList p n).Pairwise DueBefore := by
  refine foldr_insertDue_pairwise (rankedSources_pairwise.filterMap _ ?_)
  intro a b hab x hx y hy
  obtain ⟨rfl, -⟩ := expiringSlot_eq_some.1 hx
  obtain ⟨rfl, -⟩ := expiringSlot_eq_some.1 hy
  exact hab

/-! ### The statement -/

theorem tickBy_irqTrace (n : Nat) (s : State) :
    (tickBy n s).irqTrace = s.irqTrace ++ (dueList s.unit.pend n).map Prod.fst := rfl

/-- The frame of `tick`: only the trace and the slots change. -/
theorem tickBy_frame (n : Nat) (s : State) :
    tickBy n s = { s with
      irqTrace := (tickBy n s).irqTrace, unit := { s.unit with pend := (tickBy n s).unit.pend } } := rfl

/-- Settles O40 with `dueList`: its members by `mem_dueList`, its order by `dueList_pairwise`. -/
theorem tickEmitsDueInOrder : Obligations.TickEmitsDueInOrder := by
  unfold Obligations.TickEmitsDueInOrder
  intro n s
  exact ⟨dueList s.unit.pend n, tickBy_irqTrace n s, fun src c => mem_dueList, dueList_pairwise _ n,
    pendOf_tickBy n s, tickBy_frame n s⟩

end Sys2Proof.Machine
end

section
/-! SUPPORT. The two resets (`70_reset_and_hazards.md` R390, R392). -/

namespace Sys2Proof.Machine

/-! ### Soft reset (R392) -/

/-- A field that reads 0 has no bit set. -/
theorem getLsbD_of_getField_eq_zero {lo w i : Nat} {c : Word} (h : getField lo w c = 0) (hlo : lo ≤ i)
    (hhi : i < lo + w) : c.getLsbD i = false := by
  have hbit : (getField lo w c).getLsbD (i - lo) = false := by rw [h]; exact BitVec.getLsbD_zero
  rwa [getField, BitVec.getLsbD_extractLsb', decide_eq_true (show i - lo < w by omega), Bool.true_and,
    Nat.add_sub_cancel' hlo] at hbit

/-- All that a soft reset does to `ctrl`: the counters and BUSY become 0, every other bit stays. -/
theorem getLsbD_softReset_ctrl (s : State) (i : Nat) :
    (softReset s).unit.ctrl.getLsbD i = if i < 8 ∨ i = 31 then false else s.unit.ctrl.getLsbD i := by
  obtain ⟨hifc, hofc, hupper⟩ := fifoClear_ctrl (clearCommand s)
  have hbusy : ctrlBUSY (fifoClear (clearCommand s)).unit.ctrl = false :=
    (hupper 31 (by decide)).trans (ctrlBUSY_putBUSY false s.unit.ctrl)
  show (fifoClear (clearCommand s)).unit.ctrl.getLsbD i = _
  split
  next hcleared =>
    obtain hin | ⟨hlo, hhi⟩ | rfl : i < 4 ∨ 4 ≤ i ∧ i < 8 ∨ i = 31 := by omega
    · exact getLsbD_of_getField_eq_zero hifc (Nat.zero_le i) hin
    · exact getLsbD_of_getField_eq_zero hofc hlo hhi
    · exact hbusy
  next hkept => exact cleared_ctrlKept 0 s i (by omega)

/-- Where `IFC` is 0, a cursor reset at position 0 gives `Cursor.reset`: the snapshot is 0 too (R149). -/
theorem cursorReset_of_ifc_eq_zero {s : State} (h : s.ifc = 0) : cursorReset 0 s = s.setCur Cursor.reset := by
  rw [cursorReset, h]
  rfl

/-- A soft reset changes nothing but the progress state. -/
theorem softReset_eq (s : State) :
    softReset s = { s with unit := { s.unit with
      ctrl := (softReset s).unit.ctrl, cmd := Command.idle, lib := none, fifoIn := [], fifoOut := []
      stall := ⟨false, false, false⟩, cur := Cursor.reset, dmaTo := Transfer.reset, dmaFrom := Transfer.reset } } := by
  obtain ⟨hifc, -, -⟩ := fifoClear_ctrl (clearCommand s)
  rw [softReset, cursorReset_of_ifc_eq_zero hifc]
  rfl

/-! ### Hard reset (R390) -/

/-- A vector of one value reads as that value, also past its end where it is the default. -/
theorem vec_replicate_getD {α : Type} (n k : Nat) (x : α) : (Vector.replicate n x).getD k x = x := by
  obtain h | h := Nat.lt_or_ge k n
  · rw [vec_getD_eq _ _ _ h, Vector.getElem_replicate]
  · exact dif_neg (by simpa using h)

/-- The tables after hard reset hold 0. -/
theorem reset_tables (k : Nat) :
    UnitState.reset.iqIntra.getD k 0 = 0 ∧ UnitState.reset.iqNonIntra.getD k 0 = 0 ∧
      UnitState.reset.vqclut.getD k 0 = 0 :=
  ⟨vec_replicate_getD 64 k 0, vec_replicate_getD 64 k 0, vec_replicate_getD 16 k 0⟩

/-- The macroblock after hard reset holds 0, raw and converted. -/
theorem reset_macroblock (k : Nat) :
    UnitState.reset.mb.raw.getD k 0 = 0 ∧ flatPixel UnitState.reset.mb.rgb32 k = ⟨0, 0, 0, 0⟩ := by
  rw [flatPixel]
  exact ⟨vec_replicate_getD 384 k 0, vec_replicate_getD 256 k (⟨0, 0, 0, 0⟩ : Pixel)⟩

/-! ### The statements -/

/-- Settles O35: `softReset_eq` says what is cleared and what stays, `getLsbD_softReset_ctrl` bit by bit of `ctrl`. -/
theorem softResetClearsProgress : Obligations.SoftResetClearsProgress := by
  unfold Obligations.SoftResetClearsProgress
  intro rest s hc
  refine ⟨(softReset (s.setCalls rest)).setResult .none, step_of_calls hc,
    fun i _ => getLsbD_softReset_ctrl (s.setCalls rest) i, ?_⟩
  conv_lhs => rw [softReset_eq]
  rfl

/-- Settles O39: the unit after is `UnitState.reset`, whose vectors read 0 by `reset_tables` and `reset_macroblock`;
every other field is the reset value as written. -/
theorem hardResetLeavesResetValues : Obligations.HardResetLeavesResetValues := by
  unfold Obligations.HardResetLeavesResetValues
  intro rest s hc
  refine ⟨(hardReset (s.setCalls rest)).setResult .none, step_of_calls hc, rfl, rfl, rfl, rfl, rfl, rfl, rfl, rfl, rfl,
    rfl, rfl, rfl, rfl, rfl, rfl, rfl, rfl, rfl, fun k => vec_replicate_getD 2 k 0, fun d hd => ?transfer,
    reset_tables, rfl, rfl, reset_macroblock, rfl⟩
  case transfer =>
    have hreset : d = Transfer.reset := hd.elim id id
    subst hreset
    exact ⟨rfl, rfl, rfl, rfl, rfl, rfl, rfl, rfl, rfl, rfl⟩

end Sys2Proof.Machine
end
